-- ==== Sys2Proof/Word.lean ====
section
/-! DEFINITION. The word types of the block: R6, R7 and R9 of spec/00_scope.md. -/

namespace Sys2Proof

/-- A 64-bit value: an operand, a result, an address, a descriptor, a flags word (R9, R20). -/
abbrev Word := BitVec 64

/-- One byte of physical memory (R36). -/
abbrev Byte := BitVec 8

/-- A 4 KiB physical frame, named by bits [47:12] of its address (R7: the output-address field is 36 bits). -/
abbrev Frame := BitVec 36

/-- A 48-bit physical address (R7, R27). -/
abbrev PhysAddr := BitVec 48

/-- `PAGE_SIZE` of R6, in bytes. -/
abbrev pageSize : Nat := 4096

/-- `2^48`, the size of the physical address space (R7, R36). -/
abbrev physSize : Nat := 281474976710656

end Sys2Proof
end

