-- ==== Sys2Proof/Config.lean ====
section
/-! DEFINITION. The implementation parameters of R8 (spec/00_scope.md) as plain data, so that a statement about every
state holds for every parameter value; and the register views that only the constraints on the parameters use. -/

namespace Sys2Proof

/-- The six system registers of the core the block reads and writes (R28). -/
inductive SysReg where
  | mair | tcr | ttbr0 | ttbr1 | sctlr | vbar
deriving DecidableEq, Repr

/-- One row of `legalize` (R29): what a system register holds after a write. A register's finite domain makes every
total function a finite list of such rows (notes/assumptions/12). -/
inductive LegalizeRow where
  /-- Writing exactly `written` leaves `held` in the register. -/
  | value (reg : SysReg) (written held : Word)
  /-- The bits outside `keep` read as zero, the bits of `ones` read as one. -/
  | mask (reg : SysReg) (keep ones : Word)
deriving DecidableEq, Repr

/-- The parameters of R8. `epd0Mask` and `epd1Mask` say where the fields `epd0` and `epd1` of R32 lie in TCR, as
`M_MASK` does for the enable bit of SCTLR (notes/assumptions/17). -/
structure Params where
  /-- `KERNEL_OFFSET`: kernel VA = physical + offset. -/
  kernelOffset : Word
  /-- `TRAMP_START`, the first address of the trampoline. -/
  trampStart : Word
  /-- `TRAMP_END`, the first address after it. -/
  trampEnd : Word
  /-- `VEC_PHYS`, the vector table's fixed physical location. -/
  vecPhys : Word
  /-- `VEC_SIZE`, the bytes of the vector table that are copied. -/
  vecSize : Word
  /-- `MAIR_VALUE`. -/
  mairValue : Word
  /-- `TCR_DUAL_VALUE`. -/
  tcrDualValue : Word
  /-- `TCR_KONLY_VALUE`. -/
  tcrKonlyValue : Word
  /-- `M_MASK`, the translation-enable bit of SCTLR. -/
  mMask : Word
  /-- The bit of TCR that is `epd0` (R32). -/
  epd0Mask : Word
  /-- The bit of TCR that is `epd1` (R32). -/
  epd1Mask : Word
  /-- `legalize`: the first row that applies decides; with none the register holds what was written. -/
  legalizeRows : List LegalizeRow
  /-- `REGISTRY_CAPACITY`. -/
  registryCapacity : Nat
  /-- `DEBUG_HALT_ON_ALIGNMENT`. -/
  debugHaltOnAlignment : Bool
deriving DecidableEq, Repr

/-- The column "example" of R8, with the EPD bits of U2. DESIGN CHOICE, unsafe: notes/assumptions/11. -/
def Params.exampleValues : Params where
  kernelOffset := 0xFFFF000000000000#64
  trampStart := 0x40080000#64
  trampEnd := 0x40081000#64
  vecPhys := 0x40082000#64
  vecSize := 2048#64
  mairValue := 0x000000000C44FF00#64
  tcrDualValue := 0x00000005B5103510#64
  tcrKonlyValue := 0x00000005B5103590#64
  mMask := 0x1#64
  epd0Mask := 0x80#64
  epd1Mask := 0x800000#64
  legalizeRows := []
  registryCapacity := 64
  debugHaltOnAlignment := false

/-- The memory-attribute kinds of R31, and `Unknown` of R30. -/
inductive MemKind where
  | deviceStronglyOrdered | normalCacheable | normalNonCacheable | deviceGathering | unknown
deriving DecidableEq, Repr

/-- `mair_attr(v, i)` of R30. PRESUMED (U1), unsafe: the slots and byte codes are the architecture's
(notes/assumptions/17). -/
def mairKind (v : Word) (i : Nat) : MemKind :=
  let slot := v.extractLsb' (8 * i) 8
  if slot = 0x00#8 then .deviceStronglyOrdered
  else if slot = 0xFF#8 then .normalCacheable
  else if slot = 0x44#8 then .normalNonCacheable
  else if slot = 0x0C#8 then .deviceGathering
  else .unknown

/-- The kind an attribute index selects (R31, R86); indices 4 to 7 are reserved (R97). -/
def attrKind (i : Nat) : MemKind :=
  match i with
  | 0 => .deviceStronglyOrdered
  | 1 => .normalCacheable
  | 2 => .normalNonCacheable
  | 3 => .deviceGathering
  | _ => .unknown

/-- `va_bits0(v)` of R32: 64 minus T0SZ. PRESUMED (U2): notes/assumptions/17. -/
def vaBits0 (v : Word) : Nat := 64 - (v.extractLsb' 0 6).toNat

/-- `va_bits1(v)` of R32: 64 minus T1SZ. PRESUMED (U2): notes/assumptions/17. -/
def vaBits1 (v : Word) : Nat := 64 - (v.extractLsb' 16 6).toNat

/-- Whether `granule0(v)` of R32 is 4 KiB: TG0 = 00. PRESUMED (U2): notes/assumptions/17. -/
def granule0Is4K (v : Word) : Bool := v.extractLsb' 14 2 == 0#2

/-- Whether `granule1(v)` of R32 is 4 KiB: TG1 = 10. PRESUMED (U2): notes/assumptions/17. -/
def granule1Is4K (v : Word) : Bool := v.extractLsb' 30 2 == 2#2

end Sys2Proof
end

