-- ==== Sys2Proof/Syntax.lean ====
section
/-! DEFINITION. The operations of the block: the rows of spec/opcode_table.json (R88, R90 of spec/30_encoding.md).
An operation carries no operand: its operands are the registers A0 to A5 (R88, R98). -/

namespace Sys2Proof

/-- One constructor per row of the opcode map R90, in its order. -/
inductive Instr where
  | pteEncLeaf            -- 0x01 PTE_ENC_LEAF, R101
  | pteEncTable           -- 0x02 PTE_ENC_TABLE, R102
  | pteDec                -- 0x03 PTE_DEC, R103
  | pteSummary            -- 0x04 PTE_SUMMARY, R104
  | createTable           -- 0x10 CREATE_TABLE, R111
  | mapPage               -- 0x11 MAP_PAGE, R112
  | mapRange              -- 0x12 MAP_RANGE, R113
  | walk                  -- 0x13 WALK, R114
  | newPair               -- 0x14 NEW_PAIR, R115
  | baseOf                -- 0x15 BASE_OF, R116
  | getKernelRoot         -- 0x16 GET_KERNEL_ROOT, R117
  | translate             -- 0x17 TRANSLATE, R118
  | register              -- 0x20 REGISTER, R131
  | audit                 -- 0x21 AUDIT, R132
  | walkAndReport         -- 0x22 WALK_AND_REPORT, R133
  | registerRegion        -- 0x23 REGISTER_REGION, R134
  | fsmMair               -- 0x30 FSM_MAIR, R141
  | fsmTcrDual            -- 0x31 FSM_TCR_DUAL, R142
  | fsmBases              -- 0x32 FSM_BASES, R143
  | fsmTlbClean           -- 0x33 FSM_TLB_CLEAN, R144
  | fsmEnable             -- 0x34 FSM_ENABLE, R145
  | fsmMigrate            -- 0x35 FSM_MIGRATE, R146
  | fsmTcrKernel          -- 0x36 FSM_TCR_KERNEL, R147
  | fsmFinish             -- 0x37 FSM_FINISH, R148
  | vecInstall            -- 0x38 VEC_INSTALL, R151
  | vecRelocate           -- 0x39 VEC_RELOCATE, R152
  | isTranslationEnabled  -- 0x3A IS_TRANSLATION_ENABLED, R153
  | setPc                 -- 0x3B SET_PC, R154
  | tlbiLocalAll          -- 0x40 TLBI_LOCAL_ALL, R174
deriving DecidableEq, Repr

end Sys2Proof
end

