-- ==== Sys2Proof/WellFormed.lean ====
section
/-! DEFINITION. Well-formedness: of an operation (R88, R98: it has no field, so nothing can be wrong with one) and of
the parameters (the constraints of R8 and R120, one named check each). The well-formedness of a flags word (R83) is a
run-time check of the operations and stands in Machine/Operands.lean. -/

namespace Sys2Proof

/-- Every operation of the table is well formed: the format CMD has the opcode and no other field (R88, R98). -/
def Instr.wellFormed (_ : Instr) : Bool := true

/-- The bits of `v` are exactly one. -/
def oneBit (v : Word) : Bool := v != 0#64 && (v &&& (v - 1#64)) == 0#64

/-- `KERNEL_OFFSET`: bits [63:48] all ones, bits [11:0] zero (R8). -/
def Params.offsetOk (p : Params) : Bool :=
  p.kernelOffset.extractLsb' 48 16 == 0xFFFF#16 && p.kernelOffset.extractLsb' 0 12 == 0#12

/-- The trampoline: page aligned, start below end, a physical range (R8). -/
def Params.trampOk (p : Params) : Bool :=
  p.trampStart.extractLsb' 0 12 == 0#12 && p.trampEnd.extractLsb' 0 12 == 0#12 &&
    decide (p.trampStart.toNat < p.trampEnd.toNat) && decide (p.trampEnd.toNat ≤ physSize)

/-- The vector table: page aligned, physical, its size a multiple of 8 and at most 4096 (R8, D28). -/
def Params.vecOk (p : Params) : Bool :=
  p.vecPhys.extractLsb' 0 12 == 0#12 && decide (p.vecPhys.toNat < physSize) &&
    p.vecSize.extractLsb' 0 3 == 0#3 && decide (p.vecSize.toNat ≤ pageSize)

/-- The kernel alias of every trampoline and vector-table address does not wrap and is high-canonical (R120). -/
def Params.aliasOk (p : Params) : Bool :=
  decide ((p.kernelOffset.extractLsb' 0 48).toNat + p.trampEnd.toNat ≤ physSize) &&
    decide ((p.kernelOffset.extractLsb' 0 48).toNat + p.vecPhys.toNat + pageSize ≤ physSize)

/-- `MAIR_VALUE`: slots 0 to 3 hold the four kinds of R31 (R8, R30). -/
def Params.mairOk (p : Params) : Bool :=
  [0, 1, 2, 3].all fun i => mairKind p.mairValue i == attrKind i

/-- The masks of `M`, `epd0` and `epd1`: one bit each, the two of TCR distinct (R8, R32). -/
def Params.masksOk (p : Params) : Bool :=
  oneBit p.mMask && oneBit p.epd0Mask && oneBit p.epd1Mask && p.epd0Mask != p.epd1Mask

/-- `TCR_DUAL_VALUE`: `epd0 = 0`, `epd1 = 0`, 48-bit VA in each half, 4 KiB granule (R8). -/
def Params.tcrDualOk (p : Params) : Bool :=
  (p.tcrDualValue &&& p.epd0Mask) == 0#64 && (p.tcrDualValue &&& p.epd1Mask) == 0#64 &&
    vaBits0 p.tcrDualValue == 48 && vaBits1 p.tcrDualValue == 48 &&
    granule0Is4K p.tcrDualValue && granule1Is4K p.tcrDualValue

/-- `TCR_KONLY_VALUE` is `TCR_DUAL_VALUE` with `epd0 = 1` (R8). -/
def Params.tcrKonlyOk (p : Params) : Bool := p.tcrKonlyValue == (p.tcrDualValue ||| p.epd0Mask)

/-- `REGISTRY_CAPACITY` is at least 1 (R8). -/
def Params.capacityOk (p : Params) : Bool := decide (1 ≤ p.registryCapacity)

/-- Every constraint of R8 and R120 on the parameters. -/
def Params.wellFormed (p : Params) : Bool :=
  p.offsetOk && p.trampOk && p.vecOk && p.aliasOk && p.mairOk && p.masksOk && p.tcrDualOk && p.tcrKonlyOk && p.capacityOk

end Sys2Proof
end

