-- ==== Sys2Proof/Decode.lean ====
section
/-! DEFINITION. Decoding and encoding of the one format CMD (R88, R90, R96 of spec/30_encoding.md): one byte, the
opcode. -/

namespace Sys2Proof

/-- The opcode map R90, row by row. -/
def opcodeTable : List (Byte × Instr) :=
  [(0x01#8, .pteEncLeaf), (0x02#8, .pteEncTable), (0x03#8, .pteDec), (0x04#8, .pteSummary),
   (0x10#8, .createTable), (0x11#8, .mapPage), (0x12#8, .mapRange), (0x13#8, .walk),
   (0x14#8, .newPair), (0x15#8, .baseOf), (0x16#8, .getKernelRoot), (0x17#8, .translate),
   (0x20#8, .register), (0x21#8, .audit), (0x22#8, .walkAndReport), (0x23#8, .registerRegion),
   (0x30#8, .fsmMair), (0x31#8, .fsmTcrDual), (0x32#8, .fsmBases), (0x33#8, .fsmTlbClean),
   (0x34#8, .fsmEnable), (0x35#8, .fsmMigrate), (0x36#8, .fsmTcrKernel), (0x37#8, .fsmFinish),
   (0x38#8, .vecInstall), (0x39#8, .vecRelocate), (0x3A#8, .isTranslationEnabled), (0x3B#8, .setPc),
   (0x40#8, .tlbiLocalAll)]

/-- Why bytes are no operation. -/
inductive DecodeError where
  /-- The opcode is not in the table of R90 (R96). -/
  | reservedOpcode (op : Byte)
  /-- There is no byte to decode. -/
  | noByte
deriving DecidableEq, Repr

/-- The operation an opcode selects: look it up with mask 0xFF (R90). -/
def decodeOpcode (op : Byte) : Option Instr :=
  (opcodeTable.find? fun row => row.1 == op).map Prod.snd

/-- The operation at the head of `bytes`, and the bytes after it; a reserved opcode is rejected by name (R96). -/
def decode : List Byte → Except DecodeError (Instr × List Byte)
  | [] => .error .noByte
  | op :: rest =>
    match decodeOpcode op with
    | some i => .ok (i, rest)
    | none => .error (.reservedOpcode op)

/-- The opcode of an operation: the column `op` of R90. -/
def opcodeOf : Instr → Byte
  | .pteEncLeaf => 0x01#8
  | .pteEncTable => 0x02#8
  | .pteDec => 0x03#8
  | .pteSummary => 0x04#8
  | .createTable => 0x10#8
  | .mapPage => 0x11#8
  | .mapRange => 0x12#8
  | .walk => 0x13#8
  | .newPair => 0x14#8
  | .baseOf => 0x15#8
  | .getKernelRoot => 0x16#8
  | .translate => 0x17#8
  | .register => 0x20#8
  | .audit => 0x21#8
  | .walkAndReport => 0x22#8
  | .registerRegion => 0x23#8
  | .fsmMair => 0x30#8
  | .fsmTcrDual => 0x31#8
  | .fsmBases => 0x32#8
  | .fsmTlbClean => 0x33#8
  | .fsmEnable => 0x34#8
  | .fsmMigrate => 0x35#8
  | .fsmTcrKernel => 0x36#8
  | .fsmFinish => 0x37#8
  | .vecInstall => 0x38#8
  | .vecRelocate => 0x39#8
  | .isTranslationEnabled => 0x3A#8
  | .setPc => 0x3B#8
  | .tlbiLocalAll => 0x40#8

/-- The bytes of an operation: its opcode (R88, R98). -/
def encode (i : Instr) : List Byte := [opcodeOf i]

/-- The whole bytes of `w`, `n` of them, byte 0 (bits 7 to 0) first. -/
def bytesOf : Nat → Nat → List Byte
  | 0, _ => []
  | n + 1, w => BitVec.ofNat 8 w :: bytesOf n (w / 256)

/-- The operation the decoder reads from an instruction of `nbits` bits with value `w` (spec/opcode_table.json's
numbering); one operation is one byte and nothing else (R98). -/
def decodeTableWord (nbits w : Nat) : Option Instr :=
  match decode (bytesOf (nbits / 8) w) with
  | .ok (i, []) => some i
  | .ok (_, _ :: _) => none
  | .error _ => none

end Sys2Proof
end

