-- ==== Sys2Proof/Machine/State.lean ====
section
/-! DEFINITION. The state of the block and of what surrounds it, as plain data (spec/10_state.md), and the state after
reset (R46). -/

namespace Sys2Proof.Machine

/-- Why a step stops the run. -/
inductive Fault where
  /-- The `TranslationFault-equivalent` of R63 and R184: translation is on and the core's fetch, or an access of its own,
  escapes every mapping that allows it. Raised by the step's check of the core's fetch and by an access of the core,
  never by an operation. Safe: the spec makes it the outcome of the run (R12, B17). -/
  | translationFault
  /-- The operation never completes: an invalidation or barrier of inner-shareable scope (R175). Raised by `tlbi` and
  `barrier` with that scope, which no operation uses. Safe: the spec says stuck. -/
  | stuck
  /-- A `MemRead` or `MemWrite` whose address is not 8-byte aligned or not below 2^48: the assertion of R50. Raised by
  VEC_INSTALL's copy, and only for parameters that break R8 (a `VEC_PHYS` that is not page aligned or whose table leaves
  the physical address space). Safe: R50 says that no reachable state violates it (notes/assumptions/24). -/
  | physicalAccess
deriving DecidableEq, Repr

/-- Why a step has no meaning. -/
inductive Refusal where
  /-- The instruction has no meaning in the model yet. Raised by an arm of `exec` that has none; no arm is left so.
  Safe. -/
  | notModelled (mnemonic : String)
deriving DecidableEq, Repr

/-- TransitionState (R23): the nine states of the source in their order, and HALTED. -/
inductive TransState where
  | init | mairProgrammed | tcrBootstrapDual | basesLoaded | tlbClean | translationOn | pcMigrated | tcrKernelOnly
  | steady | halted
deriving DecidableEq, Repr

/-- STATUS codes by name (R92). -/
inductive Status where
  | ok | allocationExhausted | alignmentError | overlapConflict | registerVerificationFailed | translationFault
  | illegalCommand | badOperand | malformedDescriptor | registryFull
deriving DecidableEq, Repr

/-- `fail_info` codes by name (R94). -/
inductive FailInfo where
  | none | mairReadback | tcrDualReadback | ttbr0Readback | ttbr1Readback | sctlrReadback | pcNotMigrated
  | tcrKernelReadback | vbarPhysReadback | vbarVirtReadback | auditConflicts | trampolineNotDualMapped
  | vectorNotInstalled | interruptsNotMasked | pcNotInTrampoline | prematureNarrowing | vectorNotRelocated
  | vectorCopyMismatch | allocatorExhausted | alignment
deriving DecidableEq, Repr

/-- The two address spaces (R27, R95): space 0 is identity (TTBR0), space 1 is kernel (TTBR1). -/
inductive Space where
  | identity | kernel
deriving DecidableEq, Repr

/-- The operand registers (R20). -/
structure Operands where
  a0 : Word
  a1 : Word
  a2 : Word
  a3 : Word
  a4 : Word
  a5 : Word
deriving DecidableEq, Repr

/-- The result registers (R20). -/
structure Results where
  r0 : Word
  r1 : Word
  r2 : Word
  r3 : Word
deriving DecidableEq, Repr

/-- The six system registers of the core (R28). -/
structure SysRegs where
  mair : Word
  tcr : Word
  ttbr0 : Word
  ttbr1 : Word
  sctlr : Word
  vbar : Word
deriving DecidableEq, Repr

/-- Physical memory (R36): (address, byte) pairs in one canonical form, see `Memory.wf`. An address not listed reads
as zero. DESIGN CHOICE, unsafe: notes/assumptions/7. -/
abbrev Memory := List Host.Cell

/-- The canonical form of a memory: addresses strictly rising and below 2^48, no byte listed that is zero. -/
def Memory.wf : Memory → Bool
  | [] => true
  | (a, b) :: rest => decide (a < physSize) && b != 0#8 && (rest.all fun c => decide (a < c.1)) && Memory.wf rest

/-- A descriptor write the walker may not see yet (R67): where, and the value it replaced. -/
structure UnseenWrite where
  addr : Nat
  old : Word
deriving DecidableEq, Repr

/-- One TLB entry (R38). -/
structure TlbEntry where
  vaPage : Word
  paPage : Word
  flags : Word
deriving DecidableEq, Repr

/-- A MappingRegion record (R40); the range is half open. -/
structure MappingRegion where
  name : Word
  vstart : Word
  vend : Word
  pstart : Word
  flags : Word
  space : Space
deriving DecidableEq, Repr

/-- The texts the block sends to the console (R104, R132, R133, R140, R151, R189); `Text.spelling` gives the words. -/
inductive Text where
  | pte | invalid | table | leaf | malformed | oa
  | deviceSo | normal | normalNc | deviceG | attrReserved
  | kernelRw | userRw | kernelRo | userRo
  | shNone | shReserved | shOuter | shInner
  | af | noAf | pxn | px | uxn | ux
  | walk | unmapped | pa
  | state | ok | halt | mair | tcr | ttbr0 | ttbr1 | sctlr | vbar | pc | roots | audit
deriving DecidableEq, Repr

/-- One item of the console log (R45): a `ConsoleLine` or a `ConsoleHex`. -/
inductive ConsoleItem where
  | line (t : Text)
  | hex (v : Word)
deriving DecidableEq, Repr

/-- A stretch of the Frame Allocator's answers to come (R44): `count` frames upward from `base`, or one answer
`Exhausted` (notes/assumptions/13). -/
inductive AllocAnswers where
  | frames (base : Frame) (count : Nat)
  | exhausted
deriving DecidableEq, Repr

/-- The values a reset leaves unspecified (R46, R200): whatever the core and the unspecified registers hold after it. -/
structure ResetValues where
  ops : Operands
  res : Results
  pcLow : PhysAddr
  identityRoot : PhysAddr
  kernelRoot : PhysAddr
  sys : SysRegs
  memory : List Host.Cell
  tlb : List TlbEntry
deriving DecidableEq, Repr

/-- Who accesses (R60). -/
inductive Privilege where
  | privileged | unprivileged
deriving DecidableEq, Repr

/-- What an access does (R60). -/
inductive AccessKind where
  | read | write | exec
deriving DecidableEq, Repr

/-- What the environment can do between two operations (R11, R20, R26, R38, R63, R89, R200). -/
inductive Event where
  /-- The host presents this opcode with `cmd_valid` (R89). -/
  | command (op : Byte)
  /-- The host writes operand register A<i> (R20). -/
  | operand (i : Fin 6) (v : Word)
  /-- The host core drives the input `irq_masked` (R26). -/
  | irqMasked (b : Bool)
  /-- The MMU's walker fills the TLB for the page of `va` (R38); `picks` says, level by level, which of the values a
  not yet visible descriptor may show it sees (R67): 0 the newest. -/
  | walkerFill (va : Word) (picks : List Nat)
  /-- The core accesses `va` (R63); `pick` says whether a TLB hit stands in for the walk (R62): 0 the walk, `k + 1` entry
  `k` of those the TLB holds for the page. -/
  | access (va : Word) (p : Privilege) (k : AccessKind) (pick : Nat)
  /-- `rst` is pulsed, the core reset with the block (R200); `v` is what the reset leaves unspecified. -/
  | reset (v : ResetValues)
deriving DecidableEq, Repr

/-- The state of the machine. INVENTORY.md lists each field with its rule. -/
structure State where
  /-- The implementation parameters (R8, R43); no step changes them. -/
  cfg : Params
  /-- The Frame Allocator's answers to come (R44). The model's own. -/
  alloc : List AllocAnswers
  /-- What the environment does next, oldest first. The model's own. -/
  agenda : List Event
  /-- For each step to come, whether TLB hits stand in for the walks of the core's own fetch (R62): number 0 is for `pc`,
  number `n + 1` for page `n` of the trampoline, each read as the `pick` of an access; none left is all walks. The
  model's own. -/
  lookups : List (List Nat)
  /-- A0 to A5 (R20). -/
  ops : Operands
  /-- R0 to R3 (R20). -/
  res : Results
  /-- STATUS (R21). -/
  status : Byte
  /-- The output `rsp_valid` (R89). -/
  rspValid : Bool
  /-- The input `irq_masked` (R26). -/
  irqMasked : Bool
  /-- The observed program counter of the core (R22). -/
  pc : Word
  /-- TransitionState (R23). -/
  state : TransState
  /-- `fail_cause` (R24). -/
  failCause : Byte
  /-- `fail_info` (R24). -/
  failInfo : Byte
  /-- `tcr_programmed` (R25 c). -/
  tcrProgrammed : Bool
  /-- `vec_phys_done` (R25 d). -/
  vecPhysDone : Bool
  /-- `vec_virt_done` (R25 d). -/
  vecVirtDone : Bool
  /-- `roots_valid` (R25 e). -/
  rootsValid : Bool
  /-- `identity_root` (R27). -/
  identityRoot : PhysAddr
  /-- `kernel_root` (R27). -/
  kernelRoot : PhysAddr
  /-- The system registers (R28). -/
  sys : SysRegs
  /-- Physical memory (R36). -/
  mem : Memory
  /-- Descriptor writes not yet visible to the walker (R67, R172), newest first. The model's own. -/
  unseen : List UnseenWrite
  /-- The TLB of the core (R38), a set: no entry twice. -/
  tlb : List TlbEntry
  /-- The Mapping Registry (R39), oldest record first. -/
  registry : List MappingRegion
  /-- The frames the allocator has answered and not been given back (R44), a set: no frame twice. -/
  owned : List Frame
  /-- The console log (R45), oldest item first. -/
  console : List ConsoleItem
deriving DecidableEq, Repr

/-- What an operation or a step ends in (R12). -/
abbrev Result := Host.Outcome State Fault Refusal

/-- The machine right after reset: the values of R46, and for what R46 leaves unspecified the values named in
notes/assumptions/1 to 14, 18 and 19 (DESIGN CHOICE, unsafe). -/
def State.reset : State where
  cfg := Params.exampleValues
  alloc := [.frames 0x41000#36 68719210496]
  agenda := []
  lookups := []
  ops := { a0 := 0#64, a1 := 0#64, a2 := 0#64, a3 := 0#64, a4 := 0#64, a5 := 0#64 }
  res := { r0 := 0#64, r1 := 0#64, r2 := 0#64, r3 := 0#64 }
  status := 0x00#8
  rspValid := false
  irqMasked := true
  pc := 0#64
  state := .init
  failCause := 0x00#8
  failInfo := 0x00#8
  tcrProgrammed := false
  vecPhysDone := false
  vecVirtDone := false
  rootsValid := false
  identityRoot := 0#48
  kernelRoot := 0#48
  sys := { mair := 0#64, tcr := 0#64, ttbr0 := 0#64, ttbr1 := 0#64, sctlr := 0x30D00800#64, vbar := 0#64 }
  mem := []
  unseen := []
  tlb := []
  registry := []
  owned := []
  console := []

end Sys2Proof.Machine
end

