-- ==== Sys2Proof/Machine/Operands.lean ====
section
/-! DEFINITION. Reading operands: alignment, canonical addresses, address slicing, the flags word and the descriptor
formats, the small operand codes (R52, R56, R59, R80 to R87, R95, R101, R102 of spec/). -/

namespace Sys2Proof.Machine

/-- Bits [11:0] are zero: a page-aligned address (R52). -/
def pageAligned (v : Word) : Bool := v.extractLsb' 0 12 == 0#12

/-- Bits [63:48] are zero: a physical address below 2^48 (R97 f). -/
def isPhys (v : Word) : Bool := v.extractLsb' 48 16 == 0#16

/-- `IsLow(va)` (R56). -/
def isLow (va : Word) : Bool := va.extractLsb' 48 16 == 0#16

/-- `IsHigh(va)` (R56). -/
def isHigh (va : Word) : Bool := va.extractLsb' 48 16 == 0xFFFF#16

/-- `Canonical(va)` (R56). -/
def canonical (va : Word) : Bool := isLow va || isHigh va

/-- `HalfOf(va)` (R56), for a canonical address. -/
def halfOf (va : Word) : Space := if isLow va then .identity else .kernel

/-- `idx(L, va) = va[47 - 9L : 39 - 9L]` (R87). -/
def idx (level : Fin 4) (va : Word) : BitVec 9 := va.extractLsb' (39 - 9 * level.val) 9

/-- The page offset `va[11:0]` (R87). -/
def pageOffset (va : Word) : BitVec 12 := va.extractLsb' 0 12

/-- Bits [47:12] of an address or a descriptor: the frame it names (R80, R87). -/
def frameOf (v : Word) : Frame := v.extractLsb' 12 36

/-- `d[47:12] << 12`: the address of a frame, zero-extended to 64 bits (R87). -/
def frameAddr (f : Frame) : Word := (0#16 ++ f) ++ 0#12

/-- Bits [47:12] of a root register (R27). -/
def rootFrame (r : PhysAddr) : Frame := r.extractLsb' 12 36

/-- A root register as a 64-bit value (R33). -/
def rootWord (r : PhysAddr) : Word := 0#16 ++ r

/-- The slot of index `i` in the table at frame `t` (R59): `t + 8 * i`. -/
def slotAddr (t : Frame) (i : BitVec 9) : Nat := pageSize * t.toNat + 8 * i.toNat

/-- `FLAGS_MASK` (R83). -/
def flagsMask : Word := 0x00600000000007DC#64

/-- `OA_MASK` (R83). -/
def oaMask : Word := 0x0000FFFFFFFFF000#64

/-- `WellFormed(flags)`: no bit outside `FLAGS_MASK`, attribute index at most 3 (R83, R100). -/
def flagsOk (flags : Word) : Bool := (flags &&& ~~~flagsMask) == 0#64 && decide ((flags.extractLsb' 2 3).toNat ≤ 3)

/-- The value of a leaf descriptor: `phys | flags | 0b11` (R81, R101). -/
def leafDesc (phys flags : Word) : Word := phys ||| flags ||| 3#64

/-- The value of a table descriptor: `child | 0b11` (R82, R102). -/
def tableDesc (child : Word) : Word := child ||| 3#64

/-- Bits [1:0] are `0b11`: a table at levels 0 to 2, a leaf at level 3 (R81, R82). -/
def descUsable (d : Word) : Bool := d.extractLsb' 0 2 == 3#2

/-- Bit 0: the valid bit (R81). -/
def descValid (d : Word) : Bool := d.getLsbD 0

/-- Bit 1: the table/leaf bit (R81). -/
def descTypeBit (d : Word) : Bool := d.getLsbD 1

/-- The `kind` a descriptor decodes to (R95, R103). -/
inductive DescKind where
  | invalid | table | leaf | malformed
deriving DecidableEq, Repr

/-- The `kind` codes (R95). -/
def DescKind.code : DescKind → Word
  | .invalid => 0#64
  | .table => 1#64
  | .leaf => 2#64
  | .malformed => 3#64

/-- What PTE_DEC finds (R103). -/
structure Decoded where
  kind : DescKind
  addr : Word
  flags : Word
deriving DecidableEq, Repr

/-- The decoding of a descriptor met at a level (R103). -/
def decodeDesc (pte level : Word) : Decoded :=
  if !descValid pte then { kind := .invalid, addr := 0#64, flags := 0#64 }
  else if !descTypeBit pte then
    { kind := .malformed, addr := frameAddr (frameOf pte), flags := pte &&& flagsMask }
  else if level.toNat < 3 then { kind := .table, addr := frameAddr (frameOf pte), flags := 0#64 }
  else { kind := .leaf, addr := frameAddr (frameOf pte), flags := pte &&& flagsMask }

/-- `level` is 0 to 3 (R95). -/
def levelOk (level : Word) : Bool := decide (level.toNat ≤ 3)

/-- `space` is 0 or 1 (R95); any other value is out of its domain. -/
def spaceOf (v : Word) : Option Space :=
  if v = 0#64 then some .identity else if v = 1#64 then some .kernel else none

/-- The code of a space (R95). -/
def Space.code : Space → Word
  | .identity => 0#64
  | .kernel => 1#64

/-- `Overlaps(a, b, c, d)` (R135): both half-open ranges are non-empty and share an address; unsigned. -/
def overlaps (a b c d : Word) : Bool :=
  decide (a.toNat < b.toNat) && decide (c.toNat < d.toNat) && decide (a.toNat < d.toNat) && decide (c.toNat < b.toNat)

/-- A Boolean in a result register: bit 0, zero above (R91). -/
def boolWord (b : Bool) : Word := if b then 1#64 else 0#64

/-- `ExecPriv(flags) = (flags[53] = 0)` (R60). With translation off there are no flags and every address may be
fetched (R62). -/
def execPriv (flags : Option Word) : Bool :=
  match flags with
  | some f => !f.getLsbD 53
  | none => true

/-- Whether the permission field AP lets this level read or write (R60, R84). -/
def apAllows (flags : Word) (p : Privilege) (write : Bool) : Bool :=
  let ap := flags.extractLsb' 6 2
  match p with
  | .privileged => !write || ap == 0b00#2 || ap == 0b01#2
  | .unprivileged => if write then ap == 0b01#2 else ap == 0b01#2 || ap == 0b11#2

/-- `Allowed(flags, priv, kind)` (R60). The block never enforces it; the core's MMU does, in `accessFaults` (R63). -/
def allowed (flags : Word) (p : Privilege) (k : AccessKind) : Bool :=
  match k with
  | .read => apAllows flags p false
  | .write => apAllows flags p true
  | .exec =>
    (match p with
     | .privileged => !flags.getLsbD 53
     | .unprivileged => !flags.getLsbD 54) && apAllows flags p false

end Sys2Proof.Machine
end

