-- ==== Sys2Proof/Machine/Flags.lean ====
section
/-! DEFINITION. The flags of the block that are views of stored state (R25, R26, R89, R93), the register views of R32 and
R33, and the numbers of the status, state and `fail_info` codes (R92 to R94). -/

namespace Sys2Proof.Machine

/-- `(SysRead(SCTLR) & M_MASK) != 0` (R25 a): `xlat_on`. -/
def State.xlatOn (s : State) : Bool := (s.sys.sctlr &&& s.cfg.mMask) != 0#64

/-- `epd0(v)` (R32). -/
def epd0 (p : Params) (v : Word) : Bool := (v &&& p.epd0Mask) != 0#64

/-- `epd1(v)` (R32). -/
def epd1 (p : Params) (v : Word) : Bool := (v &&& p.epd1Mask) != 0#64

/-- `live_identity` (R25 b). -/
def State.liveIdentity (s : State) : Bool := s.tcrProgrammed && !epd0 s.cfg s.sys.tcr

/-- `live_kernel` (R25 b). -/
def State.liveKernel (s : State) : Bool := s.tcrProgrammed && !epd1 s.cfg s.sys.tcr

/-- `irq_mask_req` (R26): 1 in every state but STEADY. -/
def State.irqMaskReq (s : State) : Bool := s.state != .steady

/-- `cmd_ready` between two steps (R89, R191): every operation is one atomic step, so it is back at 1. DESIGN CHOICE,
safe: notes/assumptions/15. -/
def State.cmdReady (_ : State) : Bool := true

/-- `baddr(v) = v[47:12] << 12` as a frame (R33). -/
def baddr (v : Word) : Frame := frameOf v

/-- The codes of TransitionState (R93). -/
def TransState.code : TransState → BitVec 4
  | .init => 0#4
  | .mairProgrammed => 1#4
  | .tcrBootstrapDual => 2#4
  | .basesLoaded => 3#4
  | .tlbClean => 4#4
  | .translationOn => 5#4
  | .pcMigrated => 6#4
  | .tcrKernelOnly => 7#4
  | .steady => 8#4
  | .halted => 15#4

/-- The output `state[3:0]` (R89, R93). -/
def State.stateCode (s : State) : BitVec 4 := s.state.code

/-- The STATUS codes (R92). -/
def Status.code : Status → Byte
  | .ok => 0x00#8
  | .allocationExhausted => 0x01#8
  | .alignmentError => 0x02#8
  | .overlapConflict => 0x03#8
  | .registerVerificationFailed => 0x04#8
  | .translationFault => 0x05#8
  | .illegalCommand => 0x10#8
  | .badOperand => 0x11#8
  | .malformedDescriptor => 0x12#8
  | .registryFull => 0x13#8

/-- The `fail_info` codes (R94). -/
def FailInfo.code : FailInfo → Byte
  | .none => 0#8
  | .mairReadback => 1#8
  | .tcrDualReadback => 2#8
  | .ttbr0Readback => 3#8
  | .ttbr1Readback => 4#8
  | .sctlrReadback => 6#8
  | .pcNotMigrated => 7#8
  | .tcrKernelReadback => 8#8
  | .vbarPhysReadback => 9#8
  | .vbarVirtReadback => 10#8
  | .auditConflicts => 11#8
  | .trampolineNotDualMapped => 12#8
  | .vectorNotInstalled => 13#8
  | .interruptsNotMasked => 14#8
  | .pcNotInTrampoline => 15#8
  | .prematureNarrowing => 16#8
  | .vectorNotRelocated => 17#8
  | .vectorCopyMismatch => 18#8
  | .allocatorExhausted => 20#8
  | .alignment => 21#8

/-- The states that permit CREATE_TABLE, MAP_PAGE, MAP_RANGE, REGISTER and REGISTER_REGION (R121). -/
def TransState.permitsMutation : TransState → Bool
  | .init | .mairProgrammed | .tcrBootstrapDual | .basesLoaded | .steady => true
  | .tlbClean | .translationOn | .pcMigrated | .tcrKernelOnly | .halted => false

/-- The states that permit NEW_PAIR (R121). -/
def TransState.permitsNewPair : TransState → Bool
  | .init | .mairProgrammed | .tcrBootstrapDual => true
  | .basesLoaded | .tlbClean | .translationOn | .pcMigrated | .tcrKernelOnly | .steady | .halted => false

/-- The states before the enable: they permit VEC_INSTALL and SET_PC (R151, R154). -/
def TransState.beforeEnable : TransState → Bool
  | .init | .mairProgrammed | .tcrBootstrapDual | .basesLoaded | .tlbClean => true
  | .translationOn | .pcMigrated | .tcrKernelOnly | .steady | .halted => false

/-- The states that permit TLBI_LOCAL_ALL (R174). -/
def TransState.permitsTlbi : TransState → Bool
  | .init | .mairProgrammed | .tcrBootstrapDual | .halted => false
  | .basesLoaded | .tlbClean | .translationOn | .pcMigrated | .tcrKernelOnly | .steady => true

end Sys2Proof.Machine
end

