-- ==== Sys2Proof/Machine/Ops.lean ====
section
/-! DEFINITION. The shared operations: memory, the registers, the console, how an operation ends, the failure path (the
block's one trap-like mechanism) with reset beside it, the barriers and the TLB sequence, the Frame Allocator. -/

namespace Sys2Proof.Machine

/-! ## Memory (R50, R51) -/

/-- The byte at address `a`; an address not listed reads as zero (notes/assumptions/7). -/
def Memory.read : Memory → Nat → Byte
  | [], _ => 0#8
  | (k, b) :: rest, a => if k = a then b else Memory.read rest a

/-- Stores one byte, keeping the canonical form: writing zero removes the entry. -/
def Memory.write : Memory → Nat → Byte → Memory
  | [], a, b => if b = 0#8 then [] else [(a, b)]
  | (k, v) :: rest, a, b =>
    if a < k then (if b = 0#8 then (k, v) :: rest else (a, b) :: (k, v) :: rest)
    else if a = k then (if b = 0#8 then rest else (a, b) :: rest)
    else (k, v) :: Memory.write rest a b

/-- The 64-bit value at `a`, byte `k` of the value at `a + k` (R50). -/
def Memory.read64 (m : Memory) (a : Nat) : Word :=
  m.read (a + 7) ++ m.read (a + 6) ++ m.read (a + 5) ++ m.read (a + 4) ++
    m.read (a + 3) ++ m.read (a + 2) ++ m.read (a + 1) ++ m.read a

/-- Byte `k` of a 64-bit value (R50). -/
def byteOf (v : Word) (k : Nat) : Byte := v.extractLsb' (8 * k) 8

/-- Stores a 64-bit value at `a`, byte `k` of the value at `a + k` (R50). -/
def Memory.write64 (m : Memory) (a : Nat) (v : Word) : Memory :=
  [0, 1, 2, 3, 4, 5, 6, 7].foldl (fun m k => m.write (a + k) (byteOf v k)) m

/-- The memory with the `n` bytes from `a` up all zero. -/
def Memory.clear (m : Memory) (a n : Nat) : Memory := m.filter fun c => !(decide (a ≤ c.1) && decide (c.1 < a + n))

/-- The canonical memory holding the given bytes of the physical address space and zero elsewhere; a later entry of
the list overrides an earlier one. -/
def Memory.ofCells (cells : List Host.Cell) : Memory :=
  cells.foldl (fun m c => if c.1 < physSize then m.write c.1 c.2 else m) []

/-- `MemRead(addr, 8)` with its requirement checked (R50). -/
def State.memRead (s : State) (addr : Nat) : Except Fault Word :=
  if addr % 8 = 0 ∧ addr < physSize then .ok (s.mem.read64 addr) else .error .physicalAccess

/-- `MemWrite(addr, 8, v)` (R50), for an address that meets its requirement. Writing the value that is there changes
nothing; a write that changes the value is kept as not yet visible to the walker until the next barrier (R67, R172). -/
def State.memWrite (addr : Nat) (v : Word) (s : State) : State :=
  if s.mem.read64 addr = v then s
  else { s with
    mem := s.mem.write64 addr v
    unseen := { addr := addr, old := s.mem.read64 addr } :: s.unseen }

/-- `MemWrite(addr, 8, v)` with its requirement checked (R50). -/
def State.memWriteChecked (addr : Nat) (v : Word) (s : State) : Except Fault State :=
  if addr % 8 = 0 ∧ addr < physSize then .ok (s.memWrite addr v) else .error .physicalAccess

/-- `for k in 0 .. 511: MemWrite(p + 8 * k, 8, 0)` for the table at frame `f` (R111, R112, R115), as one step; the frame
arrives zeroed (R44), so no descriptor changes value. DESIGN CHOICE, safe: notes/assumptions/26. -/
def State.zeroTable (f : Frame) (s : State) : State :=
  { s with mem := s.mem.clear (pageSize * f.toNat) pageSize }

/-- What the walker may read at `addr` (R67): pick 0 is the value in memory, pick 1 the one the newest write not yet
visible replaced, and so on; a pick past the last is the value in memory. -/
def State.walkerRead (s : State) (addr pick : Nat) : Word :=
  (s.mem.read64 addr :: (s.unseen.filter fun u => u.addr = addr).map UnseenWrite.old).getD pick (s.mem.read64 addr)

/-! ## Registers, the console, and how an operation ends -/

/-- Writes R0 (R10, R20). -/
def State.setR0 (v : Word) (s : State) : State := { s with res := { s.res with r0 := v } }

/-- Writes R1 (R10, R20). -/
def State.setR1 (v : Word) (s : State) : State := { s with res := { s.res with r1 := v } }

/-- Writes R2 (R10, R20). -/
def State.setR2 (v : Word) (s : State) : State := { s with res := { s.res with r2 := v } }

/-- The host writes operand register A<i> (R20). -/
def Operands.set (o : Operands) (i : Fin 6) (v : Word) : Operands :=
  match i with
  | 0 => { o with a0 := v }
  | 1 => { o with a1 := v }
  | 2 => { o with a2 := v }
  | 3 => { o with a3 := v }
  | 4 => { o with a4 := v }
  | 5 => { o with a5 := v }

/-- `legalize(reg, v)` for a list of rows: the first row that applies (R29). -/
def legalize : List LegalizeRow → SysReg → Word → Word
  | [], _, v => v
  | .value r written held :: rest, reg, v => if r = reg ∧ written = v then held else legalize rest reg v
  | .mask r keep ones :: rest, reg, v => if r = reg then (v &&& keep) ||| ones else legalize rest reg v

/-- `SysRead(reg)` (R29). -/
def State.sysRead (s : State) (reg : SysReg) : Word :=
  match reg with
  | .mair => s.sys.mair
  | .tcr => s.sys.tcr
  | .ttbr0 => s.sys.ttbr0
  | .ttbr1 => s.sys.ttbr1
  | .sctlr => s.sys.sctlr
  | .vbar => s.sys.vbar

/-- A register file with one register replaced. -/
def SysRegs.set (r : SysRegs) (reg : SysReg) (v : Word) : SysRegs :=
  match reg with
  | .mair => { r with mair := v }
  | .tcr => { r with tcr := v }
  | .ttbr0 => { r with ttbr0 := v }
  | .ttbr1 => { r with ttbr1 := v }
  | .sctlr => { r with sctlr := v }
  | .vbar => { r with vbar := v }

/-- `SysWrite(reg, v)`: the register holds `legalize(reg, v)` (R29). -/
def State.sysWrite (reg : SysReg) (v : Word) (s : State) : State :=
  { s with sys := s.sys.set reg (legalize s.cfg.legalizeRows reg v) }

/-- `ConsoleLine` and `ConsoleHex`, in order (R45). -/
def State.log (items : List ConsoleItem) (s : State) : State := { s with console := s.console ++ items }

/-- The state in which an operation has completed with a STATUS (R12, R21, R89). -/
def State.completed (st : Status) (s : State) : State := { s with status := st.code, rspValid := true }

/-- `return <Status>` (R10). -/
def State.finish (st : Status) (s : State) : Result := .next (s.completed st)

/-- A step of an operation: go on from a state, or the operation has ended. -/
inductive Attempt where
  | proceed (s : State)
  | ended (r : Result)

/-- What follows a step of an operation, unless it has ended. -/
def Attempt.andThen : Attempt → (State → Result) → Result
  | .proceed s, k => k s
  | .ended r, _ => r

/-- Two steps of an operation, one after the other. -/
def Attempt.bind : Attempt → (State → Attempt) → Attempt
  | .proceed s, k => k s
  | .ended r, _ => .ended r

/-! ## The Mapping Registry's audit (R132, R135) -/

/-- Two records conflict: the same space and overlapping ranges (R132). -/
def regionsConflict (a b : MappingRegion) : Bool :=
  decide (a.space = b.space) && overlaps a.vstart a.vend b.vstart b.vend

/-- The pairs (i, j) for the record `r` of index `i` against the records `rest`, the first of index `j`. -/
def conflictsOf (r : MappingRegion) (i : Nat) : Nat → List MappingRegion → List (Nat × Nat)
  | _, [] => []
  | j, b :: rest =>
    if regionsConflict r b then (i, j) :: conflictsOf r i (j + 1) rest else conflictsOf r i (j + 1) rest

/-- The conflicts among `regions`, whose first record has index `i`, ascending (R132). -/
def auditFrom : Nat → List MappingRegion → List (Nat × Nat)
  | _, [] => []
  | i, r :: rest => conflictsOf r i (i + 1) rest ++ auditFrom (i + 1) rest

/-- `Audit()`: a pure function of the registry (R132). -/
def audit (regions : List MappingRegion) : List (Nat × Nat) := auditFrom 0 regions

/-- The console items of an audit (R132, R189). -/
def auditItems (c : List (Nat × Nat)) : List ConsoleItem :=
  .line .audit :: .hex (BitVec.ofNat 64 c.length) ::
    c.flatMap fun p => [.hex (BitVec.ofNat 64 p.1), .hex (BitVec.ofNat 64 p.2)]

/-! ## The failure path and reset (R188, R189, R200) -/

/-- The items of `Dump()` (R189). -/
def State.dumpItems (s : State) : List ConsoleItem :=
  [.line .halt, .hex (s.failCause.setWidth 64), .hex (s.failInfo.setWidth 64), .hex (s.stateCode.setWidth 64),
   .line .mair, .hex s.sys.mair, .line .tcr, .hex s.sys.tcr, .line .ttbr0, .hex s.sys.ttbr0,
   .line .ttbr1, .hex s.sys.ttbr1, .line .sctlr, .hex s.sys.sctlr, .line .vbar, .hex s.sys.vbar,
   .line .pc, .hex s.pc, .line .roots, .hex (boolWord s.rootsValid)] ++
  (if s.rootsValid then [.hex (rootWord s.identityRoot), .hex (rootWord s.kernelRoot)] else []) ++
  auditItems (audit s.registry)

/-- The first step of the failure path: `fail_cause` and `fail_info` (R188). -/
def State.recordFailure (cause : Status) (info : FailInfo) (s : State) : State :=
  { s with failCause := cause.code, failInfo := info.code }

/-- The state `raise Halt(cause, info)` leaves (R188): the causes recorded, the dump printed with the operation's "from"
state, then STATUS and HALTED. -/
def State.halted (cause : Status) (info : FailInfo) (s : State) : State :=
  let s1 := s.recordFailure cause info
  { (s1.log s1.dumpItems).completed cause with state := .halted }

/-- `raise Halt(cause, info)` (R10, R188). There is no return from it (R191); only `State.blockReset` leaves HALTED. -/
def State.raiseHalt (cause : Status) (info : FailInfo) (s : State) : Result := .next (s.halted cause info)

/-- The end of an operation on an operand that must be page aligned and is not: returned, or halting in a debug
build (R119, R181). -/
def State.alignmentError (s : State) : Result :=
  if s.cfg.debugHaltOnAlignment then s.raiseHalt .alignmentError .alignment else s.finish .alignmentError

/-- Adds an entry to the TLB, a set (R38). -/
def tlbInsert (tlb : List TlbEntry) (e : TlbEntry) : List TlbEntry := if e ∈ tlb then tlb else tlb ++ [e]

/-- What an entry of the TLB is (R38): a canonical page address and a physical page address. -/
def tlbEntryOk (e : TlbEntry) : Bool :=
  canonical e.vaPage && pageAligned e.vaPage && isPhys e.paPage && pageAligned e.paPage

/-- `rst`: every piece of the block's own state takes its value of R46, and what R46 leaves unspecified takes the
values of `v`; the core is reset with the block, so its enable bit is 0 (R200, notes/assumptions/16). -/
def State.blockReset (v : ResetValues) (s : State) : State where
  cfg := s.cfg
  alloc := s.alloc
  agenda := s.agenda
  lookups := s.lookups
  ops := v.ops
  res := v.res
  status := Status.ok.code
  rspValid := false
  irqMasked := s.irqMasked
  pc := rootWord v.pcLow
  state := .init
  failCause := 0#8
  failInfo := FailInfo.none.code
  tcrProgrammed := false
  vecPhysDone := false
  vecVirtDone := false
  rootsValid := false
  identityRoot := v.identityRoot
  kernelRoot := v.kernelRoot
  sys := { v.sys with sctlr := v.sys.sctlr &&& ~~~s.cfg.mMask }
  mem := Memory.ofCells v.memory
  unseen := []
  tlb := (v.tlb.filter tlbEntryOk).foldl tlbInsert []
  registry := []
  owned := []
  console := []

/-! ## Barriers, context synchronisation and the TLB sequence (R171 to R175) -/

/-- The scope of an invalidation (R171). -/
inductive TlbiScope where
  | localCore | innerShareable
deriving DecidableEq, Repr

/-- The domain of a barrier (R172). -/
inductive BarrierDomain where
  | nonShareable | innerShareable
deriving DecidableEq, Repr

/-- `Tlbi(scope)` (R171); the inner-shareable scope never completes (R175). -/
def tlbi (scope : TlbiScope) (s : State) : Attempt :=
  match scope with
  | .localCore => .proceed { s with tlb := [] }
  | .innerShareable => .ended (.fault .stuck)

/-- `Barrier(domain)` (R172): from here on the core's walker sees every earlier write (R67); the inner-shareable domain
never completes (R175). -/
def barrier (domain : BarrierDomain) (s : State) : Attempt :=
  match domain with
  | .nonShareable => .proceed { s with unseen := [] }
  | .innerShareable => .ended (.fault .stuck)

/-- `CtxSync()` changes no state, since `SysWrite` acts at once (R173). -/
def ctxSync (s : State) : State := s

/-- `TlbSequence()` (R174). -/
def tlbSequence (s : State) : Attempt :=
  (((barrier .nonShareable s).bind (tlbi .localCore)).bind (barrier .nonShareable)).bind fun s => .proceed (ctxSync s)

/-- What a mutating operation owes in STEADY before it writes STATUS (R121): a barrier when it wrote a descriptor, and the
TLB sequence when it replaced a valid leaf by a different value. -/
def maintenance (wrote replaced : Bool) (s : State) : Attempt :=
  if s.state = .steady ∧ wrote = true then
    (barrier .nonShareable s).bind fun s => if replaced then tlbSequence s else .proceed s
  else .proceed s

/-! ## Register writes with readback, and markers (R140, R190) -/

/-- `WriteVerify(reg, v, info)` (R140). -/
def writeVerify (reg : SysReg) (v : Word) (info : FailInfo) (s : State) : Attempt :=
  let s1 := ctxSync (s.sysWrite reg v)
  if s1.sysRead reg = v then .proceed s1 else .ended (s1.raiseHalt .registerVerificationFailed info)

/-- `state <- S; Marker(S)` (R140). -/
def State.enter (next : TransState) (s : State) : State :=
  { s with state := next }.log [.line .state, .hex (next.code.setWidth 64), .line .ok]

/-- The marker of VEC_INSTALL and VEC_RELOCATE (R190). -/
def vbarMarker (v : Word) : List ConsoleItem := [.line .vbar, .hex v, .line .ok]

/-! ## The Frame Allocator (R44) -/

/-- Two half-open ranges of natural numbers are non-empty and share a number. -/
def rangesMeet (a b c d : Nat) : Bool := decide (a < b) && decide (c < d) && decide (a < d) && decide (c < b)

/-- The frame overlaps `[VEC_PHYS, VEC_PHYS + 4096)` or the trampoline: the allocator never answers it (R44). -/
def frameReserved (p : Params) (f : Frame) : Bool :=
  rangesMeet (pageSize * f.toNat) (pageSize * f.toNat + pageSize) p.vecPhys.toNat (p.vecPhys.toNat + pageSize) ||
    rangesMeet (pageSize * f.toNat) (pageSize * f.toNat + pageSize) p.trampStart.toNat p.trampEnd.toNat

/-- The contract lets the allocator answer this frame now (R44). -/
def State.frameFree (s : State) (f : Frame) : Bool := !(s.owned.contains f) && !(frameReserved s.cfg f)

/-- The first frame of `n` from `b` upward that may be answered, and how many of the stretch are left after it. -/
def firstFrame (free : Frame → Bool) : Nat → Frame → Option (Frame × Nat)
  | 0, _ => none
  | n + 1, b => if free b then some (b, n) else firstFrame free n (b + 1#36)

/-- The allocator's next answer and the answers after it. A listed frame the contract forbids now is passed over; past
the end of the list the answer is `Exhausted` (notes/assumptions/13). -/
def nextAnswer (free : Frame → Bool) : List AllocAnswers → Option Frame × List AllocAnswers
  | [] => (none, [])
  | .exhausted :: rest => (none, rest)
  | .frames base count :: rest =>
    match firstFrame free count base with
    | some (f, left) => (some f, .frames (f + 1#36) left :: rest)
    | none => nextAnswer free rest

/-- The allocator hands over frame `f`, zeroed (R44). -/
def State.grantFrame (f : Frame) (s : State) : State :=
  { s with owned := s.owned ++ [f], mem := s.mem.clear (pageSize * f.toNat) pageSize }

/-- `AllocFrame()` (R44): `none` is `Exhausted`. -/
def allocFrame (s : State) : Option Frame × State :=
  match nextAnswer s.frameFree s.alloc with
  | (some f, rest) => (some f, { s with alloc := rest }.grantFrame f)
  | (none, rest) => (none, { s with alloc := rest })

/-- `FreeFrame(p)` (R44). -/
def State.freeFrame (f : Frame) (s : State) : State := { s with owned := s.owned.erase f }

/-- The halt of every allocation failure (R111, R112, R115, R181). -/
def State.haltExhausted (s : State) : Result := s.raiseHalt .allocationExhausted .allocatorExhausted

end Sys2Proof.Machine
end

