-- ==== Sys2Proof/Machine/Tables.lean ====
section
/-! DEFINITION. The table functions the operations share: Walk (R58), HwTranslate (R62), MapOne and Rollback (R112), the two
passes over a range (R113), DualMapped (R155), and where the core's fetch faults (R184). -/

namespace Sys2Proof.Machine

/-- What a walk finds (R58). -/
structure Translation where
  pa : Word
  flags : Word
deriving DecidableEq, Repr

/-- The levels that hold tables (R57). -/
def tableLevels : List (Fin 4) := [0, 1, 2]

/-- The levels of `Walk` above the leaf, reading descriptors with `rd level addr`: the frame of the next table, or none if
a level is not a usable table descriptor (R58). -/
def walkTables (rd : Fin 4 → Nat → Word) (va : Word) : List (Fin 4) → Frame → Option Frame
  | [], t => some t
  | level :: rest, t =>
    let d := rd level (slotAddr t (idx level va))
    if descUsable d then walkTables rd va rest (frameOf d) else none

/-- The result of a walk that ends at leaf descriptor `d` (R58, R87). -/
def leafTranslation (d va : Word) : Option Translation :=
  if descUsable d then
    some { pa := frameAddr (frameOf d) ||| (pageOffset va).setWidth 64, flags := d &&& flagsMask }
  else none

/-- `Walk(root, va)` with the reads made by `rd` (R58). -/
def walkWith (rd : Fin 4 → Nat → Word) (root : Frame) (va : Word) : Option Translation :=
  match walkTables rd va tableLevels root with
  | none => none
  | some t => leafTranslation (rd 3 (slotAddr t (idx 3 va))) va

/-- `Walk(root, va)` (R58): reads memory and changes nothing. -/
def walk (m : Memory) (root : Frame) (va : Word) : Option Translation := walkWith (fun _ a => m.read64 a) root va

/-- The root of a space as the block records it (R27). -/
def State.rootOf (s : State) (sp : Space) : Frame :=
  match sp with
  | .identity => rootFrame s.identityRoot
  | .kernel => rootFrame s.kernelRoot

/-- The same, as the value an operation returns (R116). -/
def State.rootValue (s : State) (sp : Space) : Word :=
  match sp with
  | .identity => rootWord s.identityRoot
  | .kernel => rootWord s.kernelRoot

/-- What the core's MMU answers (R62); with translation off there are no flags. -/
structure HwTranslation where
  pa : Word
  flags : Option Word
deriving DecidableEq, Repr

/-- A walk's result as the MMU's. -/
def Translation.toHw (t : Translation) : HwTranslation := { pa := t.pa, flags := some t.flags }

/-- `HwTranslate(va)` with the walker's reads made by `rd` (R62). -/
def hwTranslateWith (rd : Fin 4 → Nat → Word) (s : State) (va : Word) : Option HwTranslation :=
  if !s.xlatOn then some { pa := va, flags := none }
  else if isLow va then
    if epd0 s.cfg s.sys.tcr then none else (walkWith rd (baddr s.sys.ttbr0) va).map Translation.toHw
  else if isHigh va then
    if epd1 s.cfg s.sys.tcr then none else (walkWith rd (baddr s.sys.ttbr1) va).map Translation.toHw
  else none

/-- `HwTranslate(va)` (R62), every descriptor read as it stands in memory (notes/assumptions/18). -/
def hwTranslate (s : State) (va : Word) : Option HwTranslation := hwTranslateWith (fun _ a => s.mem.read64 a) s va

/-- The walker fills the TLB for the page of `va` (R38): while translation is on and the page translates, its entry is
added; `picks` chooses among the values a not yet visible descriptor may show (R67). -/
def walkerFill (va : Word) (picks : List Nat) (s : State) : State :=
  let page := va &&& ~~~(0xFFF#64)
  match hwTranslateWith (fun level a => s.walkerRead a (picks.getD level.val 0)) s page with
  | some { pa, flags := some f } => { s with tlb := tlbInsert s.tlb { vaPage := page, paPage := pa, flags := f } }
  | some { flags := none, .. } => s
  | none => s

/-! ## MapOne (R112) -/

/-- `Rollback(made)`: the links and frames of a failed call undone, last first; `made` holds the newest first (R112). -/
def rollback (made : List (Nat × Frame)) (s : State) : State :=
  made.foldl (fun s m => (s.memWrite m.1 0#64).freeFrame m.2) s

/-- How the descent of `MapOne` to the level-3 table ends. -/
inductive Descent where
  | reached (t : Frame) (s : State)
  | malformed (s : State) (wrote : Bool)
  | exhausted (s : State)

/-- A new table is linked into `slot`: zero first, then link (R112). -/
def linkTable (slot : Nat) (f : Frame) (s : State) : State := (s.zeroTable f).memWrite slot (tableDesc (frameAddr f))

/-- The loop of `MapOne` over the table levels (R112): follow a table, make a missing one, refuse a valid entry that is
no table. -/
def descend (virt : Word) : List (Fin 4) → Frame → List (Nat × Frame) → State → Descent
  | [], t, _, s => .reached t s
  | level :: rest, t, made, s =>
    let slot := slotAddr t (idx level virt)
    let d := s.mem.read64 slot
    if descUsable d then descend virt rest (frameOf d) made s
    else if !descValid d then
      match allocFrame s with
      | (none, s1) => .exhausted (rollback made s1)
      | (some f, s1) => descend virt rest f ((slot, f) :: made) (linkTable slot f s1)
    else .malformed (rollback made s) (!made.isEmpty)

/-- How `MapOne` ends. -/
inductive MapOutcome where
  | mapped (s : State) (replaced : Bool)
  | malformed (s : State) (wrote : Bool)
  | exhausted (s : State)

/-- `MapOne(root, virt, phys, flags)` (R112): the last write wins, and `replaced` says whether a valid leaf was replaced
by a different value. -/
def mapOne (root : Frame) (virt phys flags : Word) (s : State) : MapOutcome :=
  match descend virt tableLevels root [] s with
  | .exhausted s1 => .exhausted s1
  | .malformed s1 wrote => .malformed s1 wrote
  | .reached t s1 =>
    let slot := slotAddr t (idx 3 virt)
    let old := s1.mem.read64 slot
    let new := leafDesc phys flags
    .mapped (s1.memWrite slot new) (descUsable old && old != new)

/-! ## Ranges (R113) -/

/-- `(A2 - A1) >> 12`, for `A2 >= A1` (R113). -/
def pageCount (vstart vend : Word) : Nat := (vend.toNat - vstart.toNat) / pageSize

/-- The checks of a non-empty range after the first ones (R113): its last page is canonical and in the half of its first,
and its physical range ends at 2^48 at most. -/
def rangeInside (vstart vend pstart : Word) : Bool :=
  canonical (vend - 4096#64) && decide (halfOf (vend - 4096#64) = halfOf vstart) && isPhys pstart &&
    decide (pstart.toNat + pageCount vstart vend * pageSize ≤ physSize)

/-- Pass 1 (R113): some page of the range is mapped already, to another frame or with other flags. -/
def rangeConflict (m : Memory) (root : Frame) (flags : Word) : Nat → Word → Word → Bool
  | 0, _, _ => false
  | n + 1, va, pa =>
    (match walk m root va with
     | some w => w.pa != pa || w.flags != flags
     | none => false) || rangeConflict m root flags n (va + 4096#64) (pa + 4096#64)

/-- How pass 2 ends: `done` counts the pages completed. -/
inductive RangeOutcome where
  | mapped (s : State) (replaced : Bool)
  | malformed (s : State) (done : Nat) (wrote replaced : Bool)
  | exhausted (s : State) (done : Nat)

/-- Pass 2 (R113): `MapOne` for each of the pages left, in ascending order. -/
def mapPages (root : Frame) (flags : Word) : Nat → Word → Word → Nat → Bool → State → RangeOutcome
  | 0, _, _, _, replaced, s => .mapped s replaced
  | n + 1, va, pa, done, replaced, s =>
    match mapOne root va pa flags s with
    | .mapped s1 r => mapPages root flags n (va + 4096#64) (pa + 4096#64) (done + 1) (replaced || r) s1
    | .malformed s1 wrote => .malformed s1 done (wrote || decide (0 < done)) replaced
    | .exhausted s1 => .exhausted s1 done

/-! ## The gate and the core's fetch (R155, R184) -/

/-- The page addresses of the trampoline: `TRAMP_START, TRAMP_START + 4096, ...` below `TRAMP_END` (R155). -/
def trampPages (p : Params) : List Word :=
  (List.range ((p.trampEnd.toNat - p.trampStart.toNat + 4095) / pageSize)).map fun k =>
    p.trampStart + BitVec.ofNat 64 (pageSize * k)

/-- One page of the trampoline is mapped in both spaces to its own frame, with identical flags, executable (R155). -/
def pageDualMapped (s : State) (p : Word) : Bool :=
  match walk s.mem (s.rootOf .identity) p, walk s.mem (s.rootOf .kernel) (p + s.cfg.kernelOffset) with
  | some wi, some wk => wi.pa == p && wk.pa == p && wi.flags == wk.flags && !wi.flags.getLsbD 53
  | some _, none => false
  | none, some _ => false
  | none, none => false

/-- `DualMapped()` (R155). -/
def dualMapped (s : State) : Bool := s.rootsValid && (trampPages s.cfg).all (pageDualMapped s)

/-- A translation is to an executable page (R63, R69). -/
def executable (t : Option HwTranslation) : Bool :=
  match t with
  | some w => execPriv w.flags
  | none => false

/-- The entries the TLB holds for the page of `va` (R38), stale ones among them (R210). -/
def tlbHits (s : State) (va : Word) : List TlbEntry := s.tlb.filter fun e => e.vaPage == va &&& ~~~(0xFFF#64)

/-- What the TLB entry `e` answers for an address of its page. -/
def TlbEntry.toHw (e : TlbEntry) (va : Word) : HwTranslation :=
  { pa := e.paPage ||| (pageOffset va).setWidth 64, flags := some e.flags }

/-- What the core's MMU answers a lookup of the core's own: `HwTranslate`, where with translation on a TLB hit, stale or
not, may stand in for the walk (R62, R210). Pick 0 is the walk, pick `k + 1` entry `k` of the page, and a pick past the
last the walk (notes/assumptions/19). No rule of the block reads the TLB (R38): the gates use `hwTranslate`. -/
def coreTranslate (pick : Nat) (s : State) (va : Word) : Option HwTranslation :=
  if !s.xlatOn then hwTranslate s va
  else
    match pick with
    | 0 => hwTranslate s va
    | k + 1 =>
      match (tlbHits s va)[k]? with
      | some e => some (e.toHw va)
      | none => hwTranslate s va

/-- The core's own fetches of a step translate to executable pages (R69, R184): `picks` are the picks for `addrs`, in
order. -/
def fetchesOk (s : State) : List Nat → List Word → Bool
  | _, [] => true
  | picks, a :: rest => executable (coreTranslate (picks.headD 0) s a) && fetchesOk s picks.tail rest

/-- The addresses the core is taken to fetch from (R184): `pc`, and in TRANSLATION_ON every page of the trampoline.
DEDUCED: notes/assumptions/20. -/
def fetchAddrs (s : State) : List Word :=
  if s.state = .translationOn then s.pc :: trampPages s.cfg else [s.pc]

/-- The run faults in this state (R184): translation is on and an address the core is taken to fetch from does not
translate to an executable page. A halted core fetches nothing. DEDUCED: notes/assumptions/20. -/
def fetchFaults (s : State) : Bool :=
  s.xlatOn && s.state != .halted && !fetchesOk s (s.lookups.headD []) (fetchAddrs s)

/-- The flags of a page allow the access (R60, R63); with translation off there are none and everything is allowed
(R62). -/
def flagsAllow (t : Option HwTranslation) (p : Privilege) (k : AccessKind) : Bool :=
  match t with
  | none => false
  | some { flags := none, .. } => true
  | some { flags := some f, .. } => allowed f p k

/-- An access of the core's own ends the run (R63, R184): translation is on and no mapping allows it. A halted core
accesses nothing. -/
def accessFaults (s : State) (va : Word) (p : Privilege) (k : AccessKind) (pick : Nat) : Bool :=
  s.xlatOn && s.state != .halted && !flagsAllow (coreTranslate pick s va) p k

end Sys2Proof.Machine
end

