-- ==== Sys2Proof/Machine/Fsm.lean ====
section
/-! DEFINITION. Sub-block FSM: the eight transitions, Vector Relocation, IS_TRANSLATION_ENABLED and SET_PC
(spec/43_mmu_control_fsm.md). Each transition is permitted in exactly one state (R150). -/

namespace Sys2Proof.Machine

/-- FSM_MAIR (R141): INIT to MAIR_PROGRAMMED. -/
def execFsmMair (s : State) : Result :=
  if s.state ≠ .init then s.finish .illegalCommand
  else
    (writeVerify .mair s.cfg.mairValue .mairReadback s).andThen fun s1 => (s1.enter .mairProgrammed).finish .ok

/-- FSM_TCR_DUAL (R142): MAIR_PROGRAMMED to TCR_BOOTSTRAP_DUAL. -/
def execFsmTcrDual (s : State) : Result :=
  if s.state ≠ .mairProgrammed then s.finish .illegalCommand
  else
    (writeVerify .tcr s.cfg.tcrDualValue .tcrDualReadback s).andThen fun s1 =>
      ({ s1 with tcrProgrammed := true }.enter .tcrBootstrapDual).finish .ok

/-- FSM_BASES (R143): TCR_BOOTSTRAP_DUAL to BASES_LOADED; TTBR0 first. -/
def execFsmBases (s : State) : Result :=
  if s.state ≠ .tcrBootstrapDual ∨ s.rootsValid = false then s.finish .illegalCommand
  else
    ((writeVerify .ttbr0 (rootWord s.identityRoot) .ttbr0Readback s).bind
      (writeVerify .ttbr1 (rootWord s.kernelRoot) .ttbr1Readback)).andThen fun s1 =>
        (s1.enter .basesLoaded).finish .ok

/-- FSM_TLB_CLEAN (R144): BASES_LOADED to TLB_CLEAN. -/
def execFsmTlbClean (s : State) : Result :=
  if s.state ≠ .basesLoaded then s.finish .illegalCommand
  else (tlbSequence s).andThen fun s1 => (s1.enter .tlbClean).finish .ok

/-- `raise Halt(RegisterVerificationFailed, info)` of a failed gate (R145 to R147, R181). -/
def State.gateFailed (info : FailInfo) (s : State) : Result := s.raiseHalt .registerVerificationFailed info

/-- `TRAMP_START <= pc < TRAMP_END` (R145). -/
def pcInTrampoline (s : State) : Bool :=
  decide (s.cfg.trampStart.toNat ≤ s.pc.toNat) && decide (s.pc.toNat < s.cfg.trampEnd.toNat)

/-- FSM_ENABLE (R145): TLB_CLEAN to TRANSLATION_ON; the five gates in order, then the enable write. -/
def execFsmEnable (s : State) : Result :=
  if s.state ≠ .tlbClean then s.finish .illegalCommand
  else if !s.irqMasked then s.gateFailed .interruptsNotMasked
  else if !s.vecPhysDone then s.gateFailed .vectorNotInstalled
  else if audit s.registry ≠ [] then s.gateFailed .auditConflicts
  else if !pcInTrampoline s then s.gateFailed .pcNotInTrampoline
  else if !dualMapped s then s.gateFailed .trampolineNotDualMapped
  else
    (writeVerify .sctlr (s.sysRead .sctlr ||| s.cfg.mMask) .sctlrReadback s).andThen fun s1 =>
      (s1.enter .translationOn).finish .ok

/-- The address is high and the core can fetch there (R146). -/
def highExecutable (s : State) (va : Word) : Bool := isHigh va && executable (hwTranslate s va)

/-- FSM_MIGRATE (R146): TRANSLATION_ON to PC_MIGRATED; A0 = continuation. The post-condition `IsHigh(pc)` is the check
made before the branch. -/
def execFsmMigrate (s : State) : Result :=
  if s.state ≠ .translationOn then s.finish .illegalCommand
  else if !highExecutable s s.ops.a0 then s.gateFailed .pcNotMigrated
  else ({ s with pc := s.ops.a0 }.enter .pcMigrated).finish .ok

/-- `pc` is high and the kernel tables map it executable (R147). -/
def pcInKernelSpace (s : State) : Bool :=
  isHigh s.pc &&
    (match walk s.mem (s.rootOf .kernel) s.pc with
     | some w => execPriv (some w.flags)
     | none => false)

/-- FSM_TCR_KERNEL (R147): PC_MIGRATED to TCR_KERNEL_ONLY. -/
def execFsmTcrKernel (s : State) : Result :=
  if s.state ≠ .pcMigrated then s.finish .illegalCommand
  else if !pcInKernelSpace s then s.gateFailed .prematureNarrowing
  else if !s.vecVirtDone then s.gateFailed .vectorNotRelocated
  else
    (writeVerify .tcr s.cfg.tcrKonlyValue .tcrKernelReadback s).andThen fun s1 =>
      (s1.enter .tcrKernelOnly).finish .ok

/-- FSM_FINISH (R148): TCR_KERNEL_ONLY to STEADY. -/
def execFsmFinish (s : State) : Result :=
  if s.state ≠ .tcrKernelOnly then s.finish .illegalCommand
  else (s.enter .steady).finish .ok

/-! ## Vector Relocation (R151, R152) -/

/-- The copy of VEC_INSTALL: `n` 64-bit values from `src` to `dst`, in ascending order (R151). -/
def copyWords : Nat → Nat → Nat → State → Except Fault State
  | 0, _, _, s => .ok s
  | n + 1, src, dst, s =>
    match s.memRead src with
    | .error e => .error e
    | .ok v =>
      match s.memWriteChecked dst v with
      | .error e => .error e
      | .ok s1 => copyWords n (src + 8) (dst + 8) s1

/-- The verification of VEC_INSTALL: the `n` 64-bit values at `src` and `dst` agree (R151). -/
def wordsAgree : Nat → Nat → Nat → State → Except Fault Bool
  | 0, _, _, _ => .ok true
  | n + 1, src, dst, s =>
    match s.memRead dst, s.memRead src with
    | .ok a, .ok b => if a = b then wordsAgree n (src + 8) (dst + 8) s else .ok false
    | .error e, .ok _ => .error e
    | .ok _, .error e => .error e
    | .error e, .error _ => .error e

/-- `VEC_SIZE / 8` (R151). -/
def vecWords (p : Params) : Nat := p.vecSize.toNat / 8

/-- Copy, then verify, then the barrier and the context synchronisation (R70, R151). -/
def copyVectors (src : Word) (s : State) : Attempt :=
  match copyWords (vecWords s.cfg) src.toNat s.cfg.vecPhys.toNat s with
  | .error e => .ended (.fault e)
  | .ok s1 =>
    match wordsAgree (vecWords s.cfg) src.toNat s.cfg.vecPhys.toNat s1 with
    | .error e => .ended (.fault e)
    | .ok false => .ended (s1.gateFailed .vectorCopyMismatch)
    | .ok true => (barrier .nonShareable s1).bind fun s2 => .proceed (ctxSync s2)

/-- The source range partly overlaps the target (R151). -/
def vecOverlap (p : Params) (src : Word) : Bool :=
  src != p.vecPhys && overlaps src (src + p.vecSize) p.vecPhys (p.vecPhys + p.vecSize)

/-- The source range lies in the physical address space (R50, D15; notes/assumptions/24). -/
def vecSourceInside (p : Params) (src : Word) : Bool := decide (src.toNat + p.vecSize.toNat ≤ physSize)

/-- VEC_INSTALL (R151): A0 = the physical address the table is copied from. -/
def execVecInstall (s : State) : Result :=
  if !s.state.beforeEnable || s.vecPhysDone then s.finish .illegalCommand
  else if s.ops.a0.extractLsb' 0 3 ≠ 0#3 ∨ isPhys s.ops.a0 = false then s.finish .badOperand
  else if !vecSourceInside s.cfg s.ops.a0 then s.finish .badOperand
  else if vecOverlap s.cfg s.ops.a0 then s.finish .badOperand
  else
    ((copyVectors s.ops.a0 s).bind (writeVerify .vbar s.cfg.vecPhys .vbarPhysReadback)).andThen fun s1 =>
      ({ s1 with vecPhysDone := true }.log (vbarMarker s.cfg.vecPhys)).finish .ok

/-- `VEC_PHYS + KERNEL_OFFSET` (R152). -/
def vecAlias (p : Params) : Word := p.vecPhys + p.kernelOffset

/-- VEC_RELOCATE (R152). -/
def execVecRelocate (s : State) : Result :=
  if s.state ≠ .pcMigrated ∨ s.vecVirtDone = true then s.finish .illegalCommand
  else
    (writeVerify .vbar (vecAlias s.cfg) .vbarVirtReadback s).andThen fun s1 =>
      ({ s1 with vecVirtDone := true }.log (vbarMarker (vecAlias s.cfg))).finish .ok

/-! ## Queries and the host's program counter (R153, R154) -/

/-- IS_TRANSLATION_ENABLED (R153): R0 = `xlat_on`. -/
def execIsTranslationEnabled (s : State) : Result :=
  if s.state = .halted then s.finish .illegalCommand
  else (s.setR0 (boolWord s.xlatOn)).finish .ok

/-- SET_PC (R154): A0 = the address the core fetches from, low. -/
def execSetPc (s : State) : Result :=
  if !s.state.beforeEnable then s.finish .illegalCommand
  else if !isLow s.ops.a0 then s.finish .badOperand
  else { s with pc := s.ops.a0 }.finish .ok

end Sys2Proof.Machine
end

