-- ==== Sys2Proof/Machine/Pte.lean ====
section
/-! DEFINITION. Sub-block PTE: PTE_ENC_LEAF, PTE_ENC_TABLE, PTE_DEC, PTE_SUMMARY (spec/40_pte_encoder.md). -/

namespace Sys2Proof.Machine

/-- PTE_ENC_LEAF (R101): A0 = phys, A1 = flags; R0 = the leaf descriptor. -/
def execPteEncLeaf (s : State) : Result :=
  if s.state = .halted then s.finish .illegalCommand
  else if !pageAligned s.ops.a0 then s.alignmentError
  else if !isPhys s.ops.a0 then s.finish .badOperand
  else if !flagsOk s.ops.a1 then s.finish .badOperand
  else (s.setR0 (leafDesc s.ops.a0 s.ops.a1)).finish .ok

/-- PTE_ENC_TABLE (R102): A0 = child; R0 = the table descriptor. -/
def execPteEncTable (s : State) : Result :=
  if s.state = .halted then s.finish .illegalCommand
  else if !pageAligned s.ops.a0 then s.alignmentError
  else if !isPhys s.ops.a0 then s.finish .badOperand
  else (s.setR0 (tableDesc s.ops.a0)).finish .ok

/-- PTE_DEC (R103): A0 = pte, A1 = level; R0 = kind, R1 = output address, R2 = flags word. -/
def execPteDec (s : State) : Result :=
  if s.state = .halted then s.finish .illegalCommand
  else if !levelOk s.ops.a1 then s.finish .badOperand
  else
    let d := decodeDesc s.ops.a0 s.ops.a1
    (((s.setR0 d.kind.code).setR1 d.addr).setR2 d.flags).finish .ok

/-- `KindName(kind)` (R104). -/
def kindName : DescKind → Text
  | .invalid => .invalid
  | .table => .table
  | .leaf => .leaf
  | .malformed => .malformed

/-- `AttrName(flags[4:2])` (R104). -/
def attrName (flags : Word) : Text :=
  match (flags.extractLsb' 2 3).toNat with
  | 0 => .deviceSo
  | 1 => .normal
  | 2 => .normalNc
  | 3 => .deviceG
  | _ => .attrReserved

/-- `ApName(flags[7:6])` (R84, R104). -/
def apName (flags : Word) : Text :=
  match (flags.extractLsb' 6 2).toNat with
  | 0 => .kernelRw
  | 1 => .userRw
  | 2 => .kernelRo
  | _ => .userRo

/-- `ShName(flags[9:8])` (R85, R104). -/
def shName (flags : Word) : Text :=
  match (flags.extractLsb' 8 2).toNat with
  | 0 => .shNone
  | 1 => .shReserved
  | 2 => .shOuter
  | _ => .shInner

/-- The lines of R104 from `AttrName` on. -/
def flagsItems (flags : Word) : List ConsoleItem :=
  [.line (attrName flags), .line (apName flags), .line (shName flags),
   .line (if flags.getLsbD 10 then .af else .noAf),
   .line (if flags.getLsbD 53 then .pxn else .px),
   .line (if flags.getLsbD 54 then .uxn else .ux)]

/-- Everything PTE_SUMMARY prints (R104). -/
def summaryItems (pte : Word) (d : Decoded) : List ConsoleItem :=
  [.line .pte, .hex pte, .line (kindName d.kind)] ++
    (match d.kind with
     | .invalid => []
     | .table => [.line .oa, .hex d.addr]
     | .leaf => [.line .oa, .hex d.addr] ++ flagsItems d.flags
     | .malformed => [.line .oa, .hex d.addr] ++ flagsItems d.flags)

/-- PTE_SUMMARY (R104): A0 = pte, A1 = level; output on the console only. -/
def execPteSummary (s : State) : Result :=
  if s.state = .halted then s.finish .illegalCommand
  else if !levelOk s.ops.a1 then s.finish .badOperand
  else (s.log (summaryItems s.ops.a0 (decodeDesc s.ops.a0 s.ops.a1))).finish .ok

/-- The words of a console text (R104, R132, R133, R140, R151, R189). -/
def Text.spelling : Text → String
  | .pte => "PTE"
  | .invalid => "INVALID"
  | .table => "TABLE"
  | .leaf => "LEAF"
  | .malformed => "MALFORMED"
  | .oa => "OA"
  | .deviceSo => "DEVICE_SO"
  | .normal => "NORMAL"
  | .normalNc => "NORMAL_NC"
  | .deviceG => "DEVICE_G"
  | .attrReserved => "ATTR_RESERVED"
  | .kernelRw => "KERNEL_RW"
  | .userRw => "USER_RW"
  | .kernelRo => "KERNEL_RO"
  | .userRo => "USER_RO"
  | .shNone => "SH_NONE"
  | .shReserved => "SH_RESERVED"
  | .shOuter => "SH_OUTER"
  | .shInner => "SH_INNER"
  | .af => "AF"
  | .noAf => "NO_AF"
  | .pxn => "PXN"
  | .px => "PX"
  | .uxn => "UXN"
  | .ux => "UX"
  | .walk => "WALK"
  | .unmapped => "UNMAPPED"
  | .pa => "PA"
  | .state => "STATE"
  | .ok => "OK"
  | .halt => "HALT"
  | .mair => "MAIR"
  | .tcr => "TCR"
  | .ttbr0 => "TTBR0"
  | .ttbr1 => "TTBR1"
  | .sctlr => "SCTLR"
  | .vbar => "VBAR"
  | .pc => "PC"
  | .roots => "ROOTS"
  | .audit => "AUDIT"

end Sys2Proof.Machine
end

