-- ==== Sys2Proof/Machine/TableWalk.lean ====
section
/-! DEFINITION. Sub-block TWE: CREATE_TABLE, MAP_PAGE, MAP_RANGE, WALK, NEW_PAIR, BASE_OF, GET_KERNEL_ROOT, TRANSLATE
(spec/41_table_walk_engine.md). The order of the checks is R119. -/

namespace Sys2Proof.Machine

/-- CREATE_TABLE (R111): R0 = the new table. -/
def execCreateTable (s : State) : Result :=
  if !s.state.permitsMutation then s.finish .illegalCommand
  else
    match allocFrame s with
    | (none, s1) => s1.haltExhausted
    | (some p, s1) =>
      (maintenance true false ((s1.zeroTable p).setR0 (frameAddr p))).andThen fun s2 => s2.finish .ok

/-- MAP_PAGE (R112): A0 = root, A1 = virt, A2 = phys, A3 = flags. -/
def execMapPage (s : State) : Result :=
  if !s.state.permitsMutation then s.finish .illegalCommand
  else if !(pageAligned s.ops.a0 && pageAligned s.ops.a1 && pageAligned s.ops.a2) then s.alignmentError
  else if !(isPhys s.ops.a0 && canonical s.ops.a1 && isPhys s.ops.a2 && flagsOk s.ops.a3) then s.finish .badOperand
  else
    match mapOne (frameOf s.ops.a0) s.ops.a1 s.ops.a2 s.ops.a3 s with
    | .mapped s1 replaced => (maintenance true replaced s1).andThen fun s2 => s2.finish .ok
    | .malformed s1 wrote => (maintenance wrote false s1).andThen fun s2 => s2.finish .malformedDescriptor
    | .exhausted s1 => s1.haltExhausted

/-- When pass 2 ends, early or not, R0 holds the number of pages completed (R113), zero of them included
(notes/assumptions/21). -/
def State.countPages (done : Nat) (s : State) : State := s.setR0 (BitVec.ofNat 64 done)

/-- MAP_RANGE (R113): A0 = root, A1 = virt_start, A2 = virt_end, A3 = phys_start, A4 = flags; R0 = pages written. -/
def execMapRange (s : State) : Result :=
  if !s.state.permitsMutation then s.finish .illegalCommand
  else if !(pageAligned s.ops.a0 && pageAligned s.ops.a1 && pageAligned s.ops.a2 && pageAligned s.ops.a3) then
    s.alignmentError
  else if !(isPhys s.ops.a0 && canonical s.ops.a1 && flagsOk s.ops.a4) then s.finish .badOperand
  else if s.ops.a2.toNat < s.ops.a1.toNat then s.finish .badOperand
  else if pageCount s.ops.a1 s.ops.a2 = 0 then (s.setR0 0#64).finish .ok
  else if !rangeInside s.ops.a1 s.ops.a2 s.ops.a3 then s.finish .badOperand
  else if rangeConflict s.mem (frameOf s.ops.a0) s.ops.a4 (pageCount s.ops.a1 s.ops.a2) s.ops.a1 s.ops.a3 then
    s.finish .overlapConflict
  else
    match mapPages (frameOf s.ops.a0) s.ops.a4 (pageCount s.ops.a1 s.ops.a2) s.ops.a1 s.ops.a3 0 false s with
    | .mapped s1 replaced =>
      (maintenance true replaced (s1.countPages (pageCount s.ops.a1 s.ops.a2))).andThen fun s2 => s2.finish .ok
    | .malformed s1 done wrote replaced =>
      (maintenance wrote replaced (s1.countPages done)).andThen fun s2 => s2.finish .malformedDescriptor
    | .exhausted s1 done => (s1.countPages done).haltExhausted

/-- The results of a lookup: found, physical address, flags word; all zero when not found (R114, R133). -/
def State.setTranslation (w : Option Translation) (s : State) : State :=
  match w with
  | none => ((s.setR0 0#64).setR1 0#64).setR2 0#64
  | some t => ((s.setR0 1#64).setR1 t.pa).setR2 t.flags

/-- WALK (R114): A0 = root, A1 = virt; R0 = found, R1 = physical address, R2 = flags word. -/
def execWalk (s : State) : Result :=
  if s.state = .halted then s.finish .illegalCommand
  else if !pageAligned s.ops.a0 then s.alignmentError
  else if !(isPhys s.ops.a0 && canonical s.ops.a1) then s.finish .badOperand
  else (s.setTranslation (walk s.mem (frameOf s.ops.a0) s.ops.a1)).finish .ok

/-- `identity_root <- p0; kernel_root <- p1; roots_valid <- 1` (R115). -/
def State.setRoots (p0 p1 : Frame) (s : State) : State :=
  { s with identityRoot := p0 ++ 0#12, kernelRoot := p1 ++ 0#12, rootsValid := true }

/-- NEW_PAIR (R115): R0 = identity root, R1 = kernel root. -/
def execNewPair (s : State) : Result :=
  if s.rootsValid || !s.state.permitsNewPair then s.finish .illegalCommand
  else
    match allocFrame s with
    | (none, s1) => s1.haltExhausted
    | (some p0, s1) =>
      match allocFrame (s1.zeroTable p0) with
      | (none, s2) => (s2.freeFrame p0).haltExhausted
      | (some p1, s2) =>
        ((((s2.zeroTable p1).setRoots p0 p1).setR0 (frameAddr p0)).setR1 (frameAddr p1)).finish .ok

/-- BASE_OF (R116): A0 = space; R0 = its base. -/
def execBaseOf (s : State) : Result :=
  if s.state = .halted then s.finish .illegalCommand
  else if !s.rootsValid then s.finish .illegalCommand
  else
    match spaceOf s.ops.a0 with
    | none => s.finish .badOperand
    | some sp => (s.setR0 (s.rootValue sp)).finish .ok

/-- GET_KERNEL_ROOT (R117): R0 = the kernel root. -/
def execGetKernelRoot (s : State) : Result :=
  if s.state = .halted then s.finish .illegalCommand
  else if !s.rootsValid then s.finish .illegalCommand
  else (s.setR0 (s.rootValue .kernel)).finish .ok

/-- TRANSLATE (R118): A0 = virt; R0 = found, R1 = physical address. The flags word is dropped. -/
def execTranslate (s : State) : Result :=
  if s.state = .halted then s.finish .illegalCommand
  else if !s.rootsValid then s.finish .illegalCommand
  else if !canonical s.ops.a0 then s.finish .badOperand
  else
    match walk s.mem (s.rootOf (halfOf s.ops.a0)) s.ops.a0 with
    | none => ((s.setR0 0#64).setR1 0#64).finish .ok
    | some t => ((s.setR0 1#64).setR1 t.pa).finish .ok

end Sys2Proof.Machine
end

