-- ==== Sys2Proof/Machine/Registry.lean ====
section
/-! DEFINITION. The Mapping Registry: REGISTER, AUDIT, WALK_AND_REPORT, REGISTER_REGION (spec/42_mapping_registry.md). -/

namespace Sys2Proof.Machine

/-- The record the operands of REGISTER describe, for their space (R131). -/
def State.newRegion (s : State) (sp : Space) : MappingRegion :=
  { name := s.ops.a0, vstart := s.ops.a1, vend := s.ops.a2, pstart := s.ops.a3, flags := s.ops.a4, space := sp }

/-- The range checks of REGISTER (R131): not inverted, canonical, its last address in the half of its first. -/
def regionRangeOk (vstart vend : Word) : Bool :=
  decide (vstart.toNat ≤ vend.toNat) && canonical vstart &&
    (vend == vstart || (canonical (vend - 1#64) && decide (halfOf (vend - 1#64) = halfOf vstart)))

/-- The index of the first record the new one conflicts with (R131). -/
def firstConflict (regions : List MappingRegion) (r : MappingRegion) : Option Nat :=
  regions.findIdx? fun old => regionsConflict r old

/-- Appends a record; R0 is its index (R131). -/
def State.appendRegion (r : MappingRegion) (s : State) : State :=
  { s with registry := s.registry ++ [r] }.setR0 (BitVec.ofNat 64 s.registry.length)

/-- REGISTER (R131): A0 = name, A1 = virt_start, A2 = virt_end, A3 = phys_start, A4 = flags, A5 = space; R0 = the index of
the record, or of the first conflicting one. -/
def execRegister (s : State) : Result :=
  if !s.state.permitsMutation then s.finish .illegalCommand
  else
    match spaceOf s.ops.a5 with
    | none => s.finish .badOperand
    | some sp =>
      if !(regionRangeOk s.ops.a1 s.ops.a2 && flagsOk s.ops.a4) then s.finish .badOperand
      else
        match firstConflict s.registry (s.newRegion sp) with
        | some i => (s.setR0 (BitVec.ofNat 64 i)).finish .overlapConflict
        | none =>
          if s.cfg.registryCapacity ≤ s.registry.length then s.finish .registryFull
          else (s.appendRegion (s.newRegion sp)).finish .ok

/-- `R0 <- len(c)`, and R1, R2 the first pair when there is one (R132). -/
def State.setAudit (c : List (Nat × Nat)) (s : State) : State :=
  match c with
  | [] => s.setR0 0#64
  | (i, j) :: _ => ((s.setR0 (BitVec.ofNat 64 c.length)).setR1 (BitVec.ofNat 64 i)).setR2 (BitVec.ofNat 64 j)

/-- AUDIT (R132): R0 = number of conflicts, R1 and R2 = the first pair; printed. -/
def execAudit (s : State) : Result :=
  if s.state = .halted then s.finish .illegalCommand
  else ((s.setAudit (audit s.registry)).log (auditItems (audit s.registry))).finish .ok

/-- What WALK_AND_REPORT prints (R133). -/
def reportItems (space virt : Word) (w : Option Translation) : List ConsoleItem :=
  [.line .walk, .hex space, .hex virt] ++
    (match w with
     | none => [.line .unmapped]
     | some t => [.line .pa, .hex t.pa] ++ flagsItems t.flags)

/-- WALK_AND_REPORT (R133): A0 = space, A1 = virt; R0 = found, R1 = physical address, R2 = flags word; printed. -/
def execWalkAndReport (s : State) : Result :=
  if s.state = .halted then s.finish .illegalCommand
  else if !s.rootsValid then s.finish .illegalCommand
  else
    match spaceOf s.ops.a0 with
    | none => s.finish .badOperand
    | some sp =>
      if !canonical s.ops.a1 then s.finish .badOperand
      else
        let w := walk s.mem (s.rootOf sp) s.ops.a1
        ((s.log (reportItems s.ops.a0 s.ops.a1 w)).setTranslation w).finish .ok

/-- The table half of REGISTER_REGION (R134): pass 1, pass 2, the record, the maintenance. R1 = pages mapped. When pass 2 ends
early R0 holds the pages completed, as in R113, and R1 is not written (notes/assumptions/22). -/
def mapRegion (root : Frame) (r : MappingRegion) (s : State) : Result :=
  let n := pageCount r.vstart r.vend
  if rangeConflict s.mem root r.flags n r.vstart r.pstart then s.finish .overlapConflict
  else
    match mapPages root r.flags n r.vstart r.pstart 0 false s with
    | .mapped s1 replaced =>
      (maintenance (decide (0 < n)) replaced ((s1.setR1 (BitVec.ofNat 64 n)).appendRegion r)).andThen
        fun s2 => s2.finish .ok
    | .malformed s1 done wrote replaced =>
      (maintenance wrote replaced (s1.countPages done)).andThen fun s2 => s2.finish .malformedDescriptor
    | .exhausted s1 done => (s1.countPages done).haltExhausted

/-- REGISTER_REGION (R134): operands as REGISTER; R0 = the index of the record or of the conflicting one, R1 = pages
mapped. -/
def execRegisterRegion (s : State) : Result :=
  if !s.state.permitsMutation then s.finish .illegalCommand
  else if !s.rootsValid then s.finish .illegalCommand
  else if !(pageAligned s.ops.a1 && pageAligned s.ops.a2 && pageAligned s.ops.a3) then s.alignmentError
  else
    match spaceOf s.ops.a5 with
    | none => s.finish .badOperand
    | some sp =>
      if !(regionRangeOk s.ops.a1 s.ops.a2 && flagsOk s.ops.a4) then s.finish .badOperand
      else if pageCount s.ops.a1 s.ops.a2 ≠ 0 ∧ rangeInside s.ops.a1 s.ops.a2 s.ops.a3 = false then
        s.finish .badOperand
      else
        match firstConflict s.registry (s.newRegion sp) with
        | some i => (s.setR0 (BitVec.ofNat 64 i)).finish .overlapConflict
        | none =>
          if s.cfg.registryCapacity ≤ s.registry.length then s.finish .registryFull
          else mapRegion (s.rootOf sp) (s.newRegion sp) s

end Sys2Proof.Machine
end

