-- ==== Sys2Proof/Machine/Tlbs.lean ====
section
/-! DEFINITION. Sub-block TLBS: TLBI_LOCAL_ALL (spec/44_tlb_invalidation_sequencer.md); the micro-steps and the sequence
stand in Machine/Ops.lean. -/

namespace Sys2Proof.Machine

/-- TLBI_LOCAL_ALL (R174). -/
def execTlbiLocalAll (s : State) : Result :=
  if !s.state.permitsTlbi then s.finish .illegalCommand
  else (tlbSequence s).andThen fun s1 => s1.finish .ok

end Sys2Proof.Machine
end

