-- ==== Sys2Proof/Machine/Dispatch.lean ====
section
/-! DEFINITION. One arm per operation of the opcode map R90, each one direct call of its meaning. -/

namespace Sys2Proof.Machine

def exec (i : Instr) (s : State) : Host.Outcome State Fault Refusal :=
  match i with
  | .pteEncLeaf => Sys2Proof.Machine.execPteEncLeaf s
  | .pteEncTable => Sys2Proof.Machine.execPteEncTable s
  | .pteDec => Sys2Proof.Machine.execPteDec s
  | .pteSummary => Sys2Proof.Machine.execPteSummary s
  | .createTable => Sys2Proof.Machine.execCreateTable s
  | .mapPage => Sys2Proof.Machine.execMapPage s
  | .mapRange => Sys2Proof.Machine.execMapRange s
  | .walk => Sys2Proof.Machine.execWalk s
  | .newPair => Sys2Proof.Machine.execNewPair s
  | .baseOf => Sys2Proof.Machine.execBaseOf s
  | .getKernelRoot => Sys2Proof.Machine.execGetKernelRoot s
  | .translate => Sys2Proof.Machine.execTranslate s
  | .register => Sys2Proof.Machine.execRegister s
  | .audit => Sys2Proof.Machine.execAudit s
  | .walkAndReport => Sys2Proof.Machine.execWalkAndReport s
  | .registerRegion => Sys2Proof.Machine.execRegisterRegion s
  | .fsmMair => Sys2Proof.Machine.execFsmMair s
  | .fsmTcrDual => Sys2Proof.Machine.execFsmTcrDual s
  | .fsmBases => Sys2Proof.Machine.execFsmBases s
  | .fsmTlbClean => Sys2Proof.Machine.execFsmTlbClean s
  | .fsmEnable => Sys2Proof.Machine.execFsmEnable s
  | .fsmMigrate => Sys2Proof.Machine.execFsmMigrate s
  | .fsmTcrKernel => Sys2Proof.Machine.execFsmTcrKernel s
  | .fsmFinish => Sys2Proof.Machine.execFsmFinish s
  | .vecInstall => Sys2Proof.Machine.execVecInstall s
  | .vecRelocate => Sys2Proof.Machine.execVecRelocate s
  | .isTranslationEnabled => Sys2Proof.Machine.execIsTranslationEnabled s
  | .setPc => Sys2Proof.Machine.execSetPc s
  | .tlbiLocalAll => Sys2Proof.Machine.execTlbiLocalAll s

end Sys2Proof.Machine
end

