-- ==== Sys2Proof/Machine/Fetch.lean ====
section
/-! DEFINITION. What the machine does next: the environment's next event, and the command the port accepts
(R11, R38, R89, R96, R184, R200). -/

namespace Sys2Proof.Machine

/-- What the next step is. -/
inductive Fetched where
  /-- The core's fetch, or an access of its own, faults: the run ends (R63, R184). -/
  | fault (r : Fault)
  /-- The environment moves, or nothing happens: the state after it. -/
  | moved (s : State)
  /-- The port accepts an operation, to run in this state (R89). -/
  | operation (i : Instr) (s : State)
  /-- The port accepts a reserved opcode (R96). -/
  | reserved (s : State)

/-- The port accepts the opcode `op` (R89). -/
def acceptCommand (op : Byte) (s : State) : Fetched :=
  match decode [op] with
  | .ok (i, _) => .operation i s
  | .error _ => .reserved s

/-- The environment's event `e` happens, `s` being the state without it (notes/assumptions/14). -/
def applyEvent (e : Event) (s : State) : Fetched :=
  match e with
  | .command op => acceptCommand op s
  | .operand i v => .moved { s with ops := s.ops.set i v }
  | .irqMasked b => .moved { s with irqMasked := b }
  | .walkerFill va picks => .moved (walkerFill va picks s)
  | .access va p k pick => if accessFaults s va p k pick then .fault .translationFault else .moved s
  | .reset v => .moved (s.blockReset v)

/-- `s` for the next step's part: its event and its TLB choices taken off. -/
def State.advance (rest : List Event) (s : State) : State := { s with agenda := rest, lookups := s.lookups.tail }

/-- What the next step is: a run whose core cannot fetch ends (R184); with nothing on the agenda nothing happens. -/
def fetch (s : State) : Fetched :=
  if fetchFaults s then .fault .translationFault
  else
    match s.agenda with
    | [] => .moved (s.advance [])
    | e :: rest => applyEvent e (s.advance rest)

/-- A reserved opcode completes with IllegalCommand and changes nothing else (R96). -/
def execReserved (s : State) : Result := s.finish .illegalCommand

/-- The host presents the opcode `w` next, before anything else on the agenda. -/
def placeCommand (s : State) (w : Nat) : State := { s with agenda := .command (BitVec.ofNat 8 w) :: s.agenda }

end Sys2Proof.Machine
end

