-- ==== Sys2Proof/Machine/Step.lean ====
section
/-! DEFINITION. One step of the machine, and how a command is placed where the next step takes it. -/

namespace Sys2Proof.Machine

/-- One step (R11, R12, R89): the run ends if the core cannot fetch (R184); else the environment's next event happens,
and a command runs as one atomic operation. -/
def step (s : State) : Host.Outcome State Fault Refusal :=
  match fetch s with
  | .fault r => .fault r
  | .moved s1 => .next s1
  | .operation i s1 => exec i s1
  | .reserved s1 => execReserved s1

/-- `s` with the operation of `nbits` bits and value `w` next on the agenda: the one format is 8 bits long (R88), and its
operands are the registers A0 to A5 as they stand. notes/assumptions/14. -/
def State.withFetchWord (s : State) (_nbits w : Nat) : State := placeCommand s w

end Sys2Proof.Machine
end

