-- ==== Sys2Proof/Safety.lean ====
section
/-! DEFINITION. What counts as a safe run, in the words the statements use: the invariants of the machine, the end of a
good run (R149), and the frames of the shared operations. -/

namespace Sys2Proof.Machine

/-! ## Operand domains, as arithmetic -/

/-- Bits [11:0] are zero (R52). -/
abbrev Aligned (v : Word) : Prop := v.toNat % 4096 = 0

/-- A physical address below 2^48 (R97 f). -/
abbrev Physical (v : Word) : Prop := v.toNat < 281474976710656

/-- The low-canonical half (R56). -/
abbrev Low (v : Word) : Prop := v.toNat < 281474976710656

/-- The high-canonical half (R56): 0xFFFF_0000_0000_0000 and up. -/
abbrev High (v : Word) : Prop := 18446462598732840960 ≤ v.toNat

/-- A canonical address (R56). -/
abbrev CanonicalAddr (v : Word) : Prop := Low v ∨ High v

/-- A well-formed flags word (R83). -/
abbrev FlagsWord (f : Word) : Prop := f &&& ~~~0x00600000000007DC#64 = 0#64 ∧ f.toNat / 4 % 8 ≤ 3

/-- The ranges of addresses REGISTER accepts (R131). -/
abbrev RegionRange (a b : Word) : Prop :=
  a.toNat ≤ b.toNat ∧ CanonicalAddr a ∧ (a.toNat < b.toNat → CanonicalAddr (b - 1#64) ∧ (Low (b - 1#64) ↔ Low a))

/-- Two half-open ranges are non-empty and share an address (R135). -/
abbrev RangesOverlap (a b c d : Word) : Prop :=
  a.toNat < b.toNat ∧ c.toNat < d.toNat ∧ a.toNat < d.toNat ∧ c.toNat < b.toNat

/-- The states that permit a mutating operation (R121). -/
abbrev MutationState (t : TransState) : Prop :=
  t = .init ∨ t = .mairProgrammed ∨ t = .tcrBootstrapDual ∨ t = .basesLoaded ∨ t = .steady

/-- The states before the enable (R151, R154). -/
abbrev BeforeEnable (t : TransState) : Prop :=
  t = .init ∨ t = .mairProgrammed ∨ t = .tcrBootstrapDual ∨ t = .basesLoaded ∨ t = .tlbClean

/-- The flags let this level make this access (R60, R84): the permission field and the execute-never bits. -/
def AccessAllowed (f : Word) (p : Privilege) (k : AccessKind) : Prop :=
  match p, k with
  | .privileged, .read => True
  | .privileged, .write => f.toNat / 64 % 4 = 0 ∨ f.toNat / 64 % 4 = 1
  | .privileged, .exec => f.getLsbD 53 = false
  | .unprivileged, .read => f.toNat / 64 % 4 = 1 ∨ f.toNat / 64 % 4 = 3
  | .unprivileged, .write => f.toNat / 64 % 4 = 1
  | .unprivileged, .exec => f.getLsbD 54 = false ∧ (f.toNat / 64 % 4 = 1 ∨ f.toNat / 64 % 4 = 3)

/-! ## Runs -/

/-- `t` is reached from `s` by steps that each answer a next state. -/
inductive Reaches (s : State) : State → Prop where
  | refl : Reaches s s
  | step {t u : State} : Reaches s t → step t = .next u → Reaches s u

/-! ## Invariants -/

/-- The memory has its canonical form. -/
abbrev MemoryCanonical (s : State) : Prop := s.mem.wf = true

/-- R41 and R39: no two records of one space overlap, and the registry fits its capacity. -/
def RegistryDisjoint (s : State) : Prop := audit s.registry = [] ∧ s.registry.length ≤ s.cfg.registryCapacity

/-- R27: recorded roots are 4 KiB aligned. -/
def RootsAligned (s : State) : Prop :=
  s.rootsValid = true → s.identityRoot.extractLsb' 0 12 = 0#12 ∧ s.kernelRoot.extractLsb' 0 12 = 0#12

/-- The rank of a state in the strict order of R150; HALTED is none of the nine. -/
def TransState.rank (t : TransState) : Nat := t.code.toNat

/-- The state is one of the nine from rank `lo` to rank `hi`. -/
def State.between (s : State) (lo hi : Nat) : Prop := s.state ≠ .halted ∧ lo ≤ s.state.rank ∧ s.state.rank ≤ hi

/-- What the registers and flags hold at each state of the bring-up sequence (R141 to R152, R24). -/
structure BringUp (s : State) : Prop where
  /-- From MAIR_PROGRAMMED on MAIR holds MAIR_VALUE (R141). -/
  mair : s.between 1 8 → s.sys.mair = s.cfg.mairValue
  /-- From TCR_BOOTSTRAP_DUAL to PC_MIGRATED TCR holds TCR_DUAL_VALUE (R142). -/
  tcrDual : s.between 2 6 → s.sys.tcr = s.cfg.tcrDualValue
  /-- From TCR_KERNEL_ONLY on TCR holds TCR_KONLY_VALUE (R147). -/
  tcrKonly : s.between 7 8 → s.sys.tcr = s.cfg.tcrKonlyValue
  /-- From TCR_BOOTSTRAP_DUAL on `tcr_programmed` is set (R142). -/
  tcrFlag : s.between 2 8 → s.tcrProgrammed = true
  /-- From BASES_LOADED on the roots are valid and in their base registers (R143). -/
  bases : s.between 3 8 → s.rootsValid = true ∧ s.sys.ttbr0 = rootWord s.identityRoot ∧ s.sys.ttbr1 = rootWord s.kernelRoot
  /-- Before TRANSLATION_ON the enable bit is 0 (R46, R145). -/
  xlatOff : s.between 0 4 → s.xlatOn = false
  /-- From TRANSLATION_ON on it is 1 (R145, R209). -/
  xlatOn : s.between 5 8 → s.xlatOn = true
  /-- From TRANSLATION_ON on the vector table is installed (R145). -/
  vecInstalled : s.between 5 8 → s.vecPhysDone = true
  /-- From TCR_KERNEL_ONLY on it is relocated (R147). -/
  vecRelocated : s.between 7 8 → s.vecVirtDone = true
  /-- Before PC_MIGRATED it is not (R152). -/
  vecNotYet : s.between 0 5 → s.vecVirtDone = false
  /-- Installed and not relocated: VBAR holds VEC_PHYS (R151). -/
  vbarPhys : s.between 0 8 → s.vecPhysDone = true → s.vecVirtDone = false → s.sys.vbar = s.cfg.vecPhys
  /-- Relocated: VBAR holds the virtual alias (R152). -/
  vbarVirt : s.between 0 8 → s.vecVirtDone = true → s.sys.vbar = vecAlias s.cfg
  /-- Before TRANSLATION_ON `pc` is low (R46, R154). -/
  pcLow : s.between 0 4 → isLow s.pc = true
  /-- In TRANSLATION_ON it is in the trampoline (R145). -/
  pcTramp : s.between 5 5 → pcInTrampoline s = true
  /-- From PC_MIGRATED on it is high (R146). -/
  pcHigh : s.between 6 8 → isHigh s.pc = true
  /-- No failure is recorded but in HALTED (R24, R188). -/
  noFailure : s.state ≠ .halted → s.failCause = 0#8 ∧ s.failInfo = 0#8
  /-- HALTED records one of the halting causes (R181, R188). -/
  failure : s.state = .halted → s.failCause = 0x01#8 ∨ s.failCause = 0x02#8 ∨ s.failCause = 0x04#8

/-- Every TLB entry is what a walk from the base register of its half gives now, whatever the EPD bits say (R38): an entry
may be stale in the half that is walked no more (R210 a), and in nothing else. -/
def TlbCurrent (s : State) : Prop :=
  ∀ e ∈ s.tlb,
    (isLow e.vaPage = true ∧ walk s.mem (baddr s.sys.ttbr0) e.vaPage = some { pa := e.paPage, flags := e.flags }) ∨
    (isHigh e.vaPage = true ∧ walk s.mem (baddr s.sys.ttbr1) e.vaPage = some { pa := e.paPage, flags := e.flags })

/-- The invariant of the transition window: the bring-up registers, the trampoline dual-mapped while the core runs in
it, the continuation mapped executable in the kernel space after the branch (R145 to R147, R155), and a TLB that holds
nothing the tables did not give (R38, R210). -/
structure TransitionSafe (s : State) : Prop where
  params : s.cfg.wellFormed = true
  bringUp : BringUp s
  dual : s.state = .translationOn → dualMapped s = true
  kernelPc : s.between 6 7 → pcInKernelSpace s = true
  tlbEmpty : s.state = .tlbClean → s.tlb = []
  tlb : s.between 4 7 → s.unseen = [] ∧ TlbCurrent s

/-- From TLB_CLEAN on, between two operations, every write to memory is visible to the walker (R67, R121). -/
def WalkerUpToDate (s : State) : Prop := s.between 4 8 → s.unseen = []

/-- The end of a good run (R12, R149). -/
def GoodEnd (s : State) : Prop :=
  s.state = .steady ∧ s.status = 0x00#8 ∧ s.sys.mair = s.cfg.mairValue ∧ s.sys.tcr = s.cfg.tcrKonlyValue ∧
    s.sys.ttbr0 = rootWord s.identityRoot ∧ s.sys.ttbr1 = rootWord s.kernelRoot ∧ s.xlatOn = true ∧
    s.sys.vbar = vecAlias s.cfg ∧ isHigh s.pc = true

/-! ## Frames -/

/-- `t` differs from `s` at most in memory, in the writes not yet visible, and in the allocator's two fields: what building
tables may change. -/
def TablesOnly (s t : State) : Prop :=
  t = { s with mem := t.mem, unseen := t.unseen, alloc := t.alloc, owned := t.owned }

/-- Every byte of memory outside the eight at `a` reads as before. -/
def OnlyWordChanged (m m' : Memory) (a : Nat) : Prop := ∀ b : Nat, (b < a ∨ a + 8 ≤ b) → m'.read b = m.read b

/-- The allocator has answered the frames `fs` and has `rest` still to answer (R44). -/
def State.took (fs : List Frame) (rest : List AllocAnswers) (s : State) : State :=
  { s with alloc := rest, owned := s.owned ++ fs }

/-- The answers the allocator gives to the next `n` requests, up to the first `Exhausted`, and the answers after those
(R44). Fewer than `n` frames means that `Exhausted` came. -/
def State.grants : Nat → State → List Frame × List AllocAnswers
  | 0, s => ([], s.alloc)
  | n + 1, s =>
    match nextAnswer s.frameFree s.alloc with
    | (none, rest) => ([], rest)
    | (some f, rest) => (f :: (State.grants n (s.took [f] rest)).1, (State.grants n (s.took [f] rest)).2)

/-- The byte `b` lies in frame `f`. -/
abbrev InFrame (b : Nat) (f : Frame) : Prop := 4096 * f.toNat ≤ b ∧ b < 4096 * f.toNat + 4096

/-- The byte `b` lies in the eight at `a`. -/
abbrev InWord (b a : Nat) : Prop := a ≤ b ∧ b < a + 8

/-- The page of `va` within its half: bits [47:12], all that a walk looks at (R87). -/
abbrev pageNumber (va : Word) : Nat := va.toNat / 4096 % 68719476736

/-- Page `k` of the range from `va` up. -/
abbrev pageAt (va : Word) (k : Nat) : Word := va + BitVec.ofNat 64 (4096 * k)

/-- The frames whose slots a walk through the table levels reads (R58, R59). -/
def tablePath (m : Memory) (va : Word) : List (Fin 4) → Frame → List Frame
  | [], _ => []
  | level :: rest, t => t :: tablePath m va rest (frameOf (m.read64 (slotAddr t (idx level va))))

/-- The frames of the tables that exist for `va` under `root`, the level-3 table included: as far as a walk gets. -/
def existingPath (m : Memory) (va : Word) : List (Fin 4) → Frame → List Frame
  | [], t => [t]
  | level :: rest, t =>
    let d := m.read64 (slotAddr t (idx level va))
    if descUsable d then t :: existingPath m va rest (frameOf d) else [t]

/-- The slot MAP_PAGE of `va` stores to among the tables that exist (R112): the first on the path that is no table
descriptor, or the leaf's where all tables exist. -/
def storeSlot (m : Memory) (va : Word) : List (Fin 4) → Frame → Nat
  | [], t => slotAddr t (idx 3 va)
  | level :: rest, t =>
    let d := m.read64 (slotAddr t (idx level va))
    if descUsable d then storeSlot m va rest (frameOf d) else slotAddr t (idx level va)

/-- How many tables `va` lacks under `root`: those MAP_PAGE makes (R112). -/
def missingTables (m : Memory) (root : Frame) (va : Word) : Nat := 4 - (existingPath m va tableLevels root).length

/-- A table descriptor `va` needs is a valid entry with bit 1 clear (R112). -/
def MalformedPath (m : Memory) (root : Frame) (va : Word) : Prop :=
  0 < missingTables m root va ∧ descValid (m.read64 (storeSlot m va tableLevels root)) = true

/-- R37: the tables under `root` are frames the allocator answered, and form a tree: none is reached at two depths, or by
two paths of indices. -/
structure TableTree (s : State) (root : Frame) : Prop where
  owned : ∀ va, ∀ f ∈ existingPath s.mem va tableLevels root, f ∈ s.owned
  tree : ∀ va va' i j f, (existingPath s.mem va tableLevels root)[i]? = some f →
    (existingPath s.mem va' tableLevels root)[j]? = some f →
    i = j ∧ va.toNat % 281474976710656 / 2 ^ (48 - 9 * i) = va'.toNat % 281474976710656 / 2 ^ (48 - 9 * i)

/-- Of the `n` pages from `virt` up, the first `d` are mapped to the frames from `phys` up, and nothing else is (R112,
R113): `t` holds the tables, `j` of the allocator's answers were taken for good. -/
structure PagesMapped (s t : State) (root : Frame) (virt phys flags : Word) (n d j : Nat) : Prop where
  mapped : ∀ k, k < d → walk t.mem root (pageAt virt k) = some { pa := pageAt phys k, flags := flags }
  others : ∀ v, (∀ k, k < d → pageNumber v ≠ pageNumber (pageAt virt k)) → walk t.mem root v = walk s.mem root v
  tree : TableTree t root
  granted : (s.grants j).1.length = j ∧ t.owned = s.owned ++ (s.grants j).1 ∧ j ≤ 3 * d
  memory : ∀ b, (∀ k, k < n → ¬ InWord b (storeSlot s.mem (pageAt virt k) tableLevels root)) →
    (∀ f ∈ (s.grants (3 * n)).1, ¬ InFrame b f) → t.mem.read b = s.mem.read b

/-- The tables that exist for `va` under `root` are frames the allocator answered, none of them twice (R37: a tree of
Frame Allocator-owned pages). -/
def OwnedPath (s : State) (root : Frame) (va : Word) : Prop :=
  (existingPath s.mem va tableLevels root).Nodup ∧ ∀ f ∈ existingPath s.mem va tableLevels root, f ∈ s.owned

/-- The tables for `va` under `root` exist and lead to the level-3 table at `t`, which is none of them (R57, R37: a tree). -/
def LeafTable (m : Memory) (root : Frame) (va : Word) (t : Frame) : Prop :=
  walkTables (fun _ a => m.read64 a) va tableLevels root = some t ∧ t ∉ tablePath m va tableLevels root

end Sys2Proof.Machine
end

