-- ==== Sys2Proof/Certificates/Slice0/Obligations.lean ====
section
/-! DEFINITION. The statements for the provers, rule by rule of spec/. Results are written as equations of states, so each
says the result, the completion and the frame at once. `rspValid := true` is the output of R89 (notes/assumptions/10). -/

open Sys2Proof Sys2Proof.Machine

/-! ## Encoding, decoding and the step -/

/-- R88, R90, R98: an opcode byte decodes to an operation exactly when it is that operation's one-byte encoding. -/
def Obligations.OpcodeByteDecodesExactlyItsOperation : Prop :=
  ∀ (op : Byte) (i : Instr), decode [op] = .ok (i, []) ↔ encode i = [op]

/-- R90: the 29 rows of the opcode map, each opcode written out in bits, and two reserved opcodes. -/
def Obligations.TabulatedOpcodesDecodeAsListed : Prop :=
  (∀ row ∈ ([
      (0b00000001#8, .pteEncLeaf), (0b00000010#8, .pteEncTable), (0b00000011#8, .pteDec), (0b00000100#8, .pteSummary),
      (0b00010000#8, .createTable), (0b00010001#8, .mapPage), (0b00010010#8, .mapRange), (0b00010011#8, .walk),
      (0b00010100#8, .newPair), (0b00010101#8, .baseOf), (0b00010110#8, .getKernelRoot), (0b00010111#8, .translate),
      (0b00100000#8, .register), (0b00100001#8, .audit), (0b00100010#8, .walkAndReport), (0b00100011#8, .registerRegion),
      (0b00110000#8, .fsmMair), (0b00110001#8, .fsmTcrDual), (0b00110010#8, .fsmBases), (0b00110011#8, .fsmTlbClean),
      (0b00110100#8, .fsmEnable), (0b00110101#8, .fsmMigrate), (0b00110110#8, .fsmTcrKernel), (0b00110111#8, .fsmFinish),
      (0b00111000#8, .vecInstall), (0b00111001#8, .vecRelocate), (0b00111010#8, .isTranslationEnabled), (0b00111011#8, .setPc),
      (0b01000000#8, .tlbiLocalAll)] : List (Byte × Instr)),
    decode [row.1] = .ok (row.2, [])) ∧
  decode [0b01000001#8] = .error (.reservedOpcode 0x41#8) ∧ decode [0b00000000#8] = .error (.reservedOpcode 0x00#8)

/-- R96: an opcode that is not in the table of R90 completes with IllegalCommand and changes nothing else. The agenda, the
TLB choices taken off and the condition that the core can fetch are the model's (notes/assumptions/14, 19 and 20). -/
def Obligations.ReservedOpcodeCompletesWithIllegalCommand : Prop :=
  ∀ (s : State) (op : Byte) (rest : List Event), fetchFaults s = false → s.agenda = .command op :: rest →
    op ∉ [0x01#8, 0x02#8, 0x03#8, 0x04#8, 0x10#8, 0x11#8, 0x12#8, 0x13#8, 0x14#8, 0x15#8, 0x16#8, 0x17#8, 0x20#8, 0x21#8,
      0x22#8, 0x23#8, 0x30#8, 0x31#8, 0x32#8, 0x33#8, 0x34#8, 0x35#8, 0x36#8, 0x37#8, 0x38#8, 0x39#8, 0x3A#8, 0x3B#8,
      0x40#8] →
    step s = .next { s with agenda := rest, lookups := s.lookups.tail, status := 0x10#8, rspValid := true }

/-- A step runs the operation the presented opcode decodes to, in the state without the command (R89) and without
the step's own TLB choices. The agenda, the choices and the condition that the core can fetch are the model's
(notes/assumptions/14, 19 and 20). -/
def Obligations.StepRunsTheDecodedCommand : Prop :=
  ∀ (s : State) (op : Byte) (rest : List Event) (i : Instr), fetchFaults s = false → s.agenda = .command op :: rest →
    i.wellFormed = true → decode [op] = .ok (i, []) →
      step s = exec i { s with agenda := rest, lookups := s.lookups.tail }

/-- R184, R63: with translation on, a `pc` that does not translate to an executable page ends the run, and so does in
TRANSLATION_ON such a page of the trampoline, and an access of the core's own that no mapping allows (R60); with
translation off nothing faults. A translation is `HwTranslate`'s, or an entry the TLB holds for the page (R62, R210). That
the check stands before each step, that it takes in every page of the trampoline and that a halted core fetches nothing is
the model's reading (notes/assumptions/20), and so is the form of the choices in `lookups` (notes/assumptions/19). -/
def Obligations.UntranslatableFetchEndsTheRun : Prop :=
  ∀ s : State,
    (s.sys.sctlr &&& s.cfg.mMask = 0#64 ∨ s.state = .halted → fetchFaults s = false) ∧
    (s.sys.sctlr &&& s.cfg.mMask ≠ 0#64 → s.state ≠ .halted → ∀ pcPick pagePicks,
      pcPick = (s.lookups.headD []).headD 0 → pagePicks = (s.lookups.headD []).tail →
      ((∀ pa f, coreTranslate pcPick s s.pc = some { pa := pa, flags := some f } → f.getLsbD 53 = true) →
        step s = .fault .translationFault) ∧
      (s.state = .translationOn → ∀ k, s.cfg.trampStart.toNat + 4096 * k < s.cfg.trampEnd.toNat →
        (∀ pa f, coreTranslate (pagePicks.getD k 0) s (s.cfg.trampStart + BitVec.ofNat 64 (4096 * k)) =
          some { pa := pa, flags := some f } → f.getLsbD 53 = true) →
        step s = .fault .translationFault) ∧
      (fetchFaults s = false ↔
        (∃ pa f, coreTranslate pcPick s s.pc = some { pa := pa, flags := some f } ∧ f.getLsbD 53 = false) ∧
        (s.state = .translationOn → ∀ k, s.cfg.trampStart.toNat + 4096 * k < s.cfg.trampEnd.toNat →
          ∃ pa f, coreTranslate (pagePicks.getD k 0) s (s.cfg.trampStart + BitVec.ofNat 64 (4096 * k)) =
            some { pa := pa, flags := some f } ∧ f.getLsbD 53 = false))) ∧
    (∀ va p k pick rest, fetchFaults s = false → s.agenda = .access va p k pick :: rest →
      (s.sys.sctlr &&& s.cfg.mMask ≠ 0#64 → s.state ≠ .halted →
        (∀ pa f, coreTranslate pick s va = some { pa := pa, flags := some f } → ¬ AccessAllowed f p k) →
        step s = .fault .translationFault) ∧
      ((s.sys.sctlr &&& s.cfg.mMask = 0#64 ∨ s.state = .halted ∨
          ∃ pa f, coreTranslate pick s va = some { pa := pa, flags := some f } ∧ AccessAllowed f p k) →
        step s = .next { s with agenda := rest, lookups := s.lookups.tail })) ∧
    (∀ pick va, (pick = 0 ∨ tlbHits s va = [] ∨ s.sys.sctlr &&& s.cfg.mMask = 0#64) →
      coreTranslate pick s va = hwTranslate s va) ∧
    (s.sys.sctlr &&& s.cfg.mMask ≠ 0#64 → ∀ va k e, (tlbHits s va)[k]? = some e →
      coreTranslate (k + 1) s va = some (e.toHw va))

/-- R12, R175: every operation answers a next state, raises `rsp_valid`, and leaves parameters, operand registers, the
host's agenda and `irq_masked` alone; in particular none is stuck and none is refused. The one exception is a VEC_INSTALL
under a VEC_PHYS and VEC_SIZE that break R8, where the copy's accesses break R50 (notes/assumptions/24). -/
def Obligations.EveryOperationAnswers : Prop :=
  ∀ (i : Instr) (s : State),
    (∃ t, exec i s = .next t ∧ t.rspValid = true ∧ t.cfg = s.cfg ∧ t.ops = s.ops ∧ t.agenda = s.agenda ∧
      t.lookups = s.lookups ∧ t.irqMasked = s.irqMasked) ∨
    (i = .vecInstall ∧ exec i s = .fault .physicalAccess ∧ s.cfg.vecOk = false)

/-- R191: in HALTED every opcode, reserved or not, completes with IllegalCommand and changes nothing else; `cmd_ready`
stays 1; no step but a reset leaves HALTED or changes the recorded cause. The form of the step is the model's: the agenda
(notes/assumptions/14), the TLB choices taken off (notes/assumptions/19), that a halted core's fetch is not checked
(notes/assumptions/20), and that `cmd_ready` is 1 between any two steps (notes/assumptions/15). -/
def Obligations.HaltedAnswersIllegalCommandUntilReset : Prop :=
  ∀ s : State, s.state = .halted →
    s.cmdReady = true ∧
    (∀ op rest, s.agenda = .command op :: rest →
      step s = .next { s with agenda := rest, lookups := s.lookups.tail, status := 0x10#8, rspValid := true }) ∧
    (∀ t, step s = .next t → (t.state = .halted ∧ t.failCause = s.failCause ∧ t.failInfo = s.failInfo ∧
      t.console = s.console) ∨ ∃ v rest, s.agenda = .reset v :: rest)

/-- R20, R26: between operations the host writes one operand register, or drives `irq_masked`, and nothing else changes.
That the host's acts stand on an agenda, the TLB choices and the condition on the fetch are the model's
(notes/assumptions/14, 19 and 20). -/
def Obligations.HostDrivesOperandsAndMask : Prop :=
  ∀ (s : State) (v : Word) (b : Bool) (rest : List Event), fetchFaults s = false →
    (s.agenda = .operand 0 v :: rest →
      step s = .next { s with agenda := rest, lookups := s.lookups.tail, ops := { s.ops with a0 := v } }) ∧
    (s.agenda = .operand 1 v :: rest →
      step s = .next { s with agenda := rest, lookups := s.lookups.tail, ops := { s.ops with a1 := v } }) ∧
    (s.agenda = .operand 2 v :: rest →
      step s = .next { s with agenda := rest, lookups := s.lookups.tail, ops := { s.ops with a2 := v } }) ∧
    (s.agenda = .operand 3 v :: rest →
      step s = .next { s with agenda := rest, lookups := s.lookups.tail, ops := { s.ops with a3 := v } }) ∧
    (s.agenda = .operand 4 v :: rest →
      step s = .next { s with agenda := rest, lookups := s.lookups.tail, ops := { s.ops with a4 := v } }) ∧
    (s.agenda = .operand 5 v :: rest →
      step s = .next { s with agenda := rest, lookups := s.lookups.tail, ops := { s.ops with a5 := v } }) ∧
    (s.agenda = .irqMasked b :: rest →
      step s = .next { s with agenda := rest, lookups := s.lookups.tail, irqMasked := b })

/-- R200, R46: a reset, whatever values it leaves in what R46 does not specify, gives the block's own state its reset
values, with translation off and `pc` low. That reset is one event of the agenda, the
TLB choices and the condition on the fetch are the model's (notes/assumptions/14, 16, 19 and 20). -/
def Obligations.ResetEventGivesTheResetValues : Prop :=
  ∀ (s : State) (v : ResetValues) (rest : List Event), fetchFaults s = false → s.agenda = .reset v :: rest →
    ∃ t, step s = .next t ∧ t.agenda = rest ∧ t.lookups = s.lookups.tail ∧ t.state = .init ∧ t.status = 0#8 ∧
      t.failCause = 0#8 ∧ t.failInfo = 0#8 ∧
      t.tcrProgrammed = false ∧ t.vecPhysDone = false ∧ t.vecVirtDone = false ∧ t.rootsValid = false ∧
      t.registry = [] ∧ t.owned = [] ∧ t.console = [] ∧ t.xlatOn = false ∧ Low t.pc ∧ t.irqMaskReq = true ∧
      t.cmdReady = true ∧ t.irqMasked = s.irqMasked ∧ t.cfg = s.cfg ∧ t.mem.wf = true

/-- R46: what the table gives a value, at `State.reset`. -/
def Obligations.ResetStateHoldsTheTabulatedValues : Prop :=
  State.reset.state = .init ∧ State.reset.stateCode = 0#4 ∧ State.reset.failCause = 0#8 ∧ State.reset.failInfo = 0#8 ∧
    State.reset.status = 0#8 ∧ Low State.reset.pc ∧ State.reset.tcrProgrammed = false ∧
    State.reset.vecPhysDone = false ∧ State.reset.vecVirtDone = false ∧ State.reset.rootsValid = false ∧
    State.reset.irqMaskReq = true ∧ State.reset.xlatOn = false ∧ State.reset.registry = [] ∧ State.reset.owned = [] ∧
    State.reset.console = []

/-- R38: with every write visible, a fill changes the TLB only, adds only entries `HwTranslate` gives now, adds nothing
while translation is off, and adds the page's entry when the page translates. The event, the list of writes not yet visible,
the TLB choices and the condition on the fetch are the model's (notes/assumptions/14, 18, 19 and 20). -/
def Obligations.WalkerFillsCurrentTranslationsOnly : Prop :=
  ∀ (s : State) (va : Word) (picks : List Nat) (rest : List Event), fetchFaults s = false →
    s.agenda = .walkerFill va picks :: rest → s.unseen = [] →
    ∃ t, step s = .next t ∧ t = { s with agenda := rest, lookups := s.lookups.tail, tlb := t.tlb } ∧
      (∀ e ∈ s.tlb, e ∈ t.tlb) ∧
      (∀ e ∈ t.tlb, e ∈ s.tlb ∨
        (s.xlatOn = true ∧ hwTranslate s e.vaPage = some { pa := e.paPage, flags := some e.flags })) ∧
      (∀ pa f, hwTranslate s (va &&& 0xFFFFFFFFFFFFF000#64) = some { pa := pa, flags := some f } →
        { vaPage := va &&& 0xFFFFFFFFFFFFF000#64, paPage := pa, flags := f } ∈ t.tlb)

/-! ## Sub-block PTE -/

/-- R101: PTE_ENC_LEAF, every branch of its pseudocode and its halt in a debug build. -/
def Obligations.LeafEncodingFollowsItsRule : Prop :=
  decode [0x01#8] = .ok (.pteEncLeaf, []) ∧
  ∀ s : State,
    (s.state = .halted → exec .pteEncLeaf s = .next { s with status := 0x10#8, rspValid := true }) ∧
    (s.state ≠ .halted →
      (¬ Aligned s.ops.a0 → s.cfg.debugHaltOnAlignment = false →
        exec .pteEncLeaf s = .next { s with status := 0x02#8, rspValid := true }) ∧
      (¬ Aligned s.ops.a0 → s.cfg.debugHaltOnAlignment = true →
        exec .pteEncLeaf s = .next (s.halted .alignmentError .alignment)) ∧
      (Aligned s.ops.a0 → ¬ (Physical s.ops.a0 ∧ FlagsWord s.ops.a1) →
        exec .pteEncLeaf s = .next { s with status := 0x11#8, rspValid := true }) ∧
      (Aligned s.ops.a0 → Physical s.ops.a0 → FlagsWord s.ops.a1 →
        exec .pteEncLeaf s = .next { s with
          res := { s.res with r0 := s.ops.a0 ||| s.ops.a1 ||| 3#64 }, status := 0x00#8, rspValid := true }))

/-- R102: PTE_ENC_TABLE, every branch of its pseudocode and its halt in a debug build. -/
def Obligations.TableEncodingFollowsItsRule : Prop :=
  decode [0x02#8] = .ok (.pteEncTable, []) ∧
  ∀ s : State,
    (s.state = .halted → exec .pteEncTable s = .next { s with status := 0x10#8, rspValid := true }) ∧
    (s.state ≠ .halted →
      (¬ Aligned s.ops.a0 → s.cfg.debugHaltOnAlignment = false →
        exec .pteEncTable s = .next { s with status := 0x02#8, rspValid := true }) ∧
      (¬ Aligned s.ops.a0 → s.cfg.debugHaltOnAlignment = true →
        exec .pteEncTable s = .next (s.halted .alignmentError .alignment)) ∧
      (Aligned s.ops.a0 → ¬ Physical s.ops.a0 →
        exec .pteEncTable s = .next { s with status := 0x11#8, rspValid := true }) ∧
      (Aligned s.ops.a0 → Physical s.ops.a0 →
        exec .pteEncTable s = .next { s with
          res := { s.res with r0 := s.ops.a0 ||| 3#64 }, status := 0x00#8, rspValid := true }))

/-- R103: PTE_DEC, every branch of its pseudocode. -/
def Obligations.DescriptorDecodingFollowsItsRule : Prop :=
  decode [0x03#8] = .ok (.pteDec, []) ∧
  ∀ s : State,
    (s.state = .halted → exec .pteDec s = .next { s with status := 0x10#8, rspValid := true }) ∧
    (s.state ≠ .halted →
      (3 < s.ops.a1.toNat → exec .pteDec s = .next { s with status := 0x11#8, rspValid := true }) ∧
      (s.ops.a1.toNat ≤ 3 →
        exec .pteDec s = .next { s with
          res := { s.res with
            r0 := if s.ops.a0.getLsbD 0 = false then 0#64 else if s.ops.a0.getLsbD 1 = false then 3#64
              else if s.ops.a1.toNat < 3 then 1#64 else 2#64
            r1 := if s.ops.a0.getLsbD 0 = false then 0#64 else s.ops.a0 &&& 0x0000FFFFFFFFF000#64
            r2 := if s.ops.a0.getLsbD 0 = false then 0#64
              else if s.ops.a0.getLsbD 1 = true ∧ s.ops.a1.toNat < 3 then 0#64
              else s.ops.a0 &&& 0x00600000000007DC#64 }
          status := 0x00#8, rspValid := true }))

/-- R104: PTE_SUMMARY prints and changes nothing but STATUS and the console. -/
def Obligations.SummaryPrintsTheDescriptor : Prop :=
  decode [0x04#8] = .ok (.pteSummary, []) ∧
  ∀ s : State,
    (s.state = .halted → exec .pteSummary s = .next { s with status := 0x10#8, rspValid := true }) ∧
    (s.state ≠ .halted →
      (3 < s.ops.a1.toNat → exec .pteSummary s = .next { s with status := 0x11#8, rspValid := true }) ∧
      (s.ops.a1.toNat ≤ 3 → ∀ (names : List ConsoleItem) (flagLines : List ConsoleItem),
        flagLines = [
          .line (if s.ops.a0.toNat / 4 % 8 = 0 then .deviceSo else if s.ops.a0.toNat / 4 % 8 = 1 then .normal
            else if s.ops.a0.toNat / 4 % 8 = 2 then .normalNc else if s.ops.a0.toNat / 4 % 8 = 3 then .deviceG
            else .attrReserved),
          .line (if s.ops.a0.toNat / 64 % 4 = 0 then .kernelRw else if s.ops.a0.toNat / 64 % 4 = 1 then .userRw
            else if s.ops.a0.toNat / 64 % 4 = 2 then .kernelRo else .userRo),
          .line (if s.ops.a0.toNat / 256 % 4 = 0 then .shNone else if s.ops.a0.toNat / 256 % 4 = 1 then .shReserved
            else if s.ops.a0.toNat / 256 % 4 = 2 then .shOuter else .shInner),
          .line (if s.ops.a0.getLsbD 10 = true then .af else .noAf),
          .line (if s.ops.a0.getLsbD 53 = true then .pxn else .px),
          .line (if s.ops.a0.getLsbD 54 = true then .uxn else .ux)] →
        names = (if s.ops.a0.getLsbD 0 = false then [.line .invalid]
          else if s.ops.a0.getLsbD 1 = false then
            [.line .malformed, .line .oa, .hex (s.ops.a0 &&& 0x0000FFFFFFFFF000#64)] ++ flagLines
          else if s.ops.a1.toNat < 3 then [.line .table, .line .oa, .hex (s.ops.a0 &&& 0x0000FFFFFFFFF000#64)]
          else [.line .leaf, .line .oa, .hex (s.ops.a0 &&& 0x0000FFFFFFFFF000#64)] ++ flagLines) →
        exec .pteSummary s = .next { s with
          console := s.console ++ [.line .pte, .hex s.ops.a0] ++ names, status := 0x00#8, rspValid := true }))

/-- R105: PTE_DEC gives back what PTE_ENC_LEAF and PTE_ENC_TABLE encoded, run one after the other. -/
def Obligations.DecodingReturnsWhatWasEncoded : Prop :=
  ∀ (s : State) (phys flags level : Word), s.state ≠ .halted → Aligned phys → Physical phys →
    (FlagsWord flags →
      ∃ t u, exec .pteEncLeaf { s with ops := { s.ops with a0 := phys, a1 := flags } } = .next t ∧
        exec .pteDec { t with ops := { t.ops with a0 := t.res.r0, a1 := 3#64 } } = .next u ∧
        u.status = 0x00#8 ∧ u.res.r0 = 2#64 ∧ u.res.r1 = phys ∧ u.res.r2 = flags) ∧
    (level.toNat < 3 →
      ∃ t u, exec .pteEncTable { s with ops := { s.ops with a0 := phys } } = .next t ∧
        exec .pteDec { t with ops := { t.ops with a0 := t.res.r0, a1 := level } } = .next u ∧
        u.status = 0x00#8 ∧ u.res.r0 = 1#64 ∧ u.res.r1 = phys)

/-! ## Sub-block TWE -/

/-- R111: CREATE_TABLE. In STEADY it ends with the barrier of R121 (notes/assumptions/23). The allocator's answers to
come are the model's form of R44's oracle (notes/assumptions/13). -/
def Obligations.CreateTableAnswersAZeroedFrame : Prop :=
  ∀ s : State,
    (¬ MutationState s.state → exec .createTable s = .next { s with status := 0x10#8, rspValid := true }) ∧
    (MutationState s.state →
      (∀ rest, nextAnswer s.frameFree s.alloc = (none, rest) →
        exec .createTable s = .next ({ s with alloc := rest }.halted .allocationExhausted .allocatorExhausted)) ∧
      (∀ f rest, nextAnswer s.frameFree s.alloc = (some f, rest) →
        ∃ t, exec .createTable s = .next t ∧
          t = { s with
            res := { s.res with r0 := frameAddr f }, status := 0x00#8, rspValid := true, alloc := rest
            owned := s.owned ++ [f], mem := t.mem, unseen := if s.state = .steady then [] else s.unseen } ∧
          ∀ a, t.mem.read a = if 4096 * f.toNat ≤ a ∧ a < 4096 * f.toNat + 4096 then 0#8 else s.mem.read a))

/-- R44: the frame AllocFrame answers is not owned, overlaps neither the vector table's page nor the trampoline, reads as
zero, and is owned from then on; every other byte of memory stays. -/
def Obligations.AllocatorAnswersAFreshZeroedFrame : Prop :=
  ∀ (s t : State) (f : Frame), s.cfg.wellFormed = true → allocFrame s = (some f, t) →
    f ∉ s.owned ∧
    (4096 * f.toNat + 4096 ≤ s.cfg.vecPhys.toNat ∨ s.cfg.vecPhys.toNat + 4096 ≤ 4096 * f.toNat) ∧
    (4096 * f.toNat + 4096 ≤ s.cfg.trampStart.toNat ∨ s.cfg.trampEnd.toNat ≤ 4096 * f.toNat) ∧
    t = { s with alloc := t.alloc, owned := s.owned ++ [f], mem := t.mem } ∧
    (∀ k, k < 4096 → t.mem.read (4096 * f.toNat + k) = 0#8) ∧
    (∀ a, (a < 4096 * f.toNat ∨ 4096 * f.toNat + 4096 ≤ a) → t.mem.read a = s.mem.read a)

/-- R115: NEW_PAIR, with both of its exhaustions (the first root is given back when the second cannot be had). -/
def Obligations.NewPairMakesTwoZeroedRoots : Prop :=
  ∀ s : State,
    ((s.rootsValid = true ∨ ¬ (s.state = .init ∨ s.state = .mairProgrammed ∨ s.state = .tcrBootstrapDual)) →
      exec .newPair s = .next { s with status := 0x10#8, rspValid := true }) ∧
    (s.rootsValid = false → (s.state = .init ∨ s.state = .mairProgrammed ∨ s.state = .tcrBootstrapDual) →
      (∀ rest, nextAnswer s.frameFree s.alloc = (none, rest) →
        exec .newPair s = .next ({ s with alloc := rest }.halted .allocationExhausted .allocatorExhausted)) ∧
      (∀ p0 rest, nextAnswer s.frameFree s.alloc = (some p0, rest) →
        (∀ rest', nextAnswer { s with owned := s.owned ++ [p0] }.frameFree rest = (none, rest') →
          ∃ m, exec .newPair s =
              .next ({ s with alloc := rest', mem := m }.halted .allocationExhausted .allocatorExhausted) ∧
            ∀ a, m.read a = if 4096 * p0.toNat ≤ a ∧ a < 4096 * p0.toNat + 4096 then 0#8 else s.mem.read a) ∧
        (∀ p1 rest', nextAnswer { s with owned := s.owned ++ [p0] }.frameFree rest = (some p1, rest') →
          p0 ≠ p1 ∧
          ∃ t, exec .newPair s = .next t ∧
            t = { s with
              res := { s.res with r0 := frameAddr p0, r1 := frameAddr p1 }, status := 0x00#8, rspValid := true
              alloc := rest', owned := s.owned ++ [p0] ++ [p1], mem := t.mem, identityRoot := p0 ++ 0#12
              kernelRoot := p1 ++ 0#12, rootsValid := true } ∧
            ∀ a, t.mem.read a =
              if (4096 * p0.toNat ≤ a ∧ a < 4096 * p0.toNat + 4096) ∨ (4096 * p1.toNat ≤ a ∧ a < 4096 * p1.toNat + 4096)
              then 0#8 else s.mem.read a)))

/-- R112 where the tables for `virt` exist: MAP_PAGE writes one leaf, the eight bytes of its slot are all of memory that
changes, and a walk then gives the mapping; in STEADY the barrier follows, and the TLB sequence if a valid leaf was
replaced by a different value (R121). -/
def Obligations.MapPageWritesTheLeaf : Prop :=
  ∀ (s : State) (t : Frame), MemoryCanonical s → MutationState s.state →
    Aligned s.ops.a0 → Aligned s.ops.a1 → Aligned s.ops.a2 → Physical s.ops.a0 → CanonicalAddr s.ops.a1 →
    Physical s.ops.a2 → FlagsWord s.ops.a3 → LeafTable s.mem (frameOf s.ops.a0) s.ops.a1 t →
    ∃ u, exec .mapPage s = .next u ∧
      u = { s with
        status := 0x00#8, rspValid := true, mem := u.mem
        unseen := if s.state = .steady then [] else u.unseen
        tlb := if s.state = .steady ∧ descUsable (s.mem.read64 (slotAddr t (idx 3 s.ops.a1))) = true ∧
            s.mem.read64 (slotAddr t (idx 3 s.ops.a1)) ≠ s.ops.a2 ||| s.ops.a3 ||| 3#64 then [] else s.tlb } ∧
      u.mem.read64 (slotAddr t (idx 3 s.ops.a1)) = s.ops.a2 ||| s.ops.a3 ||| 3#64 ∧
      OnlyWordChanged s.mem u.mem (slotAddr t (idx 3 s.ops.a1)) ∧
      walk u.mem (frameOf s.ops.a0) s.ops.a1 = some { pa := s.ops.a2, flags := s.ops.a3 }

/-- R112 where `n > 0` tables for `virt` are missing, the existing ones are owned (R37) and the allocator answers `n` frames:
MAP_PAGE completes; the frames become owned, in order; each is linked into the slot of `virt` in the table before it, the
first into the slot where the existing tables end; the last holds the leaf; every other slot of the frames is zero; no
other byte changes; the TLB stays, nothing valid having been replaced (R121). -/
def Obligations.MapPageMakesTheMissingTables : Prop :=
  ∀ (s : State) (root : Frame) (n : Nat) (fs : List Frame) (rest : List AllocAnswers), MemoryCanonical s →
    MutationState s.state → Aligned s.ops.a0 → Aligned s.ops.a1 → Aligned s.ops.a2 → Physical s.ops.a0 →
    CanonicalAddr s.ops.a1 → Physical s.ops.a2 → FlagsWord s.ops.a3 → root = frameOf s.ops.a0 →
    OwnedPath s root s.ops.a1 → ¬ MalformedPath s.mem root s.ops.a1 → n = missingTables s.mem root s.ops.a1 → 0 < n →
    s.grants n = (fs, rest) → fs.length = n →
    ∃ u, exec .mapPage s = .next u ∧
      u = { s with
        status := 0x00#8, rspValid := true, mem := u.mem, alloc := rest, owned := s.owned ++ fs
        unseen := if s.state = .steady then [] else u.unseen } ∧
      (∀ f, fs.head? = some f →
        u.mem.read64 (storeSlot s.mem s.ops.a1 tableLevels root) = frameAddr f ||| 3#64) ∧
      (∀ k f g i, fs[k]? = some f → fs[k + 1]? = some g →
        i.toNat = s.ops.a1.toNat / 2 ^ (39 - 9 * (4 - n + k)) % 512 →
        u.mem.read64 (slotAddr f i) = frameAddr g ||| 3#64) ∧
      (∀ f, fs.getLast? = some f →
        u.mem.read64 (slotAddr f (idx 3 s.ops.a1)) = s.ops.a2 ||| s.ops.a3 ||| 3#64) ∧
      (∀ k f i, fs[k]? = some f → i.toNat ≠ s.ops.a1.toNat / 2 ^ (39 - 9 * (4 - n + k)) % 512 →
        u.mem.read64 (slotAddr f i) = 0#64) ∧
      (∀ b, ¬ InWord b (storeSlot s.mem s.ops.a1 tableLevels root) → (∀ f ∈ fs, ¬ InFrame b f) →
        u.mem.read b = s.mem.read b) ∧
      walk u.mem root s.ops.a1 = some { pa := s.ops.a2, flags := s.ops.a3 }

/-- R122 (a): a MAP_PAGE that returns OK, whether it found the tables or made them, is followed by a walk that returns
exactly the mapping. The tables that exist on the path are allocated frames, none twice (R37). -/
def Obligations.MapPageThenWalkReturnsTheMapping : Prop :=
  ∀ s t : State, MemoryCanonical s → OwnedPath s (frameOf s.ops.a0) s.ops.a1 →
    exec .mapPage s = .next t → t.status = 0x00#8 →
    walk t.mem (frameOf s.ops.a0) s.ops.a1 = some { pa := s.ops.a2, flags := s.ops.a3 }

/-- R122 (d): whatever MAP_PAGE answers, no other page's walk changes. Under a tree of owned tables (R37), whether it found
the tables, made them or gave them back: every page of another number, and the tables are a tree still. Under another root
whose tables for `v` are owned and none of those of `virt`: every page. And where the tables for `virt` exist, without a
premise on the rest of the tree: every page whose own tables do not pass through the level-3 table of `virt`. -/
def Obligations.MapPageMovesNoOtherTranslation : Prop :=
  ∀ s u : State, exec .mapPage s = .next u →
    (MemoryCanonical s → TableTree s (frameOf s.ops.a0) →
      TableTree u (frameOf s.ops.a0) ∧
      ∀ v, pageNumber v ≠ pageNumber s.ops.a1 → walk u.mem (frameOf s.ops.a0) v = walk s.mem (frameOf s.ops.a0) v) ∧
    (MemoryCanonical s → OwnedPath s (frameOf s.ops.a0) s.ops.a1 →
      ∀ r v, (∀ f ∈ existingPath s.mem v tableLevels r,
          f ∈ s.owned ∧ f ∉ existingPath s.mem s.ops.a1 tableLevels (frameOf s.ops.a0)) →
        walk u.mem r v = walk s.mem r v) ∧
    (∀ (t r : Frame) (v : Word), LeafTable s.mem (frameOf s.ops.a0) s.ops.a1 t → t ∉ tablePath s.mem v tableLevels r →
      (walkTables (fun _ a => s.mem.read64 a) v tableLevels r = some t → idx 3 v ≠ idx 3 s.ops.a1) →
      walk u.mem r v = walk s.mem r v)

/-- R122 (e), R112: a MAP_PAGE that does not return OK leaves the allocator's owned frames as they were. On a valid entry
that is no table it returns MalformedDescriptor, without a halt, and changes nothing else. When the allocator is exhausted
it halts with AllocationExhausted; the slot it had linked is back at zero, the frames it had taken read as zero, no other
byte changes. -/
def Obligations.FailedMapPageGivesItsFramesBack : Prop :=
  (∀ s t : State, exec .mapPage s = .next t → t.status ≠ 0x00#8 → t.owned = s.owned) ∧
  ∀ (s : State) (root : Frame), MutationState s.state → Aligned s.ops.a0 → Aligned s.ops.a1 → Aligned s.ops.a2 →
    Physical s.ops.a0 → CanonicalAddr s.ops.a1 → Physical s.ops.a2 → FlagsWord s.ops.a3 → root = frameOf s.ops.a0 →
    (MalformedPath s.mem root s.ops.a1 →
      exec .mapPage s = .next { s with status := 0x12#8, rspValid := true }) ∧
    (MemoryCanonical s → OwnedPath s root s.ops.a1 → ¬ MalformedPath s.mem root s.ops.a1 → ∀ fs rest,
      s.grants (missingTables s.mem root s.ops.a1) = (fs, rest) → fs.length < missingTables s.mem root s.ops.a1 →
      ∃ m unseen u, exec .mapPage s = .next u ∧
        u = { s with alloc := rest, mem := m, unseen := unseen }.halted .allocationExhausted .allocatorExhausted ∧
        u.status = 0x01#8 ∧ u.state = .halted ∧ u.failCause = 0x01#8 ∧ u.failInfo = 20#8 ∧ u.owned = s.owned ∧
        (∀ b, (∃ f ∈ fs, InFrame b f) → m.read b = 0#8) ∧
        ∀ b, (∀ f ∈ fs, ¬ InFrame b f) →
          m.read b = if fs ≠ [] ∧ InWord b (storeSlot s.mem s.ops.a1 tableLevels root) then 0#8 else s.mem.read b)

/-- R121: from TLB_CLEAN to TCR_KERNEL_ONLY, and in HALTED, the five mutating operations are refused and change nothing
else. -/
def Obligations.MutationsRefusedInTheTransitionWindow : Prop :=
  ∀ (s : State) (i : Instr),
    (s.state = .tlbClean ∨ s.state = .translationOn ∨ s.state = .pcMigrated ∨ s.state = .tcrKernelOnly ∨
      s.state = .halted) →
    (i = .createTable ∨ i = .mapPage ∨ i = .mapRange ∨ i = .register ∨ i = .registerRegion) →
    exec i s = .next { s with status := 0x10#8, rspValid := true }

/-- R119 (2), R181: an operand that must be page aligned and is not is reported before anything else about the operands,
and halts in a debug build; nothing is mapped. -/
def Obligations.MisalignedAddressesAreReported : Prop :=
  ∀ (s : State) (i : Instr),
    ((i = .mapPage ∧ MutationState s.state ∧ ¬ (Aligned s.ops.a0 ∧ Aligned s.ops.a1 ∧ Aligned s.ops.a2)) ∨
      (i = .mapRange ∧ MutationState s.state ∧
        ¬ (Aligned s.ops.a0 ∧ Aligned s.ops.a1 ∧ Aligned s.ops.a2 ∧ Aligned s.ops.a3)) ∨
      (i = .walk ∧ s.state ≠ .halted ∧ ¬ Aligned s.ops.a0) ∨
      (i = .registerRegion ∧ MutationState s.state ∧ s.rootsValid = true ∧
        ¬ (Aligned s.ops.a1 ∧ Aligned s.ops.a2 ∧ Aligned s.ops.a3))) →
    (s.cfg.debugHaltOnAlignment = false → exec i s = .next { s with status := 0x02#8, rspValid := true }) ∧
    (s.cfg.debugHaltOnAlignment = true → exec i s = .next (s.halted .alignmentError .alignment))

/-- R119 (3): an aligned operand outside its domain is refused with BadOperand and nothing changes. The physical range of
MAP_RANGE and REGISTER_REGION counts where the range is not empty (R113, R134). -/
def Obligations.OperandsOutsideTheirDomainAreRefused : Prop :=
  ∀ (s : State) (i : Instr),
    ((i = .mapPage ∧ MutationState s.state ∧ Aligned s.ops.a0 ∧ Aligned s.ops.a1 ∧ Aligned s.ops.a2 ∧
        ¬ (Physical s.ops.a0 ∧ CanonicalAddr s.ops.a1 ∧ Physical s.ops.a2 ∧ FlagsWord s.ops.a3)) ∨
      (i = .mapRange ∧ MutationState s.state ∧ Aligned s.ops.a0 ∧ Aligned s.ops.a1 ∧ Aligned s.ops.a2 ∧
        Aligned s.ops.a3 ∧
        ¬ (Physical s.ops.a0 ∧ CanonicalAddr s.ops.a1 ∧ FlagsWord s.ops.a4 ∧ s.ops.a1.toNat ≤ s.ops.a2.toNat ∧
          (s.ops.a1.toNat < s.ops.a2.toNat →
            CanonicalAddr (s.ops.a2 - 4096#64) ∧ (Low (s.ops.a2 - 4096#64) ↔ Low s.ops.a1) ∧ Physical s.ops.a3 ∧
            s.ops.a3.toNat + (s.ops.a2.toNat - s.ops.a1.toNat) ≤ 281474976710656))) ∨
      (i = .walk ∧ s.state ≠ .halted ∧ Aligned s.ops.a0 ∧ ¬ (Physical s.ops.a0 ∧ CanonicalAddr s.ops.a1)) ∨
      (i = .registerRegion ∧ MutationState s.state ∧ s.rootsValid = true ∧ Aligned s.ops.a1 ∧ Aligned s.ops.a2 ∧
        Aligned s.ops.a3 ∧
        ¬ (s.ops.a5.toNat ≤ 1 ∧ RegionRange s.ops.a1 s.ops.a2 ∧ FlagsWord s.ops.a4 ∧
          (s.ops.a1.toNat < s.ops.a2.toNat → Physical s.ops.a3 ∧
            s.ops.a3.toNat + (s.ops.a2.toNat - s.ops.a1.toNat) ≤ 281474976710656)))) →
    exec i s = .next { s with status := 0x11#8, rspValid := true }

/-- R113, R134: an empty range maps nothing and completes, MAP_RANGE with 0 pages in R0, REGISTER_REGION with the index of
its record, which is appended all the same, in R0 and 0 pages in R1. And pass 1: a page of the range already mapped to another
frame or with other flags rejects the whole range, with nothing written. That REGISTER_REGION then writes no result register
is the model's reading (notes/assumptions/22). -/
def Obligations.EmptyAndConflictingRangesMapNothing : Prop :=
  ∀ s : State, MutationState s.state → Aligned s.ops.a1 → Aligned s.ops.a3 → FlagsWord s.ops.a4 →
    (Aligned s.ops.a0 → Physical s.ops.a0 → CanonicalAddr s.ops.a1 → s.ops.a2 = s.ops.a1 →
      exec .mapRange s = .next { s with res := { s.res with r0 := 0#64 }, status := 0x00#8, rspValid := true }) ∧
    (∀ (n k : Nat) (w : Translation), Aligned s.ops.a0 → Physical s.ops.a0 → CanonicalAddr s.ops.a1 →
      s.ops.a1.toNat + 4096 * n = s.ops.a2.toNat → CanonicalAddr (s.ops.a2 - 4096#64) →
      (Low (s.ops.a2 - 4096#64) ↔ Low s.ops.a1) → s.ops.a3.toNat + 4096 * n ≤ 281474976710656 → k < n →
      walk s.mem (frameOf s.ops.a0) (pageAt s.ops.a1 k) = some w → (w.pa ≠ pageAt s.ops.a3 k ∨ w.flags ≠ s.ops.a4) →
      exec .mapRange s = .next { s with status := 0x03#8, rspValid := true }) ∧
    (∀ sp : Space, s.rootsValid = true → s.ops.a5 = sp.code → RegionRange s.ops.a1 s.ops.a2 →
      s.registry.length < s.cfg.registryCapacity →
      (s.ops.a2 = s.ops.a1 →
        exec .registerRegion s = .next { s with
          registry := s.registry ++ [{
            name := s.ops.a0, vstart := s.ops.a1, vend := s.ops.a2, pstart := s.ops.a3, flags := s.ops.a4, space := sp }]
          res := { s.res with r0 := BitVec.ofNat 64 s.registry.length, r1 := 0#64 }
          status := 0x00#8, rspValid := true }) ∧
      (∀ (n k : Nat) (w : Translation), s.ops.a1.toNat + 4096 * n = s.ops.a2.toNat →
        s.ops.a3.toNat + 4096 * n ≤ 281474976710656 →
        (∀ q ∈ s.registry, ¬ (q.space = sp ∧ RangesOverlap s.ops.a1 s.ops.a2 q.vstart q.vend)) → k < n →
        walk s.mem (s.rootOf sp) (pageAt s.ops.a1 k) = some w → (w.pa ≠ pageAt s.ops.a3 k ∨ w.flags ≠ s.ops.a4) →
        exec .registerRegion s = .next { s with status := 0x03#8, rspValid := true }))

/-- R113 for `n` pages of one existing level-3 table, each slot of which is unusable or holds its leaf already: R0 counts
the pages, every leaf is written, and the `n` slots are all of memory that changes. -/
def Obligations.MapRangeWritesEveryPage : Prop :=
  ∀ (s : State) (t : Frame) (n : Nat), MemoryCanonical s → MutationState s.state →
    Aligned s.ops.a0 → Aligned s.ops.a1 → Aligned s.ops.a3 → Physical s.ops.a0 → CanonicalAddr s.ops.a1 →
    FlagsWord s.ops.a4 → 0 < n → s.ops.a1.toNat + 4096 * n = s.ops.a2.toNat →
    s.ops.a3.toNat + 4096 * n ≤ 281474976710656 → s.ops.a1.toNat / 4096 % 512 + n ≤ 512 →
    LeafTable s.mem (frameOf s.ops.a0) s.ops.a1 t →
    (∀ k, k < n → descUsable (s.mem.read64 (slotAddr t (idx 3 s.ops.a1) + 8 * k)) = false ∨
      s.mem.read64 (slotAddr t (idx 3 s.ops.a1) + 8 * k) =
        (s.ops.a3 + BitVec.ofNat 64 (4096 * k)) ||| s.ops.a4 ||| 3#64) →
    ∃ u, exec .mapRange s = .next u ∧
      u = { s with
        res := { s.res with r0 := BitVec.ofNat 64 n }, status := 0x00#8, rspValid := true, mem := u.mem
        unseen := if s.state = .steady then [] else u.unseen } ∧
      (∀ k, k < n → u.mem.read64 (slotAddr t (idx 3 s.ops.a1) + 8 * k) =
        (s.ops.a3 + BitVec.ofNat 64 (4096 * k)) ||| s.ops.a4 ||| 3#64) ∧
      (∀ b, (b < slotAddr t (idx 3 s.ops.a1) ∨ slotAddr t (idx 3 s.ops.a1) + 8 * n ≤ b) →
        u.mem.read b = s.mem.read b)

/-- R113 over any number of level-3 tables, found or made, under a tree of owned tables (R37): for a range whose pages are
unmapped or mapped identically, pass 2 maps pages in ascending order, R0 counts those completed, they stay, and no other page's
walk changes. It ends with all `n` mapped; or at the first page whose tables hold a valid entry that is no table, with
MalformedDescriptor and no halt; or where the allocator is exhausted, with the halt. It completes when the allocator has
three frames a page and no page is malformed. R0 = 0 where the first page fails is notes/assumptions/21, the barrier in STEADY
at a MalformedDescriptor end notes/assumptions/23, the list of the allocator's answers notes/assumptions/13. -/
def Obligations.MapRangeMapsPageByPage : Prop :=
  ∀ (s : State) (root : Frame) (n : Nat), MemoryCanonical s → MutationState s.state →
    Aligned s.ops.a0 → Aligned s.ops.a1 → Aligned s.ops.a3 → Physical s.ops.a0 → CanonicalAddr s.ops.a1 →
    FlagsWord s.ops.a4 → 0 < n → s.ops.a1.toNat + 4096 * n = s.ops.a2.toNat → CanonicalAddr (s.ops.a2 - 4096#64) →
    (Low (s.ops.a2 - 4096#64) ↔ Low s.ops.a1) → s.ops.a3.toNat + 4096 * n ≤ 281474976710656 →
    root = frameOf s.ops.a0 → TableTree s root →
    (∀ k, k < n → ∀ w, walk s.mem root (pageAt s.ops.a1 k) = some w →
      w = { pa := pageAt s.ops.a3 k, flags := s.ops.a4 }) →
    ∃ d j t u, exec .mapRange s = .next u ∧
      PagesMapped s t root s.ops.a1 s.ops.a3 s.ops.a4 n d j ∧ d ≤ n ∧
      (∀ k, k < d → ¬ MalformedPath s.mem root (pageAt s.ops.a1 k)) ∧
      t = { s with
        mem := t.mem, owned := t.owned, alloc := t.alloc, unseen := t.unseen, tlb := t.tlb
        res := { s.res with r0 := BitVec.ofNat 64 d } } ∧
      (t.tlb = s.tlb ∨ s.state = .steady ∧ t.tlb = []) ∧
      ((d = n ∧ t.alloc = (s.grants j).2 ∧ (s.state = .steady → t.unseen = []) ∧
          u = { t with status := 0x00#8, rspValid := true }) ∨
        (d < n ∧ MalformedPath s.mem root (pageAt s.ops.a1 d) ∧ t.alloc = (s.grants j).2 ∧
          (s.state = .steady → 0 < d → t.unseen = []) ∧ u = { t with status := 0x12#8, rspValid := true }) ∨
        (d < n ∧ (s.grants (j + 3)).1.length < j + 3 ∧ t.alloc = (s.grants (j + 3)).2 ∧
          u = t.halted .allocationExhausted .allocatorExhausted)) ∧
      ((s.grants (3 * n)).1.length = 3 * n → (∀ k, k < n → ¬ MalformedPath s.mem root (pageAt s.ops.a1 k)) → d = n)

/-- R114: WALK, every branch; "not found" is a result. What `walk` reads is `WalkReadsFourDescriptors`. -/
def Obligations.WalkAnswersTheTranslation : Prop :=
  decode [0x13#8] = .ok (.walk, []) ∧
  ∀ s : State,
    (s.state = .halted → exec .walk s = .next { s with status := 0x10#8, rspValid := true }) ∧
    (s.state ≠ .halted →
      (¬ Aligned s.ops.a0 → s.cfg.debugHaltOnAlignment = false →
        exec .walk s = .next { s with status := 0x02#8, rspValid := true }) ∧
      (¬ Aligned s.ops.a0 → s.cfg.debugHaltOnAlignment = true →
        exec .walk s = .next (s.halted .alignmentError .alignment)) ∧
      (Aligned s.ops.a0 → ¬ (Physical s.ops.a0 ∧ CanonicalAddr s.ops.a1) →
        exec .walk s = .next { s with status := 0x11#8, rspValid := true }) ∧
      (Aligned s.ops.a0 → Physical s.ops.a0 → CanonicalAddr s.ops.a1 →
        (walk s.mem (frameOf s.ops.a0) s.ops.a1 = none →
          exec .walk s = .next { s with
            res := { s.res with r0 := 0#64, r1 := 0#64, r2 := 0#64 }, status := 0x00#8, rspValid := true }) ∧
        (∀ w, walk s.mem (frameOf s.ops.a0) s.ops.a1 = some w →
          exec .walk s = .next { s with
            res := { s.res with r0 := 1#64, r1 := w.pa, r2 := w.flags }, status := 0x00#8, rspValid := true })))

/-- R58, R59, R87: a walk reads one descriptor a level at `t + 8 * idx`, each named by the one before, and finds a mapping
exactly when all four have bits [1:0] = 0b11. -/
def Obligations.WalkReadsFourDescriptors : Prop :=
  ∀ (m : Memory) (root : Frame) (va d0 d1 d2 d3 : Word),
    d0 = m.read64 (4096 * root.toNat + 8 * (va.toNat / 549755813888 % 512)) →
    d1 = m.read64 (4096 * (d0.toNat / 4096 % 68719476736) + 8 * (va.toNat / 1073741824 % 512)) →
    d2 = m.read64 (4096 * (d1.toNat / 4096 % 68719476736) + 8 * (va.toNat / 2097152 % 512)) →
    d3 = m.read64 (4096 * (d2.toNat / 4096 % 68719476736) + 8 * (va.toNat / 4096 % 512)) →
    walk m root va =
      if d0.toNat % 4 = 3 ∧ d1.toNat % 4 = 3 ∧ d2.toNat % 4 = 3 ∧ d3.toNat % 4 = 3 then
        some {
          pa := BitVec.ofNat 64 (4096 * (d3.toNat / 4096 % 68719476736) + va.toNat % 4096)
          flags := d3 &&& 0x00600000000007DC#64 }
      else none

/-- R116, R117: BASE_OF and GET_KERNEL_ROOT, every branch. -/
def Obligations.RootQueriesAnswerTheRecordedRoots : Prop :=
  decode [0x15#8] = .ok (.baseOf, []) ∧ decode [0x16#8] = .ok (.getKernelRoot, []) ∧
  ∀ s : State,
    ((s.state = .halted ∨ s.rootsValid = false) →
      exec .baseOf s = .next { s with status := 0x10#8, rspValid := true } ∧
      exec .getKernelRoot s = .next { s with status := 0x10#8, rspValid := true }) ∧
    (s.state ≠ .halted → s.rootsValid = true →
      (1 < s.ops.a0.toNat → exec .baseOf s = .next { s with status := 0x11#8, rspValid := true }) ∧
      (s.ops.a0 = 0#64 → exec .baseOf s = .next { s with
        res := { s.res with r0 := s.identityRoot.setWidth 64 }, status := 0x00#8, rspValid := true }) ∧
      (s.ops.a0 = 1#64 → exec .baseOf s = .next { s with
        res := { s.res with r0 := s.kernelRoot.setWidth 64 }, status := 0x00#8, rspValid := true }) ∧
      exec .getKernelRoot s = .next { s with
        res := { s.res with r0 := s.kernelRoot.setWidth 64 }, status := 0x00#8, rspValid := true })

/-- R118: TRANSLATE, every branch: the root by the half of the address, the flags dropped, R2 untouched. -/
def Obligations.TranslateUsesTheRootOfTheHalf : Prop :=
  decode [0x17#8] = .ok (.translate, []) ∧
  ∀ s : State,
    ((s.state = .halted ∨ s.rootsValid = false) →
      exec .translate s = .next { s with status := 0x10#8, rspValid := true }) ∧
    (s.state ≠ .halted → s.rootsValid = true →
      (¬ CanonicalAddr s.ops.a0 → exec .translate s = .next { s with status := 0x11#8, rspValid := true }) ∧
      (∀ r, (Low s.ops.a0 ∧ r = rootFrame s.identityRoot ∨ High s.ops.a0 ∧ r = rootFrame s.kernelRoot) →
        (walk s.mem r s.ops.a0 = none →
          exec .translate s = .next { s with
            res := { s.res with r0 := 0#64, r1 := 0#64 }, status := 0x00#8, rspValid := true }) ∧
        (∀ w, walk s.mem r s.ops.a0 = some w →
          exec .translate s = .next { s with
            res := { s.res with r0 := 1#64, r1 := w.pa }, status := 0x00#8, rspValid := true })))

/-! ## The Mapping Registry -/

/-- R131: REGISTER, every branch: refused, an operand outside its domain, the first overlapping record of the space, a full
registry, and the append. -/
def Obligations.RegisterAppendsOrRejects : Prop :=
  decode [0x20#8] = .ok (.register, []) ∧
  ∀ s : State,
    (¬ MutationState s.state → exec .register s = .next { s with status := 0x10#8, rspValid := true }) ∧
    (MutationState s.state →
      (¬ (s.ops.a5.toNat ≤ 1 ∧ RegionRange s.ops.a1 s.ops.a2 ∧ FlagsWord s.ops.a4) →
        exec .register s = .next { s with status := 0x11#8, rspValid := true }) ∧
      (RegionRange s.ops.a1 s.ops.a2 → FlagsWord s.ops.a4 → ∀ sp : Space, s.ops.a5 = sp.code →
        (∀ i r, s.registry[i]? = some r → r.space = sp → RangesOverlap s.ops.a1 s.ops.a2 r.vstart r.vend →
          (∀ j q, j < i → s.registry[j]? = some q → ¬ (q.space = sp ∧ RangesOverlap s.ops.a1 s.ops.a2 q.vstart q.vend)) →
          exec .register s = .next { s with
            res := { s.res with r0 := BitVec.ofNat 64 i }, status := 0x03#8, rspValid := true }) ∧
        ((∀ q ∈ s.registry, ¬ (q.space = sp ∧ RangesOverlap s.ops.a1 s.ops.a2 q.vstart q.vend)) →
          (s.cfg.registryCapacity ≤ s.registry.length →
            exec .register s = .next { s with status := 0x13#8, rspValid := true }) ∧
          (s.registry.length < s.cfg.registryCapacity →
            exec .register s = .next { s with
              registry := s.registry ++ [{
                name := s.ops.a0, vstart := s.ops.a1, vend := s.ops.a2, pstart := s.ops.a3, flags := s.ops.a4
                space := sp }]
              res := { s.res with r0 := BitVec.ofNat 64 s.registry.length }, status := 0x00#8, rspValid := true }))))

/-- R132, R135: the audit lists exactly the pairs of records of one space whose ranges overlap, in ascending order. -/
def Obligations.AuditListsExactlyTheConflicts : Prop :=
  ∀ rs : List MappingRegion,
    (∀ i j, (i, j) ∈ audit rs ↔ i < j ∧ ∃ a b, rs[i]? = some a ∧ rs[j]? = some b ∧ a.space = b.space ∧
      RangesOverlap a.vstart a.vend b.vstart b.vend) ∧
    (audit rs).Pairwise fun p q => p.1 < q.1 ∨ (p.1 = q.1 ∧ p.2 < q.2)

/-- R132: AUDIT answers the number of conflicts and the first pair, prints them all, and changes nothing else; with no
conflict R1 and R2 keep their values. What `audit` lists is `AuditListsExactlyTheConflicts`. -/
def Obligations.AuditCountsAndPrintsTheConflicts : Prop :=
  ∀ s : State,
    (s.state = .halted → exec .audit s = .next { s with status := 0x10#8, rspValid := true }) ∧
    (s.state ≠ .halted →
      (audit s.registry = [] →
        exec .audit s = .next { s with
          res := { s.res with r0 := 0#64 }, console := s.console ++ [.line .audit, .hex 0#64]
          status := 0x00#8, rspValid := true }) ∧
      (∀ i j rest, audit s.registry = (i, j) :: rest →
        exec .audit s = .next { s with
          res := { s.res with
            r0 := BitVec.ofNat 64 (rest.length + 1), r1 := BitVec.ofNat 64 i, r2 := BitVec.ofNat 64 j }
          console := s.console ++ [.line .audit, .hex (BitVec.ofNat 64 (rest.length + 1))] ++
            (audit s.registry).flatMap fun p => [.hex (BitVec.ofNat 64 p.1), .hex (BitVec.ofNat 64 p.2)]
          status := 0x00#8, rspValid := true }))

/-- R133: WALK_AND_REPORT, every branch; the space is explicit and need not match the half of the address. -/
def Obligations.WalkAndReportPrintsTheTranslation : Prop :=
  decode [0x22#8] = .ok (.walkAndReport, []) ∧
  ∀ s : State,
    ((s.state = .halted ∨ s.rootsValid = false) →
      exec .walkAndReport s = .next { s with status := 0x10#8, rspValid := true }) ∧
    (s.state ≠ .halted → s.rootsValid = true →
      (¬ (s.ops.a0.toNat ≤ 1 ∧ CanonicalAddr s.ops.a1) →
        exec .walkAndReport s = .next { s with status := 0x11#8, rspValid := true }) ∧
      (CanonicalAddr s.ops.a1 → ∀ r,
        (s.ops.a0 = 0#64 ∧ r = rootFrame s.identityRoot ∨ s.ops.a0 = 1#64 ∧ r = rootFrame s.kernelRoot) →
        (walk s.mem r s.ops.a1 = none →
          exec .walkAndReport s = .next { s with
            res := { s.res with r0 := 0#64, r1 := 0#64, r2 := 0#64 }
            console := s.console ++ [.line .walk, .hex s.ops.a0, .hex s.ops.a1, .line .unmapped]
            status := 0x00#8, rspValid := true }) ∧
        (∀ w, walk s.mem r s.ops.a1 = some w →
          exec .walkAndReport s = .next { s with
            res := { s.res with r0 := 1#64, r1 := w.pa, r2 := w.flags }
            console := s.console ++ [.line .walk, .hex s.ops.a0, .hex s.ops.a1, .line .pa, .hex w.pa,
              .line (if w.flags.toNat / 4 % 8 = 0 then .deviceSo else if w.flags.toNat / 4 % 8 = 1 then .normal
                else if w.flags.toNat / 4 % 8 = 2 then .normalNc else if w.flags.toNat / 4 % 8 = 3 then .deviceG
                else .attrReserved),
              .line (if w.flags.toNat / 64 % 4 = 0 then .kernelRw else if w.flags.toNat / 64 % 4 = 1 then .userRw
                else if w.flags.toNat / 64 % 4 = 2 then .kernelRo else .userRo),
              .line (if w.flags.toNat / 256 % 4 = 0 then .shNone else if w.flags.toNat / 256 % 4 = 1 then .shReserved
                else if w.flags.toNat / 256 % 4 = 2 then .shOuter else .shInner),
              .line (if w.flags.getLsbD 10 = true then .af else .noAf),
              .line (if w.flags.getLsbD 53 = true then .pxn else .px),
              .line (if w.flags.getLsbD 54 = true then .uxn else .ux)]
            status := 0x00#8, rspValid := true })))

/-- R134 for `n` pages of one existing level-3 table of the space's root: the pages are mapped, then the record is
appended; R0 is its index, R1 the number of pages. -/
def Obligations.RegisterRegionMapsThenRecords : Prop :=
  ∀ (s : State) (t : Frame) (n : Nat) (sp : Space), MemoryCanonical s → MutationState s.state → s.rootsValid = true →
    Aligned s.ops.a1 → Aligned s.ops.a3 → s.ops.a5 = sp.code → RegionRange s.ops.a1 s.ops.a2 → FlagsWord s.ops.a4 →
    0 < n → s.ops.a1.toNat + 4096 * n = s.ops.a2.toNat → s.ops.a3.toNat + 4096 * n ≤ 281474976710656 →
    s.ops.a1.toNat / 4096 % 512 + n ≤ 512 →
    (∀ q ∈ s.registry, ¬ (q.space = sp ∧ RangesOverlap s.ops.a1 s.ops.a2 q.vstart q.vend)) →
    s.registry.length < s.cfg.registryCapacity →
    LeafTable s.mem (s.rootOf sp) s.ops.a1 t →
    (∀ k, k < n → descUsable (s.mem.read64 (slotAddr t (idx 3 s.ops.a1) + 8 * k)) = false ∨
      s.mem.read64 (slotAddr t (idx 3 s.ops.a1) + 8 * k) =
        (s.ops.a3 + BitVec.ofNat 64 (4096 * k)) ||| s.ops.a4 ||| 3#64) →
    ∃ u, exec .registerRegion s = .next u ∧
      u = { s with
        registry := s.registry ++ [{
          name := s.ops.a0, vstart := s.ops.a1, vend := s.ops.a2, pstart := s.ops.a3, flags := s.ops.a4, space := sp }]
        res := { s.res with r0 := BitVec.ofNat 64 s.registry.length, r1 := BitVec.ofNat 64 n }
        status := 0x00#8, rspValid := true, mem := u.mem, unseen := if s.state = .steady then [] else u.unseen } ∧
      (∀ k, k < n → u.mem.read64 (slotAddr t (idx 3 s.ops.a1) + 8 * k) =
        (s.ops.a3 + BitVec.ofNat 64 (4096 * k)) ||| s.ops.a4 ||| 3#64) ∧
      (∀ b, (b < slotAddr t (idx 3 s.ops.a1) ∨ slotAddr t (idx 3 s.ops.a1) + 8 * n ≤ b) →
        u.mem.read b = s.mem.read b)

/-- R134 over any number of level-3 tables, found or made, under a tree of owned tables (R37): as MAP_RANGE
(`MapRangeMapsPageByPage`), on the root of the space; the record is appended, with its index in R0 and the pages in R1, only
when all `n` pages are mapped. Where pass 2 ends early the registry is as before, R0 counts the pages completed as in R113, and
R1 is not written, which is the model's reading (notes/assumptions/22); R0 = 0 where the first page fails is
notes/assumptions/21, the barrier in STEADY at a MalformedDescriptor end notes/assumptions/23, the list of the allocator's
answers notes/assumptions/13. -/
def Obligations.RegisterRegionMapsPageByPage : Prop :=
  ∀ (s : State) (root : Frame) (n : Nat) (sp : Space), MemoryCanonical s → MutationState s.state → s.rootsValid = true →
    Aligned s.ops.a1 → Aligned s.ops.a3 → s.ops.a5 = sp.code → RegionRange s.ops.a1 s.ops.a2 → FlagsWord s.ops.a4 →
    0 < n → s.ops.a1.toNat + 4096 * n = s.ops.a2.toNat → s.ops.a3.toNat + 4096 * n ≤ 281474976710656 →
    (∀ q ∈ s.registry, ¬ (q.space = sp ∧ RangesOverlap s.ops.a1 s.ops.a2 q.vstart q.vend)) →
    s.registry.length < s.cfg.registryCapacity → root = s.rootOf sp → TableTree s root →
    (∀ k, k < n → ∀ w, walk s.mem root (pageAt s.ops.a1 k) = some w →
      w = { pa := pageAt s.ops.a3 k, flags := s.ops.a4 }) →
    ∃ d j t u, exec .registerRegion s = .next u ∧
      PagesMapped s t root s.ops.a1 s.ops.a3 s.ops.a4 n d j ∧ d ≤ n ∧
      (∀ k, k < d → ¬ MalformedPath s.mem root (pageAt s.ops.a1 k)) ∧
      t = { s with mem := t.mem, owned := t.owned, alloc := t.alloc, unseen := t.unseen, tlb := t.tlb } ∧
      (t.tlb = s.tlb ∨ s.state = .steady ∧ t.tlb = []) ∧
      ((d = n ∧ t.alloc = (s.grants j).2 ∧ (s.state = .steady → t.unseen = []) ∧
          u = { t with
            registry := s.registry ++ [{
              name := s.ops.a0, vstart := s.ops.a1, vend := s.ops.a2, pstart := s.ops.a3, flags := s.ops.a4
              space := sp }]
            res := { s.res with r0 := BitVec.ofNat 64 s.registry.length, r1 := BitVec.ofNat 64 n }
            status := 0x00#8, rspValid := true }) ∨
        (d < n ∧ MalformedPath s.mem root (pageAt s.ops.a1 d) ∧ t.alloc = (s.grants j).2 ∧
          (s.state = .steady → 0 < d → t.unseen = []) ∧
          u = { t with res := { s.res with r0 := BitVec.ofNat 64 d }, status := 0x12#8, rspValid := true }) ∨
        (d < n ∧ (s.grants (j + 3)).1.length < j + 3 ∧ t.alloc = (s.grants (j + 3)).2 ∧
          u = { t with res := { s.res with r0 := BitVec.ofNat 64 d } }.halted
            .allocationExhausted .allocatorExhausted)) ∧
      ((s.grants (3 * n)).1.length = 3 * n → (∀ k, k < n → ¬ MalformedPath s.mem root (pageAt s.ops.a1 k)) → d = n)

/-- R134, the checks before anything is mapped, in their order: before NEW_PAIR and outside the permitting states
IllegalCommand; a conflict with records of the space OverlapConflict with the index of the first in R0; a full registry
RegistryFull. Nothing else changes. -/
def Obligations.RegisterRegionRefusesBeforeItMaps : Prop :=
  ∀ s : State,
    ((¬ MutationState s.state ∨ s.rootsValid = false) →
      exec .registerRegion s = .next { s with status := 0x10#8, rspValid := true }) ∧
    (MutationState s.state → s.rootsValid = true → Aligned s.ops.a1 → Aligned s.ops.a2 → Aligned s.ops.a3 →
      RegionRange s.ops.a1 s.ops.a2 → FlagsWord s.ops.a4 →
      (s.ops.a1.toNat < s.ops.a2.toNat →
        Physical s.ops.a3 ∧ s.ops.a3.toNat + (s.ops.a2.toNat - s.ops.a1.toNat) ≤ 281474976710656) →
      ∀ sp : Space, s.ops.a5 = sp.code →
      (∀ i r, s.registry[i]? = some r → r.space = sp → RangesOverlap s.ops.a1 s.ops.a2 r.vstart r.vend →
        (∀ j q, j < i → s.registry[j]? = some q → ¬ (q.space = sp ∧ RangesOverlap s.ops.a1 s.ops.a2 q.vstart q.vend)) →
        exec .registerRegion s = .next { s with
          res := { s.res with r0 := BitVec.ofNat 64 i }, status := 0x03#8, rspValid := true }) ∧
      ((∀ q ∈ s.registry, ¬ (q.space = sp ∧ RangesOverlap s.ops.a1 s.ops.a2 q.vstart q.vend)) →
        s.cfg.registryCapacity ≤ s.registry.length →
        exec .registerRegion s = .next { s with status := 0x13#8, rspValid := true }))

/-- R136 (c): for every operation, the registry after it is the registry before it, or that with one record appended. -/
def Obligations.RegistryOnlyGrows : Prop :=
  ∀ (i : Instr) (s t : State), exec i s = .next t → t.registry = s.registry ∨ ∃ r, t.registry = s.registry ++ [r]

/-! ## Sub-block FSM -/

/-- R188, R189: `raise Halt` records the cause, prints the dump with the state the operation started from, writes STATUS,
enters HALTED, and changes nothing else; `irq_mask_req` stays 1. -/
def Obligations.HaltRecordsTheCauseAndDumps : Prop :=
  ∀ (s : State) (c : Status) (f : FailInfo),
    s.raiseHalt c f = .next { s with
      failCause := c.code, failInfo := f.code, status := c.code, rspValid := true, state := .halted
      console := s.console ++
        [.line .halt, .hex (c.code.setWidth 64), .hex (f.code.setWidth 64), .hex (s.stateCode.setWidth 64),
         .line .mair, .hex s.sys.mair, .line .tcr, .hex s.sys.tcr, .line .ttbr0, .hex s.sys.ttbr0,
         .line .ttbr1, .hex s.sys.ttbr1, .line .sctlr, .hex s.sys.sctlr, .line .vbar, .hex s.sys.vbar,
         .line .pc, .hex s.pc, .line .roots, .hex (if s.rootsValid = true then 1#64 else 0#64)] ++
        (if s.rootsValid = true then [.hex (s.identityRoot.setWidth 64), .hex (s.kernelRoot.setWidth 64)] else []) ++
        [.line .audit, .hex (BitVec.ofNat 64 (audit s.registry).length)] ++
        (audit s.registry).flatMap fun p => [.hex (BitVec.ofNat 64 p.1), .hex (BitVec.ofNat 64 p.2)] } ∧
    s.raiseHalt c f = .next (s.halted c f) ∧ (s.halted c f).irqMaskReq = true

/-- R141, R142: FSM_MAIR and FSM_TCR_DUAL, every branch. After FSM_TCR_DUAL both liveness flags are set (R25 b) for parameters
within the constraints of R8. -/
def Obligations.FsmMairAndTcrDualFollowTheirRules : Prop :=
  ∀ s : State,
    (s.state ≠ .init → exec .fsmMair s = .next { s with status := 0x10#8, rspValid := true }) ∧
    (s.state = .init →
      (legalize s.cfg.legalizeRows .mair s.cfg.mairValue = s.cfg.mairValue →
        exec .fsmMair s = .next { s with
          sys := { s.sys with mair := s.cfg.mairValue }, state := .mairProgrammed
          console := s.console ++ [.line .state, .hex 1#64, .line .ok], status := 0x00#8, rspValid := true }) ∧
      (legalize s.cfg.legalizeRows .mair s.cfg.mairValue ≠ s.cfg.mairValue →
        exec .fsmMair s = .next
          ({ s with sys := { s.sys with mair := legalize s.cfg.legalizeRows .mair s.cfg.mairValue } }.halted
            .registerVerificationFailed .mairReadback))) ∧
    (s.state ≠ .mairProgrammed → exec .fsmTcrDual s = .next { s with status := 0x10#8, rspValid := true }) ∧
    (s.state = .mairProgrammed →
      (legalize s.cfg.legalizeRows .tcr s.cfg.tcrDualValue = s.cfg.tcrDualValue →
        ∃ t, exec .fsmTcrDual s = .next t ∧
          t = { s with
            sys := { s.sys with tcr := s.cfg.tcrDualValue }, tcrProgrammed := true, state := .tcrBootstrapDual
            console := s.console ++ [.line .state, .hex 2#64, .line .ok], status := 0x00#8, rspValid := true } ∧
          (s.cfg.wellFormed = true → t.liveIdentity = true ∧ t.liveKernel = true)) ∧
      (legalize s.cfg.legalizeRows .tcr s.cfg.tcrDualValue ≠ s.cfg.tcrDualValue →
        exec .fsmTcrDual s = .next
          ({ s with sys := { s.sys with tcr := legalize s.cfg.legalizeRows .tcr s.cfg.tcrDualValue } }.halted
            .registerVerificationFailed .tcrDualReadback)))

/-- R143: FSM_BASES, every branch; TTBR0 first, and kept when TTBR1 fails. -/
def Obligations.FsmBasesFollowsItsRule : Prop :=
  decode [0x32#8] = .ok (.fsmBases, []) ∧
  ∀ s : State,
    ((s.state ≠ .tcrBootstrapDual ∨ s.rootsValid = false) →
      exec .fsmBases s = .next { s with status := 0x10#8, rspValid := true }) ∧
    (s.state = .tcrBootstrapDual → s.rootsValid = true → ∀ v0 v1 : Word, v0 = s.identityRoot.setWidth 64 →
      v1 = s.kernelRoot.setWidth 64 →
      (legalize s.cfg.legalizeRows .ttbr0 v0 = v0 → legalize s.cfg.legalizeRows .ttbr1 v1 = v1 →
        exec .fsmBases s = .next { s with
          sys := { s.sys with ttbr0 := v0, ttbr1 := v1 }, state := .basesLoaded
          console := s.console ++ [.line .state, .hex 3#64, .line .ok], status := 0x00#8, rspValid := true }) ∧
      (legalize s.cfg.legalizeRows .ttbr0 v0 ≠ v0 →
        exec .fsmBases s = .next
          ({ s with sys := { s.sys with ttbr0 := legalize s.cfg.legalizeRows .ttbr0 v0 } }.halted
            .registerVerificationFailed .ttbr0Readback)) ∧
      (legalize s.cfg.legalizeRows .ttbr0 v0 = v0 → legalize s.cfg.legalizeRows .ttbr1 v1 ≠ v1 →
        exec .fsmBases s = .next
          ({ s with sys := { s.sys with ttbr0 := v0, ttbr1 := legalize s.cfg.legalizeRows .ttbr1 v1 } }.halted
            .registerVerificationFailed .ttbr1Readback)))

/-- R145: FSM_ENABLE, every branch. The first failing check of the gate halts with its own `fail_info`; the enable write is
then never issued, so SCTLR is as it was. Past the gate only the bit of M_MASK is set in SCTLR and translation is on; a readback
that differs halts with what the register holds. -/
def Obligations.FsmEnableGatesThenTurnsTranslationOn : Prop :=
  ∀ s : State,
    (s.state ≠ .tlbClean → exec .fsmEnable s = .next { s with status := 0x10#8, rspValid := true }) ∧
    (s.state = .tlbClean →
      (s.irqMasked = false →
        exec .fsmEnable s = .next (s.halted .registerVerificationFailed .interruptsNotMasked)) ∧
      (s.irqMasked = true → s.vecPhysDone = false →
        exec .fsmEnable s = .next (s.halted .registerVerificationFailed .vectorNotInstalled)) ∧
      (s.irqMasked = true → s.vecPhysDone = true → audit s.registry ≠ [] →
        exec .fsmEnable s = .next (s.halted .registerVerificationFailed .auditConflicts)) ∧
      (s.irqMasked = true → s.vecPhysDone = true → audit s.registry = [] →
        ¬ (s.cfg.trampStart.toNat ≤ s.pc.toNat ∧ s.pc.toNat < s.cfg.trampEnd.toNat) →
        exec .fsmEnable s = .next (s.halted .registerVerificationFailed .pcNotInTrampoline)) ∧
      (s.irqMasked = true → s.vecPhysDone = true → audit s.registry = [] →
        s.cfg.trampStart.toNat ≤ s.pc.toNat → s.pc.toNat < s.cfg.trampEnd.toNat → dualMapped s = false →
        exec .fsmEnable s = .next (s.halted .registerVerificationFailed .trampolineNotDualMapped)) ∧
      (s.irqMasked = true → s.vecPhysDone = true → audit s.registry = [] →
        s.cfg.trampStart.toNat ≤ s.pc.toNat → s.pc.toNat < s.cfg.trampEnd.toNat → dualMapped s = true →
        (legalize s.cfg.legalizeRows .sctlr (s.sys.sctlr ||| s.cfg.mMask) = s.sys.sctlr ||| s.cfg.mMask →
          exec .fsmEnable s = .next { s with
            sys := { s.sys with sctlr := s.sys.sctlr ||| s.cfg.mMask }, state := .translationOn
            console := s.console ++ [.line .state, .hex 5#64, .line .ok], status := 0x00#8, rspValid := true }) ∧
        (legalize s.cfg.legalizeRows .sctlr (s.sys.sctlr ||| s.cfg.mMask) ≠ s.sys.sctlr ||| s.cfg.mMask →
          exec .fsmEnable s = .next
            ({ s with sys := { s.sys with
                sctlr := legalize s.cfg.legalizeRows .sctlr (s.sys.sctlr ||| s.cfg.mMask) } }.halted
              .registerVerificationFailed .sctlrReadback))))

/-- R155: `DualMapped()` holds exactly when the roots are valid and every page of the trampoline is mapped in both spaces
to its own frame, with identical flags and PXN clear. -/
def Obligations.DualMappedChecksEveryTrampolinePage : Prop :=
  ∀ s : State, s.cfg.wellFormed = true →
    (dualMapped s = true ↔ s.rootsValid = true ∧
      ∀ k, s.cfg.trampStart.toNat + 4096 * k < s.cfg.trampEnd.toNat →
        ∃ f, walk s.mem (rootFrame s.identityRoot) (s.cfg.trampStart + BitVec.ofNat 64 (4096 * k)) =
            some { pa := s.cfg.trampStart + BitVec.ofNat 64 (4096 * k), flags := f } ∧
          walk s.mem (rootFrame s.kernelRoot)
              (s.cfg.trampStart + BitVec.ofNat 64 (4096 * k) + s.cfg.kernelOffset) =
            some { pa := s.cfg.trampStart + BitVec.ofNat 64 (4096 * k), flags := f } ∧
          f.getLsbD 53 = false)

/-- R146: FSM_MIGRATE, every branch. -/
def Obligations.FsmMigrateBranchesToAnExecutableHighAddress : Prop :=
  decode [0x35#8] = .ok (.fsmMigrate, []) ∧
  ∀ s : State,
    (s.state ≠ .translationOn → exec .fsmMigrate s = .next { s with status := 0x10#8, rspValid := true }) ∧
    (s.state = .translationOn →
      (¬ High s.ops.a0 ∨ hwTranslate s s.ops.a0 = none ∨
          (∃ w f, hwTranslate s s.ops.a0 = some w ∧ w.flags = some f ∧ f.getLsbD 53 = true) →
        exec .fsmMigrate s = .next (s.halted .registerVerificationFailed .pcNotMigrated)) ∧
      (∀ w, High s.ops.a0 → hwTranslate s s.ops.a0 = some w → (∀ f, w.flags = some f → f.getLsbD 53 = false) →
        exec .fsmMigrate s = .next { s with
          pc := s.ops.a0, state := .pcMigrated, console := s.console ++ [.line .state, .hex 6#64, .line .ok]
          status := 0x00#8, rspValid := true }))

/-- R147: FSM_TCR_KERNEL, every branch; for parameters within the constraints of R8 the identity space is then not live and
the kernel space is (R25 b), no walk finds a low address, and an entry the TLB still holds for one may stand in (R210 a; how,
notes/assumptions/19). -/
def Obligations.FsmTcrKernelNarrowsAfterMigration : Prop :=
  ∀ s : State,
    (s.state ≠ .pcMigrated → exec .fsmTcrKernel s = .next { s with status := 0x10#8, rspValid := true }) ∧
    (s.state = .pcMigrated →
      (¬ High s.pc ∨ walk s.mem (rootFrame s.kernelRoot) s.pc = none ∨
          (∃ w, walk s.mem (rootFrame s.kernelRoot) s.pc = some w ∧ w.flags.getLsbD 53 = true) →
        exec .fsmTcrKernel s = .next (s.halted .registerVerificationFailed .prematureNarrowing)) ∧
      (∀ w, High s.pc → walk s.mem (rootFrame s.kernelRoot) s.pc = some w → w.flags.getLsbD 53 = false →
        (s.vecVirtDone = false →
          exec .fsmTcrKernel s = .next (s.halted .registerVerificationFailed .vectorNotRelocated)) ∧
        (s.vecVirtDone = true → legalize s.cfg.legalizeRows .tcr s.cfg.tcrKonlyValue = s.cfg.tcrKonlyValue →
          ∃ t, exec .fsmTcrKernel s = .next t ∧
            t = { s with
              sys := { s.sys with tcr := s.cfg.tcrKonlyValue }, state := .tcrKernelOnly
              console := s.console ++ [.line .state, .hex 7#64, .line .ok], status := 0x00#8, rspValid := true } ∧
            (s.cfg.wellFormed = true → t.liveIdentity = false ∧ t.liveKernel = s.tcrProgrammed ∧
              (s.xlatOn = true → ∀ va, Low va → hwTranslate t va = none ∧ coreTranslate 0 t va = none ∧
                ∀ k e, (tlbHits s va)[k]? = some e → coreTranslate (k + 1) t va = some (e.toHw va)))) ∧
        (s.vecVirtDone = true → legalize s.cfg.legalizeRows .tcr s.cfg.tcrKonlyValue ≠ s.cfg.tcrKonlyValue →
          exec .fsmTcrKernel s = .next
            ({ s with sys := { s.sys with tcr := legalize s.cfg.legalizeRows .tcr s.cfg.tcrKonlyValue } }.halted
              .registerVerificationFailed .tcrKernelReadback))))

/-- R148, R149: FSM_FINISH changes the state and prints its marker; `irq_mask_req` falls to 0 with it, and from a state
that meets the transition invariant it is the end of a good run. -/
def Obligations.FsmFinishEntersSteady : Prop :=
  ∀ s : State,
    (s.state ≠ .tcrKernelOnly → exec .fsmFinish s = .next { s with status := 0x10#8, rspValid := true }) ∧
    (s.state = .tcrKernelOnly →
      ∃ t, exec .fsmFinish s = .next t ∧
        t = { s with
          state := .steady, console := s.console ++ [.line .state, .hex 8#64, .line .ok]
          status := 0x00#8, rspValid := true } ∧
        s.irqMaskReq = true ∧ t.irqMaskReq = false ∧ (TransitionSafe s → GoodEnd t))

/-- R151: VEC_INSTALL: refused after the enable or a second time, its operand checks, with a source range past 2^48 refused
by the principle of D15 (R50; notes/assumptions/24), and the copy, byte for byte, with VBAR at VEC_PHYS; VBAR's readback halts. -/
def Obligations.VecInstallCopiesTheTable : Prop :=
  ∀ s : State, MemoryCanonical s → s.cfg.wellFormed = true →
    ((¬ BeforeEnable s.state ∨ s.vecPhysDone = true) →
      exec .vecInstall s = .next { s with status := 0x10#8, rspValid := true }) ∧
    (BeforeEnable s.state → s.vecPhysDone = false →
      (¬ (s.ops.a0.toNat % 8 = 0 ∧ Physical s.ops.a0 ∧ s.ops.a0.toNat + s.cfg.vecSize.toNat ≤ 281474976710656) →
        exec .vecInstall s = .next { s with status := 0x11#8, rspValid := true }) ∧
      (s.ops.a0.toNat % 8 = 0 → s.ops.a0.toNat + s.cfg.vecSize.toNat ≤ 281474976710656 → Physical s.ops.a0 →
        (s.ops.a0 ≠ s.cfg.vecPhys → s.ops.a0.toNat < s.cfg.vecPhys.toNat + s.cfg.vecSize.toNat →
          s.cfg.vecPhys.toNat < s.ops.a0.toNat + s.cfg.vecSize.toNat →
          exec .vecInstall s = .next { s with status := 0x11#8, rspValid := true }) ∧
        ((s.ops.a0 = s.cfg.vecPhys ∨ s.cfg.vecPhys.toNat + s.cfg.vecSize.toNat ≤ s.ops.a0.toNat ∨
            s.ops.a0.toNat + s.cfg.vecSize.toNat ≤ s.cfg.vecPhys.toNat) →
          ∃ m : Memory,
            (∀ k, k < s.cfg.vecSize.toNat → m.read (s.cfg.vecPhys.toNat + k) = s.mem.read (s.ops.a0.toNat + k)) ∧
            (∀ b, (b < s.cfg.vecPhys.toNat ∨ s.cfg.vecPhys.toNat + s.cfg.vecSize.toNat ≤ b) → m.read b = s.mem.read b) ∧
            (legalize s.cfg.legalizeRows .vbar s.cfg.vecPhys = s.cfg.vecPhys →
              exec .vecInstall s = .next { s with
                mem := m, unseen := [], sys := { s.sys with vbar := s.cfg.vecPhys }, vecPhysDone := true
                console := s.console ++ [.line .vbar, .hex s.cfg.vecPhys, .line .ok]
                status := 0x00#8, rspValid := true }) ∧
            (legalize s.cfg.legalizeRows .vbar s.cfg.vecPhys ≠ s.cfg.vecPhys →
              exec .vecInstall s = .next
                ({ s with
                  mem := m, unseen := []
                  sys := { s.sys with vbar := legalize s.cfg.legalizeRows .vbar s.cfg.vecPhys } }.halted
                  .registerVerificationFailed .vbarPhysReadback)))))

/-- R152: VEC_RELOCATE, every branch. -/
def Obligations.VecRelocatePointsAtTheAlias : Prop :=
  decode [0x39#8] = .ok (.vecRelocate, []) ∧
  ∀ (s : State) (v : Word), v = s.cfg.vecPhys + s.cfg.kernelOffset →
    ((s.state ≠ .pcMigrated ∨ s.vecVirtDone = true) →
      exec .vecRelocate s = .next { s with status := 0x10#8, rspValid := true }) ∧
    (s.state = .pcMigrated → s.vecVirtDone = false →
      (legalize s.cfg.legalizeRows .vbar v = v →
        exec .vecRelocate s = .next { s with
          sys := { s.sys with vbar := v }, vecVirtDone := true
          console := s.console ++ [.line .vbar, .hex v, .line .ok], status := 0x00#8, rspValid := true }) ∧
      (legalize s.cfg.legalizeRows .vbar v ≠ v →
        exec .vecRelocate s = .next
          ({ s with sys := { s.sys with vbar := legalize s.cfg.legalizeRows .vbar v } }.halted
            .registerVerificationFailed .vbarVirtReadback)))

/-- R153, R154: IS_TRANSLATION_ENABLED and SET_PC, every branch. -/
def Obligations.EnableQueryAndSetPcFollowTheirRules : Prop :=
  ∀ s : State,
    (s.state = .halted → exec .isTranslationEnabled s = .next { s with status := 0x10#8, rspValid := true }) ∧
    (s.state ≠ .halted →
      exec .isTranslationEnabled s = .next { s with
        res := { s.res with r0 := if s.sys.sctlr &&& s.cfg.mMask ≠ 0#64 then 1#64 else 0#64 }
        status := 0x00#8, rspValid := true }) ∧
    (¬ BeforeEnable s.state → exec .setPc s = .next { s with status := 0x10#8, rspValid := true }) ∧
    (BeforeEnable s.state →
      (¬ Low s.ops.a0 → exec .setPc s = .next { s with status := 0x11#8, rspValid := true }) ∧
      (Low s.ops.a0 → exec .setPc s = .next { s with pc := s.ops.a0, status := 0x00#8, rspValid := true }))

/-- R144, R174, R176: FSM_TLB_CLEAN and TLBI_LOCAL_ALL, every branch. Both empty the TLB and make every write visible;
TLBI_LOCAL_ALL does not change `state`, and after it no stale entry stands in for a walk, so that a low address no longer
translates where the identity base is disabled (R210 a). -/
def Obligations.TlbCleanAndTlbiRunTheSequence : Prop :=
  ∀ s : State,
    (s.state ≠ .basesLoaded → exec .fsmTlbClean s = .next { s with status := 0x10#8, rspValid := true }) ∧
    (s.state = .basesLoaded →
      exec .fsmTlbClean s = .next { s with
        tlb := [], unseen := [], state := .tlbClean, console := s.console ++ [.line .state, .hex 4#64, .line .ok]
        status := 0x00#8, rspValid := true }) ∧
    ((s.state = .halted ∨ s.state = .init ∨ s.state = .mairProgrammed ∨ s.state = .tcrBootstrapDual) →
      exec .tlbiLocalAll s = .next { s with status := 0x10#8, rspValid := true }) ∧
    (¬ (s.state = .halted ∨ s.state = .init ∨ s.state = .mairProgrammed ∨ s.state = .tcrBootstrapDual) →
      ∃ t, exec .tlbiLocalAll s = .next t ∧
        t = { s with tlb := [], unseen := [], status := 0x00#8, rspValid := true } ∧
        (∀ pick va, coreTranslate pick t va = hwTranslate t va) ∧
        (t.xlatOn = true → t.sys.tcr &&& t.cfg.epd0Mask ≠ 0#64 → ∀ pick va, Low va → coreTranslate pick t va = none))

/-- R150: an operation leaves `state` as it is, or moves it one state forward by the one operation of the table, or the
failure path has run. -/
def Obligations.StateMovesOneStepForwardOrHalts : Prop :=
  ∀ (i : Instr) (s t : State), exec i s = .next t →
    t.state = s.state ∨ (t.state = .halted ∧ t.failCause = t.status ∧ t.status ≠ 0x00#8) ∨
    (i = .fsmMair ∧ s.state = .init ∧ t.state = .mairProgrammed) ∨
    (i = .fsmTcrDual ∧ s.state = .mairProgrammed ∧ t.state = .tcrBootstrapDual) ∨
    (i = .fsmBases ∧ s.state = .tcrBootstrapDual ∧ t.state = .basesLoaded) ∨
    (i = .fsmTlbClean ∧ s.state = .basesLoaded ∧ t.state = .tlbClean) ∨
    (i = .fsmEnable ∧ s.state = .tlbClean ∧ t.state = .translationOn) ∨
    (i = .fsmMigrate ∧ s.state = .translationOn ∧ t.state = .pcMigrated) ∨
    (i = .fsmTcrKernel ∧ s.state = .pcMigrated ∧ t.state = .tcrKernelOnly) ∨
    (i = .fsmFinish ∧ s.state = .tcrKernelOnly ∧ t.state = .steady)

/-! ## Invariants of every step -/

/-- The memory keeps its canonical form (R36), the registry its disjointness and its capacity (R39, R41), the recorded
roots their alignment (R27), from every state and over every step, the environment's among them. -/
def Obligations.EveryStepKeepsMemoryRegistryAndRoots : Prop :=
  ∀ s t : State, MemoryCanonical s → RegistryDisjoint s → RootsAligned s → step s = .next t →
    MemoryCanonical t ∧ RegistryDisjoint t ∧ RootsAligned t

/-- From TLB_CLEAN to STEADY every write is visible to the walker between two operations (R67, R121). The list of writes not
yet visible is notes/assumptions/18, the barrier at a MalformedDescriptor end and of CREATE_TABLE notes/assumptions/23. -/
def Obligations.EveryStepKeepsTheWalkerUpToDate : Prop :=
  ∀ s t : State, WalkerUpToDate s → step s = .next t → WalkerUpToDate t

/-- The registers and flags stay what the bring-up sequence made them, the trampoline stays dual-mapped while the core runs
in it, the continuation stays mapped executable in the kernel space (R141 to R152, R155, R212), and the TLB holds nothing but
what the tables give, were it stale in the half walked no more (R38, R210 a). -/
def Obligations.EveryStepKeepsTheTransitionSafe : Prop :=
  ∀ s t : State, TransitionSafe s → step s = .next t → TransitionSafe t

/-- The invariants hold at `State.reset`. -/
def Obligations.InvariantsHoldAtReset : Prop :=
  MemoryCanonical State.reset ∧ RegistryDisjoint State.reset ∧ WalkerUpToDate State.reset ∧ RootsAligned State.reset ∧
    TransitionSafe State.reset

/-- R184, R69: in a state that meets the transition invariant the core's fetch does not fault, whatever the TLB answers, up
to TCR_KERNEL_ONLY, and in STEADY while `pc` is still mapped executable in the kernel space and the TLB holds what the tables
give. What the check takes in is notes/assumptions/20, what the TLB may answer notes/assumptions/19. -/
def Obligations.FetchIsSafeThroughTheTransition : Prop :=
  ∀ s : State, TransitionSafe s → (s.state = .steady → pcInKernelSpace s = true ∧ TlbCurrent s) → fetchFaults s = false
end

