-- ==== Sys2Proof/Laws/Operands.lean ====
section
/-! SUPPORT. What the operand checks, the address slicing and the descriptor formats say about the numbers behind the bit
vectors: the small lemmas of Machine/Operands.lean. -/

namespace Sys2Proof.Machine

/-! ## The operand checks as arithmetic -/

theorem pageAligned_iff (v : Word) : pageAligned v = true ↔ v.toNat % 4096 = 0 := by
  simp [pageAligned, ← BitVec.toNat_inj]

theorem isPhys_iff (v : Word) : isPhys v = true ↔ v.toNat < 281474976710656 := by
  have := v.isLt
  simp [isPhys, ← BitVec.toNat_inj, Nat.shiftRight_eq_div_pow]
  omega

theorem isLow_iff (v : Word) : isLow v = true ↔ v.toNat < 281474976710656 := isPhys_iff v

theorem isHigh_iff (v : Word) : isHigh v = true ↔ 18446462598732840960 ≤ v.toNat := by
  have := v.isLt
  simp [isHigh, ← BitVec.toNat_inj, Nat.shiftRight_eq_div_pow]
  omega

theorem canonical_iff (v : Word) :
    canonical v = true ↔ v.toNat < 281474976710656 ∨ 18446462598732840960 ≤ v.toNat := by
  simp [canonical, isLow_iff, isHigh_iff]

theorem not_isLow_of_isHigh {v : Word} (h : isHigh v = true) : isLow v = false := by
  rw [isHigh_iff] at h
  rw [Bool.eq_false_iff, Ne, isLow_iff]
  omega

theorem flagsOk_iff (f : Word) : flagsOk f = true ↔ f &&& ~~~flagsMask = 0#64 ∧ (f.extractLsb' 2 3).toNat ≤ 3 := by
  simp [flagsOk]

/-- The check of a flags word, as the statements write it. -/
theorem flagsWord_iff (f : Word) : FlagsWord f ↔ flagsOk f = true := by
  have h : (f.extractLsb' 2 3).toNat = f.toNat / 4 % 8 := by simp [Nat.shiftRight_eq_div_pow]
  rw [flagsOk_iff, h]
  rfl

/-- Halves are equal exactly when both addresses are low or neither is. -/
theorem halfOf_eq_iff (a b : Word) : halfOf a = halfOf b ↔ (isLow a = true ↔ isLow b = true) := by
  unfold halfOf
  cases isLow a <;> cases isLow b <;> simp

/-- The range check of REGISTER, as the statements write it. -/
theorem regionRange_iff (a b : Word) : RegionRange a b ↔ regionRangeOk a b = true := by
  have hab : b = a ↔ b.toNat = a.toNat := by simp [← BitVec.toNat_inj]
  simp only [RegionRange, regionRangeOk, Bool.and_eq_true, Bool.or_eq_true, decide_eq_true_eq, beq_iff_eq, canonical_iff,
    halfOf_eq_iff, hab, isLow_iff]
  constructor
  · rintro ⟨h1, h2, h3⟩
    refine ⟨⟨h1, h2⟩, ?_⟩
    rcases Nat.lt_or_ge a.toNat b.toNat with h | h
    · exact .inr (h3 h)
    · exact .inl (by omega)
  · rintro ⟨⟨h1, h2⟩, h3⟩
    refine ⟨h1, h2, fun h => ?_⟩
    rcases h3 with h3 | h3
    · omega
    · exact h3

@[simp] theorem spaceOf_zero : spaceOf 0#64 = some .identity := rfl
@[simp] theorem spaceOf_one : spaceOf 1#64 = some .kernel := rfl

theorem spaceOf_code (sp : Space) : spaceOf sp.code = some sp := by cases sp <;> rfl

theorem spaceOf_eq_none_iff (v : Word) : spaceOf v = none ↔ 1 < v.toNat := by
  unfold spaceOf
  have h0 : v = 0#64 ↔ v.toNat = 0 := by simp [← BitVec.toNat_inj]
  have h1 : v = 1#64 ↔ v.toNat = 1 := by simp [← BitVec.toNat_inj]
  split_ifs <;> simp_all
  omega

theorem levelOk_iff (v : Word) : levelOk v = true ↔ v.toNat ≤ 3 := by simp [levelOk]

theorem overlaps_iff (a b c d : Word) : overlaps a b c d = true ↔
    a.toNat < b.toNat ∧ c.toNat < d.toNat ∧ a.toNat < d.toNat ∧ c.toNat < b.toNat := by
  simp [overlaps, and_assoc]

/-! ## Frames and slots -/

theorem frameOf_toNat (v : Word) : (frameOf v).toNat = v.toNat / 4096 % 68719476736 := by
  simp [frameOf, Nat.shiftRight_eq_div_pow]

theorem frameAddr_toNat (f : Frame) : (frameAddr f).toNat = 4096 * f.toNat := by
  rw [frameAddr, BitVec.toNat_append, BitVec.toNat_append]
  simp [Nat.shiftLeft_eq]
  omega

theorem rootWord_toNat (r : PhysAddr) : (rootWord r).toNat = r.toNat := by
  rw [rootWord, BitVec.toNat_append]
  simp

theorem rootFrame_toNat (r : PhysAddr) : (rootFrame r).toNat = r.toNat / 4096 := by
  have := r.isLt
  simp [rootFrame, Nat.shiftRight_eq_div_pow]
  omega

@[simp] theorem frameOf_frameAddr (f : Frame) : frameOf (frameAddr f) = f := by
  apply BitVec.eq_of_toNat_eq
  have := f.isLt
  rw [frameOf_toNat, frameAddr_toNat]
  omega

@[simp] theorem frameOf_rootWord (r : PhysAddr) : frameOf (rootWord r) = rootFrame r := by
  apply BitVec.eq_of_toNat_eq
  have := r.isLt
  rw [frameOf_toNat, rootWord_toNat, rootFrame_toNat]
  omega

/-- A root register made of a frame and twelve zero bits names that frame (R115). -/
@[simp] theorem rootFrame_append (f : Frame) : rootFrame (f ++ 0#12) = f := by
  apply BitVec.eq_of_toNat_eq
  have := f.isLt
  rw [rootFrame_toNat, BitVec.toNat_append]
  simp [Nat.shiftLeft_eq]

@[simp] theorem rootWord_append (f : Frame) : rootWord (f ++ 0#12) = frameAddr f := by
  apply BitVec.eq_of_toNat_eq
  rw [rootWord_toNat, frameAddr_toNat, BitVec.toNat_append]
  simp [Nat.shiftLeft_eq]
  omega

/-- An aligned physical address is the address of its frame. -/
theorem frameAddr_frameOf {p : Word} (ha : p.toNat % 4096 = 0) (hp : p.toNat < 281474976710656) :
    frameAddr (frameOf p) = p := by
  apply BitVec.eq_of_toNat_eq
  rw [frameAddr_toNat, frameOf_toNat]
  omega

theorem idx_toNat (l : Fin 4) (va : Word) : (idx l va).toNat = va.toNat / 2 ^ (39 - 9 * l.val) % 512 := by
  simp [idx, Nat.shiftRight_eq_div_pow]

theorem slotAddr_mod (t : Frame) (i : BitVec 9) : slotAddr t i % 8 = 0 := by
  simp only [slotAddr, pageSize]
  omega

/-- A slot lies inside its frame (R59). -/
theorem slotAddr_inside (t : Frame) (i : BitVec 9) :
    pageSize * t.toNat ≤ slotAddr t i ∧ slotAddr t i + 8 ≤ pageSize * t.toNat + pageSize := by
  have := i.isLt
  simp only [slotAddr, pageSize]
  omega

/-- A slot lies below 2^48 (R59). -/
theorem slotAddr_lt (t : Frame) (i : BitVec 9) : slotAddr t i + 7 < physSize := by
  have := i.isLt
  have := t.isLt
  simp only [slotAddr, pageSize, physSize]
  omega

/-- Slots of different frames share no byte. -/
theorem slotAddr_frame_ne {t u : Frame} (h : t ≠ u) (i j : BitVec 9) :
    slotAddr t i + 8 ≤ slotAddr u j ∨ slotAddr u j + 8 ≤ slotAddr t i := by
  have hn : t.toNat ≠ u.toNat := fun e => h (BitVec.eq_of_toNat_eq e)
  have := i.isLt
  have := j.isLt
  simp only [slotAddr, pageSize]
  omega

/-- Two slots of one frame share no byte. -/
theorem slotAddr_idx_ne (t : Frame) {i j : BitVec 9} (h : i ≠ j) :
    slotAddr t i + 8 ≤ slotAddr t j ∨ slotAddr t j + 8 ≤ slotAddr t i := by
  have hn : i.toNat ≠ j.toNat := fun e => h (BitVec.eq_of_toNat_eq e)
  simp only [slotAddr, pageSize]
  omega

/-- A slot shares no byte with another frame. -/
theorem slotAddr_outside {t u : Frame} (h : t ≠ u) (i : BitVec 9) :
    slotAddr t i + 8 ≤ pageSize * u.toNat ∨ pageSize * u.toNat + pageSize ≤ slotAddr t i := by
  have hn : t.toNat ≠ u.toNat := fun e => h (BitVec.eq_of_toNat_eq e)
  have := i.isLt
  simp only [slotAddr, pageSize]
  omega

/-! ## Descriptors, bit by bit -/

theorem getLsbD_three (i : Nat) : (3#64 : Word).getLsbD i = decide (i < 2) := by
  rcases i with _ | _ | i
  · rfl
  · rfl
  · simp [BitVec.getLsbD_ofNat]
    intro _
    rw [Nat.testBit_eq_false_of_lt]
    exact lt_of_lt_of_le (by decide : 3 < 2 ^ 2) (Nat.pow_le_pow_right (by decide) (by omega))

/-- Below bit 12 an aligned address has no bit set. -/
theorem getLsbD_aligned {p : Word} (ha : pageAligned p = true) {i : Nat} (hi : i < 12) : p.getLsbD i = false := by
  have h : p.extractLsb' 0 12 = 0#12 := by simpa [pageAligned] using ha
  have := congrArg (fun x : BitVec 12 => x.getLsbD i) h
  simpa [hi] using this

/-- From bit 48 up a physical address has no bit set. -/
theorem getLsbD_phys {p : Word} (hp : isPhys p = true) {i : Nat} (hi : 48 ≤ i) : p.getLsbD i = false := by
  by_cases h64 : i < 64
  · have h : p.extractLsb' 48 16 = 0#16 := by simpa [isPhys] using hp
    have := congrArg (fun x : BitVec 16 => x.getLsbD (i - 48)) h
    have e : 48 + (i - 48) = i := by omega
    have l : i - 48 < 16 := by omega
    simpa [e, l] using this
  · exact BitVec.getLsbD_of_ge _ _ (by omega)

/-- The flags mask has no bit in [1:0] nor in [47:12]. -/
theorem getLsbD_flagsMask_low : flagsMask.getLsbD 0 = false ∧ flagsMask.getLsbD 1 = false := by decide

theorem getLsbD_flagsMask_oa {i : Nat} (h1 : 12 ≤ i) (h2 : i < 48) : flagsMask.getLsbD i = false := by
  have : ∀ j : Fin 36, flagsMask.getLsbD (12 + j.val) = false := by decide
  have := this ⟨i - 12, by omega⟩
  simpa [show 12 + (i - 12) = i by omega] using this

/-- A well-formed flags word has no bit outside the mask. -/
theorem getLsbD_flags {f : Word} (h : flagsOk f = true) {i : Nat} (hi : flagsMask.getLsbD i = false) :
    f.getLsbD i = false := by
  have h0 := (flagsOk_iff f).1 h |>.1
  have := congrArg (fun x : Word => x.getLsbD i) h0
  by_cases h64 : i < 64
  · rw [BitVec.getLsbD_and, BitVec.getLsbD_not, hi] at this
    simpa [h64, -BitVec.getLsbD_eq_getElem] using this
  · exact BitVec.getLsbD_of_ge _ _ (by omega)

theorem flags_and_mask {f : Word} (h : flagsOk f = true) : f &&& flagsMask = f := by
  apply BitVec.eq_of_getLsbD_eq
  intro i hi
  cases hm : flagsMask.getLsbD i
  · simp [hm, getLsbD_flags h hm]
  · simp [hm]

theorem descUsable_iff (d : Word) : descUsable d = true ↔ d.getLsbD 0 = true ∧ d.getLsbD 1 = true := by
  unfold descUsable
  constructor
  · intro h
    have h : d.extractLsb' 0 2 = 3#2 := by simpa using h
    have h0 := congrArg (fun x : BitVec 2 => x.getLsbD 0) h
    have h1 := congrArg (fun x : BitVec 2 => x.getLsbD 1) h
    simpa using And.intro h0 h1
  · rintro ⟨h0, h1⟩
    have : d.extractLsb' 0 2 = 3#2 := by
      apply BitVec.eq_of_getLsbD_eq
      intro i hi
      have : i = 0 ∨ i = 1 := by omega
      rcases this with rfl | rfl <;> simp_all
    simpa using this

@[simp] theorem descUsable_leafDesc (p f : Word) : descUsable (leafDesc p f) = true := by
  simp [descUsable_iff, leafDesc]

@[simp] theorem descUsable_tableDesc (c : Word) : descUsable (tableDesc c) = true := by
  simp [descUsable_iff, tableDesc]

@[simp] theorem descUsable_zero : descUsable 0#64 = false := by decide
@[simp] theorem descValid_zero : descValid 0#64 = false := by decide

theorem frameOf_getLsbD (d : Word) (i : Nat) : (frameOf d).getLsbD i = (decide (i < 36) && d.getLsbD (12 + i)) := by
  simp [frameOf]

/-- A table descriptor names its child (R82). -/
@[simp] theorem frameOf_tableDesc (f : Frame) : frameOf (tableDesc (frameAddr f)) = f := by
  apply BitVec.eq_of_getLsbD_eq
  intro i hi
  have h := congrArg (fun x : Frame => x.getLsbD i) (frameOf_frameAddr f)
  simp only [frameOf_getLsbD] at h
  rw [frameOf_getLsbD, tableDesc, BitVec.getLsbD_or, getLsbD_three]
  simp only [hi, decide_true, Bool.true_and] at h ⊢
  rw [h]
  simp [show ¬ 12 + i < 2 by omega]

/-- A leaf descriptor names its frame (R81). -/
theorem frameOf_leafDesc {p f : Word} (hf : flagsOk f = true) : frameOf (leafDesc p f) = frameOf p := by
  apply BitVec.eq_of_getLsbD_eq
  intro i hi
  have hm : f.getLsbD (12 + i) = false := getLsbD_flags hf (getLsbD_flagsMask_oa (by omega) (by omega))
  rw [frameOf_getLsbD, frameOf_getLsbD, leafDesc, BitVec.getLsbD_or, BitVec.getLsbD_or, getLsbD_three, hm]
  simp only [show ¬ 12 + i < 2 by omega, decide_false, Bool.or_false]

/-- A leaf descriptor holds its flags word (R83). -/
theorem leafDesc_and_flagsMask {p f : Word} (ha : pageAligned p = true) (hp : isPhys p = true) (hf : flagsOk f = true) :
    leafDesc p f &&& flagsMask = f := by
  apply BitVec.eq_of_getLsbD_eq
  intro i hi
  rw [BitVec.getLsbD_and, leafDesc, BitVec.getLsbD_or, BitVec.getLsbD_or, getLsbD_three]
  cases hm : flagsMask.getLsbD i
  · simp [getLsbD_flags hf hm]
  · have hl : ¬ i < 2 := by
      intro h
      have : i = 0 ∨ i = 1 := by omega
      rcases this with rfl | rfl <;> revert hm <;> decide
    have hpz : p.getLsbD i = false := by
      by_cases h12 : i < 12
      · exact getLsbD_aligned ha h12
      · by_cases h48 : i < 48
        · rw [getLsbD_flagsMask_oa (by omega) h48] at hm
          cases hm
        · exact getLsbD_phys hp (by omega)
    simp [hl, hpz]

end Sys2Proof.Machine
end

