-- ==== Sys2Proof/Laws/Memory.lean ====
section
/-! SUPPORT. The laws of memory: a read after a write, and that every memory operation keeps the canonical form. -/

namespace Sys2Proof.Machine

/-! ## One byte -/

@[simp] theorem Memory.read_nil (a : Nat) : Memory.read [] a = 0#8 := rfl

theorem Memory.read_cons (k : Nat) (b : Byte) (m : Memory) (a : Nat) :
    Memory.read ((k, b) :: m) a = if k = a then b else Memory.read m a := rfl

/-- The canonical form, one entry at a time. -/
theorem Memory.wf_cons (k : Nat) (b : Byte) (m : Memory) :
    Memory.wf ((k, b) :: m) = true ↔ k < physSize ∧ b ≠ 0#8 ∧ (∀ c ∈ m, k < c.1) ∧ m.wf = true := by
  simp [Memory.wf, and_assoc, List.all_eq_true]

/-- Below its first address a canonical memory reads zero. -/
theorem Memory.read_below {m : Memory} {a : Nat} (h : ∀ c ∈ m, a < c.1) : m.read a = 0#8 := by
  induction m with
  | nil => rfl
  | cons c m ih =>
    obtain ⟨k, b⟩ := c
    have hk : a < k := h (k, b) (by simp)
    rw [Memory.read_cons, if_neg (by omega)]
    exact ih fun c hc => h c (by simp [hc])

/-- A write leaves every other address alone. -/
theorem Memory.read_write_ne (m : Memory) {a a' : Nat} (b : Byte) (h : a' ≠ a) : (m.write a b).read a' = m.read a' := by
  induction m with
  | nil =>
    unfold Memory.write
    split
    · rfl
    · rw [Memory.read_cons, if_neg (by omega)]
  | cons c m ih =>
    obtain ⟨k, v⟩ := c
    unfold Memory.write
    split_ifs with h1 h2 h3 h4
    · rfl
    · rw [Memory.read_cons, if_neg (by omega)]
    · subst h3; rw [Memory.read_cons, if_neg (by omega)]
    · subst h3; rw [Memory.read_cons, if_neg (by omega), Memory.read_cons, if_neg (by omega)]
    · simp only [Memory.read_cons, ih]

/-- A read after a write to the same place gives the value written. -/
theorem Memory.read_write_same {m : Memory} (hm : m.wf = true) (a : Nat) (b : Byte) : (m.write a b).read a = b := by
  induction m with
  | nil =>
    unfold Memory.write
    split
    · simp_all
    · rw [Memory.read_cons, if_pos rfl]
  | cons c m ih =>
    obtain ⟨k, v⟩ := c
    obtain ⟨-, -, hlt, hwf⟩ := (Memory.wf_cons k v m).1 hm
    unfold Memory.write
    split_ifs with h1 h2 h3 h4
    · rw [Memory.read_cons, if_neg (by omega), h2]
      exact Memory.read_below fun c hc => by have := hlt c hc; omega
    · rw [Memory.read_cons, if_pos rfl]
    · subst h3; rw [h4]; exact Memory.read_below hlt
    · rw [Memory.read_cons, if_pos rfl]
    · rw [Memory.read_cons, if_neg (by omega)]; exact ih hwf

/-- The addresses a write can list. -/
theorem Memory.mem_write {m : Memory} {a : Nat} {b : Byte} {c : Host.Cell} (h : c ∈ m.write a b) : c.1 = a ∨ c ∈ m := by
  induction m with
  | nil =>
    unfold Memory.write at h
    split_ifs at h <;> simp_all
  | cons d m ih =>
    obtain ⟨k, v⟩ := d
    unfold Memory.write at h
    split_ifs at h with h1 h2 h3 h4
    · exact .inr h
    · rcases List.mem_cons.1 h with rfl | h
      · exact .inl rfl
      · exact .inr h
    · exact .inr (by simp [h])
    · rcases List.mem_cons.1 h with rfl | h
      · exact .inl rfl
      · exact .inr (by simp [h])
    · rcases List.mem_cons.1 h with rfl | h
      · exact .inr (by simp)
      · rcases ih h with h | h
        · exact .inl h
        · exact .inr (by simp [h])

/-- A write inside the physical address space keeps the canonical form. -/
theorem Memory.write_wf {m : Memory} (hm : m.wf = true) {a : Nat} (ha : a < physSize) (b : Byte) :
    (m.write a b).wf = true := by
  induction m with
  | nil =>
    unfold Memory.write
    split_ifs with h
    · rfl
    · exact (Memory.wf_cons a b []).2 ⟨ha, h, by simp, rfl⟩
  | cons c m ih =>
    obtain ⟨k, v⟩ := c
    obtain ⟨hk, hv, hlt, hwf⟩ := (Memory.wf_cons k v m).1 hm
    unfold Memory.write
    split_ifs with h1 h2 h3 h4
    · exact hm
    · refine (Memory.wf_cons _ _ _).2 ⟨ha, h2, ?_, hm⟩
      intro c hc
      rcases List.mem_cons.1 hc with rfl | hc
      · exact h1
      · exact lt_trans h1 (hlt c hc)
    · exact hwf
    · subst h3; exact (Memory.wf_cons _ _ _).2 ⟨ha, h4, hlt, hwf⟩
    · refine (Memory.wf_cons _ _ _).2 ⟨hk, hv, ?_, ih hwf⟩
      intro c hc
      rcases Memory.mem_write hc with h | h
      · omega
      · exact hlt c h

/-! ## Clearing a stretch -/

theorem Memory.read_clear (m : Memory) (lo n a : Nat) :
    (m.clear lo n).read a = if lo ≤ a ∧ a < lo + n then 0#8 else m.read a := by
  induction m with
  | nil => simp [Memory.clear]
  | cons c m ih =>
    obtain ⟨k, v⟩ := c
    have hstep : Memory.clear ((k, v) :: m) lo n =
        if lo ≤ k ∧ k < lo + n then Memory.clear m lo n else (k, v) :: Memory.clear m lo n := by
      simp only [Memory.clear, List.filter_cons]
      split_ifs <;> simp_all
    rw [hstep]
    by_cases hk : lo ≤ k ∧ k < lo + n
    · rw [if_pos hk, ih, Memory.read_cons]
      split_ifs with h1 h2 <;> first | rfl | (exfalso; omega)
    · rw [if_neg hk, Memory.read_cons, Memory.read_cons, ih]
      split_ifs with h1 h2 <;> first | rfl | (exfalso; omega)

theorem Memory.clear_wf {m : Memory} (hm : m.wf = true) (lo n : Nat) : (m.clear lo n).wf = true := by
  induction m with
  | nil => rfl
  | cons c m ih =>
    obtain ⟨k, v⟩ := c
    obtain ⟨hk, hv, hlt, hwf⟩ := (Memory.wf_cons k v m).1 hm
    simp only [Memory.clear, List.filter_cons]
    split
    · exact (Memory.wf_cons _ _ _).2 ⟨hk, hv, fun c hc => hlt c (List.mem_filter.1 hc).1, ih hwf⟩
    · exact ih hwf

/-! ## Canonical form: equal contents are equal data -/

theorem Memory.ext_of_read {m m' : Memory} (hm : m.wf = true) (hm' : m'.wf = true) (h : ∀ a, m.read a = m'.read a) :
    m = m' := by
  induction m generalizing m' with
  | nil =>
    cases m' with
    | nil => rfl
    | cons c m' =>
      obtain ⟨k, v⟩ := c
      have := h k
      rw [Memory.read_cons, if_pos rfl] at this
      exact absurd this.symm ((Memory.wf_cons k v m').1 hm').2.1
  | cons c m ih =>
    obtain ⟨k, v⟩ := c
    obtain ⟨-, hv, hlt, hwf⟩ := (Memory.wf_cons k v m).1 hm
    have hk := h k
    rw [Memory.read_cons, if_pos rfl] at hk
    cases m' with
    | nil => exact absurd hk hv
    | cons c' m' =>
      obtain ⟨k', v'⟩ := c'
      obtain ⟨-, hv', hlt', hwf'⟩ := (Memory.wf_cons k' v' m').1 hm'
      have hkk : k = k' := by
        rcases lt_trichotomy k k' with hl | he | hg
        · exfalso
          rw [Memory.read_below (a := k)] at hk
          · exact hv hk
          · intro c hc
            rcases List.mem_cons.1 hc with rfl | hc
            · exact hl
            · exact lt_trans hl (hlt' c hc)
        · exact he
        · exfalso
          have hk' := h k'
          rw [Memory.read_cons k' v', if_pos rfl, Memory.read_below (a := k')] at hk'
          · exact hv' hk'.symm
          · intro c hc
            rcases List.mem_cons.1 hc with rfl | hc
            · exact hg
            · exact lt_trans hg (hlt c hc)
      subst hkk
      rw [Memory.read_cons, if_pos rfl] at hk
      subst hk
      congr 1
      refine ih hwf hwf' fun a => ?_
      have ha := h a
      rw [Memory.read_cons, Memory.read_cons] at ha
      by_cases hka : k = a
      · subst hka; rw [Memory.read_below hlt, Memory.read_below hlt']
      · rwa [if_neg hka, if_neg hka] at ha

/-! ## 64-bit values -/

/-- The bytes of a 64-bit store, one write after another. -/
theorem Memory.write64_eq (m : Memory) (a : Nat) (v : Word) :
    m.write64 a v = (((((((m.write (a + 0) (byteOf v 0)).write (a + 1) (byteOf v 1)).write (a + 2) (byteOf v 2)).write
      (a + 3) (byteOf v 3)).write (a + 4) (byteOf v 4)).write (a + 5) (byteOf v 5)).write (a + 6) (byteOf v 6)).write
      (a + 7) (byteOf v 7) := rfl

theorem Memory.write64_wf {m : Memory} (hm : m.wf = true) {a : Nat} (ha : a + 7 < physSize) (v : Word) :
    (m.write64 a v).wf = true := by
  rw [Memory.write64_eq]
  repeat' apply Memory.write_wf
  all_goals first | exact hm | omega

/-- A 64-bit store leaves every byte outside its eight alone. -/
theorem Memory.read_write64_ne (m : Memory) {a a' : Nat} (v : Word) (h : a' < a ∨ a + 8 ≤ a') :
    (m.write64 a v).read a' = m.read a' := by
  rw [Memory.write64_eq]
  repeat rw [Memory.read_write_ne]
  all_goals omega

/-- Byte `k` of a stored value is at its place (R50: little-endian). -/
theorem Memory.read_write64_byte {m : Memory} (hm : m.wf = true) {a : Nat} (ha : a + 7 < physSize) (v : Word) {k : Nat}
    (hk : k < 8) : (m.write64 a v).read (a + k) = byteOf v k := by
  have step (m : Memory) (j : Nat) (b : Byte) (hj : j ≠ k) : (m.write (a + j) b).read (a + k) = m.read (a + k) :=
    Memory.read_write_ne m b (by omega)
  rw [Memory.write64_eq]
  obtain rfl | rfl | rfl | rfl | rfl | rfl | rfl | rfl :
      k = 0 ∨ k = 1 ∨ k = 2 ∨ k = 3 ∨ k = 4 ∨ k = 5 ∨ k = 6 ∨ k = 7 := by omega
  all_goals
    repeat rw [step _ _ _ (by decide)]
    refine Memory.read_write_same ?_ _ _
    repeat' apply Memory.write_wf
    all_goals first | exact hm | omega

/-- The eight bytes of a 64-bit value make it up again. -/
theorem bytes_append (v : Word) :
    byteOf v 7 ++ byteOf v 6 ++ byteOf v 5 ++ byteOf v 4 ++ byteOf v 3 ++ byteOf v 2 ++ byteOf v 1 ++ byteOf v 0 = v := by
  apply BitVec.eq_of_getLsbD_eq
  intro i hi
  simp only [BitVec.getLsbD_append, byteOf, BitVec.getLsbD_extractLsb']
  split_ifs
  all_goals
    rw [decide_eq_true (by omega), Bool.true_and]
    congr 1
    omega

/-- A 64-bit read after a 64-bit store to the same address gives the value stored. -/
theorem Memory.read64_write64_same {m : Memory} (hm : m.wf = true) {a : Nat} (ha : a + 7 < physSize) (v : Word) :
    (m.write64 a v).read64 a = v := by
  have h := fun k (hk : k < 8) => Memory.read_write64_byte hm ha v hk
  have h0 := h 0 (by decide)
  rw [Nat.add_zero] at h0
  rw [Memory.read64, h 7 (by decide), h 6 (by decide), h 5 (by decide), h 4 (by decide), h 3 (by decide), h 2 (by decide),
    h 1 (by decide), h0]
  exact bytes_append v

/-- A 64-bit read that meets none of the bytes that changed reads as before. -/
theorem Memory.read64_congr {m m' : Memory} {a : Nat} (h : ∀ k, k < 8 → m'.read (a + k) = m.read (a + k)) :
    m'.read64 a = m.read64 a := by
  have h0 := h 0 (by decide)
  rw [Nat.add_zero] at h0
  rw [Memory.read64, Memory.read64, h 7 (by decide), h 6 (by decide), h 5 (by decide), h 4 (by decide), h 3 (by decide),
    h 2 (by decide), h 1 (by decide), h0]

/-- A 64-bit store leaves a 64-bit read that shares no byte with it alone. -/
theorem Memory.read64_write64_ne (m : Memory) {a a' : Nat} (v : Word) (h : a' + 8 ≤ a ∨ a + 8 ≤ a') :
    (m.write64 a v).read64 a' = m.read64 a' :=
  Memory.read64_congr fun k hk => Memory.read_write64_ne m v (by omega)

/-- A 64-bit read inside a cleared stretch gives zero. -/
theorem Memory.read64_clear_inside (m : Memory) {lo n a : Nat} (h1 : lo ≤ a) (h2 : a + 8 ≤ lo + n) :
    (m.clear lo n).read64 a = 0#64 := by
  have h := fun k (hk : k < 8) => (Memory.read_clear m lo n (a + k)).trans (if_pos (by omega))
  have h0 := h 0 (by decide)
  rw [Nat.add_zero] at h0
  rw [Memory.read64, h 7 (by decide), h 6 (by decide), h 5 (by decide), h 4 (by decide), h 3 (by decide), h 2 (by decide),
    h 1 (by decide), h0]
  rfl

/-- A 64-bit read outside a cleared stretch reads as before. -/
theorem Memory.read64_clear_outside (m : Memory) {lo n a : Nat} (h : a + 8 ≤ lo ∨ lo + n ≤ a) :
    (m.clear lo n).read64 a = m.read64 a :=
  Memory.read64_congr fun k hk => by rw [Memory.read_clear, if_neg (by omega)]

/-! ## Any list of cells -/

theorem Memory.ofCells_wf (cells : List Host.Cell) : (Memory.ofCells cells).wf = true := by
  suffices h : ∀ m : Memory, m.wf = true →
      Memory.wf (cells.foldl (fun m c => if c.1 < physSize then m.write c.1 c.2 else m) m) = true from h [] rfl
  induction cells with
  | nil => intro m hm; exact hm
  | cons c cells ih =>
    intro m hm
    apply ih
    dsimp only
    split_ifs with h
    · exact Memory.write_wf hm h _
    · exact hm

end Sys2Proof.Machine
end

