-- ==== Sys2Proof/Laws/State.lean ====
section
/-! SUPPORT. One lemma per field per update of the state: what the update leaves in the field. -/

namespace Sys2Proof.Machine

/-! ## setR0 -/

@[simp] theorem State.setR0_cfg (v : Word) (s : State) : (s.setR0 v).cfg = s.cfg := rfl
@[simp] theorem State.setR0_alloc (v : Word) (s : State) : (s.setR0 v).alloc = s.alloc := rfl
@[simp] theorem State.setR0_agenda (v : Word) (s : State) : (s.setR0 v).agenda = s.agenda := rfl
@[simp] theorem State.setR0_lookups (v : Word) (s : State) : (s.setR0 v).lookups = s.lookups := rfl
@[simp] theorem State.setR0_ops (v : Word) (s : State) : (s.setR0 v).ops = s.ops := rfl
@[simp] theorem State.setR0_res (v : Word) (s : State) : (s.setR0 v).res = { s.res with r0 := v } := rfl
@[simp] theorem State.setR0_status (v : Word) (s : State) : (s.setR0 v).status = s.status := rfl
@[simp] theorem State.setR0_rspValid (v : Word) (s : State) : (s.setR0 v).rspValid = s.rspValid := rfl
@[simp] theorem State.setR0_irqMasked (v : Word) (s : State) : (s.setR0 v).irqMasked = s.irqMasked := rfl
@[simp] theorem State.setR0_pc (v : Word) (s : State) : (s.setR0 v).pc = s.pc := rfl
@[simp] theorem State.setR0_state (v : Word) (s : State) : (s.setR0 v).state = s.state := rfl
@[simp] theorem State.setR0_failCause (v : Word) (s : State) : (s.setR0 v).failCause = s.failCause := rfl
@[simp] theorem State.setR0_failInfo (v : Word) (s : State) : (s.setR0 v).failInfo = s.failInfo := rfl
@[simp] theorem State.setR0_tcrProgrammed (v : Word) (s : State) : (s.setR0 v).tcrProgrammed = s.tcrProgrammed := rfl
@[simp] theorem State.setR0_vecPhysDone (v : Word) (s : State) : (s.setR0 v).vecPhysDone = s.vecPhysDone := rfl
@[simp] theorem State.setR0_vecVirtDone (v : Word) (s : State) : (s.setR0 v).vecVirtDone = s.vecVirtDone := rfl
@[simp] theorem State.setR0_rootsValid (v : Word) (s : State) : (s.setR0 v).rootsValid = s.rootsValid := rfl
@[simp] theorem State.setR0_identityRoot (v : Word) (s : State) : (s.setR0 v).identityRoot = s.identityRoot := rfl
@[simp] theorem State.setR0_kernelRoot (v : Word) (s : State) : (s.setR0 v).kernelRoot = s.kernelRoot := rfl
@[simp] theorem State.setR0_sys (v : Word) (s : State) : (s.setR0 v).sys = s.sys := rfl
@[simp] theorem State.setR0_mem (v : Word) (s : State) : (s.setR0 v).mem = s.mem := rfl
@[simp] theorem State.setR0_unseen (v : Word) (s : State) : (s.setR0 v).unseen = s.unseen := rfl
@[simp] theorem State.setR0_tlb (v : Word) (s : State) : (s.setR0 v).tlb = s.tlb := rfl
@[simp] theorem State.setR0_registry (v : Word) (s : State) : (s.setR0 v).registry = s.registry := rfl
@[simp] theorem State.setR0_owned (v : Word) (s : State) : (s.setR0 v).owned = s.owned := rfl
@[simp] theorem State.setR0_console (v : Word) (s : State) : (s.setR0 v).console = s.console := rfl

/-! ## setR1 -/

@[simp] theorem State.setR1_cfg (v : Word) (s : State) : (s.setR1 v).cfg = s.cfg := rfl
@[simp] theorem State.setR1_alloc (v : Word) (s : State) : (s.setR1 v).alloc = s.alloc := rfl
@[simp] theorem State.setR1_agenda (v : Word) (s : State) : (s.setR1 v).agenda = s.agenda := rfl
@[simp] theorem State.setR1_lookups (v : Word) (s : State) : (s.setR1 v).lookups = s.lookups := rfl
@[simp] theorem State.setR1_ops (v : Word) (s : State) : (s.setR1 v).ops = s.ops := rfl
@[simp] theorem State.setR1_res (v : Word) (s : State) : (s.setR1 v).res = { s.res with r1 := v } := rfl
@[simp] theorem State.setR1_status (v : Word) (s : State) : (s.setR1 v).status = s.status := rfl
@[simp] theorem State.setR1_rspValid (v : Word) (s : State) : (s.setR1 v).rspValid = s.rspValid := rfl
@[simp] theorem State.setR1_irqMasked (v : Word) (s : State) : (s.setR1 v).irqMasked = s.irqMasked := rfl
@[simp] theorem State.setR1_pc (v : Word) (s : State) : (s.setR1 v).pc = s.pc := rfl
@[simp] theorem State.setR1_state (v : Word) (s : State) : (s.setR1 v).state = s.state := rfl
@[simp] theorem State.setR1_failCause (v : Word) (s : State) : (s.setR1 v).failCause = s.failCause := rfl
@[simp] theorem State.setR1_failInfo (v : Word) (s : State) : (s.setR1 v).failInfo = s.failInfo := rfl
@[simp] theorem State.setR1_tcrProgrammed (v : Word) (s : State) : (s.setR1 v).tcrProgrammed = s.tcrProgrammed := rfl
@[simp] theorem State.setR1_vecPhysDone (v : Word) (s : State) : (s.setR1 v).vecPhysDone = s.vecPhysDone := rfl
@[simp] theorem State.setR1_vecVirtDone (v : Word) (s : State) : (s.setR1 v).vecVirtDone = s.vecVirtDone := rfl
@[simp] theorem State.setR1_rootsValid (v : Word) (s : State) : (s.setR1 v).rootsValid = s.rootsValid := rfl
@[simp] theorem State.setR1_identityRoot (v : Word) (s : State) : (s.setR1 v).identityRoot = s.identityRoot := rfl
@[simp] theorem State.setR1_kernelRoot (v : Word) (s : State) : (s.setR1 v).kernelRoot = s.kernelRoot := rfl
@[simp] theorem State.setR1_sys (v : Word) (s : State) : (s.setR1 v).sys = s.sys := rfl
@[simp] theorem State.setR1_mem (v : Word) (s : State) : (s.setR1 v).mem = s.mem := rfl
@[simp] theorem State.setR1_unseen (v : Word) (s : State) : (s.setR1 v).unseen = s.unseen := rfl
@[simp] theorem State.setR1_tlb (v : Word) (s : State) : (s.setR1 v).tlb = s.tlb := rfl
@[simp] theorem State.setR1_registry (v : Word) (s : State) : (s.setR1 v).registry = s.registry := rfl
@[simp] theorem State.setR1_owned (v : Word) (s : State) : (s.setR1 v).owned = s.owned := rfl
@[simp] theorem State.setR1_console (v : Word) (s : State) : (s.setR1 v).console = s.console := rfl

/-! ## setR2 -/

@[simp] theorem State.setR2_cfg (v : Word) (s : State) : (s.setR2 v).cfg = s.cfg := rfl
@[simp] theorem State.setR2_alloc (v : Word) (s : State) : (s.setR2 v).alloc = s.alloc := rfl
@[simp] theorem State.setR2_agenda (v : Word) (s : State) : (s.setR2 v).agenda = s.agenda := rfl
@[simp] theorem State.setR2_lookups (v : Word) (s : State) : (s.setR2 v).lookups = s.lookups := rfl
@[simp] theorem State.setR2_ops (v : Word) (s : State) : (s.setR2 v).ops = s.ops := rfl
@[simp] theorem State.setR2_res (v : Word) (s : State) : (s.setR2 v).res = { s.res with r2 := v } := rfl
@[simp] theorem State.setR2_status (v : Word) (s : State) : (s.setR2 v).status = s.status := rfl
@[simp] theorem State.setR2_rspValid (v : Word) (s : State) : (s.setR2 v).rspValid = s.rspValid := rfl
@[simp] theorem State.setR2_irqMasked (v : Word) (s : State) : (s.setR2 v).irqMasked = s.irqMasked := rfl
@[simp] theorem State.setR2_pc (v : Word) (s : State) : (s.setR2 v).pc = s.pc := rfl
@[simp] theorem State.setR2_state (v : Word) (s : State) : (s.setR2 v).state = s.state := rfl
@[simp] theorem State.setR2_failCause (v : Word) (s : State) : (s.setR2 v).failCause = s.failCause := rfl
@[simp] theorem State.setR2_failInfo (v : Word) (s : State) : (s.setR2 v).failInfo = s.failInfo := rfl
@[simp] theorem State.setR2_tcrProgrammed (v : Word) (s : State) : (s.setR2 v).tcrProgrammed = s.tcrProgrammed := rfl
@[simp] theorem State.setR2_vecPhysDone (v : Word) (s : State) : (s.setR2 v).vecPhysDone = s.vecPhysDone := rfl
@[simp] theorem State.setR2_vecVirtDone (v : Word) (s : State) : (s.setR2 v).vecVirtDone = s.vecVirtDone := rfl
@[simp] theorem State.setR2_rootsValid (v : Word) (s : State) : (s.setR2 v).rootsValid = s.rootsValid := rfl
@[simp] theorem State.setR2_identityRoot (v : Word) (s : State) : (s.setR2 v).identityRoot = s.identityRoot := rfl
@[simp] theorem State.setR2_kernelRoot (v : Word) (s : State) : (s.setR2 v).kernelRoot = s.kernelRoot := rfl
@[simp] theorem State.setR2_sys (v : Word) (s : State) : (s.setR2 v).sys = s.sys := rfl
@[simp] theorem State.setR2_mem (v : Word) (s : State) : (s.setR2 v).mem = s.mem := rfl
@[simp] theorem State.setR2_unseen (v : Word) (s : State) : (s.setR2 v).unseen = s.unseen := rfl
@[simp] theorem State.setR2_tlb (v : Word) (s : State) : (s.setR2 v).tlb = s.tlb := rfl
@[simp] theorem State.setR2_registry (v : Word) (s : State) : (s.setR2 v).registry = s.registry := rfl
@[simp] theorem State.setR2_owned (v : Word) (s : State) : (s.setR2 v).owned = s.owned := rfl
@[simp] theorem State.setR2_console (v : Word) (s : State) : (s.setR2 v).console = s.console := rfl

/-! ## log -/

@[simp] theorem State.log_cfg (l : List ConsoleItem) (s : State) : (s.log l).cfg = s.cfg := rfl
@[simp] theorem State.log_alloc (l : List ConsoleItem) (s : State) : (s.log l).alloc = s.alloc := rfl
@[simp] theorem State.log_agenda (l : List ConsoleItem) (s : State) : (s.log l).agenda = s.agenda := rfl
@[simp] theorem State.log_lookups (l : List ConsoleItem) (s : State) : (s.log l).lookups = s.lookups := rfl
@[simp] theorem State.log_ops (l : List ConsoleItem) (s : State) : (s.log l).ops = s.ops := rfl
@[simp] theorem State.log_res (l : List ConsoleItem) (s : State) : (s.log l).res = s.res := rfl
@[simp] theorem State.log_status (l : List ConsoleItem) (s : State) : (s.log l).status = s.status := rfl
@[simp] theorem State.log_rspValid (l : List ConsoleItem) (s : State) : (s.log l).rspValid = s.rspValid := rfl
@[simp] theorem State.log_irqMasked (l : List ConsoleItem) (s : State) : (s.log l).irqMasked = s.irqMasked := rfl
@[simp] theorem State.log_pc (l : List ConsoleItem) (s : State) : (s.log l).pc = s.pc := rfl
@[simp] theorem State.log_state (l : List ConsoleItem) (s : State) : (s.log l).state = s.state := rfl
@[simp] theorem State.log_failCause (l : List ConsoleItem) (s : State) : (s.log l).failCause = s.failCause := rfl
@[simp] theorem State.log_failInfo (l : List ConsoleItem) (s : State) : (s.log l).failInfo = s.failInfo := rfl
@[simp] theorem State.log_tcrProgrammed (l : List ConsoleItem) (s : State) : (s.log l).tcrProgrammed = s.tcrProgrammed := rfl
@[simp] theorem State.log_vecPhysDone (l : List ConsoleItem) (s : State) : (s.log l).vecPhysDone = s.vecPhysDone := rfl
@[simp] theorem State.log_vecVirtDone (l : List ConsoleItem) (s : State) : (s.log l).vecVirtDone = s.vecVirtDone := rfl
@[simp] theorem State.log_rootsValid (l : List ConsoleItem) (s : State) : (s.log l).rootsValid = s.rootsValid := rfl
@[simp] theorem State.log_identityRoot (l : List ConsoleItem) (s : State) : (s.log l).identityRoot = s.identityRoot := rfl
@[simp] theorem State.log_kernelRoot (l : List ConsoleItem) (s : State) : (s.log l).kernelRoot = s.kernelRoot := rfl
@[simp] theorem State.log_sys (l : List ConsoleItem) (s : State) : (s.log l).sys = s.sys := rfl
@[simp] theorem State.log_mem (l : List ConsoleItem) (s : State) : (s.log l).mem = s.mem := rfl
@[simp] theorem State.log_unseen (l : List ConsoleItem) (s : State) : (s.log l).unseen = s.unseen := rfl
@[simp] theorem State.log_tlb (l : List ConsoleItem) (s : State) : (s.log l).tlb = s.tlb := rfl
@[simp] theorem State.log_registry (l : List ConsoleItem) (s : State) : (s.log l).registry = s.registry := rfl
@[simp] theorem State.log_owned (l : List ConsoleItem) (s : State) : (s.log l).owned = s.owned := rfl
@[simp] theorem State.log_console (l : List ConsoleItem) (s : State) : (s.log l).console = s.console ++ l := rfl

/-! ## completed -/

@[simp] theorem State.completed_cfg (st : Status) (s : State) : (s.completed st).cfg = s.cfg := rfl
@[simp] theorem State.completed_alloc (st : Status) (s : State) : (s.completed st).alloc = s.alloc := rfl
@[simp] theorem State.completed_agenda (st : Status) (s : State) : (s.completed st).agenda = s.agenda := rfl
@[simp] theorem State.completed_lookups (st : Status) (s : State) : (s.completed st).lookups = s.lookups := rfl
@[simp] theorem State.completed_ops (st : Status) (s : State) : (s.completed st).ops = s.ops := rfl
@[simp] theorem State.completed_res (st : Status) (s : State) : (s.completed st).res = s.res := rfl
@[simp] theorem State.completed_status (st : Status) (s : State) : (s.completed st).status = st.code := rfl
@[simp] theorem State.completed_rspValid (st : Status) (s : State) : (s.completed st).rspValid = true := rfl
@[simp] theorem State.completed_irqMasked (st : Status) (s : State) : (s.completed st).irqMasked = s.irqMasked := rfl
@[simp] theorem State.completed_pc (st : Status) (s : State) : (s.completed st).pc = s.pc := rfl
@[simp] theorem State.completed_state (st : Status) (s : State) : (s.completed st).state = s.state := rfl
@[simp] theorem State.completed_failCause (st : Status) (s : State) : (s.completed st).failCause = s.failCause := rfl
@[simp] theorem State.completed_failInfo (st : Status) (s : State) : (s.completed st).failInfo = s.failInfo := rfl
@[simp] theorem State.completed_tcrProgrammed (st : Status) (s : State) : (s.completed st).tcrProgrammed = s.tcrProgrammed := rfl
@[simp] theorem State.completed_vecPhysDone (st : Status) (s : State) : (s.completed st).vecPhysDone = s.vecPhysDone := rfl
@[simp] theorem State.completed_vecVirtDone (st : Status) (s : State) : (s.completed st).vecVirtDone = s.vecVirtDone := rfl
@[simp] theorem State.completed_rootsValid (st : Status) (s : State) : (s.completed st).rootsValid = s.rootsValid := rfl
@[simp] theorem State.completed_identityRoot (st : Status) (s : State) : (s.completed st).identityRoot = s.identityRoot := rfl
@[simp] theorem State.completed_kernelRoot (st : Status) (s : State) : (s.completed st).kernelRoot = s.kernelRoot := rfl
@[simp] theorem State.completed_sys (st : Status) (s : State) : (s.completed st).sys = s.sys := rfl
@[simp] theorem State.completed_mem (st : Status) (s : State) : (s.completed st).mem = s.mem := rfl
@[simp] theorem State.completed_unseen (st : Status) (s : State) : (s.completed st).unseen = s.unseen := rfl
@[simp] theorem State.completed_tlb (st : Status) (s : State) : (s.completed st).tlb = s.tlb := rfl
@[simp] theorem State.completed_registry (st : Status) (s : State) : (s.completed st).registry = s.registry := rfl
@[simp] theorem State.completed_owned (st : Status) (s : State) : (s.completed st).owned = s.owned := rfl
@[simp] theorem State.completed_console (st : Status) (s : State) : (s.completed st).console = s.console := rfl

/-! ## halted -/

@[simp] theorem State.halted_cfg (c : Status) (i : FailInfo) (s : State) : (s.halted c i).cfg = s.cfg := rfl
@[simp] theorem State.halted_alloc (c : Status) (i : FailInfo) (s : State) : (s.halted c i).alloc = s.alloc := rfl
@[simp] theorem State.halted_agenda (c : Status) (i : FailInfo) (s : State) : (s.halted c i).agenda = s.agenda := rfl
@[simp] theorem State.halted_lookups (c : Status) (i : FailInfo) (s : State) : (s.halted c i).lookups = s.lookups := rfl
@[simp] theorem State.halted_ops (c : Status) (i : FailInfo) (s : State) : (s.halted c i).ops = s.ops := rfl
@[simp] theorem State.halted_res (c : Status) (i : FailInfo) (s : State) : (s.halted c i).res = s.res := rfl
@[simp] theorem State.halted_status (c : Status) (i : FailInfo) (s : State) : (s.halted c i).status = c.code := rfl
@[simp] theorem State.halted_rspValid (c : Status) (i : FailInfo) (s : State) : (s.halted c i).rspValid = true := rfl
@[simp] theorem State.halted_irqMasked (c : Status) (i : FailInfo) (s : State) : (s.halted c i).irqMasked = s.irqMasked := rfl
@[simp] theorem State.halted_pc (c : Status) (i : FailInfo) (s : State) : (s.halted c i).pc = s.pc := rfl
@[simp] theorem State.halted_state (c : Status) (i : FailInfo) (s : State) : (s.halted c i).state = .halted := rfl
@[simp] theorem State.halted_failCause (c : Status) (i : FailInfo) (s : State) : (s.halted c i).failCause = c.code := rfl
@[simp] theorem State.halted_failInfo (c : Status) (i : FailInfo) (s : State) : (s.halted c i).failInfo = i.code := rfl
@[simp] theorem State.halted_tcrProgrammed (c : Status) (i : FailInfo) (s : State) : (s.halted c i).tcrProgrammed = s.tcrProgrammed := rfl
@[simp] theorem State.halted_vecPhysDone (c : Status) (i : FailInfo) (s : State) : (s.halted c i).vecPhysDone = s.vecPhysDone := rfl
@[simp] theorem State.halted_vecVirtDone (c : Status) (i : FailInfo) (s : State) : (s.halted c i).vecVirtDone = s.vecVirtDone := rfl
@[simp] theorem State.halted_rootsValid (c : Status) (i : FailInfo) (s : State) : (s.halted c i).rootsValid = s.rootsValid := rfl
@[simp] theorem State.halted_identityRoot (c : Status) (i : FailInfo) (s : State) : (s.halted c i).identityRoot = s.identityRoot := rfl
@[simp] theorem State.halted_kernelRoot (c : Status) (i : FailInfo) (s : State) : (s.halted c i).kernelRoot = s.kernelRoot := rfl
@[simp] theorem State.halted_sys (c : Status) (i : FailInfo) (s : State) : (s.halted c i).sys = s.sys := rfl
@[simp] theorem State.halted_mem (c : Status) (i : FailInfo) (s : State) : (s.halted c i).mem = s.mem := rfl
@[simp] theorem State.halted_unseen (c : Status) (i : FailInfo) (s : State) : (s.halted c i).unseen = s.unseen := rfl
@[simp] theorem State.halted_tlb (c : Status) (i : FailInfo) (s : State) : (s.halted c i).tlb = s.tlb := rfl
@[simp] theorem State.halted_registry (c : Status) (i : FailInfo) (s : State) : (s.halted c i).registry = s.registry := rfl
@[simp] theorem State.halted_owned (c : Status) (i : FailInfo) (s : State) : (s.halted c i).owned = s.owned := rfl
@[simp] theorem State.halted_console (c : Status) (i : FailInfo) (s : State) : (s.halted c i).console = s.console ++ (s.recordFailure c i).dumpItems := rfl

/-! ## enter -/

@[simp] theorem State.enter_cfg (n : TransState) (s : State) : (s.enter n).cfg = s.cfg := rfl
@[simp] theorem State.enter_alloc (n : TransState) (s : State) : (s.enter n).alloc = s.alloc := rfl
@[simp] theorem State.enter_agenda (n : TransState) (s : State) : (s.enter n).agenda = s.agenda := rfl
@[simp] theorem State.enter_lookups (n : TransState) (s : State) : (s.enter n).lookups = s.lookups := rfl
@[simp] theorem State.enter_ops (n : TransState) (s : State) : (s.enter n).ops = s.ops := rfl
@[simp] theorem State.enter_res (n : TransState) (s : State) : (s.enter n).res = s.res := rfl
@[simp] theorem State.enter_status (n : TransState) (s : State) : (s.enter n).status = s.status := rfl
@[simp] theorem State.enter_rspValid (n : TransState) (s : State) : (s.enter n).rspValid = s.rspValid := rfl
@[simp] theorem State.enter_irqMasked (n : TransState) (s : State) : (s.enter n).irqMasked = s.irqMasked := rfl
@[simp] theorem State.enter_pc (n : TransState) (s : State) : (s.enter n).pc = s.pc := rfl
@[simp] theorem State.enter_state (n : TransState) (s : State) : (s.enter n).state = n := rfl
@[simp] theorem State.enter_failCause (n : TransState) (s : State) : (s.enter n).failCause = s.failCause := rfl
@[simp] theorem State.enter_failInfo (n : TransState) (s : State) : (s.enter n).failInfo = s.failInfo := rfl
@[simp] theorem State.enter_tcrProgrammed (n : TransState) (s : State) : (s.enter n).tcrProgrammed = s.tcrProgrammed := rfl
@[simp] theorem State.enter_vecPhysDone (n : TransState) (s : State) : (s.enter n).vecPhysDone = s.vecPhysDone := rfl
@[simp] theorem State.enter_vecVirtDone (n : TransState) (s : State) : (s.enter n).vecVirtDone = s.vecVirtDone := rfl
@[simp] theorem State.enter_rootsValid (n : TransState) (s : State) : (s.enter n).rootsValid = s.rootsValid := rfl
@[simp] theorem State.enter_identityRoot (n : TransState) (s : State) : (s.enter n).identityRoot = s.identityRoot := rfl
@[simp] theorem State.enter_kernelRoot (n : TransState) (s : State) : (s.enter n).kernelRoot = s.kernelRoot := rfl
@[simp] theorem State.enter_sys (n : TransState) (s : State) : (s.enter n).sys = s.sys := rfl
@[simp] theorem State.enter_mem (n : TransState) (s : State) : (s.enter n).mem = s.mem := rfl
@[simp] theorem State.enter_unseen (n : TransState) (s : State) : (s.enter n).unseen = s.unseen := rfl
@[simp] theorem State.enter_tlb (n : TransState) (s : State) : (s.enter n).tlb = s.tlb := rfl
@[simp] theorem State.enter_registry (n : TransState) (s : State) : (s.enter n).registry = s.registry := rfl
@[simp] theorem State.enter_owned (n : TransState) (s : State) : (s.enter n).owned = s.owned := rfl
@[simp] theorem State.enter_console (n : TransState) (s : State) : (s.enter n).console = s.console ++ [.line .state, .hex (n.code.setWidth 64), .line .ok] := rfl

/-! ## sysWrite -/

@[simp] theorem State.sysWrite_cfg (r : SysReg) (v : Word) (s : State) : (s.sysWrite r v).cfg = s.cfg := rfl
@[simp] theorem State.sysWrite_alloc (r : SysReg) (v : Word) (s : State) : (s.sysWrite r v).alloc = s.alloc := rfl
@[simp] theorem State.sysWrite_agenda (r : SysReg) (v : Word) (s : State) : (s.sysWrite r v).agenda = s.agenda := rfl
@[simp] theorem State.sysWrite_lookups (r : SysReg) (v : Word) (s : State) : (s.sysWrite r v).lookups = s.lookups := rfl
@[simp] theorem State.sysWrite_ops (r : SysReg) (v : Word) (s : State) : (s.sysWrite r v).ops = s.ops := rfl
@[simp] theorem State.sysWrite_res (r : SysReg) (v : Word) (s : State) : (s.sysWrite r v).res = s.res := rfl
@[simp] theorem State.sysWrite_status (r : SysReg) (v : Word) (s : State) : (s.sysWrite r v).status = s.status := rfl
@[simp] theorem State.sysWrite_rspValid (r : SysReg) (v : Word) (s : State) : (s.sysWrite r v).rspValid = s.rspValid := rfl
@[simp] theorem State.sysWrite_irqMasked (r : SysReg) (v : Word) (s : State) : (s.sysWrite r v).irqMasked = s.irqMasked := rfl
@[simp] theorem State.sysWrite_pc (r : SysReg) (v : Word) (s : State) : (s.sysWrite r v).pc = s.pc := rfl
@[simp] theorem State.sysWrite_state (r : SysReg) (v : Word) (s : State) : (s.sysWrite r v).state = s.state := rfl
@[simp] theorem State.sysWrite_failCause (r : SysReg) (v : Word) (s : State) : (s.sysWrite r v).failCause = s.failCause := rfl
@[simp] theorem State.sysWrite_failInfo (r : SysReg) (v : Word) (s : State) : (s.sysWrite r v).failInfo = s.failInfo := rfl
@[simp] theorem State.sysWrite_tcrProgrammed (r : SysReg) (v : Word) (s : State) : (s.sysWrite r v).tcrProgrammed = s.tcrProgrammed := rfl
@[simp] theorem State.sysWrite_vecPhysDone (r : SysReg) (v : Word) (s : State) : (s.sysWrite r v).vecPhysDone = s.vecPhysDone := rfl
@[simp] theorem State.sysWrite_vecVirtDone (r : SysReg) (v : Word) (s : State) : (s.sysWrite r v).vecVirtDone = s.vecVirtDone := rfl
@[simp] theorem State.sysWrite_rootsValid (r : SysReg) (v : Word) (s : State) : (s.sysWrite r v).rootsValid = s.rootsValid := rfl
@[simp] theorem State.sysWrite_identityRoot (r : SysReg) (v : Word) (s : State) : (s.sysWrite r v).identityRoot = s.identityRoot := rfl
@[simp] theorem State.sysWrite_kernelRoot (r : SysReg) (v : Word) (s : State) : (s.sysWrite r v).kernelRoot = s.kernelRoot := rfl
@[simp] theorem State.sysWrite_sys (r : SysReg) (v : Word) (s : State) : (s.sysWrite r v).sys = s.sys.set r (legalize s.cfg.legalizeRows r v) := rfl
@[simp] theorem State.sysWrite_mem (r : SysReg) (v : Word) (s : State) : (s.sysWrite r v).mem = s.mem := rfl
@[simp] theorem State.sysWrite_unseen (r : SysReg) (v : Word) (s : State) : (s.sysWrite r v).unseen = s.unseen := rfl
@[simp] theorem State.sysWrite_tlb (r : SysReg) (v : Word) (s : State) : (s.sysWrite r v).tlb = s.tlb := rfl
@[simp] theorem State.sysWrite_registry (r : SysReg) (v : Word) (s : State) : (s.sysWrite r v).registry = s.registry := rfl
@[simp] theorem State.sysWrite_owned (r : SysReg) (v : Word) (s : State) : (s.sysWrite r v).owned = s.owned := rfl
@[simp] theorem State.sysWrite_console (r : SysReg) (v : Word) (s : State) : (s.sysWrite r v).console = s.console := rfl

/-! ## zeroTable -/

@[simp] theorem State.zeroTable_cfg (f : Frame) (s : State) : (s.zeroTable f).cfg = s.cfg := rfl
@[simp] theorem State.zeroTable_alloc (f : Frame) (s : State) : (s.zeroTable f).alloc = s.alloc := rfl
@[simp] theorem State.zeroTable_agenda (f : Frame) (s : State) : (s.zeroTable f).agenda = s.agenda := rfl
@[simp] theorem State.zeroTable_lookups (f : Frame) (s : State) : (s.zeroTable f).lookups = s.lookups := rfl
@[simp] theorem State.zeroTable_ops (f : Frame) (s : State) : (s.zeroTable f).ops = s.ops := rfl
@[simp] theorem State.zeroTable_res (f : Frame) (s : State) : (s.zeroTable f).res = s.res := rfl
@[simp] theorem State.zeroTable_status (f : Frame) (s : State) : (s.zeroTable f).status = s.status := rfl
@[simp] theorem State.zeroTable_rspValid (f : Frame) (s : State) : (s.zeroTable f).rspValid = s.rspValid := rfl
@[simp] theorem State.zeroTable_irqMasked (f : Frame) (s : State) : (s.zeroTable f).irqMasked = s.irqMasked := rfl
@[simp] theorem State.zeroTable_pc (f : Frame) (s : State) : (s.zeroTable f).pc = s.pc := rfl
@[simp] theorem State.zeroTable_state (f : Frame) (s : State) : (s.zeroTable f).state = s.state := rfl
@[simp] theorem State.zeroTable_failCause (f : Frame) (s : State) : (s.zeroTable f).failCause = s.failCause := rfl
@[simp] theorem State.zeroTable_failInfo (f : Frame) (s : State) : (s.zeroTable f).failInfo = s.failInfo := rfl
@[simp] theorem State.zeroTable_tcrProgrammed (f : Frame) (s : State) : (s.zeroTable f).tcrProgrammed = s.tcrProgrammed := rfl
@[simp] theorem State.zeroTable_vecPhysDone (f : Frame) (s : State) : (s.zeroTable f).vecPhysDone = s.vecPhysDone := rfl
@[simp] theorem State.zeroTable_vecVirtDone (f : Frame) (s : State) : (s.zeroTable f).vecVirtDone = s.vecVirtDone := rfl
@[simp] theorem State.zeroTable_rootsValid (f : Frame) (s : State) : (s.zeroTable f).rootsValid = s.rootsValid := rfl
@[simp] theorem State.zeroTable_identityRoot (f : Frame) (s : State) : (s.zeroTable f).identityRoot = s.identityRoot := rfl
@[simp] theorem State.zeroTable_kernelRoot (f : Frame) (s : State) : (s.zeroTable f).kernelRoot = s.kernelRoot := rfl
@[simp] theorem State.zeroTable_sys (f : Frame) (s : State) : (s.zeroTable f).sys = s.sys := rfl
@[simp] theorem State.zeroTable_mem (f : Frame) (s : State) : (s.zeroTable f).mem = s.mem.clear (pageSize * f.toNat) pageSize := rfl
@[simp] theorem State.zeroTable_unseen (f : Frame) (s : State) : (s.zeroTable f).unseen = s.unseen := rfl
@[simp] theorem State.zeroTable_tlb (f : Frame) (s : State) : (s.zeroTable f).tlb = s.tlb := rfl
@[simp] theorem State.zeroTable_registry (f : Frame) (s : State) : (s.zeroTable f).registry = s.registry := rfl
@[simp] theorem State.zeroTable_owned (f : Frame) (s : State) : (s.zeroTable f).owned = s.owned := rfl
@[simp] theorem State.zeroTable_console (f : Frame) (s : State) : (s.zeroTable f).console = s.console := rfl

/-! ## grantFrame -/

@[simp] theorem State.grantFrame_cfg (f : Frame) (s : State) : (s.grantFrame f).cfg = s.cfg := rfl
@[simp] theorem State.grantFrame_alloc (f : Frame) (s : State) : (s.grantFrame f).alloc = s.alloc := rfl
@[simp] theorem State.grantFrame_agenda (f : Frame) (s : State) : (s.grantFrame f).agenda = s.agenda := rfl
@[simp] theorem State.grantFrame_lookups (f : Frame) (s : State) : (s.grantFrame f).lookups = s.lookups := rfl
@[simp] theorem State.grantFrame_ops (f : Frame) (s : State) : (s.grantFrame f).ops = s.ops := rfl
@[simp] theorem State.grantFrame_res (f : Frame) (s : State) : (s.grantFrame f).res = s.res := rfl
@[simp] theorem State.grantFrame_status (f : Frame) (s : State) : (s.grantFrame f).status = s.status := rfl
@[simp] theorem State.grantFrame_rspValid (f : Frame) (s : State) : (s.grantFrame f).rspValid = s.rspValid := rfl
@[simp] theorem State.grantFrame_irqMasked (f : Frame) (s : State) : (s.grantFrame f).irqMasked = s.irqMasked := rfl
@[simp] theorem State.grantFrame_pc (f : Frame) (s : State) : (s.grantFrame f).pc = s.pc := rfl
@[simp] theorem State.grantFrame_state (f : Frame) (s : State) : (s.grantFrame f).state = s.state := rfl
@[simp] theorem State.grantFrame_failCause (f : Frame) (s : State) : (s.grantFrame f).failCause = s.failCause := rfl
@[simp] theorem State.grantFrame_failInfo (f : Frame) (s : State) : (s.grantFrame f).failInfo = s.failInfo := rfl
@[simp] theorem State.grantFrame_tcrProgrammed (f : Frame) (s : State) : (s.grantFrame f).tcrProgrammed = s.tcrProgrammed := rfl
@[simp] theorem State.grantFrame_vecPhysDone (f : Frame) (s : State) : (s.grantFrame f).vecPhysDone = s.vecPhysDone := rfl
@[simp] theorem State.grantFrame_vecVirtDone (f : Frame) (s : State) : (s.grantFrame f).vecVirtDone = s.vecVirtDone := rfl
@[simp] theorem State.grantFrame_rootsValid (f : Frame) (s : State) : (s.grantFrame f).rootsValid = s.rootsValid := rfl
@[simp] theorem State.grantFrame_identityRoot (f : Frame) (s : State) : (s.grantFrame f).identityRoot = s.identityRoot := rfl
@[simp] theorem State.grantFrame_kernelRoot (f : Frame) (s : State) : (s.grantFrame f).kernelRoot = s.kernelRoot := rfl
@[simp] theorem State.grantFrame_sys (f : Frame) (s : State) : (s.grantFrame f).sys = s.sys := rfl
@[simp] theorem State.grantFrame_mem (f : Frame) (s : State) : (s.grantFrame f).mem = s.mem.clear (pageSize * f.toNat) pageSize := rfl
@[simp] theorem State.grantFrame_unseen (f : Frame) (s : State) : (s.grantFrame f).unseen = s.unseen := rfl
@[simp] theorem State.grantFrame_tlb (f : Frame) (s : State) : (s.grantFrame f).tlb = s.tlb := rfl
@[simp] theorem State.grantFrame_registry (f : Frame) (s : State) : (s.grantFrame f).registry = s.registry := rfl
@[simp] theorem State.grantFrame_owned (f : Frame) (s : State) : (s.grantFrame f).owned = s.owned ++ [f] := rfl
@[simp] theorem State.grantFrame_console (f : Frame) (s : State) : (s.grantFrame f).console = s.console := rfl

/-! ## freeFrame -/

@[simp] theorem State.freeFrame_cfg (f : Frame) (s : State) : (s.freeFrame f).cfg = s.cfg := rfl
@[simp] theorem State.freeFrame_alloc (f : Frame) (s : State) : (s.freeFrame f).alloc = s.alloc := rfl
@[simp] theorem State.freeFrame_agenda (f : Frame) (s : State) : (s.freeFrame f).agenda = s.agenda := rfl
@[simp] theorem State.freeFrame_lookups (f : Frame) (s : State) : (s.freeFrame f).lookups = s.lookups := rfl
@[simp] theorem State.freeFrame_ops (f : Frame) (s : State) : (s.freeFrame f).ops = s.ops := rfl
@[simp] theorem State.freeFrame_res (f : Frame) (s : State) : (s.freeFrame f).res = s.res := rfl
@[simp] theorem State.freeFrame_status (f : Frame) (s : State) : (s.freeFrame f).status = s.status := rfl
@[simp] theorem State.freeFrame_rspValid (f : Frame) (s : State) : (s.freeFrame f).rspValid = s.rspValid := rfl
@[simp] theorem State.freeFrame_irqMasked (f : Frame) (s : State) : (s.freeFrame f).irqMasked = s.irqMasked := rfl
@[simp] theorem State.freeFrame_pc (f : Frame) (s : State) : (s.freeFrame f).pc = s.pc := rfl
@[simp] theorem State.freeFrame_state (f : Frame) (s : State) : (s.freeFrame f).state = s.state := rfl
@[simp] theorem State.freeFrame_failCause (f : Frame) (s : State) : (s.freeFrame f).failCause = s.failCause := rfl
@[simp] theorem State.freeFrame_failInfo (f : Frame) (s : State) : (s.freeFrame f).failInfo = s.failInfo := rfl
@[simp] theorem State.freeFrame_tcrProgrammed (f : Frame) (s : State) : (s.freeFrame f).tcrProgrammed = s.tcrProgrammed := rfl
@[simp] theorem State.freeFrame_vecPhysDone (f : Frame) (s : State) : (s.freeFrame f).vecPhysDone = s.vecPhysDone := rfl
@[simp] theorem State.freeFrame_vecVirtDone (f : Frame) (s : State) : (s.freeFrame f).vecVirtDone = s.vecVirtDone := rfl
@[simp] theorem State.freeFrame_rootsValid (f : Frame) (s : State) : (s.freeFrame f).rootsValid = s.rootsValid := rfl
@[simp] theorem State.freeFrame_identityRoot (f : Frame) (s : State) : (s.freeFrame f).identityRoot = s.identityRoot := rfl
@[simp] theorem State.freeFrame_kernelRoot (f : Frame) (s : State) : (s.freeFrame f).kernelRoot = s.kernelRoot := rfl
@[simp] theorem State.freeFrame_sys (f : Frame) (s : State) : (s.freeFrame f).sys = s.sys := rfl
@[simp] theorem State.freeFrame_mem (f : Frame) (s : State) : (s.freeFrame f).mem = s.mem := rfl
@[simp] theorem State.freeFrame_unseen (f : Frame) (s : State) : (s.freeFrame f).unseen = s.unseen := rfl
@[simp] theorem State.freeFrame_tlb (f : Frame) (s : State) : (s.freeFrame f).tlb = s.tlb := rfl
@[simp] theorem State.freeFrame_registry (f : Frame) (s : State) : (s.freeFrame f).registry = s.registry := rfl
@[simp] theorem State.freeFrame_owned (f : Frame) (s : State) : (s.freeFrame f).owned = s.owned.erase f := rfl
@[simp] theorem State.freeFrame_console (f : Frame) (s : State) : (s.freeFrame f).console = s.console := rfl

/-! ## setRoots -/

@[simp] theorem State.setRoots_cfg (p q : Frame) (s : State) : (s.setRoots p q).cfg = s.cfg := rfl
@[simp] theorem State.setRoots_alloc (p q : Frame) (s : State) : (s.setRoots p q).alloc = s.alloc := rfl
@[simp] theorem State.setRoots_agenda (p q : Frame) (s : State) : (s.setRoots p q).agenda = s.agenda := rfl
@[simp] theorem State.setRoots_lookups (p q : Frame) (s : State) : (s.setRoots p q).lookups = s.lookups := rfl
@[simp] theorem State.setRoots_ops (p q : Frame) (s : State) : (s.setRoots p q).ops = s.ops := rfl
@[simp] theorem State.setRoots_res (p q : Frame) (s : State) : (s.setRoots p q).res = s.res := rfl
@[simp] theorem State.setRoots_status (p q : Frame) (s : State) : (s.setRoots p q).status = s.status := rfl
@[simp] theorem State.setRoots_rspValid (p q : Frame) (s : State) : (s.setRoots p q).rspValid = s.rspValid := rfl
@[simp] theorem State.setRoots_irqMasked (p q : Frame) (s : State) : (s.setRoots p q).irqMasked = s.irqMasked := rfl
@[simp] theorem State.setRoots_pc (p q : Frame) (s : State) : (s.setRoots p q).pc = s.pc := rfl
@[simp] theorem State.setRoots_state (p q : Frame) (s : State) : (s.setRoots p q).state = s.state := rfl
@[simp] theorem State.setRoots_failCause (p q : Frame) (s : State) : (s.setRoots p q).failCause = s.failCause := rfl
@[simp] theorem State.setRoots_failInfo (p q : Frame) (s : State) : (s.setRoots p q).failInfo = s.failInfo := rfl
@[simp] theorem State.setRoots_tcrProgrammed (p q : Frame) (s : State) : (s.setRoots p q).tcrProgrammed = s.tcrProgrammed := rfl
@[simp] theorem State.setRoots_vecPhysDone (p q : Frame) (s : State) : (s.setRoots p q).vecPhysDone = s.vecPhysDone := rfl
@[simp] theorem State.setRoots_vecVirtDone (p q : Frame) (s : State) : (s.setRoots p q).vecVirtDone = s.vecVirtDone := rfl
@[simp] theorem State.setRoots_rootsValid (p q : Frame) (s : State) : (s.setRoots p q).rootsValid = true := rfl
@[simp] theorem State.setRoots_identityRoot (p q : Frame) (s : State) : (s.setRoots p q).identityRoot = p ++ 0#12 := rfl
@[simp] theorem State.setRoots_kernelRoot (p q : Frame) (s : State) : (s.setRoots p q).kernelRoot = q ++ 0#12 := rfl
@[simp] theorem State.setRoots_sys (p q : Frame) (s : State) : (s.setRoots p q).sys = s.sys := rfl
@[simp] theorem State.setRoots_mem (p q : Frame) (s : State) : (s.setRoots p q).mem = s.mem := rfl
@[simp] theorem State.setRoots_unseen (p q : Frame) (s : State) : (s.setRoots p q).unseen = s.unseen := rfl
@[simp] theorem State.setRoots_tlb (p q : Frame) (s : State) : (s.setRoots p q).tlb = s.tlb := rfl
@[simp] theorem State.setRoots_registry (p q : Frame) (s : State) : (s.setRoots p q).registry = s.registry := rfl
@[simp] theorem State.setRoots_owned (p q : Frame) (s : State) : (s.setRoots p q).owned = s.owned := rfl
@[simp] theorem State.setRoots_console (p q : Frame) (s : State) : (s.setRoots p q).console = s.console := rfl

/-! ## memWrite -/

@[simp] theorem State.memWrite_cfg (a : Nat) (v : Word) (s : State) : (s.memWrite a v).cfg = s.cfg := by unfold State.memWrite; split <;> rfl
@[simp] theorem State.memWrite_alloc (a : Nat) (v : Word) (s : State) : (s.memWrite a v).alloc = s.alloc := by unfold State.memWrite; split <;> rfl
@[simp] theorem State.memWrite_agenda (a : Nat) (v : Word) (s : State) : (s.memWrite a v).agenda = s.agenda := by unfold State.memWrite; split <;> rfl
@[simp] theorem State.memWrite_ops (a : Nat) (v : Word) (s : State) : (s.memWrite a v).ops = s.ops := by unfold State.memWrite; split <;> rfl
@[simp] theorem State.memWrite_res (a : Nat) (v : Word) (s : State) : (s.memWrite a v).res = s.res := by unfold State.memWrite; split <;> rfl
@[simp] theorem State.memWrite_status (a : Nat) (v : Word) (s : State) : (s.memWrite a v).status = s.status := by unfold State.memWrite; split <;> rfl
@[simp] theorem State.memWrite_rspValid (a : Nat) (v : Word) (s : State) : (s.memWrite a v).rspValid = s.rspValid := by unfold State.memWrite; split <;> rfl
@[simp] theorem State.memWrite_irqMasked (a : Nat) (v : Word) (s : State) : (s.memWrite a v).irqMasked = s.irqMasked := by unfold State.memWrite; split <;> rfl
@[simp] theorem State.memWrite_pc (a : Nat) (v : Word) (s : State) : (s.memWrite a v).pc = s.pc := by unfold State.memWrite; split <;> rfl
@[simp] theorem State.memWrite_state (a : Nat) (v : Word) (s : State) : (s.memWrite a v).state = s.state := by unfold State.memWrite; split <;> rfl
@[simp] theorem State.memWrite_failCause (a : Nat) (v : Word) (s : State) : (s.memWrite a v).failCause = s.failCause := by unfold State.memWrite; split <;> rfl
@[simp] theorem State.memWrite_failInfo (a : Nat) (v : Word) (s : State) : (s.memWrite a v).failInfo = s.failInfo := by unfold State.memWrite; split <;> rfl
@[simp] theorem State.memWrite_tcrProgrammed (a : Nat) (v : Word) (s : State) : (s.memWrite a v).tcrProgrammed = s.tcrProgrammed := by unfold State.memWrite; split <;> rfl
@[simp] theorem State.memWrite_vecPhysDone (a : Nat) (v : Word) (s : State) : (s.memWrite a v).vecPhysDone = s.vecPhysDone := by unfold State.memWrite; split <;> rfl
@[simp] theorem State.memWrite_vecVirtDone (a : Nat) (v : Word) (s : State) : (s.memWrite a v).vecVirtDone = s.vecVirtDone := by unfold State.memWrite; split <;> rfl
@[simp] theorem State.memWrite_rootsValid (a : Nat) (v : Word) (s : State) : (s.memWrite a v).rootsValid = s.rootsValid := by unfold State.memWrite; split <;> rfl
@[simp] theorem State.memWrite_identityRoot (a : Nat) (v : Word) (s : State) : (s.memWrite a v).identityRoot = s.identityRoot := by unfold State.memWrite; split <;> rfl
@[simp] theorem State.memWrite_kernelRoot (a : Nat) (v : Word) (s : State) : (s.memWrite a v).kernelRoot = s.kernelRoot := by unfold State.memWrite; split <;> rfl
@[simp] theorem State.memWrite_sys (a : Nat) (v : Word) (s : State) : (s.memWrite a v).sys = s.sys := by unfold State.memWrite; split <;> rfl
@[simp] theorem State.memWrite_tlb (a : Nat) (v : Word) (s : State) : (s.memWrite a v).tlb = s.tlb := by unfold State.memWrite; split <;> rfl
@[simp] theorem State.memWrite_registry (a : Nat) (v : Word) (s : State) : (s.memWrite a v).registry = s.registry := by unfold State.memWrite; split <;> rfl
@[simp] theorem State.memWrite_owned (a : Nat) (v : Word) (s : State) : (s.memWrite a v).owned = s.owned := by unfold State.memWrite; split <;> rfl
@[simp] theorem State.memWrite_console (a : Nat) (v : Word) (s : State) : (s.memWrite a v).console = s.console := by unfold State.memWrite; split <;> rfl

/-- The memory after `MemWrite` reads as if the value had been stored. -/
theorem State.memWrite_mem (a : Nat) (v : Word) (s : State) :
    (s.memWrite a v).mem = if s.mem.read64 a = v then s.mem else s.mem.write64 a v := by
  unfold State.memWrite; split <;> rfl

/-- `MemWrite` of the value that is there changes nothing. -/
theorem State.memWrite_same {a : Nat} {v : Word} {s : State} (h : s.mem.read64 a = v) : s.memWrite a v = s := by
  unfold State.memWrite; rw [if_pos h]

/-- `MemWrite` changes the memory and the list of writes not yet visible, nothing else. -/
theorem State.memWrite_eq (a : Nat) (v : Word) (s : State) :
    s.memWrite a v = { s with mem := (s.memWrite a v).mem, unseen := (s.memWrite a v).unseen } := by
  unfold State.memWrite; split <;> rfl

/-! ## advance -/

@[simp] theorem State.advance_cfg (rest : List Event) (s : State) : (s.advance rest).cfg = s.cfg := rfl
@[simp] theorem State.advance_alloc (rest : List Event) (s : State) : (s.advance rest).alloc = s.alloc := rfl
@[simp] theorem State.advance_agenda (rest : List Event) (s : State) : (s.advance rest).agenda = rest := rfl
@[simp] theorem State.advance_lookups (rest : List Event) (s : State) : (s.advance rest).lookups = s.lookups.tail := rfl
@[simp] theorem State.advance_ops (rest : List Event) (s : State) : (s.advance rest).ops = s.ops := rfl
@[simp] theorem State.advance_res (rest : List Event) (s : State) : (s.advance rest).res = s.res := rfl
@[simp] theorem State.advance_status (rest : List Event) (s : State) : (s.advance rest).status = s.status := rfl
@[simp] theorem State.advance_rspValid (rest : List Event) (s : State) : (s.advance rest).rspValid = s.rspValid := rfl
@[simp] theorem State.advance_irqMasked (rest : List Event) (s : State) : (s.advance rest).irqMasked = s.irqMasked := rfl
@[simp] theorem State.advance_pc (rest : List Event) (s : State) : (s.advance rest).pc = s.pc := rfl
@[simp] theorem State.advance_state (rest : List Event) (s : State) : (s.advance rest).state = s.state := rfl
@[simp] theorem State.advance_failCause (rest : List Event) (s : State) : (s.advance rest).failCause = s.failCause := rfl
@[simp] theorem State.advance_failInfo (rest : List Event) (s : State) : (s.advance rest).failInfo = s.failInfo := rfl
@[simp] theorem State.advance_tcrProgrammed (rest : List Event) (s : State) : (s.advance rest).tcrProgrammed = s.tcrProgrammed := rfl
@[simp] theorem State.advance_vecPhysDone (rest : List Event) (s : State) : (s.advance rest).vecPhysDone = s.vecPhysDone := rfl
@[simp] theorem State.advance_vecVirtDone (rest : List Event) (s : State) : (s.advance rest).vecVirtDone = s.vecVirtDone := rfl
@[simp] theorem State.advance_rootsValid (rest : List Event) (s : State) : (s.advance rest).rootsValid = s.rootsValid := rfl
@[simp] theorem State.advance_identityRoot (rest : List Event) (s : State) : (s.advance rest).identityRoot = s.identityRoot := rfl
@[simp] theorem State.advance_kernelRoot (rest : List Event) (s : State) : (s.advance rest).kernelRoot = s.kernelRoot := rfl
@[simp] theorem State.advance_sys (rest : List Event) (s : State) : (s.advance rest).sys = s.sys := rfl
@[simp] theorem State.advance_mem (rest : List Event) (s : State) : (s.advance rest).mem = s.mem := rfl
@[simp] theorem State.advance_unseen (rest : List Event) (s : State) : (s.advance rest).unseen = s.unseen := rfl
@[simp] theorem State.advance_tlb (rest : List Event) (s : State) : (s.advance rest).tlb = s.tlb := rfl
@[simp] theorem State.advance_registry (rest : List Event) (s : State) : (s.advance rest).registry = s.registry := rfl
@[simp] theorem State.advance_owned (rest : List Event) (s : State) : (s.advance rest).owned = s.owned := rfl
@[simp] theorem State.advance_console (rest : List Event) (s : State) : (s.advance rest).console = s.console := rfl

end Sys2Proof.Machine
end

