-- ==== Sys2Proof/Laws/Ops.lean ====
section
/-! SUPPORT. One lemma per shared operation of Machine/Ops.lean that says what it can do. -/

namespace Sys2Proof.Machine

/-! ## How an operation ends -/

/-- `return <Status>` answers the state with STATUS and `rsp_valid` written. -/
theorem State.finish_eq (st : Status) (s : State) :
    s.finish st = .next { s with status := st.code, rspValid := true } := rfl

/-- `raise Halt` answers the halted state: two failure registers, STATUS, `state` and the console, nothing else. -/
theorem State.raiseHalt_eq (c : Status) (i : FailInfo) (s : State) :
    s.raiseHalt c i = .next { s with
      failCause := c.code, failInfo := i.code, status := c.code, rspValid := true, state := .halted,
      console := s.console ++ (s.recordFailure c i).dumpItems } := rfl

/-- The two ways an alignment error ends (R181). -/
theorem State.alignmentError_eq (s : State) :
    s.alignmentError = if s.cfg.debugHaltOnAlignment = true then s.raiseHalt .alignmentError .alignment
      else s.finish .alignmentError := rfl

@[simp] theorem Attempt.andThen_proceed (s : State) (k : State → Result) : (Attempt.proceed s).andThen k = k s := rfl
@[simp] theorem Attempt.andThen_ended (r : Result) (k : State → Result) : (Attempt.ended r).andThen k = r := rfl
@[simp] theorem Attempt.bind_proceed (s : State) (k : State → Attempt) : (Attempt.proceed s).bind k = k s := rfl
@[simp] theorem Attempt.bind_ended (r : Result) (k : State → Attempt) : (Attempt.ended r).bind k = .ended r := rfl

/-! ## Barriers and the TLB sequence -/

@[simp] theorem barrier_nonShareable (s : State) : barrier .nonShareable s = .proceed { s with unseen := [] } := rfl
@[simp] theorem tlbi_localCore (s : State) : tlbi .localCore s = .proceed { s with tlb := [] } := rfl
@[simp] theorem ctxSync_eq (s : State) : ctxSync s = s := rfl

/-- The whole sequence empties the TLB and makes every write visible (R176 a, b). -/
@[simp] theorem tlbSequence_eq (s : State) : tlbSequence s = .proceed { s with tlb := [], unseen := [] } := rfl

/-- What a mutating operation owes in STEADY always completes (R121). -/
theorem maintenance_eq (wrote replaced : Bool) (s : State) :
    maintenance wrote replaced s = .proceed (if s.state = .steady ∧ wrote = true then
      { s with unseen := [], tlb := if replaced = true then [] else s.tlb } else s) := by
  unfold maintenance
  split_ifs <;> simp_all

/-! ## Register writes with readback -/

@[simp] theorem SysRegs.sysRead_set (s : State) (reg : SysReg) (v : Word) :
    State.sysRead { s with sys := s.sys.set reg v } reg = v := by cases reg <;> rfl

theorem State.sysRead_sysWrite (s : State) (reg : SysReg) (v : Word) :
    (s.sysWrite reg v).sysRead reg = legalize s.cfg.legalizeRows reg v := SysRegs.sysRead_set _ _ _

/-- A verified write goes on with the register holding exactly the value; otherwise it halts with the register holding
what `legalize` made of it (R140, R188). -/
theorem writeVerify_eq (reg : SysReg) (v : Word) (info : FailInfo) (s : State) :
    writeVerify reg v info s = if legalize s.cfg.legalizeRows reg v = v then .proceed { s with sys := s.sys.set reg v }
      else .ended ((s.sysWrite reg v).raiseHalt .registerVerificationFailed info) := by
  simp only [writeVerify, ctxSync_eq, State.sysRead_sysWrite]
  split_ifs with h
  · simp [State.sysWrite, h]
  · rfl

/-! ## The registry's audit -/

theorem conflictsOf_nil_iff (r : MappingRegion) (i j : Nat) (rs : List MappingRegion) :
    conflictsOf r i j rs = [] ↔ ∀ b ∈ rs, regionsConflict r b = false := by
  induction rs generalizing j with
  | nil => simp [conflictsOf]
  | cons b rs ih =>
    unfold conflictsOf
    split_ifs with h <;> simp_all

theorem auditFrom_nil_iff (i : Nat) (rs : List MappingRegion) :
    auditFrom i rs = [] ↔ rs.Pairwise fun a b => regionsConflict a b = false := by
  induction rs generalizing i with
  | nil => simp [auditFrom]
  | cons r rs ih => simp [auditFrom, conflictsOf_nil_iff, ih, List.pairwise_cons]

/-- The audit finds nothing exactly when no two records conflict. -/
theorem audit_nil_iff (rs : List MappingRegion) : audit rs = [] ↔ rs.Pairwise fun a b => regionsConflict a b = false :=
  auditFrom_nil_iff 0 rs

theorem overlaps_comm (a b c d : Word) : overlaps a b c d = overlaps c d a b := by
  unfold overlaps
  by_cases h1 : a.toNat < b.toNat <;> by_cases h2 : c.toNat < d.toNat <;> by_cases h3 : a.toNat < d.toNat <;>
    by_cases h4 : c.toNat < b.toNat <;> simp [h1, h2, h3, h4]

theorem regionsConflict_comm (a b : MappingRegion) : regionsConflict a b = regionsConflict b a := by
  unfold regionsConflict
  rw [overlaps_comm]
  by_cases h : a.space = b.space
  · rw [h]
  · simp [h, Ne.symm h]

/-! ## The Frame Allocator -/

/-- The stretch answers only frames that may be answered. -/
theorem firstFrame_free {free : Frame → Bool} {n : Nat} {b f : Frame} {k : Nat} (h : firstFrame free n b = some (f, k)) :
    free f = true := by
  induction n generalizing b with
  | zero => simp [firstFrame] at h
  | succ n ih =>
    unfold firstFrame at h
    split_ifs at h with hb
    · simp_all
    · exact ih h

/-- Whatever the allocator's answers to come, a frame it answers now meets the contract (R44). -/
theorem nextAnswer_free {free : Frame → Bool} {l rest : List AllocAnswers} {f : Frame}
    (h : nextAnswer free l = (some f, rest)) : free f = true := by
  induction l with
  | nil => simp [nextAnswer] at h
  | cons a l ih =>
    cases a with
    | exhausted => simp [nextAnswer] at h
    | frames base count =>
      unfold nextAnswer at h
      split at h
      · rename_i g left hg
        obtain ⟨hf, -⟩ : some g = some f ∧ _ := by simpa using h
        obtain rfl : g = f := by simpa using hf
        exact firstFrame_free hg
      · exact ih h

theorem State.frameFree_iff (s : State) (f : Frame) :
    s.frameFree f = true ↔ f ∉ s.owned ∧ frameReserved s.cfg f = false := by
  simp [State.frameFree]

/-- AllocFrame's two answers: a frame not owned and not reserved, zeroed and now owned, or Exhausted; nothing else of the
state moves (R44). -/
theorem allocFrame_cases (s : State) :
    (∃ f rest, nextAnswer s.frameFree s.alloc = (some f, rest) ∧ f ∉ s.owned ∧ frameReserved s.cfg f = false ∧
      allocFrame s = (some f, { s with
        alloc := rest, owned := s.owned ++ [f], mem := s.mem.clear (pageSize * f.toNat) pageSize })) ∨
    (∃ rest, nextAnswer s.frameFree s.alloc = (none, rest) ∧ allocFrame s = (none, { s with alloc := rest })) := by
  unfold allocFrame
  split
  · rename_i f rest h
    have hf := (State.frameFree_iff s f).1 (nextAnswer_free h)
    exact .inl ⟨f, rest, h, hf.1, hf.2, rfl⟩
  · rename_i rest h
    exact .inr ⟨rest, h, rfl⟩

/-! ## Checked accesses -/

/-- A checked read answers the value exactly at an aligned address of the physical space (R50). -/
theorem State.memRead_ok_iff (s : State) (a : Nat) (v : Word) :
    s.memRead a = .ok v ↔ a % 8 = 0 ∧ a < physSize ∧ s.mem.read64 a = v := by
  unfold State.memRead
  split_ifs with h <;> simp_all

/-- A checked write is the write exactly at an aligned address of the physical space (R50). -/
theorem State.memWriteChecked_ok_iff (s t : State) (a : Nat) (v : Word) :
    s.memWriteChecked a v = .ok t ↔ a % 8 = 0 ∧ a < physSize ∧ t = s.memWrite a v := by
  unfold State.memWriteChecked
  split_ifs with h <;> simp_all [eq_comm]

/-- A write at an aligned physical address keeps the memory canonical. -/
theorem State.memWrite_wf {s : State} (hs : s.mem.wf = true) {a : Nat} (ha : a + 7 < physSize) (v : Word) :
    (s.memWrite a v).mem.wf = true := by
  rw [State.memWrite_mem]
  split_ifs
  · exact hs
  · exact Memory.write64_wf hs ha v

/-- After `MemWrite` the address reads the value. -/
theorem State.read64_memWrite_same {s : State} (hs : s.mem.wf = true) {a : Nat} (ha : a + 7 < physSize) (v : Word) :
    (s.memWrite a v).mem.read64 a = v := by
  rw [State.memWrite_mem]
  split_ifs with h
  · exact h
  · exact Memory.read64_write64_same hs ha v

/-- `MemWrite` leaves every byte outside its eight alone. -/
theorem State.read_memWrite_ne (s : State) {a b : Nat} (v : Word) (h : b < a ∨ a + 8 ≤ b) :
    (s.memWrite a v).mem.read b = s.mem.read b := by
  rw [State.memWrite_mem]
  split_ifs
  · rfl
  · exact Memory.read_write64_ne _ _ h

/-- `MemWrite` leaves a 64-bit read that shares no byte with it alone. -/
theorem State.read64_memWrite_ne (s : State) {a b : Nat} (v : Word) (h : b + 8 ≤ a ∨ a + 8 ≤ b) :
    (s.memWrite a v).mem.read64 b = s.mem.read64 b :=
  Memory.read64_congr fun k hk => State.read_memWrite_ne s v (by omega)

end Sys2Proof.Machine
end

