-- ==== Sys2Proof/Laws/Tables.lean ====
section
/-! SUPPORT. What walks, MapOne, its rollback and the two passes over a range can do: the lemmas of Machine/Tables.lean. -/

namespace Sys2Proof.Machine

/-! ## Walks -/

/-- The tables found for an address are the last of its path's successors; a walk that reads the same descriptors on its
path finds the same tables. -/
theorem walkTables_congr {m m' : Memory} {va : Word} {levels : List (Fin 4)} {root : Frame}
    (h : ∀ f ∈ tablePath m va levels root, ∀ l : Fin 4,
      m'.read64 (slotAddr f (idx l va)) = m.read64 (slotAddr f (idx l va))) :
    walkTables (fun _ a => m'.read64 a) va levels root = walkTables (fun _ a => m.read64 a) va levels root ∧
      tablePath m' va levels root = tablePath m va levels root := by
  induction levels generalizing root with
  | nil => exact ⟨rfl, rfl⟩
  | cons l rest ih =>
    have h0 := h root (by simp [tablePath]) l
    have hr := ih (root := frameOf (m.read64 (slotAddr root (idx l va)))) fun f hf => h f (by simp [tablePath, hf])
    simp only [walkTables, tablePath, h0]
    exact ⟨by split_ifs <;> simp [hr.1], by rw [hr.2]⟩

/-- `Walk` through tables that exist reads the leaf slot of the level-3 table. -/
theorem walk_of_walkTables {m : Memory} {root t : Frame} {va : Word}
    (h : walkTables (fun _ a => m.read64 a) va tableLevels root = some t) :
    walk m root va = leafTranslation (m.read64 (slotAddr t (idx 3 va))) va := by
  simp [walk, walkWith, h]

/-- Two addresses with the same upper indices have the same tables. -/
theorem walkTables_sameIdx {m : Memory} {va vb : Word} {levels : List (Fin 4)}
    (h : ∀ l ∈ levels, idx l vb = idx l va) (root : Frame) :
    walkTables (fun _ a => m.read64 a) vb levels root = walkTables (fun _ a => m.read64 a) va levels root ∧
      tablePath m vb levels root = tablePath m va levels root := by
  induction levels generalizing root with
  | nil => exact ⟨rfl, rfl⟩
  | cons l rest ih =>
    have h0 := h l (by simp)
    have hr := fun r => ih (fun k hk => h k (by simp [hk])) r
    simp only [walkTables, tablePath, h0]
    exact ⟨by split_ifs <;> simp [(hr _).1], by rw [(hr _).2]⟩

/-- A leaf's translation is what was encoded into it (R83, R122 a). -/
theorem leafTranslation_leafDesc {p f va : Word} (ha : pageAligned p = true) (hp : isPhys p = true)
    (hf : flagsOk f = true) :
    leafTranslation (leafDesc p f) va = some { pa := p ||| (pageOffset va).setWidth 64, flags := f } := by
  rw [leafTranslation, if_pos (descUsable_leafDesc p f), leafDesc_and_flagsMask ha hp hf, frameOf_leafDesc hf,
    frameAddr_frameOf ((pageAligned_iff p).1 ha) ((isPhys_iff p).1 hp)]

/-- An aligned address has page offset 0. -/
theorem pageOffset_aligned {va : Word} (h : pageAligned va = true) : pageOffset va = 0#12 := by
  simpa [pageAligned, pageOffset] using h

/-! ## What table building touches -/

theorem TablesOnly.refl (s : State) : TablesOnly s s := rfl

theorem TablesOnly.trans {s t u : State} (h1 : TablesOnly s t) (h2 : TablesOnly t u) : TablesOnly s u := by
  unfold TablesOnly at *
  rw [h2, h1]

theorem State.memWrite_tablesOnly (a : Nat) (v : Word) (s : State) : TablesOnly s (s.memWrite a v) := by
  unfold TablesOnly State.memWrite
  split_ifs <;> rfl

theorem State.freeFrame_tablesOnly (f : Frame) (s : State) : TablesOnly s (s.freeFrame f) := rfl

theorem linkTable_tablesOnly (slot : Nat) (f : Frame) (s : State) : TablesOnly s (linkTable slot f s) :=
  TablesOnly.trans (t := s.zeroTable f) rfl (State.memWrite_tablesOnly _ _ _)

/-- The allocator changes its own two fields and, with a frame, memory. -/
theorem allocFrame_tablesOnly (s : State) : TablesOnly s (allocFrame s).2 := by
  rcases allocFrame_cases s with ⟨f, rest, -, -, -, h⟩ | ⟨rest, -, h⟩ <;> rw [h] <;> rfl

theorem rollback_tablesOnly (made : List (Nat × Frame)) (s : State) : TablesOnly s (rollback made s) := by
  unfold rollback
  induction made generalizing s with
  | nil => rfl
  | cons m rest ih =>
    exact (State.memWrite_tablesOnly _ _ _).trans ((State.freeFrame_tablesOnly _ _).trans (ih _))

/-- The state a descent ends in. -/
def Descent.state : Descent → State
  | .reached _ s => s
  | .malformed s _ => s
  | .exhausted s => s

theorem descend_tablesOnly (va : Word) (levels : List (Fin 4)) (t : Frame) (made : List (Nat × Frame)) (s : State) :
    TablesOnly s (descend va levels t made s).state := by
  induction levels generalizing t made s with
  | nil => rfl
  | cons l rest ih =>
    have ha := allocFrame_tablesOnly s
    unfold descend
    dsimp only
    split_ifs
    · exact ih _ _ _
    · split
      · rename_i s1 h
        rw [h] at ha
        exact ha.trans (rollback_tablesOnly _ _)
      · rename_i f s1 h
        rw [h] at ha
        exact ha.trans ((linkTable_tablesOnly _ _ _).trans (ih _ _ _))
    · exact rollback_tablesOnly _ _

/-- The state `MapOne` ends in. -/
def MapOutcome.state : MapOutcome → State
  | .mapped s _ => s
  | .malformed s _ => s
  | .exhausted s => s

theorem mapOne_tablesOnly (root : Frame) (va pa flags : Word) (s : State) :
    TablesOnly s (mapOne root va pa flags s).state := by
  have h := descend_tablesOnly va tableLevels root [] s
  unfold mapOne
  split <;> rename_i e <;> rw [e] at h
  · exact h
  · exact h
  · exact h.trans (State.memWrite_tablesOnly _ _ _)

/-- The state a range ends in. -/
def RangeOutcome.state : RangeOutcome → State
  | .mapped s _ => s
  | .malformed s _ _ _ => s
  | .exhausted s _ => s

theorem mapPages_tablesOnly (root : Frame) (flags : Word) (n : Nat) (va pa : Word) (done : Nat) (r : Bool) (s : State) :
    TablesOnly s (mapPages root flags n va pa done r s).state := by
  induction n generalizing va pa done r s with
  | zero => rfl
  | succ n ih =>
    have h := mapOne_tablesOnly root va pa flags s
    unfold mapPages
    split <;> rename_i e <;> rw [e] at h
    · exact h.trans (ih _ _ _ _ _)
    · exact h
    · exact h

/-! ## The memory stays canonical -/

theorem allocFrame_wf {s : State} (hs : s.mem.wf = true) : (allocFrame s).2.mem.wf = true := by
  rcases allocFrame_cases s with ⟨f, rest, -, -, -, h⟩ | ⟨rest, -, h⟩ <;> rw [h]
  · exact Memory.clear_wf hs _ _
  · exact hs

theorem linkTable_wf {s : State} (hs : s.mem.wf = true) (t f : Frame) (i : BitVec 9) :
    (linkTable (slotAddr t i) f s).mem.wf = true :=
  State.memWrite_wf (Memory.clear_wf hs _ _) (slotAddr_lt t i) _

/-- Every link to undo is a slot of a table. -/
def SlotsOnly (made : List (Nat × Frame)) : Prop := ∀ m ∈ made, m.1 + 7 < physSize

theorem rollback_wf {made : List (Nat × Frame)} {s : State} (hs : s.mem.wf = true) (hm : SlotsOnly made) :
    (rollback made s).mem.wf = true := by
  unfold rollback
  induction made generalizing s with
  | nil => exact hs
  | cons m rest ih =>
    exact ih (s := (s.memWrite m.1 0#64).freeFrame m.2) (State.memWrite_wf hs (hm m (by simp)) _)
      fun k hk => hm k (by simp [hk])

theorem descend_wf {va : Word} {levels : List (Fin 4)} {t : Frame} {made : List (Nat × Frame)} {s : State}
    (hs : s.mem.wf = true) (hm : SlotsOnly made) : (descend va levels t made s).state.mem.wf = true := by
  induction levels generalizing t made s with
  | nil => exact hs
  | cons l rest ih =>
    have ha := allocFrame_wf hs
    unfold descend
    dsimp only
    split_ifs
    · exact ih hs hm
    · split
      · rename_i s1 h
        rw [h] at ha
        exact rollback_wf ha hm
      · rename_i f s1 h
        rw [h] at ha
        refine ih (linkTable_wf ha t f _) fun k hk => ?_
        rcases List.mem_cons.1 hk with rfl | hk
        · exact slotAddr_lt t _
        · exact hm k hk
    · exact rollback_wf hs hm

theorem mapOne_wf {root : Frame} {va pa flags : Word} {s : State} (hs : s.mem.wf = true) :
    (mapOne root va pa flags s).state.mem.wf = true := by
  have h := descend_wf (va := va) (levels := tableLevels) (t := root) (made := []) hs fun _ hk => by simp at hk
  unfold mapOne
  split <;> rename_i e <;> rw [e] at h
  · exact h
  · exact h
  · exact State.memWrite_wf h (slotAddr_lt _ _) _

theorem mapPages_wf {root : Frame} {flags : Word} {n : Nat} {va pa : Word} {done : Nat} {r : Bool} {s : State}
    (hs : s.mem.wf = true) : (mapPages root flags n va pa done r s).state.mem.wf = true := by
  induction n generalizing va pa done r s with
  | zero => exact hs
  | succ n ih =>
    have h := mapOne_wf (root := root) (va := va) (pa := pa) (flags := flags) hs
    unfold mapPages
    split <;> rename_i e <;> rw [e] at h
    · exact ih h
    · exact h
    · exact h

/-! ## A failed MapOne gives its frames back (R112, R122 e) -/

/-- The frames of the undone links leave the set of owned frames, newest first. -/
theorem rollback_owned (made : List (Nat × Frame)) (s : State) :
    (rollback made s).owned = made.foldl (fun o m => o.erase m.2) s.owned := by
  unfold rollback
  induction made generalizing s with
  | nil => rfl
  | cons m rest ih => simp [ih]

/-- A descent that fails leaves the owned frames as they were before the call's own first frame. -/
theorem descend_owned {va : Word} {levels : List (Fin 4)} {t : Frame} {made : List (Nat × Frame)} {s : State}
    {base : List Frame} (hb : made.foldl (fun o m => o.erase m.2) s.owned = base) :
    match descend va levels t made s with
    | .reached _ _ => True
    | .malformed s1 _ => s1.owned = base
    | .exhausted s1 => s1.owned = base := by
  induction levels generalizing t made s with
  | nil => trivial
  | cons l rest ih =>
    unfold descend
    dsimp only
    split_ifs
    · exact ih hb
    · rcases allocFrame_cases s with ⟨f, al, -, hf, -, h⟩ | ⟨al, -, h⟩ <;> rw [h] <;> dsimp only
      · refine ih ?_
        have e : (s.owned ++ [f]).erase f = s.owned := by
          rw [List.erase_append_right _ hf]
          simp
        simp [linkTable, e, hb]
      · rw [rollback_owned]
        exact hb
    · exact (rollback_owned made s).trans hb

/-- A `MapOne` that fails gives back every frame it took (R122 e). -/
theorem mapOne_owned (root : Frame) (va pa flags : Word) (s : State) :
    match mapOne root va pa flags s with
    | .mapped _ _ => True
    | .malformed s1 _ => s1.owned = s.owned
    | .exhausted s1 => s1.owned = s.owned := by
  have h := descend_owned (va := va) (levels := tableLevels) (t := root) (made := []) (s := s) rfl
  unfold mapOne
  cases e : descend va tableLevels root [] s <;> rw [e] at h <;> trivial

/-! ## MapOne through tables that exist -/

/-- Where the tables exist the descent changes nothing. -/
theorem descend_of_walkTables {va : Word} {levels : List (Fin 4)} {root t : Frame} {made : List (Nat × Frame)} {s : State}
    (h : walkTables (fun _ a => s.mem.read64 a) va levels root = some t) :
    descend va levels root made s = .reached t s := by
  induction levels generalizing root with
  | nil => simpa [walkTables, descend] using h
  | cons l rest ih =>
    unfold walkTables at h
    unfold descend
    dsimp only at h ⊢
    split_ifs at h with hd
    rw [if_pos hd]
    exact ih h

/-- Where the tables exist `MapOne` writes the leaf slot and nothing else (R112). -/
theorem mapOne_of_walkTables {root t : Frame} {va : Word} (pa flags : Word) {s : State}
    (h : walkTables (fun _ a => s.mem.read64 a) va tableLevels root = some t) :
    mapOne root va pa flags s = .mapped (s.memWrite (slotAddr t (idx 3 va)) (leafDesc pa flags))
      (descUsable (s.mem.read64 (slotAddr t (idx 3 va))) &&
        s.mem.read64 (slotAddr t (idx 3 va)) != leafDesc pa flags) := by
  unfold mapOne
  rw [descend_of_walkTables h]

/-- Writing a slot of the level-3 table leaves the tables above it alone. -/
theorem LeafTable.memWrite {s : State} {root t : Frame} {va : Word} (h : LeafTable s.mem root va t) (i : BitVec 9)
    (v : Word) : LeafTable (s.memWrite (slotAddr t i) v).mem root va t := by
  obtain ⟨h1, h2⟩ := h
  have hc := walkTables_congr (m := s.mem) (m' := (s.memWrite (slotAddr t i) v).mem) (va := va) (levels := tableLevels)
    (root := root) fun f hf l => by
      have hne : f ≠ t := fun e => h2 (e ▸ hf)
      exact State.read64_memWrite_ne s v (slotAddr_frame_ne hne _ _)
  exact ⟨by rw [hc.1, h1], by rw [hc.2]; exact h2⟩

/-- After `MapOne` through existing tables the walk finds exactly the mapping (R112, R122 a). -/
theorem walk_after_leaf {s : State} (hs : s.mem.wf = true) {root t : Frame} {va pa flags : Word}
    (h : LeafTable s.mem root va t) (hva : pageAligned va = true) (ha : pageAligned pa = true) (hp : isPhys pa = true)
    (hf : flagsOk flags = true) :
    walk (s.memWrite (slotAddr t (idx 3 va)) (leafDesc pa flags)).mem root va = some { pa := pa, flags := flags } := by
  rw [walk_of_walkTables (h.memWrite _ _).1, State.read64_memWrite_same hs (slotAddr_lt _ _),
    leafTranslation_leafDesc ha hp hf, pageOffset_aligned hva]
  simp

/-! ## The next page of a range -/

/-- Below the last entry of a level-3 table the next page has the next index and the same tables. -/
theorem idx_next {va : Word} (h : (idx 3 va).toNat + 1 < 512) :
    (idx 3 (va + 4096#64)).toNat = (idx 3 va).toNat + 1 ∧ ∀ l ∈ tableLevels, idx l (va + 4096#64) = idx l va := by
  have hlt := va.isLt
  rw [idx_toNat] at h
  have e3 : 2 ^ (39 - 9 * (3 : Fin 4).val) = 4096 := by decide
  rw [e3] at h
  have hs : (va + 4096#64).toNat = va.toNat + 4096 := by
    rw [BitVec.toNat_add]
    have : (4096#64).toNat = 4096 := rfl
    rw [this]
    omega
  refine ⟨by rw [idx_toNat, idx_toNat, hs, e3]; omega, fun l hl => BitVec.eq_of_toNat_eq ?_⟩
  rw [idx_toNat, idx_toNat, hs]
  simp only [tableLevels, List.mem_cons, List.not_mem_nil, or_false] at hl
  rcases hl with rfl | rfl | rfl
  · have : 2 ^ (39 - 9 * (0 : Fin 4).val) = 549755813888 := by decide
    rw [this]; omega
  · have : 2 ^ (39 - 9 * (1 : Fin 4).val) = 1073741824 := by decide
    rw [this]; omega
  · have : 2 ^ (39 - 9 * (2 : Fin 4).val) = 2097152 := by decide
    rw [this]; omega

theorem LeafTable.next {m : Memory} {root t : Frame} {va : Word} (h : LeafTable m root va t)
    (hi : (idx 3 va).toNat + 1 < 512) : LeafTable m root (va + 4096#64) t := by
  have hx := walkTables_sameIdx (m := m) (va := va) (vb := va + 4096#64) (idx_next hi).2 root
  exact ⟨by rw [hx.1]; exact h.1, by rw [hx.2]; exact h.2⟩

/-- Pass 2 through one level-3 table that exists: every page's leaf is written, the leaf slots of the range are all that
changes, and nothing was replaced if each slot was unusable or held its leaf already (R113). -/
theorem mapPages_leafTable {root t : Frame} {flags : Word} {n : Nat} {va pa : Word} {done : Nat} {r : Bool} {s : State}
    (hs : s.mem.wf = true) (h : LeafTable s.mem root va t) (hn : (idx 3 va).toNat + n ≤ 512) :
    ∃ s' r', mapPages root flags n va pa done r s = .mapped s' r' ∧
      s' = { s with mem := s'.mem, unseen := s'.unseen } ∧ s'.mem.wf = true ∧
      (∀ k, k < n → s'.mem.read64 (slotAddr t (idx 3 va) + 8 * k) = leafDesc (pa + BitVec.ofNat 64 (4096 * k)) flags) ∧
      (∀ b, (b < slotAddr t (idx 3 va) ∨ slotAddr t (idx 3 va) + 8 * n ≤ b) → s'.mem.read b = s.mem.read b) ∧
      ((∀ k, k < n → descUsable (s.mem.read64 (slotAddr t (idx 3 va) + 8 * k)) = false ∨
        s.mem.read64 (slotAddr t (idx 3 va) + 8 * k) = leafDesc (pa + BitVec.ofNat 64 (4096 * k)) flags) → r' = r) := by
  induction n generalizing va pa done r s with
  | zero => exact ⟨s, r, rfl, rfl, hs, fun k hk => absurd hk (by omega), fun _ _ => rfl, fun _ => rfl⟩
  | succ n ih =>
    rw [mapPages, mapOne_of_walkTables pa flags h.1]
    dsimp only
    generalize hslot : slotAddr t (idx 3 va) = slot at *
    have hslotlt : slot + 7 < physSize := hslot ▸ slotAddr_lt _ _
    have hw : (s.memWrite slot (leafDesc pa flags)).mem.wf = true := State.memWrite_wf hs hslotlt _
    have hsame : (s.memWrite slot (leafDesc pa flags)).mem.read64 slot = leafDesc pa flags :=
      State.read64_memWrite_same hs hslotlt _
    have hfr : s.memWrite slot (leafDesc pa flags) = { s with
        mem := (s.memWrite slot (leafDesc pa flags)).mem, unseen := (s.memWrite slot (leafDesc pa flags)).unseen } := by
      unfold State.memWrite
      split_ifs <;> rfl
    have hhead : descUsable (s.mem.read64 slot) = false ∨ s.mem.read64 slot = leafDesc pa flags →
        (r || (descUsable (s.mem.read64 slot) && s.mem.read64 slot != leafDesc pa flags)) = r := by
      rintro (h0 | h0) <;> simp [h0]
    have hpa0 : pa + BitVec.ofNat 64 (4096 * 0) = pa := by simp
    rcases Nat.eq_zero_or_pos n with rfl | hpos
    · refine ⟨_, _, rfl, hfr, hw, fun k hk => ?_, fun b hb => State.read_memWrite_ne s _ (by omega), fun hk => ?_⟩
      · obtain rfl : k = 0 := by omega
        simpa using hsame
      · exact hhead (by simpa using hk 0 (by omega))
    · have hi : (idx 3 va).toNat + 1 < 512 := by omega
      have hnext : slotAddr t (idx 3 (va + 4096#64)) = slot + 8 := by
        rw [← hslot]
        simp only [slotAddr, (idx_next hi).1]
        omega
      have hpak : ∀ k, pa + 4096#64 + BitVec.ofNat 64 (4096 * k) = pa + BitVec.ofNat 64 (4096 * (k + 1)) := by
        intro k
        apply BitVec.eq_of_toNat_eq
        simp only [BitVec.toNat_add, BitVec.toNat_ofNat]
        omega
      obtain ⟨s', r', e1, e2, e3, e4, e5, e6⟩ := ih (va := va + 4096#64) (pa := pa + 4096#64) (done := done + 1)
        (r := r || (descUsable (s.mem.read64 slot) && s.mem.read64 slot != leafDesc pa flags))
        (s := s.memWrite slot (leafDesc pa flags)) hw (hslot ▸ (h.next hi).memWrite _ _)
        (by rw [(idx_next hi).1]; omega)
      rw [hnext] at e4 e5 e6
      refine ⟨s', r', e1, ?_, e3, fun k hk => ?_, fun b hb => ?_, fun hk => ?_⟩
      · rw [e2, hfr]
      · rcases Nat.eq_zero_or_pos k with rfl | hk0
        · rw [Memory.read64_congr (m := (s.memWrite slot (leafDesc pa flags)).mem)
            fun j hj => e5 _ (.inl (by omega))]
          simpa using hsame
        · obtain ⟨k, rfl⟩ : ∃ j, k = j + 1 := ⟨k - 1, by omega⟩
          have := e4 k (by omega)
          rw [hpak] at this
          rw [← this]
          congr 1
          omega
      · rw [e5 b (by omega)]
        exact State.read_memWrite_ne s _ (by omega)
      · rw [e6 fun k hk' => ?_]
        · exact hhead (by simpa using hk 0 (by omega))
        · have := hk (k + 1) (by omega)
          rw [hpak, State.read64_memWrite_ne s _ (by omega)]
          have e : slot + 8 + 8 * k = slot + 8 * (k + 1) := by omega
          rw [e]
          exact this

/-! ## MapOne that makes the missing tables -/

/-- The path of tables that exist begins with the root. -/
theorem mem_existingPath_self (m : Memory) (va : Word) (levels : List (Fin 4)) (t : Frame) :
    t ∈ existingPath m va levels t := by
  cases levels with
  | nil => simp [existingPath]
  | cons l rest =>
    unfold existingPath
    dsimp only
    split_ifs <;> simp

/-- In a zeroed table no further table exists. -/
theorem existingPath_zeroed {m : Memory} {t : Frame} (hz : ∀ i, m.read64 (slotAddr t i) = 0#64) (va : Word)
    (levels : List (Fin 4)) : existingPath m va levels t = [t] := by
  cases levels with
  | nil => rfl
  | cons l rest => simp [existingPath, hz]

/-- What linking a fresh frame leaves: the frame is zeroed, the slot holds its table descriptor, every slot of another
frame but that one reads as before. -/
theorem linkTable_reads {s : State} (hs : s.mem.wf = true) {t f : Frame} (hne : f ≠ t) (i : BitVec 9) :
    (∀ j, (linkTable (slotAddr t i) f s).mem.read64 (slotAddr f j) = 0#64) ∧
      (linkTable (slotAddr t i) f s).mem.read64 (slotAddr t i) = tableDesc (frameAddr f) ∧
      (∀ g j, g ≠ f → g ≠ t →
        (linkTable (slotAddr t i) f s).mem.read64 (slotAddr g j) = s.mem.read64 (slotAddr g j)) := by
  have hz : (s.zeroTable f).mem.wf = true := Memory.clear_wf hs _ _
  refine ⟨fun j => ?_, State.read64_memWrite_same hz (slotAddr_lt t i) _, fun g j hgf hgt => ?_⟩
  · rw [linkTable, State.read64_memWrite_ne _ _ (slotAddr_frame_ne hne j i)]
    exact Memory.read64_clear_inside _ (slotAddr_inside f j).1 (slotAddr_inside f j).2
  · rw [linkTable, State.read64_memWrite_ne _ _ (slotAddr_frame_ne hgt j i)]
    exact Memory.read64_clear_outside _ (slotAddr_outside hgf j)

/-- A descent that reaches a level-3 table leaves tables that lead to it, without a cycle, and touches no owned table but
those of the path (R112). -/
theorem descend_reached {va : Word} {levels : List (Fin 4)} {root : Frame} {made : List (Nat × Frame)} {s s' : State}
    {t : Frame} (hs : s.mem.wf = true) (hn : (existingPath s.mem va levels root).Nodup)
    (ho : ∀ f ∈ existingPath s.mem va levels root, f ∈ s.owned)
    (h : descend va levels root made s = .reached t s') :
    walkTables (fun _ a => s'.mem.read64 a) va levels root = some t ∧ t ∉ tablePath s'.mem va levels root ∧
      (∀ f ∈ s.owned, f ∉ existingPath s.mem va levels root →
        ∀ i, s'.mem.read64 (slotAddr f i) = s.mem.read64 (slotAddr f i)) ∧
      (t ∈ existingPath s.mem va levels root ∨ t ∉ s.owned) := by
  induction levels generalizing root made s with
  | nil =>
    obtain ⟨rfl, rfl⟩ : root = t ∧ s = s' := by simpa [descend] using h
    exact ⟨rfl, by simp [tablePath], fun _ _ _ _ => rfl, .inl (by simp [existingPath])⟩
  | cons l rest ih =>
    have hroot : root ∈ s.owned := ho root (mem_existingPath_self _ _ _ _)
    unfold descend at h
    unfold existingPath at hn ho ⊢
    dsimp only at h hn ho ⊢
    by_cases hd : descUsable (s.mem.read64 (slotAddr root (idx l va))) = true
    · simp only [hd, if_true] at h hn ho ⊢
      rw [List.nodup_cons] at hn
      obtain ⟨h1, h2, h3, h4⟩ := ih hs hn.2 (fun f hf => ho f (by simp [hf])) h
      have hk : s'.mem.read64 (slotAddr root (idx l va)) = s.mem.read64 (slotAddr root (idx l va)) :=
        h3 root hroot hn.1 _
      refine ⟨?_, ?_, fun f hf hnf => h3 f hf fun hc => hnf (by simp [hc]), ?_⟩
      · simp only [walkTables, hk, hd, if_true]
        exact h1
      · simp only [tablePath, hk, List.mem_cons, not_or]
        refine ⟨fun e => ?_, h2⟩
        subst e
        exact h4.elim hn.1 fun hc => hc hroot
      · exact h4.imp (fun hc => by simp [hc]) id
    · simp only [hd] at h hn ho ⊢
      by_cases hv : descValid (s.mem.read64 (slotAddr root (idx l va))) = true
      · simp [hv] at h
      · simp only [hv, Bool.not_false, if_true] at h
        rcases allocFrame_cases s with ⟨f, al, -, hf, -, ha⟩ | ⟨al, -, ha⟩
        · rw [ha] at h
          dsimp only at h
          have hne : f ≠ root := fun e => hf (e ▸ hroot)
          obtain ⟨s1, hs1⟩ : ∃ x : State, x = { s with
              alloc := al, owned := s.owned ++ [f], mem := s.mem.clear (pageSize * f.toNat) pageSize } := ⟨_, rfl⟩
          rw [← hs1] at h
          have hw1 : s1.mem.wf = true := by rw [hs1]; exact Memory.clear_wf hs _ _
          obtain ⟨r1, r2, r3⟩ := linkTable_reads hw1 hne (idx l va)
          have hp := existingPath_zeroed r1 va rest
          have hown : (linkTable (slotAddr root (idx l va)) f s1).owned = s.owned ++ [f] := by
            simp [linkTable, hs1]
          obtain ⟨h1, h2, h3, h4⟩ := ih (linkTable_wf hw1 root f _) (by rw [hp]; simp)
            (fun g hg => by rw [hp] at hg; rw [hown]; simp_all) h
          rw [hp] at h3 h4
          rw [hown] at h3 h4
          have hk : s'.mem.read64 (slotAddr root (idx l va)) = tableDesc (frameAddr f) := by
            rw [h3 root (by simp [hroot]) (by simpa using Ne.symm hne), r2]
          have hsame : ∀ g ∈ s.owned, g ≠ root → ∀ i, s'.mem.read64 (slotAddr g i) = s.mem.read64 (slotAddr g i) := by
            intro g hg hgr i
            have hgf : g ≠ f := fun e => hf (e ▸ hg)
            rw [h3 g (by simp [hg]) (by simpa using hgf), r3 g i hgf hgr, hs1]
            exact Memory.read64_clear_outside _ (slotAddr_outside hgf i)
          refine ⟨?_, ?_, fun g hg hng i => hsame g hg (by simpa using hng) i, ?_⟩
          · simp only [walkTables, hk, descUsable_tableDesc, if_true, frameOf_tableDesc]
            exact h1
          · simp only [tablePath, hk, frameOf_tableDesc, List.mem_cons, not_or]
            refine ⟨fun e => ?_, h2⟩
            subst e
            rcases h4 with hc | hc
            · exact hne (List.mem_singleton.1 hc).symm
            · exact hc (by simp [hroot])
          · rcases h4 with hc | hc
            · right
              have : t = f := by simpa using hc
              rw [this]
              exact hf
            · right
              intro hc'
              exact hc (by simp [hc'])
        · rw [ha] at h
          simp at h

/-- `MapOne` that answers a mapping leaves tables that lead to the leaf, and the walk finds exactly the mapping
(R112, R122 a). -/
theorem walk_after_mapOne {s s' : State} {root : Frame} {va pa flags : Word} {r : Bool} (hs : s.mem.wf = true)
    (ho : OwnedPath s root va) (hva : pageAligned va = true) (ha : pageAligned pa = true) (hp : isPhys pa = true)
    (hf : flagsOk flags = true) (h : mapOne root va pa flags s = .mapped s' r) :
    walk s'.mem root va = some { pa := pa, flags := flags } := by
  unfold mapOne at h
  cases e : descend va tableLevels root [] s with
  | exhausted s1 => simp [e] at h
  | malformed s1 w => simp [e] at h
  | reached t s1 =>
    simp only [e, MapOutcome.mapped.injEq] at h
    obtain ⟨h1, h2, -, -⟩ := descend_reached hs ho.1 ho.2 e
    have hw : s1.mem.wf = true := by
      have := descend_wf (va := va) (levels := tableLevels) (t := root) (made := []) hs fun _ hk => by simp at hk
      rwa [e] at this
    rw [← h.1]
    exact walk_after_leaf hw ⟨h1, h2⟩ hva ha hp hf

end Sys2Proof.Machine
end

