-- ==== Sys2Proof/Laws/Vectors.lean ====
section
/-! SUPPORT. What the copy of VEC_INSTALL can do (R151). -/

namespace Sys2Proof.Machine

/-- Two 64-bit reads of memories that agree byte for byte agree. -/
theorem Memory.read64_agree {m m' : Memory} {a b : Nat} (h : ∀ k, k < 8 → m'.read (b + k) = m.read (a + k)) :
    m'.read64 b = m.read64 a := by
  have h0 := h 0 (by omega)
  simp only [Nat.add_zero] at h0
  simp only [Memory.read64, h0, h 1 (by omega), h 2 (by omega), h 3 (by omega), h 4 (by omega), h 5 (by omega),
    h 6 (by omega), h 7 (by omega)]

/-- Byte `k` of a 64-bit read. -/
theorem byteOf_read64 (m : Memory) (a : Nat) {k : Nat} (hk : k < 8) : byteOf (m.read64 a) k = m.read (a + k) := by
  have : k = 0 ∨ k = 1 ∨ k = 2 ∨ k = 3 ∨ k = 4 ∨ k = 5 ∨ k = 6 ∨ k = 7 := by omega
  rcases this with rfl | rfl | rfl | rfl | rfl | rfl | rfl | rfl <;>
    · apply BitVec.eq_of_getLsbD_eq
      intro i hi
      simp only [byteOf, Memory.read64, BitVec.getLsbD_extractLsb', BitVec.getLsbD_append, hi, decide_true,
        Bool.true_and, Nat.add_zero]
      split_ifs <;> first | (exfalso; omega) | rfl | (congr 1; omega)

/-- `MemWrite` makes the eight bytes those of the value. -/
theorem State.read_memWrite_byte {s : State} (hs : s.mem.wf = true) {a : Nat} (ha : a + 7 < physSize) (v : Word) {k : Nat}
    (hk : k < 8) : (s.memWrite a v).mem.read (a + k) = byteOf v k := by
  rw [← byteOf_read64 _ _ hk, State.read64_memWrite_same hs ha]

/-- The copy of `n` aligned 64-bit values between ranges that are one and the same or apart: memory and the writes not
yet visible are all that changes, the target bytes become the source bytes, every other byte stays. -/
theorem copyWords_ok {n src dst : Nat} {s : State} (hs : s.mem.wf = true) (h8 : src % 8 = 0) (d8 : dst % 8 = 0)
    (hsrc : src + 8 * n ≤ physSize) (hdst : dst + 8 * n ≤ physSize)
    (hov : src = dst ∨ src + 8 * n ≤ dst ∨ dst + 8 * n ≤ src) :
    ∃ t, copyWords n src dst s = .ok t ∧ t = { s with mem := t.mem, unseen := t.unseen } ∧ t.mem.wf = true ∧
      (∀ k, k < 8 * n → t.mem.read (dst + k) = s.mem.read (src + k)) ∧
      (∀ b, (b < dst ∨ dst + 8 * n ≤ b) → t.mem.read b = s.mem.read b) := by
  induction n generalizing src dst s with
  | zero => exact ⟨s, rfl, rfl, hs, fun k hk => absurd hk (by omega), fun _ _ => rfl⟩
  | succ n ih =>
    have hr : s.memRead src = .ok (s.mem.read64 src) := (State.memRead_ok_iff _ _ _).2 ⟨h8, by omega, rfl⟩
    have hw : s.memWriteChecked dst (s.mem.read64 src) = .ok (s.memWrite dst (s.mem.read64 src)) :=
      (State.memWriteChecked_ok_iff _ _ _ _).2 ⟨d8, by omega, rfl⟩
    obtain ⟨t, e1, e2, e3, e4, e5⟩ := ih (src := src + 8) (dst := dst + 8) (s := s.memWrite dst (s.mem.read64 src))
      (State.memWrite_wf hs (by omega) _) (by omega) (by omega) (by omega) (by omega) (by omega)
    refine ⟨t, by simp only [copyWords, hr, hw]; exact e1, ?_, e3, fun k hk => ?_, fun b hb => ?_⟩
    · rw [e2]
      unfold State.memWrite
      split_ifs <;> rfl
    · by_cases h : k < 8
      · rw [e5 _ (.inl (by omega)), State.read_memWrite_byte hs (by omega) _ h, byteOf_read64 _ _ h]
      · have := e4 (k - 8) (by omega)
        rw [show dst + 8 + (k - 8) = dst + k by omega, show src + 8 + (k - 8) = src + k by omega] at this
        rw [this]
        rcases hov with rfl | hov | hov
        · exact State.read_memWrite_ne s _ (.inr (by omega))
        · exact State.read_memWrite_ne s _ (.inl (by omega))
        · exact State.read_memWrite_ne s _ (.inr (by omega))
    · rw [e5 b (by omega)]
      exact State.read_memWrite_ne s _ (by omega)

/-- The verification finds two ranges equal when they agree byte for byte. -/
theorem wordsAgree_ok {n src dst : Nat} {s : State} (h8 : src % 8 = 0) (d8 : dst % 8 = 0)
    (hsrc : src + 8 * n ≤ physSize) (hdst : dst + 8 * n ≤ physSize)
    (h : ∀ k, k < 8 * n → s.mem.read (dst + k) = s.mem.read (src + k)) : wordsAgree n src dst s = .ok true := by
  induction n generalizing src dst with
  | zero => rfl
  | succ n ih =>
    have hd : s.memRead dst = .ok (s.mem.read64 dst) := (State.memRead_ok_iff _ _ _).2 ⟨d8, by omega, rfl⟩
    have hr : s.memRead src = .ok (s.mem.read64 src) := (State.memRead_ok_iff _ _ _).2 ⟨h8, by omega, rfl⟩
    have he : s.mem.read64 dst = s.mem.read64 src := Memory.read64_agree fun k hk => h k (by omega)
    simp only [wordsAgree, hd, hr, he, if_true]
    refine ih (by omega) (by omega) (by omega) (by omega) fun k hk => ?_
    have := h (k + 8) (by omega)
    rwa [show dst + (k + 8) = dst + 8 + k by omega, show src + (k + 8) = src + 8 + k by omega] at this

end Sys2Proof.Machine
end

