-- ==== Sys2Proof/Laws/Build.lean ====
section
/-! SUPPORT. What building tables does to every walk: the path of an address depth by depth, what `MapOne` leaves where
tables are missing, and what it leaves of every other page's path under a tree of tables (R37, R112, R122 d). -/

namespace Sys2Proof.Machine

/-! ## The path of an address, depth by depth -/

/-- The index of `va` at depth `i` (R87). -/
def idxAt (i : Nat) (va : Word) : BitVec 9 := va.extractLsb' (39 - 9 * i) 9

theorem idx_eq_idxAt (l : Fin 4) (va : Word) : idx l va = idxAt l.val va := rfl

/-- The table at depth `i` on the path of `va` (R58). -/
def tableAt (m : Memory) (va : Word) (root : Frame) : Nat → Option Frame
  | 0 => some root
  | i + 1 =>
    match tableAt m va root i with
    | none => none
    | some t =>
      if descUsable (m.read64 (slotAddr t (idxAt i va))) then some (frameOf (m.read64 (slotAddr t (idxAt i va)))) else none

/-- The tables that exist for `va` end at depth `i`, with `t`: its slot names no further table. -/
def PathEnds (m : Memory) (va : Word) (root : Frame) (i : Nat) (t : Frame) : Prop :=
  i ≤ 3 ∧ tableAt m va root i = some t ∧ (i < 3 → descUsable (m.read64 (slotAddr t (idxAt i va))) = false)

theorem tableAt_succ {m : Memory} {va : Word} {root t : Frame} {i : Nat} (h : tableAt m va root i = some t) :
    tableAt m va root (i + 1) =
      if descUsable (m.read64 (slotAddr t (idxAt i va))) then some (frameOf (m.read64 (slotAddr t (idxAt i va))))
      else none := by
  simp [tableAt, h]

theorem tableAt_none {m : Memory} {va : Word} {root : Frame} {i j : Nat} (h : tableAt m va root i = none) (hij : i ≤ j) :
    tableAt m va root j = none := by
  induction hij with
  | refl => exact h
  | step _ ih => simp [tableAt, ih]

/-- Past the end of a path there is no table. -/
theorem PathEnds.none {m : Memory} {va : Word} {root t : Frame} {i j : Nat} (h : PathEnds m va root i t) (hi : i < 3)
    (hij : i < j) : tableAt m va root j = none :=
  tableAt_none (by rw [tableAt_succ h.2.1, h.2.2 hi]; rfl) hij

theorem tableAt_some_le {m : Memory} {va : Word} {root t : Frame} {i j : Nat} (h : tableAt m va root j = some t)
    (hij : i ≤ j) : ∃ u, tableAt m va root i = some u := by
  cases e : tableAt m va root i with
  | none => rw [tableAt_none e hij] at h; cases h
  | some u => exact ⟨u, rfl⟩

/-- The list of the tables that exist is the path depth by depth. -/
theorem existingPath_getElem? (m : Memory) (va : Word) (root : Frame) (i : Nat) :
    (existingPath m va tableLevels root)[i]? = if i ≤ 3 then tableAt m va root i else none := by
  have e0 : ∀ v, idx 0 v = idxAt 0 v := fun _ => rfl
  have e1 : ∀ v, idx 1 v = idxAt 1 v := fun _ => rfl
  have e2 : ∀ v, idx 2 v = idxAt 2 v := fun _ => rfl
  simp only [tableLevels, existingPath, e0, e1, e2]
  match i with
  | 0 => split_ifs <;> simp_all [tableAt]
  | 1 => split_ifs <;> simp_all [tableAt]
  | 2 => split_ifs <;> simp_all [tableAt]
  | 3 => split_ifs <;> simp_all [tableAt]
  | i + 4 => split_ifs <;> simp_all

/-- Every path ends somewhere; there the slot MAP_PAGE stores to is, and the tables it lacks are those below. -/
theorem pathEnds_exists (m : Memory) (va : Word) (root : Frame) :
    ∃ i t, PathEnds m va root i t ∧ storeSlot m va tableLevels root = slotAddr t (idxAt i va) ∧
      (existingPath m va tableLevels root).length = i + 1 := by
  have e0 : ∀ v, idx 0 v = idxAt 0 v := fun _ => rfl
  have e1 : ∀ v, idx 1 v = idxAt 1 v := fun _ => rfl
  have e2 : ∀ v, idx 2 v = idxAt 2 v := fun _ => rfl
  have e3 : ∀ v, idx 3 v = idxAt 3 v := fun _ => rfl
  simp only [tableLevels, storeSlot, existingPath, e0, e1, e2, e3, PathEnds]
  split_ifs with h0 h1 h2
  · exact ⟨3, _, ⟨by omega, by simp [tableAt, h0, h1, h2], by omega⟩, rfl, rfl⟩
  · exact ⟨2, _, ⟨by omega, by simp [tableAt, h0, h1], fun _ => by simpa using h2⟩, rfl, rfl⟩
  · exact ⟨1, _, ⟨by omega, by simp [tableAt, h0], fun _ => by simpa using h1⟩, rfl, rfl⟩
  · exact ⟨0, _, ⟨by omega, by simp [tableAt], fun _ => by simpa using h0⟩, rfl, rfl⟩

theorem missingTables_eq {m : Memory} {root : Frame} {va : Word} {i : Nat}
    (h : (existingPath m va tableLevels root).length = i + 1) : missingTables m root va = 3 - i := by
  unfold missingTables
  omega

/-- A walk reads the leaf slot of the table at depth 3, when there is one. -/
theorem walk_eq_tableAt (m : Memory) (root : Frame) (va : Word) :
    walk m root va =
      match tableAt m va root 3 with
      | none => none
      | some t => leafTranslation (m.read64 (slotAddr t (idxAt 3 va))) va := by
  have e0 : ∀ v, idx 0 v = idxAt 0 v := fun _ => rfl
  have e1 : ∀ v, idx 1 v = idxAt 1 v := fun _ => rfl
  have e2 : ∀ v, idx 2 v = idxAt 2 v := fun _ => rfl
  have e3 : ∀ v, idx 3 v = idxAt 3 v := fun _ => rfl
  simp only [walk, walkWith, tableLevels, walkTables, e0, e1, e2, e3, tableAt]
  by_cases h0 : descUsable (m.read64 (slotAddr root (idxAt 0 va))) = true <;> simp [h0]
  split_ifs <;> simp_all

/-- Two addresses have the same indices above depth `i`. -/
def AgreeTo (i : Nat) (v va : Word) : Prop := ∀ l, l < i → idxAt l v = idxAt l va

theorem AgreeTo.mono {i j : Nat} {v va : Word} (h : AgreeTo j v va) (hij : i ≤ j) : AgreeTo i v va :=
  fun l hl => h l (Nat.lt_of_lt_of_le hl hij)

theorem AgreeTo.succ {i : Nat} {v va : Word} (h : AgreeTo i v va) (hi : idxAt i v = idxAt i va) : AgreeTo (i + 1) v va := by
  intro l hl
  rcases Nat.lt_succ_iff_lt_or_eq.1 hl with hl | rfl
  · exact h l hl
  · exact hi

theorem AgreeTo.symm {i : Nat} {v va : Word} (h : AgreeTo i v va) : AgreeTo i va v := fun l hl => (h l hl).symm

theorem AgreeTo.trans {i : Nat} {u v w : Word} (h : AgreeTo i u v) (h' : AgreeTo i v w) : AgreeTo i u w :=
  fun l hl => (h l hl).trans (h' l hl)

/-- Addresses that agree above a depth have the same table there. -/
theorem tableAt_agree {m : Memory} {root : Frame} {v va : Word} {i : Nat} (h : AgreeTo i v va) :
    tableAt m v root i = tableAt m va root i := by
  induction i with
  | zero => rfl
  | succ i ih => simp only [tableAt, ih (h.mono (by omega)), h i (by omega)]

theorem idxAt_toNat (i : Nat) (va : Word) : (idxAt i va).toNat = va.toNat / 2 ^ (39 - 9 * i) % 512 := by
  simp [idxAt, Nat.shiftRight_eq_div_pow]

/-- The indices above depth `i` are the bits above the slice at depth `i`, within the 48 a walk looks at. -/
theorem agreeTo_iff {v va : Word} {i : Nat} (hi : i ≤ 4) : AgreeTo i v va ↔
    v.toNat % 281474976710656 / 2 ^ (48 - 9 * i) = va.toNat % 281474976710656 / 2 ^ (48 - 9 * i) := by
  have key : ∀ l, idxAt l v = idxAt l va ↔
      v.toNat / 2 ^ (39 - 9 * l) % 512 = va.toNat / 2 ^ (39 - 9 * l) % 512 := fun l => by
    rw [← idxAt_toNat, ← idxAt_toNat]; exact ⟨fun h => by rw [h], fun h => BitVec.eq_of_toNat_eq h⟩
  have hall : AgreeTo i v va ↔ ∀ l, l < i → v.toNat / 2 ^ (39 - 9 * l) % 512 = va.toNat / 2 ^ (39 - 9 * l) % 512 :=
    ⟨fun h l hl => (key l).1 (h l hl), fun h l hl => (key l).2 (h l hl)⟩
  rw [hall]
  have h5 : i = 0 ∨ i = 1 ∨ i = 2 ∨ i = 3 ∨ i = 4 := by omega
  rcases h5 with rfl | rfl | rfl | rfl | rfl
  · simp only [Nat.not_lt_zero, false_imp_iff, implies_true, true_iff]; norm_num
  · constructor
    · intro h
      have h0 := h 0 (by omega)
      norm_num at h0 ⊢; omega
    · intro h l hl
      obtain rfl : l = 0 := by omega
      norm_num at h ⊢; omega
  · constructor
    · intro h
      have h0 := h 0 (by omega)
      have h1 := h 1 (by omega)
      norm_num at h0 h1 ⊢; omega
    · intro h l hl
      have : l = 0 ∨ l = 1 := by omega
      rcases this with rfl | rfl <;> norm_num at h ⊢ <;> omega
  · constructor
    · intro h
      have h0 := h 0 (by omega)
      have h1 := h 1 (by omega)
      have h2 := h 2 (by omega)
      norm_num at h0 h1 h2 ⊢; omega
    · intro h l hl
      have : l = 0 ∨ l = 1 ∨ l = 2 := by omega
      rcases this with rfl | rfl | rfl <;> norm_num at h ⊢ <;> omega
  · constructor
    · intro h
      have h0 := h 0 (by omega)
      have h1 := h 1 (by omega)
      have h2 := h 2 (by omega)
      have h3 := h 3 (by omega)
      norm_num at h0 h1 h2 h3 ⊢; omega
    · intro h l hl
      have : l = 0 ∨ l = 1 ∨ l = 2 ∨ l = 3 := by omega
      rcases this with rfl | rfl | rfl | rfl <;> norm_num at h ⊢ <;> omega

/-- Addresses with all four indices the same are of one page, within the 48 bits a walk looks at. -/
theorem agreeTo_four {v va : Word} : AgreeTo 4 v va ↔ pageNumber v = pageNumber va := by
  rw [agreeTo_iff (le_refl 4)]
  unfold pageNumber
  norm_num
  omega

/-! ## The allocator's next answers (R44) -/

/-- The answers depend on the parameters, the owned frames and the answers to come alone. -/
theorem State.grants_congr {s t : State} (hc : t.cfg = s.cfg) (ho : t.owned = s.owned) (ha : t.alloc = s.alloc) (n : Nat) :
    t.grants n = s.grants n := by
  induction n generalizing s t with
  | zero => simp [State.grants, ha]
  | succ n ih =>
    have hf : t.frameFree = s.frameFree := by
      funext f
      simp [State.frameFree, hc, ho]
    simp only [State.grants, hf, ha]
    split
    · rfl
    · rename_i f rest _
      rw [@ih (s.took [f] rest) (t.took [f] rest) hc (by simp [State.took, ho]) rfl]

theorem State.grants_none {s : State} {rest : List AllocAnswers} (h : nextAnswer s.frameFree s.alloc = (none, rest))
    (n : Nat) : s.grants (n + 1) = ([], rest) := by
  simp [State.grants, h]

theorem State.grants_some {s : State} {f : Frame} {rest : List AllocAnswers}
    (h : nextAnswer s.frameFree s.alloc = (some f, rest)) (n : Nat) :
    s.grants (n + 1) = (f :: ((s.took [f] rest).grants n).1, ((s.took [f] rest).grants n).2) := by
  simp [State.grants, h]

theorem State.grants_length_le (n : Nat) (s : State) : (s.grants n).1.length ≤ n := by
  induction n generalizing s with
  | zero => simp [State.grants]
  | succ n ih =>
    simp only [State.grants]
    split
    · simp
    · simpa using ih _

/-- The frames answered are not owned yet, and no two of them are one. -/
theorem State.grants_fresh (n : Nat) (s : State) :
    (∀ f ∈ (s.grants n).1, f ∉ s.owned) ∧ (s.grants n).1.Nodup := by
  induction n generalizing s with
  | zero => simp [State.grants]
  | succ n ih =>
    simp only [State.grants]
    split
    · simp
    · rename_i f rest h
      have hf := ((State.frameFree_iff s f).1 (nextAnswer_free h)).1
      obtain ⟨h1, h2⟩ := ih (s.took [f] rest)
      refine ⟨fun g hg => ?_, List.nodup_cons.2 ⟨fun hc => ?_, h2⟩⟩
      · rcases List.mem_cons.1 hg with rfl | hg
        · exact hf
        · exact fun hc => h1 g hg (by simp [State.took, hc])
      · exact h1 f hc (by simp [State.took])

/-- The answers to `i + j` requests are those to `i`, and then those to `j` in the state after them. -/
theorem State.grants_add (i j : Nat) (s : State) (h : (s.grants i).1.length = i) :
    (s.grants (i + j)).1 = (s.grants i).1 ++
        ((s.took (s.grants i).1 (s.grants i).2).grants j).1 ∧
      (s.grants (i + j)).2 = ((s.took (s.grants i).1 (s.grants i).2).grants j).2 := by
  induction i generalizing s with
  | zero =>
    have : (s.took (s.grants 0).1 (s.grants 0).2).grants j = s.grants j :=
      State.grants_congr (s := s) (t := s.took (s.grants 0).1 (s.grants 0).2) rfl (by simp [State.grants, State.took]) (by simp [State.grants, State.took]) j
    rw [this]
    simp [State.grants]
  | succ i ih =>
    rw [Nat.succ_add]
    rcases hn : nextAnswer s.frameFree s.alloc with ⟨_ | f, rest⟩
    · rw [State.grants_none hn] at h
      simp at h
    · rw [State.grants_some hn] at h ⊢
      rw [State.grants_some hn]
      simp only [List.length_cons, Nat.add_right_cancel_iff] at h
      obtain ⟨e1, e2⟩ := ih (s.took [f] rest) h
      dsimp only at e1 e2 ⊢
      rw [e1, e2]
      simp [State.took, List.append_assoc]

/-- If the answers to more requests all come, so do those to fewer. -/
theorem State.grants_length_mono {n m : Nat} {s : State} (h : (s.grants m).1.length = m) (hnm : n ≤ m) :
    (s.grants n).1.length = n := by
  induction n generalizing m s with
  | zero => simp [State.grants]
  | succ n ih =>
    obtain ⟨m, rfl⟩ : ∃ k, m = k + 1 := ⟨m - 1, by omega⟩
    rcases hn : nextAnswer s.frameFree s.alloc with ⟨_ | f, rest⟩
    · rw [State.grants_none hn] at h
      simp at h
    · rw [State.grants_some hn] at h ⊢
      simp only [List.length_cons, Nat.add_right_cancel_iff] at h ⊢
      exact ih h (by omega)

/-- The answers to fewer requests are among those to more. -/
theorem State.grants_subset {n m : Nat} {s : State} (hnm : n ≤ m) : ∀ f ∈ (s.grants n).1, f ∈ (s.grants m).1 := by
  induction n generalizing m s with
  | zero => simp [State.grants]
  | succ n ih =>
    obtain ⟨m, rfl⟩ : ∃ k, m = k + 1 := ⟨m - 1, by omega⟩
    rcases hn : nextAnswer s.frameFree s.alloc with ⟨_ | f, rest⟩
    · simp [State.grants_none hn]
    · rw [State.grants_some hn, State.grants_some hn]
      intro g hg
      rcases List.mem_cons.1 hg with rfl | hg
      · simp
      · exact List.mem_cons_of_mem _ (ih (by omega) g hg)

/-! ## Making the missing tables (R112) -/

/-- The last `n` of the table levels. -/
def levelsLast : Nat → List (Fin 4)
  | 0 => []
  | n + 1 => Fin.ofNat 4 (3 - (n + 1)) :: levelsLast n

/-- What is linked below `t` at depth `i`: each table names the next at the index of `va`, every other slot of a new table
is zero. -/
structure Linked (m : Memory) (va : Word) (i : Nat) (t : Frame) (fs : List Frame) : Prop where
  link : ∀ k f h, (t :: fs)[k]? = some f → (t :: fs)[k + 1]? = some h →
    m.read64 (slotAddr f (idxAt (i + k) va)) = tableDesc (frameAddr h)
  zero : ∀ k f, fs[k]? = some f → ∀ j, (j ≠ idxAt (i + 1 + k) va ∨ k + 1 = fs.length) → m.read64 (slotAddr f j) = 0#64

theorem linkTable_byte (t f : Frame) (j : BitVec 9) (s : State) {b : Nat} (h1 : ¬ InWord b (slotAddr t j))
    (h2 : ¬ InFrame b f) : (linkTable (slotAddr t j) f s).mem.read b = s.mem.read b := by
  rw [linkTable, State.read_memWrite_ne _ _ (by unfold InWord at h1; omega)]
  simp only [State.zeroTable_mem, Memory.read_clear, pageSize]
  rw [if_neg h2]

theorem linkTable_eq (slot : Nat) (f : Frame) (s : State) : linkTable slot f s =
    { s with mem := (linkTable slot f s).mem, unseen := (linkTable slot f s).unseen } := by
  unfold linkTable State.memWrite
  split_ifs <;> rfl

theorem grantFrame_byte (f : Frame) (s : State) (b : Nat) :
    (s.grantFrame f).mem.read b = if InFrame b f then 0#8 else s.mem.read b := by
  simp [Memory.read_clear, pageSize]

/-- A state in which the frame `f` was granted and linked into a slot of `t`. -/
theorem linked_fresh {s : State} (hs : s.mem.wf = true) {t f : Frame} {rest : List AllocAnswers} (hne : f ≠ t)
    (j : BitVec 9) :
    ∃ s1, linkTable (slotAddr t j) f ({ s with alloc := rest }.grantFrame f) = s1 ∧
      s1 = { s.took [f] rest with mem := s1.mem, unseen := s1.unseen } ∧ s1.mem.wf = true ∧
      (∀ k, s1.mem.read64 (slotAddr f k) = 0#64) ∧ s1.mem.read64 (slotAddr t j) = tableDesc (frameAddr f) ∧
      (∀ b, ¬ InWord b (slotAddr t j) → ¬ InFrame b f → s1.mem.read b = s.mem.read b) ∧
      (∀ b, InFrame b f → s1.mem.read b = 0#8) := by
  have hw : ({ s with alloc := rest }.grantFrame f).mem.wf = true := Memory.clear_wf hs _ _
  obtain ⟨r1, r2, -⟩ := linkTable_reads hw hne j
  refine ⟨_, rfl, ?_, linkTable_wf hw t f j, r1, r2, fun b h1 h2 => ?_, fun b hb => ?_⟩
  · rw [linkTable_eq]
    rfl
  · rw [linkTable_byte _ _ _ _ h1 h2, grantFrame_byte, if_neg h2]
  · have ho : b < slotAddr t j ∨ slotAddr t j + 8 ≤ b := by
      have := slotAddr_outside (Ne.symm hne) j
      simp only [InFrame, pageSize] at hb this
      omega
    rw [linkTable, State.read_memWrite_ne _ _ ho]
    simp only [State.zeroTable_mem, Memory.read_clear, pageSize]
    rw [if_pos hb]

/-- What a descent through `n` missing levels from table `t` does. -/
def Makes (n : Nat) (va : Word) (t : Frame) (made : List (Nat × Frame)) (s : State) : Prop :=
  ((s.grants n).1.length = n → ∃ t' s', descend va (levelsLast n) t made s = .reached t' s' ∧
    s' = { s.took (s.grants n).1 (s.grants n).2 with mem := s'.mem, unseen := s'.unseen } ∧
    s'.mem.wf = true ∧ (t :: (s.grants n).1)[n]? = some t' ∧ Linked s'.mem va (3 - n) t (s.grants n).1 ∧
    (∀ b, ¬ InWord b (slotAddr t (idxAt (3 - n) va)) → (∀ f ∈ (s.grants n).1, ¬ InFrame b f) →
      s'.mem.read b = s.mem.read b)) ∧
  ((s.grants n).1.length < n →
    ∃ s', descend va (levelsLast n) t made s = .exhausted (rollback made s') ∧
      s' = { s with alloc := (s.grants n).2, mem := s'.mem, unseen := s'.unseen } ∧ s'.mem.wf = true ∧
      (∀ b, (∃ f ∈ (s.grants n).1, InFrame b f) → s'.mem.read b = 0#8) ∧
      (∀ b, (∀ f ∈ (s.grants n).1, ¬ InFrame b f) →
        s'.mem.read b = if (s.grants n).1 ≠ [] ∧ InWord b (slotAddr t (idxAt (3 - n) va)) then 0#8 else s.mem.read b))

theorem inWord_inFrame {t : Frame} {j : BitVec 9} {b : Nat} (h : InWord b (slotAddr t j)) : InFrame b t := by
  have := slotAddr_inside t j
  simp only [pageSize] at this
  unfold InWord at h
  unfold InFrame
  omega

theorem inFrame_unique {t f : Frame} {b : Nat} (h : InFrame b t) (h' : InFrame b f) : t = f := by
  unfold InFrame at h h'
  exact BitVec.eq_of_toNat_eq (by omega)

/-- Where tables are missing the descent asks for one frame a level. All answered: it links them in a chain, zeroed, and
reaches the last. Exhausted on the way: the links go back to zero and the frames are given back. -/
theorem descend_make {n : Nat} (hn : n ≤ 3) {va : Word} {t : Frame} {made : List (Nat × Frame)} {s : State}
    (hs : s.mem.wf = true) (ht : t ∈ s.owned)
    (hd : 0 < n → descValid (s.mem.read64 (slotAddr t (idxAt (3 - n) va))) = false) : Makes n va t made s := by
  induction n generalizing t made s with
  | zero =>
    refine ⟨fun _ => ⟨t, s, rfl, ?_, hs, rfl, ⟨?_, ?_⟩, fun _ _ _ => rfl⟩, fun h => by simp at h⟩
    · simp [State.took, State.grants]
    · intro k f h h1 h2
      simp [State.grants] at h2
    · intro k f h1
      simp [State.grants] at h1
  | succ n ih =>
    have hd := hd (by omega)
    have hu : descUsable (s.mem.read64 (slotAddr t (idxAt (3 - (n + 1)) va))) = false := by
      rw [Bool.eq_false_iff]
      intro h
      rw [descUsable_iff] at h
      rw [descValid, h.1] at hd
      cases hd
    have hidx : idx (Fin.ofNat 4 (3 - (n + 1))) va = idxAt (3 - (n + 1)) va := by
      rw [idx_eq_idxAt]
      congr 1
      simp [Fin.ofNat]
      omega
    unfold Makes
    rw [levelsLast]
    unfold descend
    simp only [hidx, hu, hd, Bool.false_eq_true, if_false, Bool.not_false, if_true]
    rcases hna : nextAnswer s.frameFree s.alloc with ⟨_ | f, rest⟩
    · have ha : allocFrame s = (none, { s with alloc := rest }) := by simp [allocFrame, hna]
      rw [State.grants_none hna, ha]
      refine ⟨fun h => by simp at h, fun _ => ⟨{ s with alloc := rest }, rfl, rfl, hs, ?_, ?_⟩⟩
      · rintro b ⟨f, hf, -⟩
        simp at hf
      · intro b _
        simp
    · have hf := ((State.frameFree_iff s f).1 (nextAnswer_free hna)).1
      have hne : f ≠ t := fun e => hf (e ▸ ht)
      have ha : allocFrame s = (some f, { s with alloc := rest }.grantFrame f) := by simp [allocFrame, hna]
      obtain ⟨s1, e1, he1, hw1, hz, hl, hb, hb0⟩ := linked_fresh (rest := rest) hs hne (idxAt (3 - (n + 1)) va)
      rw [State.grants_some hna, ha]
      dsimp only
      rw [e1]
      have hg : s1.grants n = (s.took [f] rest).grants n :=
        State.grants_congr (by rw [he1]) (by rw [he1]) (by rw [he1]) n
      have hfresh := State.grants_fresh n (s.took [f] rest)
      have hown : s1.owned = s.owned ++ [f] := by rw [he1]; rfl
      have hm := @ih (by omega) f ((slotAddr t (idxAt (3 - (n + 1)) va), f) :: made) s1 hw1 (by simp [hown]) fun _ => by
        rw [hz]; rfl
      unfold Makes at hm
      rw [hg] at hm
      generalize hG : (s.took [f] rest).grants n = g at hm hfresh ⊢
      have hgo : ∀ h ∈ g.1, h ∉ s.owned ∧ h ≠ f := fun h hh => by
        have := hfresh.1 h hh
        simp only [State.took, List.mem_append, List.mem_singleton, not_or] at this
        exact this
      have hslot : ∀ h, (h = f ∨ h ∈ g.1) → ∀ b, InWord b (slotAddr t (idxAt (3 - (n + 1)) va)) → ¬ InFrame b h := by
        intro h hh b hb hc
        have := inFrame_unique (inWord_inFrame hb) hc
        rcases hh with rfl | hh
        · exact hne this.symm
        · exact (hgo h hh).1 (this ▸ ht)
      refine ⟨fun hlen => ?_, fun hlen => ?_⟩
      · simp only [List.length_cons, Nat.add_right_cancel_iff] at hlen
        obtain ⟨t', s', h1, h2, h3, h4, h5, h6⟩ := hm.1 hlen
        have hkeep : s'.mem.read64 (slotAddr t (idxAt (3 - (n + 1)) va)) = tableDesc (frameAddr f) := by
          rw [← hl]
          refine Memory.read64_congr fun k hk => h6 _ ?_ ?_
          · intro hc
            exact hslot f (.inl rfl) _ ⟨by omega, by omega⟩ (inWord_inFrame hc)
          · intro h hh
            exact hslot h (.inr hh) _ ⟨by omega, by omega⟩
        refine ⟨t', s', h1, ?_, h3, by simpa using h4, ⟨?_, ?_⟩, ?_⟩
        · rw [h2, he1]
          simp [State.took]
        · intro k x y hx hy
          cases k with
          | zero =>
            simp only [List.getElem?_cons_zero, Option.some.injEq] at hx
            simp only [Nat.zero_add, List.getElem?_cons_succ, List.getElem?_cons_zero, Option.some.injEq] at hy
            subst hx hy
            exact hkeep
          | succ k =>
            have := h5.link k x y (by simpa using hx) (by simpa using hy)
            rw [← this]
            congr 3
            omega
        · intro k x hx j hj
          cases k with
          | zero =>
            simp only [List.getElem?_cons_zero, Option.some.injEq] at hx
            subst hx
            rw [← hz j]
            rcases Nat.eq_zero_or_pos n with rfl | hpos
            · have : s1 = s' := by
                have := h1
                simp only [levelsLast, descend, Descent.reached.injEq] at this
                exact this.2
              rw [this]
            · have hj : j ≠ idxAt (3 - n) va := by
                rcases hj with hj | hj
                · intro hc
                  apply hj
                  rw [hc]
                  congr 1
                  omega
                · simp only [List.length_cons] at hj
                  omega
              refine Memory.read64_congr fun m hm => h6 _ (fun hc => ?_) fun h hh hc => ?_
              · have := slotAddr_idx_ne f hj
                unfold InWord at hc
                omega
              · exact (hgo h hh).2 (inFrame_unique hc (inWord_inFrame (j := j) ⟨by omega, by omega⟩))
          | succ k =>
            refine h5.zero k x (by simpa using hx) j ?_
            rcases hj with hj | hj
            · left
              convert hj using 2
              omega
            · right
              simpa using hj
        · intro b hb1 hb2
          rw [h6 b (fun hc => hb2 f (by simp) (inWord_inFrame hc)) fun h hh => hb2 h (by simp [hh])]
          exact hb b hb1 (hb2 f (by simp))
      · simp only [List.length_cons, Nat.add_lt_add_iff_right] at hlen
        obtain ⟨s', h1, h2, h3, h4, h5⟩ := hm.2 hlen
        refine ⟨(s'.memWrite (slotAddr t (idxAt (3 - (n + 1)) va)) 0#64).freeFrame f, h1, ?_, ?_, ?_, ?_⟩
        · have e : (s.owned ++ [f]).erase f = s.owned := by
            rw [List.erase_append_right _ hf]
            simp
          rw [State.memWrite_eq, h2, he1]
          simp [State.freeFrame, State.took, e]
        · exact State.memWrite_wf h3 (slotAddr_lt _ _) _
        · rintro b ⟨h, hh, hb1⟩
          have hnw : ¬ InWord b (slotAddr t (idxAt (3 - (n + 1)) va)) := fun hc =>
            hslot h (by simpa using hh) b hc hb1
          rw [State.freeFrame_mem, State.read_memWrite_ne _ _ (by unfold InWord at hnw; omega)]
          rcases List.mem_cons.1 hh with rfl | hh
          · rw [h5 b fun x hx hc => (hgo x hx).2 (inFrame_unique hc hb1), hb0 b hb1]
            simp
          · exact h4 b ⟨h, hh, hb1⟩
        · intro b hb1
          rw [State.freeFrame_mem]
          by_cases hw : InWord b (slotAddr t (idxAt (3 - (n + 1)) va))
          · rw [if_pos ⟨by simp, hw⟩]
            obtain ⟨k, hk, rfl⟩ : ∃ k, k < 8 ∧ b = slotAddr t (idxAt (3 - (n + 1)) va) + k :=
              ⟨b - slotAddr t (idxAt (3 - (n + 1)) va), by unfold InWord at hw; omega, by unfold InWord at hw; omega⟩
            rw [State.read_memWrite_byte h3 (slotAddr_lt _ _) _ hk]
            simp [byteOf]
          · rw [if_neg (by tauto), State.read_memWrite_ne _ _ (by unfold InWord at hw; omega),
              h5 b fun x hx => hb1 x (by simp [hx]), if_neg fun hc => hb1 f (by simp) (inWord_inFrame hc.2)]
            exact hb b hw (hb1 f (by simp))

/-! ## Everything MapOne can do (R112) -/

/-- A path ends at one place. -/
theorem PathEnds.unique {m : Memory} {va : Word} {root t t' : Frame} {i i' : Nat} (h : PathEnds m va root i t)
    (h' : PathEnds m va root i' t') : i = i' ∧ t = t' := by
  have key : ∀ {a b : Nat} {x y : Frame}, PathEnds m va root a x → PathEnds m va root b y → ¬ a < b := by
    intro a b x y ha hb hab
    have := ha.none (by have := hb.1; omega) hab
    rw [hb.2.1] at this
    cases this
  have e : i = i' := by
    have := key h h'
    have := key h' h
    omega
  subst e
  exact ⟨rfl, Option.some.inj (h.2.1.symm.trans h'.2.1)⟩

/-- The slot MAP_PAGE stores to lies where the path ends. -/
theorem PathEnds.storeSlot {m : Memory} {va : Word} {root t : Frame} {i : Nat} (h : PathEnds m va root i t) :
    storeSlot m va tableLevels root = slotAddr t (idxAt i va) := by
  obtain ⟨i', t', h', h1, -⟩ := pathEnds_exists m va root
  obtain ⟨rfl, rfl⟩ := h.unique h'
  exact h1

/-- The tables missing are those below the end of the path. -/
theorem PathEnds.missing {m : Memory} {va : Word} {root t : Frame} {i : Nat} (h : PathEnds m va root i t) :
    missingTables m root va = 3 - i := by
  obtain ⟨i', t', h', -, h1⟩ := pathEnds_exists m va root
  obtain ⟨rfl, rfl⟩ := h.unique h'
  exact missingTables_eq h1

/-- A path is malformed where it ends above the leaf in a valid entry (R112). -/
theorem PathEnds.malformed_iff {m : Memory} {va : Word} {root t : Frame} {i : Nat} (h : PathEnds m va root i t) :
    MalformedPath m root va ↔ i < 3 ∧ descValid (m.read64 (slotAddr t (idxAt i va))) = true := by
  unfold MalformedPath
  rw [h.missing, h.storeSlot]
  have := h.1
  constructor
  · rintro ⟨h1, h2⟩; exact ⟨by omega, h2⟩
  · rintro ⟨h1, h2⟩; exact ⟨by omega, h2⟩

/-- A table of the path is one of the tables that exist. -/
theorem mem_existingPath {m : Memory} {va : Word} {root f : Frame} {i : Nat} (hi : i ≤ 3)
    (h : tableAt m va root i = some f) : f ∈ existingPath m va tableLevels root := by
  refine List.mem_of_getElem? (i := i) ?_
  rw [existingPath_getElem?, if_pos hi, h]

/-- A descent follows the tables that exist and changes nothing on the way. -/
theorem descend_prefix {va : Word} {root t : Frame} {i : Nat} {made : List (Nat × Frame)} {s : State}
    (h : PathEnds s.mem va root i t) :
    descend va tableLevels root made s = descend va (levelsLast (3 - i)) t made s := by
  have e0 : ∀ v, idx 0 v = idxAt 0 v := fun _ => rfl
  have e1 : ∀ v, idx 1 v = idxAt 1 v := fun _ => rfl
  have e2 : ∀ v, idx 2 v = idxAt 2 v := fun _ => rfl
  obtain ⟨hi, ht, -⟩ := h
  have hi4 : i = 0 ∨ i = 1 ∨ i = 2 ∨ i = 3 := by omega
  have step : ∀ {a : Nat} {l : Fin 4} {rest : List (Fin 4)} {x y : Frame}, l.val = a → tableAt s.mem va root a = some x →
      tableAt s.mem va root (a + 1) = some y →
      descend va (l :: rest) x made s = descend va rest y made s := by
    intro a l rest x y hl hx hy
    rw [tableAt_succ hx] at hy
    split_ifs at hy with hu
    · rw [descend, idx_eq_idxAt, hl]
      simp only [hu, if_true, Option.some.inj hy]
  rcases hi4 with rfl | rfl | rfl | rfl
  · cases ht; rfl
  · exact step (a := 0) rfl rfl ht
  · obtain ⟨u1, h1⟩ := tableAt_some_le ht (by omega : 1 ≤ 2)
    rw [tableLevels, step (a := 0) rfl rfl h1]
    exact step (a := 1) rfl h1 ht
  · obtain ⟨u2, h2⟩ := tableAt_some_le ht (by omega : 2 ≤ 3)
    obtain ⟨u1, h1⟩ := tableAt_some_le h2 (by omega : 1 ≤ 2)
    rw [tableLevels, step (a := 0) rfl rfl h1, step (a := 1) rfl h1 h2]
    exact step (a := 2) rfl h2 ht

/-- What `MapOne` leaves that completes: `s'` after `s`, the path of `va` having ended at depth `i` with `t` (R112). -/
structure PageMade (s s' : State) (va leaf : Word) (i : Nat) (t : Frame) : Prop where
  state : s' = { s.took (s.grants (3 - i)).1 (s.grants (3 - i)).2 with mem := s'.mem, unseen := s'.unseen }
  wf : s'.mem.wf = true
  granted : (s.grants (3 - i)).1.length = 3 - i
  link : ∀ k f h, (t :: (s.grants (3 - i)).1)[k]? = some f → (t :: (s.grants (3 - i)).1)[k + 1]? = some h →
    s'.mem.read64 (slotAddr f (idxAt (i + k) va)) = tableDesc (frameAddr h)
  leaf : ∀ f, (t :: (s.grants (3 - i)).1)[3 - i]? = some f → s'.mem.read64 (slotAddr f (idxAt 3 va)) = leaf
  zero : ∀ k f, (s.grants (3 - i)).1[k]? = some f → ∀ j, j ≠ idxAt (i + 1 + k) va → s'.mem.read64 (slotAddr f j) = 0#64
  bytes : ∀ b, ¬ InWord b (slotAddr t (idxAt i va)) → (∀ f ∈ (s.grants (3 - i)).1, ¬ InFrame b f) →
    s'.mem.read b = s.mem.read b

/-- What `MapOne` leaves that runs out of frames (R112). -/
structure PageFailed (s s' : State) (va : Word) (i : Nat) (t : Frame) : Prop where
  state : s' = { s with alloc := (s.grants (3 - i)).2, mem := s'.mem, unseen := s'.unseen }
  wf : s'.mem.wf = true
  exhausted : (s.grants (3 - i)).1.length < 3 - i
  zeroed : ∀ b, (∃ f ∈ (s.grants (3 - i)).1, InFrame b f) → s'.mem.read b = 0#8
  bytes : ∀ b, (∀ f ∈ (s.grants (3 - i)).1, ¬ InFrame b f) →
    s'.mem.read b = if (s.grants (3 - i)).1 ≠ [] ∧ InWord b (slotAddr t (idxAt i va)) then 0#8 else s.mem.read b

/-- On a malformed path `MapOne` changes nothing: no table is made above the malformed entry (R112). -/
theorem mapOne_malformed {s : State} {va : Word} {root : Frame} (pa flags : Word) (hm : MalformedPath s.mem root va) :
    mapOne root va pa flags s = .malformed s false := by
  obtain ⟨i, t, hp, -⟩ := pathEnds_exists s.mem va root
  obtain ⟨h1, h2⟩ := hp.malformed_iff.1 hm
  obtain ⟨n, hn⟩ : ∃ n, 3 - i = n + 1 := ⟨2 - i, by omega⟩
  have hidx : idx (Fin.ofNat 4 (3 - (n + 1))) va = idxAt i va := by
    rw [idx_eq_idxAt]
    congr 1
    simp [Fin.ofNat]
    omega
  unfold mapOne
  rw [descend_prefix hp, hn, levelsLast, descend]
  simp only [hidx, hp.2.2 h1, h2, Bool.false_eq_true, if_false, Bool.not_true]
  rfl

/-- Everything else `MapOne` can do, where the tables that exist are owned: it completes when the allocator answers the
frames it lacks, and is exhausted when not (R112). -/
theorem mapOne_spec {s : State} {va : Word} {root t : Frame} {i : Nat} (pa flags : Word) (hs : s.mem.wf = true)
    (hp : PathEnds s.mem va root i t) (ht : t ∈ s.owned) (hm : ¬ MalformedPath s.mem root va) :
    ((s.grants (3 - i)).1.length = 3 - i → ∃ s',
      mapOne root va pa flags s = .mapped s' (decide (i = 3) &&
        (descUsable (s.mem.read64 (slotAddr t (idxAt 3 va))) &&
          s.mem.read64 (slotAddr t (idxAt 3 va)) != leafDesc pa flags)) ∧
      PageMade s s' va (leafDesc pa flags) i t) ∧
    ((s.grants (3 - i)).1.length < 3 - i →
      ∃ s', mapOne root va pa flags s = .exhausted s' ∧ PageFailed s s' va i t) := by
  have hi := hp.1
  rw [hp.malformed_iff] at hm
  unfold mapOne
  rw [descend_prefix hp]
  refine ⟨fun hlen => ?_, fun hlen => ?_⟩
  all_goals
    have hmk := descend_make (n := 3 - i) (by omega) (va := va) (made := []) hs ht fun h0 => by
      have e : 3 - (3 - i) = i := by omega
      rw [e, Bool.eq_false_iff]
      exact fun hc => hm ⟨by omega, hc⟩
    unfold Makes at hmk
    have e33 : 3 - (3 - i) = i := by omega
    rw [e33] at hmk
  · obtain ⟨t', s1, h1, h2, h3, h4, h5, h6⟩ := hmk.1 hlen
    rw [h1]
    dsimp only
    have e3 : idx 3 va = idxAt 3 va := rfl
    rw [e3]
    have hfresh := State.grants_fresh (3 - i) s
    have hold : s1.mem.read64 (slotAddr t' (idxAt 3 va)) =
        if i = 3 then s.mem.read64 (slotAddr t (idxAt 3 va)) else 0#64 := by
      split_ifs with hc
      · subst hc
        simp only [Nat.sub_self, levelsLast, descend, Descent.reached.injEq] at h1
        rw [h1.1, h1.2]
      · obtain ⟨n, hn⟩ : ∃ n, 3 - i = n + 1 := ⟨2 - i, by omega⟩
        rw [hn] at h4 h5 hlen
        rw [hn] at hfresh
        refine h5.zero n t' (by simpa using h4) _ (.inr (by omega))
    have ht' : t' = t ∨ t' ∈ (s.grants (3 - i)).1 := by
      have := List.mem_of_getElem? h4
      simpa using this
    refine ⟨s1.memWrite (slotAddr t' (idxAt 3 va)) (leafDesc pa flags), ?_,
      ⟨?_, State.memWrite_wf h3 (slotAddr_lt _ _) _, hlen, ?_, ?_, ?_, ?_⟩⟩
    · rw [hold]
      congr 1
      by_cases hc : i = 3
      · simp [hc]
      · simp [hc, descUsable]
    · rw [State.memWrite_eq, h2]
    · intro k f h hf hh
      rw [State.read64_memWrite_ne]
      · exact h5.link k f h hf hh
      · -- f is not the last table
        have hk : k < 3 - i := by
          have := List.getElem?_eq_some_iff.1 hh
          obtain ⟨hlt, -⟩ := this
          simp only [List.length_cons, hlen] at hlt
          omega
        have hne : f ≠ t' := by
          intro hc
          have hnd : (t :: (s.grants (3 - i)).1).Nodup := List.nodup_cons.2 ⟨fun hx => hfresh.1 t hx ht, hfresh.2⟩
          rw [← hc, ← hf] at h4
          have := (List.getElem?_inj (by simp only [List.length_cons, hlen]; omega) hnd).1 h4
          omega
        exact slotAddr_frame_ne hne _ _
    · intro f hf
      rw [h4] at hf
      cases hf
      exact State.read64_memWrite_same h3 (slotAddr_lt _ _) _
    · intro k f hf j hj
      have := h5.zero k f hf j (.inl (by simpa [Nat.add_assoc] using hj))
      rw [State.read64_memWrite_ne]
      · exact this
      · by_cases hc : f = t'
        · subst hc
          have hk : k + 1 = 3 - i := by
            have hnd : (t :: (s.grants (3 - i)).1).Nodup := List.nodup_cons.2 ⟨fun hx => hfresh.1 t hx ht, hfresh.2⟩
            have hf' : (t :: (s.grants (3 - i)).1)[k + 1]? = some f := by simpa using hf
            rw [← hf'] at h4
            have := (List.getElem?_inj (by simp only [List.length_cons, hlen]; omega) hnd).1 h4
            omega
          have : i + 1 + k = 3 := by omega
          rw [this] at hj
          exact slotAddr_idx_ne f hj
        · exact slotAddr_frame_ne hc _ _
    · intro b hb1 hb2
      rw [State.read_memWrite_ne _ _ ?_, h6 b hb1 hb2]
      by_contra hc
      have hw : InWord b (slotAddr t' (idxAt 3 va)) := by unfold InWord; omega
      rcases ht' with rfl | ht'
      · have : i = 3 := by
          by_contra hne
          obtain ⟨n, hn⟩ : ∃ n, 3 - i = n + 1 := ⟨2 - i, by omega⟩
          rw [hn] at h4
          have := List.mem_of_getElem? (l := (s.grants (n + 1)).1) (i := n) (by simpa using h4)
          rw [hn] at hfresh
          exact hfresh.1 t' this ht
        subst this
        exact hb1 hw
      · exact hb2 t' ht' (inWord_inFrame hw)
  · obtain ⟨s1, h1, h2, h3, h4, h5⟩ := hmk.2 hlen
    rw [h1]
    exact ⟨s1, rfl, ⟨h2, h3, hlen, h4, h5⟩⟩

/-- The three ends of `MapOne`, each with what it leaves (R112). -/
theorem mapOne_cases {s : State} {va : Word} {root t : Frame} {i : Nat} (pa flags : Word) (hs : s.mem.wf = true)
    (hp : PathEnds s.mem va root i t) (ht : t ∈ s.owned) :
    (∃ s' r, mapOne root va pa flags s = .mapped s' r ∧ PageMade s s' va (leafDesc pa flags) i t) ∨
    (mapOne root va pa flags s = .malformed s false ∧ MalformedPath s.mem root va) ∨
    (∃ s', mapOne root va pa flags s = .exhausted s' ∧ PageFailed s s' va i t) := by
  by_cases hm : MalformedPath s.mem root va
  · exact .inr (.inl ⟨mapOne_malformed pa flags hm, hm⟩)
  · obtain ⟨m1, m2⟩ := mapOne_spec pa flags hs hp ht hm
    rcases Nat.lt_or_ge (s.grants (3 - i)).1.length (3 - i) with hlt | hge
    · exact .inr (.inr (m2 hlt))
    · obtain ⟨s', h⟩ := m1 (le_antisymm (State.grants_length_le _ _) hge)
      exact .inl ⟨s', _, h⟩

end Sys2Proof.Machine
end

