-- ==== Sys2Proof/Laws/Exec.lean ====
section
/-! SUPPORT. What one operation can do, said once: the operations that work on tables, registry and results
(`DataStep`), and the answers of the others. Invariants over `exec` follow by cases on these. -/

namespace Sys2Proof.Machine

/-- `t` differs from `s` at most in results, STATUS, `rsp_valid`, memory, the writes not yet visible, the TLB, the registry,
the allocator's two fields and the console. -/
def Quiet (s t : State) : Prop :=
  t = { s with
    res := t.res, status := t.status, rspValid := t.rspValid, mem := t.mem, unseen := t.unseen, tlb := t.tlb
    registry := t.registry, alloc := t.alloc, owned := t.owned, console := t.console }

theorem Quiet.refl (s : State) : Quiet s s := rfl

theorem Quiet.trans {s t u : State} (h1 : Quiet s t) (h2 : Quiet t u) : Quiet s u := by
  unfold Quiet at *
  rw [h2, h1]

theorem TablesOnly.quiet {s t : State} (h : TablesOnly s t) : Quiet s t := by
  unfold Quiet
  unfold TablesOnly at h
  rw [h]

/-- The causes a halt records (R181). -/
def Status.Halting (c : Status) : Prop := c = .allocationExhausted ∨ c = .alignmentError ∨ c = .registerVerificationFailed

/-- What an operation on tables, registry and results can do. -/
structure DataStep (s t : State) : Prop where
  /-- It leaves the registers and flags of the sequence alone, or halts from a state that does. -/
  ends : Quiet s t ∨ ∃ u c f, Quiet s u ∧ t = u.halted c f ∧ c.Halting
  /-- It completes. -/
  rsp : t.rspValid = true
  /-- It keeps the memory canonical. -/
  wf : s.mem.wf = true → t.mem.wf = true
  /-- It appends at most one record, one that conflicts with none and fits. -/
  registry : t.registry = s.registry ∨ ∃ r, t.registry = s.registry ++ [r] ∧
    (∀ q ∈ s.registry, regionsConflict r q = false) ∧ s.registry.length < s.cfg.registryCapacity
  /-- Where mutations are refused it leaves memory alone. -/
  window : s.state.permitsMutation = false → t.mem = s.mem
  /-- From TLB_CLEAN on it leaves no write the walker may miss, if there was none. -/
  visible : (s.state.permitsMutation = false ∨ s.state = .steady) → s.unseen = [] → t.state ≠ .halted → t.unseen = []
  /-- It leaves the TLB alone or empties it. -/
  tlb : t.tlb = s.tlb ∨ t.tlb = []

/-- An operation that only writes results, the console and perhaps the TLB. -/
theorem DataStep.of_results {s u : State} (st : Status) (h : u = { s with res := u.res, console := u.console }) :
    DataStep s (u.completed st) where
  ends := .inl (by unfold Quiet; rw [h]; rfl)
  rsp := rfl
  wf hw := by rw [h]; exact hw
  registry := .inl (by rw [h]; rfl)
  window _ := by rw [h]; rfl
  visible _ hu _ := by rw [h]; exact hu
  tlb := .inl (by rw [h]; rfl)

theorem DataStep.returned (s : State) (st : Status) : DataStep s (s.completed st) := DataStep.of_results st rfl

/-- A halt after steps that only build tables. -/
theorem DataStep.of_halt {s u : State} {c : Status} {f : FailInfo} (hq : Quiet s u) (hc : c.Halting)
    (hw : s.mem.wf = true → u.mem.wf = true) (hr : u.registry = s.registry)
    (hm : s.state.permitsMutation = false → u.mem = s.mem) (ht : u.tlb = s.tlb) : DataStep s (u.halted c f) where
  ends := .inr ⟨u, c, f, hq, rfl, hc⟩
  rsp := rfl
  wf h := by simpa using hw h
  registry := .inl (by simpa using hr)
  window h := by simpa using hm h
  visible _ _ h := absurd rfl h
  tlb := .inl (by simpa using ht)

theorem DataStep.of_alignment {s t : State} (h : s.alignmentError = .next t) : DataStep s t := by
  rw [State.alignmentError_eq] at h
  split_ifs at h
  · obtain rfl : s.halted .alignmentError .alignment = t := by simpa [State.raiseHalt] using h
    exact .of_halt (.refl s) (.inr (.inl rfl)) id rfl (fun _ => rfl) rfl
  · obtain rfl : s.completed .alignmentError = t := by simpa [State.finish] using h
    exact .returned s _

/-- Reads a `return`. -/
theorem State.finish_next {st : Status} {s t : State} (h : s.finish st = .next t) : t = s.completed st := by
  simpa [State.finish, eq_comm] using h

/-- Table building, then perhaps results and a record, then the maintenance of R121 and a `return`. -/
theorem DataStep.of_maintenance {s u t : State} {wrote replaced : Bool} {st : Status} (hq : Quiet s u)
    (hp : s.state.permitsMutation = true) (hw : s.mem.wf = true → u.mem.wf = true)
    (hr : u.registry = s.registry ∨ ∃ r, u.registry = s.registry ++ [r] ∧
      (∀ q ∈ s.registry, regionsConflict r q = false) ∧ s.registry.length < s.cfg.registryCapacity)
    (hv : wrote = false → s.unseen = [] → u.unseen = []) (ht : u.tlb = s.tlb)
    (h : ((maintenance wrote replaced u).andThen fun s2 => s2.finish st) = .next t) : DataStep s t := by
  rw [maintenance_eq, Attempt.andThen_proceed] at h
  obtain rfl := State.finish_next h
  have hst : u.state = s.state := by rw [hq]
  refine ⟨.inl (hq.trans ?_), rfl, fun h => ?_, ?_, fun h => by simp [hp] at h, fun h1 h2 _ => ?_, ?_⟩
  · split_ifs <;> rfl
  · simp only [State.completed_mem]
    split_ifs <;> exact hw h
  · simp only [State.completed_registry]
    split_ifs <;> exact hr
  · have h1 : s.state = .steady := h1.resolve_left (by simp [hp])
    simp only [State.completed_unseen]
    cases wrote with
    | true => simp [hst, h1]
    | false => simpa using hv rfl h2
  · simp only [State.completed_tlb]
    split_ifs <;> simp [ht]

/-! ## The pieces of table building -/

/-- A descent that fails without having linked a table wrote nothing. -/
theorem descend_malformed_unseen {va : Word} {levels : List (Fin 4)} {t : Frame} {made : List (Nat × Frame)} {s s1 : State}
    (h : descend va levels t made s = .malformed s1 false) : made = [] ∧ s1 = s := by
  induction levels generalizing t made s with
  | nil => simp [descend] at h
  | cons l rest ih =>
    unfold descend at h
    dsimp only at h
    split_ifs at h
    · exact ih h
    · split at h
      · simp at h
      · simpa using (ih h).1
    · simp only [Descent.malformed.injEq, Bool.not_eq_false', List.isEmpty_iff] at h
      obtain ⟨h1, rfl⟩ := h
      exact ⟨rfl, h1.symm⟩

theorem mapOne_malformed_unseen {root : Frame} {va pa flags : Word} {s s1 : State}
    (h : mapOne root va pa flags s = .malformed s1 false) : s1 = s := by
  unfold mapOne at h
  cases e : descend va tableLevels root [] s with
  | reached t s2 => simp [e] at h
  | exhausted s2 => simp [e] at h
  | malformed s2 w =>
    simp only [e, MapOutcome.malformed.injEq] at h
    obtain ⟨rfl, rfl⟩ := h
    exact (descend_malformed_unseen e).2

theorem mapPages_malformed_unseen {root : Frame} {flags : Word} {n : Nat} {va pa : Word} {done d : Nat} {r rep : Bool}
    {s s1 : State} (h : mapPages root flags n va pa done r s = .malformed s1 d false rep) : s1 = s ∧ d = 0 := by
  cases n with
  | zero => simp [mapPages] at h
  | succ n =>
    unfold mapPages at h
    cases e : mapOne root va pa flags s with
    | exhausted s2 => simp [e] at h
    | malformed s2 w =>
      simp only [e, RangeOutcome.malformed.injEq, Bool.or_eq_false_iff, decide_eq_false_iff_not] at h
      obtain ⟨rfl, rfl, ⟨rfl, h0⟩, -⟩ := h
      exact ⟨mapOne_malformed_unseen e, by omega⟩
    | mapped s2 r2 =>
      simp only [e] at h
      exact absurd h (mapPages_malformed_done (by omega))
where
  /-- After a completed page a failing range has written. -/
  mapPages_malformed_done {root : Frame} {flags : Word} {n : Nat} {va pa : Word} {done d : Nat} {r rep : Bool}
      {s s1 : State} (h0 : 0 < done) : ¬ mapPages root flags n va pa done r s = .malformed s1 d false rep := by
    induction n generalizing va pa done r s with
    | zero => simp [mapPages]
    | succ n ih =>
      unfold mapPages
      cases e : mapOne root va pa flags s with
      | exhausted s2 => simp
      | malformed s2 w => simp [h0]
      | mapped s2 r2 => exact ih (by omega)

/-- Pages counted in R0 are results only. -/
theorem State.countPages_eq (n : Nat) (s : State) : s.countPages n = { s with res := (s.countPages n).res } := by
  rfl

theorem State.countPages_quiet (n : Nat) (s : State) : Quiet s (s.countPages n) := rfl

/-! ## The operations on tables, registry and results -/

theorem execPteEncLeaf_data {s t : State} (h : execPteEncLeaf s = .next t) : DataStep s t := by
  unfold execPteEncLeaf at h
  split_ifs at h
  · exact State.finish_next h ▸ .returned s _
  · exact .of_alignment h
  · exact State.finish_next h ▸ .returned s _
  · exact State.finish_next h ▸ .returned s _
  · exact State.finish_next h ▸ .of_results _ rfl

theorem execPteEncTable_data {s t : State} (h : execPteEncTable s = .next t) : DataStep s t := by
  unfold execPteEncTable at h
  split_ifs at h
  · exact State.finish_next h ▸ .returned s _
  · exact .of_alignment h
  · exact State.finish_next h ▸ .returned s _
  · exact State.finish_next h ▸ .of_results _ rfl

theorem execPteDec_data {s t : State} (h : execPteDec s = .next t) : DataStep s t := by
  unfold execPteDec at h
  split_ifs at h
  · exact State.finish_next h ▸ .returned s _
  · exact State.finish_next h ▸ .returned s _
  · exact State.finish_next h ▸ .of_results _ rfl

theorem execPteSummary_data {s t : State} (h : execPteSummary s = .next t) : DataStep s t := by
  unfold execPteSummary at h
  split_ifs at h
  · exact State.finish_next h ▸ .returned s _
  · exact State.finish_next h ▸ .returned s _
  · exact State.finish_next h ▸ .of_results _ rfl

theorem execWalk_data {s t : State} (h : execWalk s = .next t) : DataStep s t := by
  unfold execWalk at h
  split_ifs at h
  · exact State.finish_next h ▸ .returned s _
  · exact .of_alignment h
  · exact State.finish_next h ▸ .returned s _
  · refine State.finish_next h ▸ .of_results _ ?_
    unfold State.setTranslation
    split <;> rfl

theorem execBaseOf_data {s t : State} (h : execBaseOf s = .next t) : DataStep s t := by
  unfold execBaseOf at h
  split_ifs at h
  · exact State.finish_next h ▸ .returned s _
  · exact State.finish_next h ▸ .returned s _
  · split at h
    · exact State.finish_next h ▸ .returned s _
    · exact State.finish_next h ▸ .of_results _ rfl

theorem execGetKernelRoot_data {s t : State} (h : execGetKernelRoot s = .next t) : DataStep s t := by
  unfold execGetKernelRoot at h
  split_ifs at h
  · exact State.finish_next h ▸ .returned s _
  · exact State.finish_next h ▸ .returned s _
  · exact State.finish_next h ▸ .of_results _ rfl

theorem execTranslate_data {s t : State} (h : execTranslate s = .next t) : DataStep s t := by
  unfold execTranslate at h
  split_ifs at h
  · exact State.finish_next h ▸ .returned s _
  · exact State.finish_next h ▸ .returned s _
  · exact State.finish_next h ▸ .returned s _
  · split at h
    · exact State.finish_next h ▸ .of_results _ rfl
    · exact State.finish_next h ▸ .of_results _ rfl

theorem execAudit_data {s t : State} (h : execAudit s = .next t) : DataStep s t := by
  unfold execAudit at h
  split_ifs at h
  · exact State.finish_next h ▸ .returned s _
  · refine State.finish_next h ▸ .of_results _ ?_
    unfold State.setAudit
    split <;> rfl

theorem execWalkAndReport_data {s t : State} (h : execWalkAndReport s = .next t) : DataStep s t := by
  unfold execWalkAndReport at h
  split at h
  · exact State.finish_next h ▸ .returned s _
  split at h
  · exact State.finish_next h ▸ .returned s _
  split at h
  · exact State.finish_next h ▸ .returned s _
  split at h
  · exact State.finish_next h ▸ .returned s _
  refine State.finish_next h ▸ .of_results _ ?_
  unfold State.setTranslation
  split <;> rfl

theorem execIsTranslationEnabled_data {s t : State} (h : execIsTranslationEnabled s = .next t) : DataStep s t := by
  unfold execIsTranslationEnabled at h
  split_ifs at h
  · exact State.finish_next h ▸ .returned s _
  · exact State.finish_next h ▸ .of_results _ rfl

theorem execTlbiLocalAll_data {s t : State} (h : execTlbiLocalAll s = .next t) : DataStep s t := by
  unfold execTlbiLocalAll at h
  split_ifs at h
  · exact State.finish_next h ▸ .returned s _
  · rw [tlbSequence_eq, Attempt.andThen_proceed] at h
    rw [State.finish_next h]
    exact ⟨.inl rfl, rfl, id, .inl rfl, fun _ => rfl, fun _ _ _ => rfl, .inr rfl⟩

/-- The index search finds nothing: no record conflicts with the new one. -/
theorem firstConflict_none {regions : List MappingRegion} {r : MappingRegion} (h : firstConflict regions r = none) :
    ∀ q ∈ regions, regionsConflict r q = false := by
  rw [firstConflict, List.findIdx?_eq_none_iff] at h
  exact h

theorem execRegister_data {s t : State} (h : execRegister s = .next t) : DataStep s t := by
  unfold execRegister at h
  split at h
  · exact State.finish_next h ▸ .returned s _
  split at h
  · exact State.finish_next h ▸ .returned s _
  split at h
  · exact State.finish_next h ▸ .returned s _
  split at h
  · exact State.finish_next h ▸ .of_results _ rfl
  rename_i hn
  split at h
  · exact State.finish_next h ▸ .returned s _
  rename_i hc
  rw [State.finish_next h]
  exact ⟨.inl rfl, rfl, id, .inr ⟨_, rfl, firstConflict_none hn, Nat.lt_of_not_le hc⟩, fun _ => rfl,
    fun _ hu _ => hu, .inl rfl⟩

theorem execCreateTable_data {s t : State} (h : execCreateTable s = .next t) : DataStep s t := by
  unfold execCreateTable at h
  split_ifs at h with hp
  · exact State.finish_next h ▸ .returned s _
  · have hp : s.state.permitsMutation = true := by simpa using hp
    have ht := allocFrame_tablesOnly s
    have hw := @allocFrame_wf s
    have hreg : (allocFrame s).2.registry = s.registry := by rw [ht]
    have htlb : (allocFrame s).2.tlb = s.tlb := by rw [ht]
    split at h
    · rename_i s1 e
      rw [e] at ht hw hreg htlb
      obtain rfl : s1.halted .allocationExhausted .allocatorExhausted = t := by
        simpa [State.haltExhausted, State.raiseHalt] using h
      exact .of_halt ht.quiet (.inl rfl) hw hreg (fun hc => by simp [hp] at hc) htlb
    · rename_i f s1 e
      rw [e] at ht hw hreg htlb
      exact .of_maintenance (u := (s1.zeroTable f).setR0 (frameAddr f)) (ht.quiet.trans rfl) hp
        (fun hs => Memory.clear_wf (hw hs) _ _) (.inl hreg) (fun hc => by cases hc) (by rw [State.setR0_tlb]; exact htlb) h

theorem execMapPage_data {s t : State} (h : execMapPage s = .next t) : DataStep s t := by
  unfold execMapPage at h
  split_ifs at h with hp
  · exact State.finish_next h ▸ .returned s _
  · exact .of_alignment h
  · exact State.finish_next h ▸ .returned s _
  · have hp : s.state.permitsMutation = true := by simpa using hp
    have ht := mapOne_tablesOnly (frameOf s.ops.a0) s.ops.a1 s.ops.a2 s.ops.a3 s
    have hw := @mapOne_wf (frameOf s.ops.a0) s.ops.a1 s.ops.a2 s.ops.a3 s
    have hreg : (mapOne (frameOf s.ops.a0) s.ops.a1 s.ops.a2 s.ops.a3 s).state.registry = s.registry := by rw [ht]
    have htlb : (mapOne (frameOf s.ops.a0) s.ops.a1 s.ops.a2 s.ops.a3 s).state.tlb = s.tlb := by rw [ht]
    split at h <;> rename_i e <;> rw [e] at ht hw hreg htlb
    · exact .of_maintenance ht.quiet hp hw (.inl hreg) (fun hc => by simp at hc) htlb h
    · refine .of_maintenance ht.quiet hp hw (.inl hreg) (fun hc hu => ?_) htlb h
      subst hc
      rw [mapOne_malformed_unseen e]
      exact hu
    · rename_i s1
      obtain rfl : s1.halted .allocationExhausted .allocatorExhausted = t := by
        simpa [State.haltExhausted, State.raiseHalt] using h
      exact .of_halt ht.quiet (.inl rfl) hw hreg (fun hc => by simp [hp] at hc) htlb

theorem execMapRange_data {s t : State} (h : execMapRange s = .next t) : DataStep s t := by
  unfold execMapRange at h
  split_ifs at h with hp
  · exact State.finish_next h ▸ .returned s _
  · exact .of_alignment h
  · exact State.finish_next h ▸ .returned s _
  · exact State.finish_next h ▸ .returned s _
  · exact State.finish_next h ▸ .of_results _ rfl
  · exact State.finish_next h ▸ .returned s _
  · exact State.finish_next h ▸ .returned s _
  · have hp : s.state.permitsMutation = true := by simpa using hp
    generalize hm : mapPages (frameOf s.ops.a0) s.ops.a4 (pageCount s.ops.a1 s.ops.a2) s.ops.a1 s.ops.a3 0 false s = m at h
    have ht := mapPages_tablesOnly (frameOf s.ops.a0) s.ops.a4 (pageCount s.ops.a1 s.ops.a2) s.ops.a1 s.ops.a3 0 false s
    have hw := @mapPages_wf (frameOf s.ops.a0) s.ops.a4 (pageCount s.ops.a1 s.ops.a2) s.ops.a1 s.ops.a3 0 false s
    rw [hm] at ht hw
    have hreg : m.state.registry = s.registry := by rw [ht]
    have htlb : m.state.tlb = s.tlb := by rw [ht]
    have hcq : ∀ (n : Nat) (u : State), Quiet u (u.countPages n) := fun n u => by
      unfold Quiet
      rw [State.countPages_eq]
    have hcm : ∀ (n : Nat) (u : State), (u.countPages n).mem = u.mem := fun n u => by rw [State.countPages_eq]
    have hcr : ∀ (n : Nat) (u : State), (u.countPages n).registry = u.registry := fun n u => by rw [State.countPages_eq]
    cases m with
    | mapped s1 r =>
      exact .of_maintenance (ht.quiet.trans (hcq _ _)) hp (fun hs => by rw [hcm]; exact hw hs)
        (.inl (by rw [hcr]; exact hreg)) (fun hc => by simp at hc) htlb h
    | malformed s1 d w r =>
      refine .of_maintenance (ht.quiet.trans (hcq _ _)) hp (fun hs => by rw [hcm]; exact hw hs)
        (.inl (by rw [hcr]; exact hreg)) (fun hc hu => ?_) htlb h
      subst hc
      obtain ⟨rfl, rfl⟩ := mapPages_malformed_unseen hm
      exact hu
    | exhausted s1 d =>
      obtain rfl : (s1.countPages d).halted .allocationExhausted .allocatorExhausted = t := by
        simpa [State.haltExhausted, State.raiseHalt] using h
      exact .of_halt (ht.quiet.trans (hcq _ _)) (.inl rfl) (fun hs => by rw [hcm]; exact hw hs)
        (by rw [hcr]; exact hreg) (fun hc => by simp [hp] at hc) htlb

theorem execRegisterRegion_data {s t : State} (h : execRegisterRegion s = .next t) : DataStep s t := by
  unfold execRegisterRegion at h
  split at h
  · exact State.finish_next h ▸ .returned s _
  rename_i hp
  have hp : s.state.permitsMutation = true := by simpa using hp
  split at h
  · exact State.finish_next h ▸ .returned s _
  split at h
  · exact .of_alignment h
  split at h
  · exact State.finish_next h ▸ .returned s _
  rename_i sp hsp
  split at h
  · exact State.finish_next h ▸ .returned s _
  split at h
  · exact State.finish_next h ▸ .returned s _
  split at h
  · exact State.finish_next h ▸ .of_results _ rfl
  rename_i hn
  split at h
  · exact State.finish_next h ▸ .returned s _
  rename_i hc
  unfold mapRegion at h
  dsimp only at h
  split at h
  · exact State.finish_next h ▸ .returned s _
  generalize hm : mapPages (s.rootOf sp) (s.newRegion sp).flags
    (pageCount (s.newRegion sp).vstart (s.newRegion sp).vend) (s.newRegion sp).vstart
    (s.newRegion sp).pstart 0 false s = m at h
  have ht := mapPages_tablesOnly (s.rootOf sp) (s.newRegion sp).flags
    (pageCount (s.newRegion sp).vstart (s.newRegion sp).vend) (s.newRegion sp).vstart
    (s.newRegion sp).pstart 0 false s
  have hw := @mapPages_wf (s.rootOf sp) (s.newRegion sp).flags
    (pageCount (s.newRegion sp).vstart (s.newRegion sp).vend) (s.newRegion sp).vstart
    (s.newRegion sp).pstart 0 false s
  rw [hm] at ht hw
  have hreg : m.state.registry = s.registry := by rw [ht]
  have htlb : m.state.tlb = s.tlb := by rw [ht]
  cases m with
  | mapped s1 r =>
    have hreg : s1.registry = s.registry := hreg
    refine .of_maintenance (u := (s1.setR1 (BitVec.ofNat 64 (pageCount (s.newRegion sp).vstart
      (s.newRegion sp).vend))).appendRegion (s.newRegion sp)) (ht.quiet.trans rfl) hp hw (.inr ⟨s.newRegion sp, by rw [← hreg]; rfl, firstConflict_none hn, Nat.lt_of_not_le hc⟩) (fun h0 hu => ?_) htlb h
    have h0 : pageCount (s.newRegion sp).vstart (s.newRegion sp).vend = 0 := by
      simpa using h0
    rw [h0] at hm
    obtain ⟨rfl, -⟩ : s = s1 ∧ false = r := by simpa [mapPages] using hm
    exact hu
  | malformed s1 d w r =>
    refine .of_maintenance (ht.quiet.trans (State.countPages_quiet d _)) hp hw (.inl hreg) (fun h0 hu => ?_) htlb h
    subst h0
    obtain ⟨rfl, rfl⟩ := mapPages_malformed_unseen hm
    exact hu
  | exhausted s1 d =>
    obtain rfl : (s1.countPages d).halted .allocationExhausted .allocatorExhausted = t := by
      simpa [State.haltExhausted, State.raiseHalt] using h
    exact .of_halt (ht.quiet.trans (State.countPages_quiet d _)) (.inl rfl) hw hreg (fun h0 => by simp [hp] at h0) htlb

/-! ## NEW_PAIR and VEC_INSTALL -/

/-- NEW_PAIR is refused, or halts after table building, or records two roots (R115). -/
theorem execNewPair_cases {s t : State} (h : execNewPair s = .next t) :
    t = s.completed .illegalCommand ∨
    (s.state.permitsNewPair = true ∧ ∃ u, TablesOnly s u ∧ (s.mem.wf = true → u.mem.wf = true) ∧
      (t = u.halted .allocationExhausted .allocatorExhausted ∨
        ∃ p0 p1, t = (((u.setRoots p0 p1).setR0 (frameAddr p0)).setR1 (frameAddr p1)).completed .ok)) := by
  unfold execNewPair at h
  split at h
  · exact .inl (State.finish_next h)
  rename_i hg
  have hp : s.state.permitsNewPair = true := by
    simp only [Bool.or_eq_true, Bool.not_eq_true', not_or, Bool.not_eq_false] at hg
    exact hg.2
  refine .inr ⟨hp, ?_⟩
  have ht := allocFrame_tablesOnly s
  have hw := @allocFrame_wf s
  split at h <;> rename_i e <;> rw [e] at ht hw
  · exact ⟨_, ht, hw, .inl (by simpa [State.haltExhausted, State.raiseHalt, eq_comm] using h)⟩
  · rename_i p0 s1
    have ht2 := allocFrame_tablesOnly (s1.zeroTable p0)
    have hw2 := @allocFrame_wf (s1.zeroTable p0)
    split at h <;> rename_i e2 <;> rw [e2] at ht2 hw2
    · rename_i s2
      exact ⟨s2.freeFrame p0, (ht.trans (u := s1.zeroTable p0) rfl).trans (ht2.trans rfl),
        fun hs => hw2 (Memory.clear_wf (hw hs) _ _),
        .inl (by simpa [State.haltExhausted, State.raiseHalt, eq_comm] using h)⟩
    · rename_i p1 s2
      exact ⟨s2.zeroTable p1, (ht.trans (u := s1.zeroTable p0) rfl).trans (ht2.trans rfl),
        fun hs => Memory.clear_wf (hw2 (Memory.clear_wf (hw hs) _ _)) _ _, .inr ⟨p0, p1, State.finish_next h⟩⟩

/-- A copy that completes changed memory and the writes not yet visible, and kept the memory canonical. -/
theorem copyWords_frame {n src dst : Nat} {s t : State} (h : copyWords n src dst s = .ok t) :
    t = { s with mem := t.mem, unseen := t.unseen } ∧ (s.mem.wf = true → t.mem.wf = true) := by
  induction n generalizing src dst s with
  | zero =>
    obtain rfl : s = t := by simpa [copyWords] using h
    exact ⟨rfl, id⟩
  | succ n ih =>
    unfold copyWords at h
    split at h
    · cases h
    rename_i v hv
    split at h
    · cases h
    rename_i s1 hs1
    obtain ⟨h8, hlt, rfl⟩ := (State.memWriteChecked_ok_iff _ _ _ _).1 hs1
    obtain ⟨e, hw⟩ := ih h
    refine ⟨?_, fun hs => hw (State.memWrite_wf hs (by simp only [physSize] at hlt ⊢; omega) _)⟩
    rw [e]
    unfold State.memWrite
    split_ifs <;> rfl

/-- VEC_INSTALL that answers a next state was refused, or had copied before it halted, or has installed the table
(R151). -/
theorem execVecInstall_cases {s t : State} (h : execVecInstall s = .next t) :
    (∃ st, t = s.completed st) ∨
    (s.state.beforeEnable = true ∧ s.vecPhysDone = false ∧ ∃ u : State, u = { s with mem := u.mem, unseen := u.unseen } ∧
      (s.mem.wf = true → u.mem.wf = true) ∧
      ((∃ f, t = u.halted .registerVerificationFailed f) ∨
        (∃ f, t = (u.sysWrite .vbar s.cfg.vecPhys).halted .registerVerificationFailed f) ∨
        (u.unseen = [] ∧ t = ({ u with sys := { u.sys with vbar := s.cfg.vecPhys }, vecPhysDone := true }.log
          (vbarMarker s.cfg.vecPhys)).completed .ok))) := by
  unfold execVecInstall at h
  split at h
  · exact .inl ⟨_, State.finish_next h⟩
  rename_i hg
  simp only [Bool.or_eq_true, Bool.not_eq_true', not_or, Bool.not_eq_false, Bool.not_eq_true] at hg
  iterate 3
    split at h
    · exact .inl ⟨_, State.finish_next h⟩
  refine .inr ⟨hg.1, hg.2, ?_⟩
  unfold copyVectors at h
  split at h
  · simp at h
  rename_i s1 hc
  obtain ⟨he, hw⟩ := copyWords_frame hc
  split at h
  · simp at h
  · refine ⟨s1, he, hw, .inl ⟨.vectorCopyMismatch, ?_⟩⟩
    simpa [State.gateFailed, State.raiseHalt, eq_comm] using h
  · refine ⟨{ s1 with unseen := [] }, congrArg (fun x : State => { x with unseen := [] }) he, hw, ?_⟩
    simp only [barrier_nonShareable, Attempt.bind_proceed, ctxSync_eq, writeVerify_eq] at h
    split at h
    · exact .inr (.inr ⟨rfl, State.finish_next h⟩)
    · exact .inr (.inl ⟨.vbarPhysReadback, by simpa [State.raiseHalt, eq_comm] using h⟩)

end Sys2Proof.Machine
end

