-- ==== Sys2Proof/Laws/Mmu.lean ====
section
/-! SUPPORT. The parameters' masks, the MMU's answers by half (R62), and what the transition invariant depends on. -/

namespace Sys2Proof.Machine

/-- A word with one bit set is a power of two (R8). -/
theorem oneBit_pow {v : Word} (h : oneBit v = true) : ∃ i, i < 64 ∧ v = BitVec.twoPow 64 i := by
  simp only [oneBit, Bool.and_eq_true, bne_iff_ne, beq_iff_eq] at h
  obtain ⟨h0, h1⟩ := h
  have hn : v.toNat ≠ 0 := fun e => h0 (BitVec.eq_of_toNat_eq (by simpa using e))
  have h2 : v.toNat &&& (v.toNat - 1) = 0 := by
    have := congrArg BitVec.toNat h1
    rw [BitVec.toNat_and] at this
    have hs : (v - 1#64).toNat = v.toNat - 1 := by
      have := v.isLt
      rw [BitVec.toNat_sub]; simp; omega
    rw [hs] at this; simpa using this
  have := (Nat.and_sub_one_eq_zero_iff_isPowerOfTwo hn).1 h2
  obtain ⟨k, hk⟩ := this
  have hlt := v.isLt
  have hk64 : k < 64 := by
    by_contra hc
    have : 2 ^ 64 ≤ 2 ^ k := Nat.pow_le_pow_right (by decide) (by omega)
    omega
  refine ⟨k, hk64, BitVec.eq_of_toNat_eq ?_⟩
  rw [hk, BitVec.toNat_twoPow, Nat.mod_eq_of_lt (by rw [← hk]; exact hlt)]

/-- Two different one-bit masks share no bit. -/
theorem oneBit_disjoint {a b : Word} (ha : oneBit a = true) (hb : oneBit b = true) (h : a ≠ b) : a &&& b = 0#64 := by
  obtain ⟨i, hi, rfl⟩ := oneBit_pow ha
  obtain ⟨j, hj, rfl⟩ := oneBit_pow hb
  have hij : i ≠ j := fun e => h (e ▸ rfl)
  apply BitVec.eq_of_getLsbD_eq
  intro k hk
  simp [BitVec.getLsbD_twoPow]
  intros; omega

/-- `TCR_DUAL_VALUE` leaves both halves on (R8). -/
theorem wf_epd {p : Params} (h : p.wellFormed = true) : epd0 p p.tcrDualValue = false ∧ epd1 p p.tcrDualValue =
    false := by
  simp only [Params.wellFormed, Params.tcrDualOk, Bool.and_eq_true, beq_iff_eq] at h
  simp only [epd0, epd1]
  have h7 := h.1.1.2
  simp [h7.1.1.1.1.1, h7.1.1.1.1.2]

/-- `TCR_KONLY_VALUE` turns the low half off and keeps the high half on (R8). -/
theorem wf_konly {p : Params} (h : p.wellFormed = true) : epd0 p p.tcrKonlyValue = true ∧ epd1 p p.tcrKonlyValue =
    false := by
  have hd := wf_epd h
  simp only [Params.wellFormed, Params.masksOk, Params.tcrKonlyOk, Bool.and_eq_true, bne_iff_ne, beq_iff_eq] at h
  obtain ⟨⟨⟨⟨-, hm⟩, -⟩, hk⟩, -⟩ := h
  obtain ⟨⟨⟨-, hb0⟩, hb1⟩, hne⟩ := hm
  simp only [epd0, epd1, bne_eq_false_iff_eq] at hd
  simp only [epd0, epd1, hk]
  constructor
  · rw [bne_iff_ne]
    have : (p.tcrDualValue ||| p.epd0Mask) &&& p.epd0Mask = p.epd0Mask := by
      apply BitVec.eq_of_getLsbD_eq; intro i hi
      rw [BitVec.getLsbD_and, BitVec.getLsbD_or]; cases p.epd0Mask.getLsbD i <;> simp
    rw [this]
    simp only [oneBit, Bool.and_eq_true, bne_iff_ne] at hb0
    exact hb0.1
  · rw [bne_eq_false_iff_eq]
    have : (p.tcrDualValue ||| p.epd0Mask) &&& p.epd1Mask = (p.tcrDualValue &&& p.epd1Mask) ||| (p.epd0Mask &&&
        p.epd1Mask) := by
      apply BitVec.eq_of_getLsbD_eq; intro i hi
      simp [Bool.and_or_distrib_right]
    rw [this, hd.2, oneBit_disjoint hb0 hb1 hne]; rfl

/-- After the bit of `M_MASK` is set translation is on (R145). -/
theorem or_mMask_ne {s : State} (h : s.cfg.wellFormed = true) : ((s.sys.sctlr ||| s.cfg.mMask) &&& s.cfg.mMask !=
    0#64) = true := by
  simp only [Params.wellFormed, Params.masksOk, oneBit, Bool.and_eq_true, bne_iff_ne] at h
  have h6 := h.1.1.1.2.1.1.1.1
  rw [bne_iff_ne]
  intro he
  apply h6
  ext j hj
  have := congrArg (fun x : Word => x[j]) he
  simp at this
  by_contra hc
  simp_all

/-- A root register as a 64-bit value (R33). -/
theorem rootWord_setWidth (r : PhysAddr) : rootWord r = r.setWidth 64 := by
  apply BitVec.eq_of_toNat_eq
  rw [rootWord_toNat, BitVec.toNat_setWidth]; have := r.isLt; omega

/-- The address bits of a descriptor (R83). -/
theorem frameAddr_frameOf_eq_and (d : Word) : frameAddr (frameOf d) = d &&& 0x0000FFFFFFFFF000#64 := by
  apply BitVec.eq_of_getLsbD_eq
  intro i hi
  have hm : ∀ i : Fin 64, (0x0000FFFFFFFFF000#64).getLsbD i = (decide (12 ≤ i.val) && decide (i.val < 48)) := by
      decide
  rw [BitVec.getLsbD_and, hm ⟨i, hi⟩]
  simp only [frameAddr, BitVec.getLsbD_append, frameOf_getLsbD]
  by_cases h : i < 12
  · simp [h]
  · by_cases h2 : i < 48
    · simp [h, h2, show i - 12 < 36 by omega, show 12 + (i - 12) = i by omega, show 12 ≤ i by omega]
    · simp [h, h2, show ¬ i - 12 < 36 by omega]

/-- With the low half on, the MMU walks from the identity root (R62). -/
theorem hwTranslate_low {s : State} (hx : s.xlatOn = true) (he : epd0 s.cfg s.sys.tcr = false) {v : Word} (hv :
    isLow v = true)
   (ht : s.sys.ttbr0 = rootWord s.identityRoot) : hwTranslate s v = (walk s.mem (rootFrame s.identityRoot) v).map
       Translation.toHw := by
  simp [hwTranslate, hwTranslateWith, hx, hv, he, ht, baddr, frameOf_rootWord, walk]

/-- With the high half on, the MMU walks from the kernel root (R62). -/
theorem hwTranslate_high {s : State} (hx : s.xlatOn = true) (he : epd1 s.cfg s.sys.tcr = false) {v : Word} (hv :
    isHigh v = true)
   (ht : s.sys.ttbr1 = rootWord s.kernelRoot) : hwTranslate s v = (walk s.mem (rootFrame s.kernelRoot) v).map
       Translation.toHw := by
  simp [hwTranslate, hwTranslateWith, hx, not_isLow_of_isHigh hv, hv, he, ht, baddr, frameOf_rootWord, walk]

/-- The flags a walk finds depend on the page alone (R58, R87). -/
theorem walk_flags_of_page {m : Memory} {r : Frame} {v p : Word} (h : ∀ l : Fin 4, idx l v = idx l p) :
   (walk m r v).map Translation.flags = (walk m r p).map Translation.flags := by
  have ht : ∀ ls t, walkTables (fun _ a => m.read64 a) v ls t = walkTables (fun _ a => m.read64 a) p ls t := by
    intro ls
    induction ls with
    | nil => intro t; rfl
    | cons l ls ih => intro t; simp only [walkTables, h l, ih]
  simp only [walk, walkWith, ht, h 3]
  cases walkTables (fun _ a => m.read64 a) p tableLevels r with
  | none => rfl
  | some t =>
    simp only [leafTranslation]
    split_ifs <;> simp

/-- `DualMapped()` depends on memory, the roots and the parameters (R155). -/
theorem dualMapped_congr {s t : State} (hc : t.cfg = s.cfg) (hr : t.rootsValid = s.rootsValid) (hi : t.identityRoot
    = s.identityRoot) (hk : t.kernelRoot = s.kernelRoot) (hm : t.mem = s.mem) : dualMapped t = dualMapped s := by
  unfold dualMapped
  have : pageDualMapped t = pageDualMapped s := by
    funext p
    simp [pageDualMapped, State.rootOf, hc, hi, hk, hm]
  rw [this, hr, hc]

/-- The kernel-space check depends on memory, the kernel root and `pc` (R147). -/
theorem pcInKernelSpace_congr {s t : State} (hp : t.pc = s.pc) (hk : t.kernelRoot = s.kernelRoot) (hm : t.mem =
    s.mem) : pcInKernelSpace t = pcInKernelSpace s := by
  simp [pcInKernelSpace, State.rootOf, hp, hk, hm]

theorem State.between_congr {s t : State} (h : t.state = s.state) {a b : Nat} : t.between a b ↔ s.between a b := by
  unfold State.between; rw [h]

/-- Entries that the tables gave they still give while tables and base registers stay; emptying the TLB keeps it so. -/
theorem TlbCurrent.congr {s t : State} (h : TlbCurrent s) (hm : t.mem = s.mem) (h0 : t.sys.ttbr0 = s.sys.ttbr0)
    (h1 : t.sys.ttbr1 = s.sys.ttbr1) (ht : t.tlb = s.tlb ∨ t.tlb = []) : TlbCurrent t := by
  unfold TlbCurrent
  rcases ht with ht | ht
  · rw [ht, hm, h0, h1]; exact h
  · rw [ht]; simp

/-- In the window of R121 mutations are refused. -/
theorem State.between_window {s : State} (h : s.between 4 7) : s.state.permitsMutation = false := by
  obtain ⟨x, y, z⟩ := h
  cases hs : s.state <;> simp_all [TransState.permitsMutation, TransState.rank, TransState.code]

theorem State.between_mono {s : State} {a b c d : Nat} (h : s.between a b) (h1 : c ≤ a) (h2 : b ≤ d) : s.between c d :=
  ⟨h.1, h1.trans h.2.1, h.2.2.trans h2⟩

/-- The transition invariant depends on these fields alone, and on memory only in the window. -/
theorem TransitionSafe.congr {s t : State} (h : TransitionSafe s) (hst : t.state = s.state) (hc : t.cfg = s.cfg)
    (hs : t.sys = s.sys)
   (h1 : t.tcrProgrammed = s.tcrProgrammed) (h2 : t.vecPhysDone = s.vecPhysDone) (h3 : t.vecVirtDone = s.vecVirtDone)
   (h4 : t.rootsValid = s.rootsValid) (h5 : t.identityRoot = s.identityRoot) (h6 : t.kernelRoot = s.kernelRoot)
   (h7 : t.pc = s.pc) (h8 : t.failCause = s.failCause) (h9 : t.failInfo = s.failInfo)
   (hm : s.state.permitsMutation = false → t.mem = s.mem) (htl : t.tlb = s.tlb ∨ t.tlb = [])
   (hu : s.state.permitsMutation = false → s.state ≠ .halted → s.unseen = [] → t.unseen = []) : TransitionSafe t := by
  have hb := fun a b => @State.between_congr s t hst a b
  have hx : t.xlatOn = s.xlatOn := by unfold State.xlatOn; rw [hs, hc]
  have ht : pcInTrampoline t = pcInTrampoline s := by unfold pcInTrampoline; rw [h7, hc]
  have b := h.bringUp
  constructor
  · rw [hc]; exact h.params
  · constructor <;> (try simp only [hb, hs, hc, h1, h2, h3, h4, h5, h6, h7, h8, h9, hx, ht, hst])
    exacts [b.mair, b.tcrDual, b.tcrKonly, b.tcrFlag, b.bases, b.xlatOff, b.xlatOn, b.vecInstalled, b.vecRelocated,
        b.vecNotYet, b.vbarPhys, b.vbarVirt, b.pcLow, b.pcTramp, b.pcHigh, b.noFailure, b.failure]
  · intro hh
    rw [hst] at hh
    rw [dualMapped_congr hc h4 h5 h6 (hm (by rw [hh]; rfl))]; exact h.dual hh
  · intro hh
    rw [hb] at hh
    rw [pcInKernelSpace_congr h7 h6 (hm (State.between_window (State.between_mono hh (by omega) (by omega))))]
    exact h.kernelPc hh
  · intro hh
    rw [hst] at hh
    have := h.tlbEmpty hh
    rcases htl with htl | htl
    · rw [htl, this]
    · exact htl
  · intro hh
    rw [hb] at hh
    have hw := State.between_window hh
    exact ⟨hu hw hh.1 (h.tlb hh).1, (h.tlb hh).2.congr (hm hw) (by rw [hs]) (by rw [hs]) htl⟩

/-- A halt keeps the transition invariant. -/
theorem TransitionSafe.halted {u : State} {c f} (hp : u.cfg.wellFormed = true) (hc : c = .allocationExhausted ∨ c =
    .alignmentError ∨ c = .registerVerificationFailed) : TransitionSafe (u.halted c f) := by
  have nb : ∀ a b, ¬ (u.halted c f).between a b := fun a b h => h.1 rfl
  constructor
  · exact hp
  · constructor
    all_goals first | (intro h; exact absurd h (nb _ _)) | skip
    · intro h; exact absurd rfl h
    · intro _; rcases hc with rfl | rfl | rfl <;> simp [Status.code]
  · intro h; simp at h
  · intro h; exact absurd h (nb _ _)
  · intro h; simp at h
  · intro h; exact absurd h (nb _ _)

end Sys2Proof.Machine
end

