-- ==== Sys2Proof/Laws/Lookup.lean ====
section
/-! SUPPORT. What the core's own lookups can answer (R62, R210), what that means for its fetches and accesses (R63, R184),
and what a walker fill can add to the TLB (R38). -/

namespace Sys2Proof.Machine

/-! ## Permissions and answers -/

/-- The permission test, as arithmetic on the AP field and the execute-never bits (R60). -/
theorem allowed_iff {f : Word} {p : Privilege} {k : AccessKind} : allowed f p k = true ↔ AccessAllowed f p k := by
  have h : (f.extractLsb' 6 2).toNat = f.toNat / 64 % 4 := by simp [Nat.shiftRight_eq_div_pow]
  have e0 : f.extractLsb' 6 2 = 0b00#2 ↔ f.toNat / 64 % 4 = 0 := by rw [← h, ← BitVec.toNat_inj]; rfl
  have e1 : f.extractLsb' 6 2 = 0b01#2 ↔ f.toNat / 64 % 4 = 1 := by rw [← h, ← BitVec.toNat_inj]; rfl
  have e3 : f.extractLsb' 6 2 = 0b11#2 ↔ f.toNat / 64 % 4 = 3 := by rw [← h, ← BitVec.toNat_inj]; rfl
  cases p <;> cases k <;> simp [allowed, apAllows, AccessAllowed, e0, e1, e3]

/-- With translation on, every answer of a lookup carries flags. -/
theorem coreTranslate_flags {s : State} {pick : Nat} {va : Word} (hx : s.xlatOn = true) :
    (coreTranslate pick s va).all (fun w => w.flags.isSome) = true := by
  have h0 : (hwTranslate s va).all (fun w => w.flags.isSome) = true := by
    simp only [hwTranslate, hwTranslateWith, hx, Bool.not_true, Bool.false_eq_true, if_false]
    split_ifs <;> simp [Translation.toHw, Option.all_map]
  simp only [coreTranslate, hx, Bool.not_true, Bool.false_eq_true, if_false]
  split
  · exact h0
  · split
    · rfl
    · exact h0

theorem executable_coreTranslate_iff {s : State} {pick : Nat} {va : Word} (hx : s.xlatOn = true) :
    executable (coreTranslate pick s va) = true ↔
      ∃ pa f, coreTranslate pick s va = some { pa := pa, flags := some f } ∧ f.getLsbD 53 = false := by
  have h := coreTranslate_flags (pick := pick) (va := va) hx
  generalize coreTranslate pick s va = w at h ⊢
  rcases w with _ | ⟨pa, _ | f⟩
  · simp [executable]
  · simp at h
  · simp [executable, execPriv]

theorem flagsAllow_coreTranslate_iff {s : State} {pick : Nat} {va : Word} {p : Privilege} {k : AccessKind}
    (hx : s.xlatOn = true) : flagsAllow (coreTranslate pick s va) p k = true ↔
      ∃ pa f, coreTranslate pick s va = some { pa := pa, flags := some f } ∧ AccessAllowed f p k := by
  have h := coreTranslate_flags (pick := pick) (va := va) hx
  generalize coreTranslate pick s va = w at h ⊢
  rcases w with _ | ⟨pa, _ | f⟩
  · simp [flagsAllow]
  · simp at h
  · simp only [flagsAllow, Option.some.injEq, HwTranslation.mk.injEq]
    constructor
    · intro h; exact ⟨pa, f, ⟨rfl, rfl⟩, allowed_iff.1 h⟩
    · rintro ⟨_, _, ⟨rfl, rfl⟩, h⟩; exact allowed_iff.2 h

/-! ## The core's fetches of a step -/

theorem fetchesOk_iff (s : State) (picks : List Nat) (l : List Word) : fetchesOk s picks l = true ↔
    ∀ k a, l[k]? = some a → executable (coreTranslate (picks.getD k 0) s a) = true := by
  induction l generalizing picks with
  | nil => simp [fetchesOk]
  | cons a l ih =>
    rw [fetchesOk, Bool.and_eq_true, ih]
    constructor
    · rintro ⟨h1, h2⟩ k b hb
      cases k with
      | zero => cases hb; cases picks <;> simpa using h1
      | succ k => have := h2 k b (by simpa using hb); cases picks <;> simpa using this
    · intro h
      refine ⟨?_, fun k b hb => ?_⟩
      · have := h 0 a rfl; cases picks <;> simpa using this
      · have := h (k + 1) b (by simpa using hb); cases picks <;> simpa using this

/-- Page `k` of the trampoline (R155). -/
theorem trampPages_getElem? (p : Params) (k : Nat) (a : Word) : (trampPages p)[k]? = some a ↔
    p.trampStart.toNat + 4096 * k < p.trampEnd.toNat ∧ a = p.trampStart + BitVec.ofNat 64 (4096 * k) := by
  simp only [trampPages, List.getElem?_map, pageSize]
  have : k < (p.trampEnd.toNat - p.trampStart.toNat + 4095) / 4096 ↔
      p.trampStart.toNat + 4096 * k < p.trampEnd.toNat := by omega
  rw [← this]
  by_cases hk : k < (p.trampEnd.toNat - p.trampStart.toNat + 4095) / 4096
  · simp [hk, eq_comm]
  · have : (List.range ((p.trampEnd.toNat - p.trampStart.toNat + 4095) / 4096))[k]? = none := by
      simp; omega
    simp [hk]

/-- When the run's fetches do not fault (R184). -/
theorem fetchFaults_eq_false_iff {s : State} (hx : s.xlatOn = true) (hh : s.state ≠ .halted) : fetchFaults s = false ↔
    executable (coreTranslate ((s.lookups.headD []).headD 0) s s.pc) = true ∧
    (s.state = .translationOn → ∀ k, s.cfg.trampStart.toNat + 4096 * k < s.cfg.trampEnd.toNat →
      executable (coreTranslate ((s.lookups.headD []).tail.getD k 0) s
        (s.cfg.trampStart + BitVec.ofNat 64 (4096 * k))) = true) := by
  have e : fetchFaults s = false ↔ fetchesOk s (s.lookups.headD []) (fetchAddrs s) = true := by
    simp [fetchFaults, hx, hh]
  rw [e, fetchAddrs]
  split_ifs with ht
  · rw [fetchesOk, Bool.and_eq_true, fetchesOk_iff]
    simp only [ht, true_imp_iff]
    refine and_congr Iff.rfl
      ⟨fun h k hk => h k _ ((trampPages_getElem? _ _ _).2 ⟨hk, rfl⟩), fun h k a ha => ?_⟩
    obtain ⟨h1, rfl⟩ := (trampPages_getElem? _ _ _).1 ha
    exact h k h1
  · simp [fetchesOk, ht]

/-! ## A TLB that holds what the tables give -/

/-- The address of the page of `v`. -/
theorem page_toNat (v : Word) : (v &&& ~~~(0xFFF#64)).toNat = 4096 * (v.toNat / 4096) := by
  have h : v &&& ~~~(0xFFF#64) = (v.extractLsb' 12 52 ++ 0#12) := by
    apply BitVec.eq_of_getLsbD_eq
    intro i hi
    have hm : ∀ i : Fin 64, (~~~(0xFFF#64)).getLsbD i = decide (12 ≤ i.val) := by decide
    rw [BitVec.getLsbD_and, hm ⟨i, hi⟩, BitVec.getLsbD_append]
    by_cases h : i < 12
    · simp [h, show ¬ 12 ≤ i by omega]
    · simp only [h, show 12 ≤ i by omega, decide_true, Bool.and_true, if_false, BitVec.getLsbD_extractLsb',
        show 12 + (i - 12) = i by omega, show i - 12 < 52 by omega, Bool.true_and]
  have := v.isLt
  rw [h, BitVec.toNat_append]
  simp [Nat.shiftLeft_eq, Nat.shiftRight_eq_div_pow]; omega

/-- The page of `v` has the table indices of `v` (R58). -/
theorem idx_page (v : Word) (l : Fin 4) : idx l (v &&& ~~~(0xFFF#64)) = idx l v := by
  apply BitVec.eq_of_toNat_eq
  simp only [idx, BitVec.extractLsb'_toNat, page_toNat, Nat.shiftRight_eq_div_pow]
  have : l = 0 ∨ l = 1 ∨ l = 2 ∨ l = 3 := by omega
  rcases this with rfl | rfl | rfl | rfl <;> simp <;> omega

/-- Where the walk from the base of its half finds an executable page, and the TLB holds what the tables give, every answer
of a lookup is executable, whatever the TLB stands in for (R210). -/
theorem TlbCurrent.executable {s : State} {v : Word} {r : Frame} {w : Translation} (hc : TlbCurrent s)
    (hx : s.xlatOn = true) (hw : walk s.mem r v = some w) (hf : w.flags.getLsbD 53 = false)
    (hh : hwTranslate s v = (walk s.mem r v).map Translation.toHw)
    (hr : (isLow v = true ∧ r = baddr s.sys.ttbr0) ∨ (isHigh v = true ∧ r = baddr s.sys.ttbr1)) (pick : Nat) :
    executable (coreTranslate pick s v) = true := by
  have h0 : Machine.executable (hwTranslate s v) = true := by
    rw [hh, hw]; simpa [Machine.executable, Translation.toHw, execPriv] using hf
  simp only [coreTranslate, hx, Bool.not_true, Bool.false_eq_true, if_false]
  split
  · exact h0
  split
  · rename_i e he
    have hm := List.mem_of_getElem? he
    simp only [tlbHits, List.mem_filter, beq_iff_eq] at hm
    obtain ⟨hm, hp⟩ := hm
    have hfl : ∀ r', walk s.mem r' e.vaPage = some { pa := e.paPage, flags := e.flags } → r' = r →
        e.flags = w.flags := by
      rintro r' h1 rfl
      have := @walk_flags_of_page s.mem r' v e.vaPage (fun l => by rw [hp, idx_page])
      rw [hw, h1] at this
      simpa [eq_comm] using this
    have hhigh : isHigh e.vaPage = true → isHigh v = true := by
      rw [hp, isHigh_iff, isHigh_iff, page_toNat]; omega
    have hlow : isLow e.vaPage = true → isLow v = true := by
      rw [hp, isLow_iff, isLow_iff, page_toNat]; omega
    have : e.flags = w.flags := by
      rcases hc e hm with ⟨h1, h2⟩ | ⟨h1, h2⟩ <;> rcases hr with ⟨h3, h4⟩ | ⟨h3, h4⟩
      · exact hfl _ h2 h4.symm
      · have := not_isLow_of_isHigh h3
        simp [hlow h1] at this
      · have := not_isLow_of_isHigh (hhigh h1)
        simp [h3] at this
      · exact hfl _ h2 h4.symm
    simpa [Machine.executable, TlbEntry.toHw, execPriv, this] using hf
  · exact h0

/-! ## Walker fills (R38) -/

/-- A fill changes the TLB alone. -/
theorem walkerFill_eq (va : Word) (picks : List Nat) (s : State) :
    walkerFill va picks s = { s with tlb := (walkerFill va picks s).tlb } := by
  unfold walkerFill
  dsimp only
  split <;> rfl

/-- With every write visible, a fill adds at most the entry `HwTranslate` gives for the page. -/
theorem walkerFill_mem {va : Word} {picks : List Nat} {s : State} (hu : s.unseen = []) {e : TlbEntry}
    (he : e ∈ (walkerFill va picks s).tlb) : e ∈ s.tlb ∨
      (e.vaPage = va &&& ~~~(0xFFF#64) ∧ hwTranslate s e.vaPage = some { pa := e.paPage, flags := some e.flags }) := by
  have hrd : ∀ a p, s.walkerRead a p = s.mem.read64 a := by intro a p; simp [State.walkerRead, hu]
  have hh : ∀ v, hwTranslateWith (fun level a => s.walkerRead a (picks.getD level.val 0)) s v = hwTranslate s v := by
    intro v; simp only [hrd]; rfl
  unfold walkerFill at he
  simp only [hh] at he
  split at he
  · rename_i hw
    simp only [tlbInsert] at he
    split_ifs at he
    · exact .inl he
    · rcases List.mem_append.1 he with he | he
      · exact .inl he
      · obtain rfl := List.mem_singleton.1 he
        exact .inr ⟨rfl, hw⟩
  · exact .inl he
  · exact .inl he

/-- An entry of `HwTranslate`'s, with translation on, is what the walk from the base of its half gives. -/
theorem hwTranslate_walk {s : State} {v pa f : Word} (hw : hwTranslate s v = some { pa := pa, flags := some f }) :
    (isLow v = true ∧ walk s.mem (baddr s.sys.ttbr0) v = some { pa := pa, flags := f }) ∨
    (isHigh v = true ∧ walk s.mem (baddr s.sys.ttbr1) v = some { pa := pa, flags := f }) := by
  have key : ∀ o : Option Translation, o.map Translation.toHw = some { pa := pa, flags := some f } →
      o = some { pa := pa, flags := f } := by
    rintro (_ | ⟨a, b⟩) h
    · cases h
    · simpa [Translation.toHw] using h
  unfold hwTranslate hwTranslateWith at hw
  split_ifs at hw with h0 h1 h2 h3 h4
  · simp at hw
  · exact .inl ⟨h1, key _ hw⟩
  · exact .inr ⟨h3, key _ hw⟩

/-- A fill keeps the transition invariant: before the enable it adds nothing, after it what the tables give. -/
theorem TransitionSafe.walkerFill {s : State} (h : TransitionSafe s) (va : Word) (picks : List Nat) :
    TransitionSafe (walkerFill va picks s) := by
  have b := h.bringUp
  have empty : s.state = .tlbClean → (Machine.walkerFill va picks s).tlb = [] := by
    intro h0
    have hx : s.xlatOn = false := b.xlatOff ⟨by simp [h0], by simp [h0, TransState.rank, TransState.code],
      by simp [h0, TransState.rank, TransState.code]⟩
    unfold Machine.walkerFill hwTranslateWith
    simp [hx, h.tlbEmpty h0]
  have fill : s.between 4 7 → TlbCurrent (Machine.walkerFill va picks s) := by
    intro hb e he
    rw [walkerFill_eq]
    rcases walkerFill_mem (h.tlb hb).1 he with he | ⟨-, hw⟩
    · exact (h.tlb hb).2 e he
    · exact hwTranslate_walk hw
  rw [walkerFill_eq] at empty fill ⊢
  exact ⟨h.params, ⟨b.mair, b.tcrDual, b.tcrKonly, b.tcrFlag, b.bases, b.xlatOff, b.xlatOn, b.vecInstalled, b.vecRelocated,
    b.vecNotYet, b.vbarPhys, b.vbarVirt, b.pcLow, b.pcTramp, b.pcHigh, b.noFailure, b.failure⟩, h.dual, h.kernelPc, empty,
    fun hb => ⟨(h.tlb hb).1, fill hb⟩⟩

end Sys2Proof.Machine
end

