-- ==== Sys2Proof/Laws/PerInstr.lean ====
section
/-! SUPPORT. One law of every operation as syntax: it is well formed, its bytes are its one opcode byte, and the decoder
reads it back and leaves what follows (R88, R90, R98). -/

namespace Sys2Proof.Laws.OneByteEncoding

/-- Well formed, one byte long, and decoded from that byte whatever follows. -/
def Statement (i : Instr) : Prop :=
  i.wellFormed = true ∧ (encode i).length = 1 ∧ ∀ rest : List Byte, decode (encode i ++ rest) = .ok (i, rest)

theorem pteEncLeaf : Statement .pteEncLeaf := ⟨rfl, rfl, fun _ => rfl⟩
theorem pteEncTable : Statement .pteEncTable := ⟨rfl, rfl, fun _ => rfl⟩
theorem pteDec : Statement .pteDec := ⟨rfl, rfl, fun _ => rfl⟩
theorem pteSummary : Statement .pteSummary := ⟨rfl, rfl, fun _ => rfl⟩
theorem createTable : Statement .createTable := ⟨rfl, rfl, fun _ => rfl⟩
theorem mapPage : Statement .mapPage := ⟨rfl, rfl, fun _ => rfl⟩
theorem mapRange : Statement .mapRange := ⟨rfl, rfl, fun _ => rfl⟩
theorem walk : Statement .walk := ⟨rfl, rfl, fun _ => rfl⟩
theorem newPair : Statement .newPair := ⟨rfl, rfl, fun _ => rfl⟩
theorem baseOf : Statement .baseOf := ⟨rfl, rfl, fun _ => rfl⟩
theorem getKernelRoot : Statement .getKernelRoot := ⟨rfl, rfl, fun _ => rfl⟩
theorem translate : Statement .translate := ⟨rfl, rfl, fun _ => rfl⟩
theorem register : Statement .register := ⟨rfl, rfl, fun _ => rfl⟩
theorem audit : Statement .audit := ⟨rfl, rfl, fun _ => rfl⟩
theorem walkAndReport : Statement .walkAndReport := ⟨rfl, rfl, fun _ => rfl⟩
theorem registerRegion : Statement .registerRegion := ⟨rfl, rfl, fun _ => rfl⟩
theorem fsmMair : Statement .fsmMair := ⟨rfl, rfl, fun _ => rfl⟩
theorem fsmTcrDual : Statement .fsmTcrDual := ⟨rfl, rfl, fun _ => rfl⟩
theorem fsmBases : Statement .fsmBases := ⟨rfl, rfl, fun _ => rfl⟩
theorem fsmTlbClean : Statement .fsmTlbClean := ⟨rfl, rfl, fun _ => rfl⟩
theorem fsmEnable : Statement .fsmEnable := ⟨rfl, rfl, fun _ => rfl⟩
theorem fsmMigrate : Statement .fsmMigrate := ⟨rfl, rfl, fun _ => rfl⟩
theorem fsmTcrKernel : Statement .fsmTcrKernel := ⟨rfl, rfl, fun _ => rfl⟩
theorem fsmFinish : Statement .fsmFinish := ⟨rfl, rfl, fun _ => rfl⟩
theorem vecInstall : Statement .vecInstall := ⟨rfl, rfl, fun _ => rfl⟩
theorem vecRelocate : Statement .vecRelocate := ⟨rfl, rfl, fun _ => rfl⟩
theorem isTranslationEnabled : Statement .isTranslationEnabled := ⟨rfl, rfl, fun _ => rfl⟩
theorem setPc : Statement .setPc := ⟨rfl, rfl, fun _ => rfl⟩
theorem tlbiLocalAll : Statement .tlbiLocalAll := ⟨rfl, rfl, fun _ => rfl⟩

end Sys2Proof.Laws.OneByteEncoding
end

