-- ==== Sys2Proof/Laws/Range.lean ====
section
/-! SUPPORT. What `MapOne` leaves of every path under a tree of tables, and what the second pass over a range leaves page by
page (R37, R112, R113, R122 d). -/

namespace Sys2Proof.Machine

/-! ## Trees of tables (R37) -/

theorem TableTree.mem_owned {s : State} {root f : Frame} (h : TableTree s root) {v : Word} {j : Nat} (hj : j ≤ 3)
    (hf : tableAt s.mem v root j = some f) : f ∈ s.owned := h.owned v f (mem_existingPath hj hf)

theorem TableTree.agree {s : State} {root f : Frame} (h : TableTree s root) {v v' : Word} {i j : Nat} (hi : i ≤ 3)
    (hj : j ≤ 3) (hf : tableAt s.mem v root i = some f) (hf' : tableAt s.mem v' root j = some f) :
    i = j ∧ AgreeTo i v v' := by
  have h1 : (existingPath s.mem v tableLevels root)[i]? = some f := by rw [existingPath_getElem?, if_pos hi, hf]
  have h2 : (existingPath s.mem v' tableLevels root)[j]? = some f := by rw [existingPath_getElem?, if_pos hj, hf']
  obtain ⟨rfl, he⟩ := h.tree v v' i j f h1 h2
  exact ⟨rfl, (agreeTo_iff (by omega)).2 he⟩

/-- A tree, said depth by depth. -/
theorem TableTree.of_tableAt {s : State} {root : Frame}
    (ho : ∀ v j f, j ≤ 3 → tableAt s.mem v root j = some f → f ∈ s.owned)
    (ht : ∀ v v' i j f, i ≤ 3 → j ≤ 3 → tableAt s.mem v root i = some f → tableAt s.mem v' root j = some f →
      i = j ∧ AgreeTo i v v') : TableTree s root where
  owned v f hf := by
    obtain ⟨j, hj⟩ := List.mem_iff_getElem?.1 hf
    rw [existingPath_getElem?] at hj
    split_ifs at hj with h3
    exact ho v j f h3 hj
  tree v v' i j f hi hj := by
    rw [existingPath_getElem?] at hi hj
    split_ifs at hi hj with h1 h2
    obtain ⟨rfl, ha⟩ := ht v v' i j f h1 h2 hi hj
    exact ⟨rfl, (agreeTo_iff (by omega)).1 ha⟩

/-- In a tree the tables of an address are owned, none of them twice. -/
theorem TableTree.ownedPath {s : State} {root : Frame} (h : TableTree s root) (va : Word) : OwnedPath s root va := by
  refine ⟨List.nodup_iff_getElem?_ne_getElem?.2 fun i j hij hj hc => ?_, h.owned va⟩
  have hi := (List.getElem?_eq_getElem (lt_trans hij hj))
  have := (h.tree va va i j _ hi (hc ▸ hi)).1
  omega

/-- A tree is its tables and the owned frames. -/
theorem TableTree.congr {s t : State} {root : Frame} (h : TableTree s root) (hm : t.mem = s.mem)
    (ho : t.owned = s.owned) : TableTree t root := by
  refine ⟨?_, ?_⟩
  · rw [hm, ho]; exact h.owned
  · rw [hm]; exact h.tree

/-- A walk reads its path and the leaf slot alone. -/
theorem walk_congr_path {m m' : Memory} {r : Frame} {v : Word} (h : ∀ f ∈ existingPath m v tableLevels r, ∀ k,
    m'.read64 (slotAddr f k) = m.read64 (slotAddr f k)) : walk m' r v = walk m r v := by
  have ht : ∀ j, j ≤ 3 → tableAt m' v r j = tableAt m v r j := by
    intro j hj
    induction j with
    | zero => rfl
    | succ j ih =>
      simp only [tableAt, ih (by omega)]
      cases e : tableAt m v r j with
      | none => rfl
      | some f => dsimp only; rw [h f (mem_existingPath (by omega) e)]
  rw [walk_eq_tableAt, walk_eq_tableAt, ht 3 (le_refl 3)]
  cases e : tableAt m v r 3 with
  | none => rfl
  | some f => dsimp only; rw [h f (mem_existingPath (le_refl 3) e)]

/-! ## A page made (R112) -/

section Made

variable {s s' : State} {va leaf : Word} {i : Nat} {t root : Frame}

/-- Every slot of an owned table but the one stored to reads as before. -/
theorem PageMade.keep (h : PageMade s s' va leaf i t) {f : Frame} (hf : f ∈ s.owned) {k : BitVec 9}
    (hk : ¬ (f = t ∧ k = idxAt i va)) : s'.mem.read64 (slotAddr f k) = s.mem.read64 (slotAddr f k) := by
  refine Memory.read64_congr fun j hj => h.bytes _ (fun hc => ?_) fun g hg hc => ?_
  · by_cases hft : f = t
    · subst hft
      have := slotAddr_idx_ne f (i := k) (j := idxAt i va) fun e => hk ⟨rfl, e⟩
      unfold InWord at hc
      omega
    · have := slotAddr_frame_ne hft k (idxAt i va)
      unfold InWord at hc
      omega
  · have := inFrame_unique (inWord_inFrame (t := f) (b := slotAddr f k + j) (j := k) ⟨by omega, by omega⟩) hc
    exact (State.grants_fresh (3 - i) s).1 g hg (this ▸ hf)

/-- Above and beside the made tables every path is as before. -/
theorem PageMade.tableAt_old (h : PageMade s s' va leaf i t) (hp : PathEnds s.mem va root i t) (hT : TableTree s root)
    {v : Word} {j : Nat} (hj : j ≤ 3) (hc : j ≤ i ∨ ¬ AgreeTo (i + 1) v va) :
    tableAt s'.mem v root j = tableAt s.mem v root j := by
  induction j with
  | zero => rfl
  | succ j ih =>
    have ih := ih (by omega) (hc.imp (by omega) id)
    simp only [tableAt, ih]
    cases e : tableAt s.mem v root j with
    | none => rfl
    | some f =>
      dsimp only
      rw [h.keep (hT.mem_owned (by omega) e)]
      rintro ⟨rfl, hidx⟩
      obtain ⟨rfl, ha⟩ := hT.agree (by omega) hp.1 e hp.2.1
      exact hc.elim (by omega) fun hc => hc (ha.succ hidx)

/-- Where the indices are those of `va` the path goes through the made tables. -/
theorem PageMade.tableAt_new (h : PageMade s s' va leaf i t) (hp : PathEnds s.mem va root i t) (hT : TableTree s root)
    {v : Word} {j : Nat} (hj : i + 1 + j ≤ 3) (ha : AgreeTo (i + 1) v va) :
    (AgreeTo (i + 1 + j) v va → tableAt s'.mem v root (i + 1 + j) = (s.grants (3 - i)).1[j]?) ∧
      (¬ AgreeTo (i + 1 + j) v va → tableAt s'.mem v root (i + 1 + j) = none) := by
  have hlen := h.granted
  induction j with
  | zero =>
    refine ⟨fun _ => ?_, fun hc => absurd ha hc⟩
    have e : tableAt s'.mem v root i = some t := by
      rw [h.tableAt_old hp hT hp.1 (.inl (le_refl i)), tableAt_agree (ha.mono (by omega)), hp.2.1]
    obtain ⟨g, hg⟩ : ∃ g, (s.grants (3 - i)).1[0]? = some g := ⟨_, List.getElem?_eq_getElem (by omega)⟩
    have hl := h.link 0 t g rfl (by simpa using hg)
    rw [Nat.add_zero, tableAt_succ e, ha i (by omega)]
    rw [Nat.add_zero] at hl
    rw [hl, if_pos (descUsable_tableDesc _), frameOf_tableDesc, hg]
  | succ j ih =>
    obtain ⟨ih1, ih2⟩ := ih (by omega)
    by_cases hag : AgreeTo (i + 1 + j) v va
    · obtain ⟨f, hf⟩ : ∃ f, (s.grants (3 - i)).1[j]? = some f := ⟨_, List.getElem?_eq_getElem (by omega)⟩
      obtain ⟨g, hg⟩ : ∃ g, (s.grants (3 - i)).1[j + 1]? = some g := ⟨_, List.getElem?_eq_getElem (by omega)⟩
      have e := ih1 hag
      rw [hf] at e
      rw [← Nat.add_assoc, tableAt_succ e]
      by_cases hidx : idxAt (i + 1 + j) v = idxAt (i + 1 + j) va
      · refine ⟨fun _ => ?_, fun hc => absurd (hag.succ hidx) hc⟩
        have hl := h.link (j + 1) f g (by simpa using hf) (by simpa using hg)
        have e2 : i + (j + 1) = i + 1 + j := by omega
        rw [e2] at hl
        rw [hidx, hl, if_pos (descUsable_tableDesc _), frameOf_tableDesc, hg]
      · refine ⟨fun hc => absurd (hc _ (by omega)) hidx, fun _ => ?_⟩
        rw [h.zero j f hf _ hidx]
        rfl
    · refine ⟨fun hc => absurd (hc.mono (by omega)) hag, fun _ => tableAt_none (ih2 hag) (by omega)⟩

/-- A table on a path is one that was there before, or one made. -/
theorem PageMade.classify (h : PageMade s s' va leaf i t) (hp : PathEnds s.mem va root i t) (hT : TableTree s root)
    {v : Word} {j : Nat} {f : Frame} (hj : j ≤ 3) (hf : tableAt s'.mem v root j = some f) :
    tableAt s.mem v root j = some f ∨
      (∃ k, j = i + 1 + k ∧ AgreeTo j v va ∧ (s.grants (3 - i)).1[k]? = some f) := by
  by_cases hc : j ≤ i ∨ ¬ AgreeTo (i + 1) v va
  · left
    rw [← h.tableAt_old hp hT hj hc, hf]
  · push Not at hc
    obtain ⟨k, rfl⟩ : ∃ k, j = i + 1 + k := ⟨j - i - 1, by omega⟩
    obtain ⟨h1, h2⟩ := h.tableAt_new hp hT hj hc.2
    by_cases ha : AgreeTo (i + 1 + k) v va
    · exact .inr ⟨k, rfl, ha, by rw [← h1 ha, hf]⟩
    · rw [h2 ha] at hf
      cases hf

/-- No table is unlinked. -/
theorem PageMade.mono (h : PageMade s s' va leaf i t) (hp : PathEnds s.mem va root i t) (hT : TableTree s root)
    {v : Word} {j : Nat} {f : Frame} (hj : j ≤ 3) (hf : tableAt s.mem v root j = some f) :
    tableAt s'.mem v root j = some f := by
  by_cases hc : j ≤ i ∨ ¬ AgreeTo (i + 1) v va
  · rw [h.tableAt_old hp hT hj hc, hf]
  · push Not at hc
    exfalso
    have ha := (tableAt_agree (hc.2.mono (by omega : i ≤ i + 1)) (m := s.mem) (root := root)).trans hp.2.1
    have hn : PathEnds s.mem v root i t := ⟨hp.1, ha, fun h3 => by rw [hc.2 i (by omega)]; exact hp.2.2 h3⟩
    rw [hn.none (by omega) hc.1] at hf
    cases hf

/-- Where a path ends after the call: where it ended before, in the same descriptor, or in a made table, in an empty one. -/
theorem PageMade.ends (h : PageMade s s' va leaf i t) (hp : PathEnds s.mem va root i t) (hT : TableTree s root)
    {v : Word} {j : Nat} {f : Frame} (he : PathEnds s'.mem v root j f) :
    (PathEnds s.mem v root j f ∧
      (j < 3 → s'.mem.read64 (slotAddr f (idxAt j v)) = s.mem.read64 (slotAddr f (idxAt j v)))) ∨
    (f ∈ (s.grants (3 - i)).1 ∧ (j < 3 → s'.mem.read64 (slotAddr f (idxAt j v)) = 0#64)) := by
  obtain ⟨hj, hf, hu⟩ := he
  rcases h.classify hp hT hj hf with ho | ⟨k, rfl, ha, hk⟩
  · left
    have hx : j < 3 → descUsable (s.mem.read64 (slotAddr f (idxAt j v))) = false := by
      intro h3
      rw [Bool.eq_false_iff]
      intro hc
      have e := tableAt_succ ho
      rw [if_pos hc] at e
      have e' := h.mono hp hT (by omega) e
      rw [tableAt_succ hf, hu h3] at e'
      cases e'
    refine ⟨⟨hj, ho, hx⟩, fun h3 => h.keep (hT.mem_owned hj ho) ?_⟩
    rintro ⟨rfl, hidx⟩
    obtain ⟨rfl, ha⟩ := hT.agree hj hp.1 ho hp.2.1
    obtain ⟨g, hg⟩ : ∃ g, (s.grants (3 - j)).1[0]? = some g :=
      ⟨_, List.getElem?_eq_getElem (by rw [h.granted]; omega)⟩
    have hl := h.link 0 f g rfl (by simpa using hg)
    have := hu h3
    rw [hidx, ← Nat.add_zero j, hl, descUsable_tableDesc] at this
    cases this
  · right
    refine ⟨List.mem_of_getElem? hk, fun h3 => h.zero k f hk _ fun hidx => ?_⟩
    obtain ⟨g, hg⟩ : ∃ g, (s.grants (3 - i)).1[k + 1]? = some g :=
      ⟨_, List.getElem?_eq_getElem (by rw [h.granted]; omega)⟩
    have hl := h.link (k + 1) f g (by simpa using hk) (by simpa using hg)
    have := hu h3
    have e2 : i + (k + 1) = i + 1 + k := by omega
    rw [e2] at hl
    rw [hidx, hl, descUsable_tableDesc] at this
    cases this

/-- Every other page's walk is as before (R122 d). -/
theorem PageMade.walk_ne (h : PageMade s s' va leaf i t) (hp : PathEnds s.mem va root i t) (hT : TableTree s root)
    {v : Word} (hv : pageNumber v ≠ pageNumber va) : walk s'.mem root v = walk s.mem root v := by
  have hv : ¬ AgreeTo 4 v va := fun hc => hv (agreeTo_four.1 hc)
  rw [walk_eq_tableAt, walk_eq_tableAt]
  by_cases hc : 3 ≤ i ∨ ¬ AgreeTo (i + 1) v va
  · rw [h.tableAt_old hp hT (le_refl 3) hc]
    cases e : tableAt s.mem v root 3 with
    | none => rfl
    | some f =>
      dsimp only
      rw [h.keep (hT.mem_owned (le_refl 3) e)]
      rintro ⟨rfl, hidx⟩
      obtain ⟨rfl, ha⟩ := hT.agree (le_refl 3) hp.1 e hp.2.1
      exact hv (ha.succ hidx)
  · push Not at hc
    have ha := (tableAt_agree (hc.2.mono (by omega : i ≤ i + 1)) (m := s.mem) (root := root)).trans hp.2.1
    have hn : PathEnds s.mem v root i t := ⟨hp.1, ha, fun h3 => by rw [hc.2 i (by omega)]; exact hp.2.2 h3⟩
    rw [hn.none (by omega) hc.1]
    dsimp only
    obtain ⟨k, hk⟩ : ∃ k, 3 = i + 1 + k := ⟨2 - i, by omega⟩
    obtain ⟨h1, h2⟩ := h.tableAt_new hp hT (j := k) (by omega) hc.2
    rw [← hk] at h1 h2
    by_cases h3 : AgreeTo 3 v va
    · obtain ⟨f, hf⟩ : ∃ f, (s.grants (3 - i)).1[k]? = some f :=
        ⟨_, List.getElem?_eq_getElem (by rw [h.granted]; omega)⟩
      rw [h1 h3, hf]
      dsimp only
      rw [h.zero k f hf _ ?_]
      · rfl
      · rw [← hk]
        exact fun hidx => hv (h3.succ hidx)
    · rw [h2 h3]

/-- The page's walk ends in the leaf that was written. -/
theorem PageMade.walk_self (h : PageMade s s' va leaf i t) (hp : PathEnds s.mem va root i t) (hT : TableTree s root) :
    walk s'.mem root va = leafTranslation leaf va := by
  rw [walk_eq_tableAt]
  have hself : ∀ k, AgreeTo k va va := fun _ _ _ => rfl
  obtain ⟨f, hf⟩ : ∃ f, (t :: (s.grants (3 - i)).1)[3 - i]? = some f :=
    ⟨_, List.getElem?_eq_getElem (by simp only [List.length_cons, h.granted]; omega)⟩
  have e : tableAt s'.mem va root 3 = some f := by
    have hi := hp.1
    by_cases h3 : i = 3
    · subst h3
      rw [h.tableAt_old hp hT (le_refl 3) (.inl (le_refl 3)), hp.2.1]
      simpa using hf
    · obtain ⟨k, hk⟩ : ∃ k, 3 = i + 1 + k := ⟨2 - i, by omega⟩
      have := (h.tableAt_new hp hT (j := k) (v := va) (by omega) (hself _)).1 (hself _)
      rw [← hk] at this
      rw [this]
      have e3 : 3 - i = k + 1 := by omega
      rw [e3] at hf ⊢
      simpa using hf
  rw [e]
  dsimp only
  rw [h.leaf f hf]

/-- The tables are a tree still. -/
theorem PageMade.tableTree (h : PageMade s s' va leaf i t) (hp : PathEnds s.mem va root i t) (hT : TableTree s root) :
    TableTree s' root := by
  have hown : s'.owned = s.owned ++ (s.grants (3 - i)).1 := by rw [h.state]; rfl
  have hfresh := State.grants_fresh (3 - i) s
  refine .of_tableAt (fun v j f hj hf => ?_) fun v v' a b f ha hb hfa hfb => ?_
  · rw [hown]
    rcases h.classify hp hT hj hf with ho | ⟨k, -, -, hk⟩
    · exact List.mem_append_left _ (hT.mem_owned hj ho)
    · exact List.mem_append_right _ (List.mem_of_getElem? hk)
  · rcases h.classify hp hT ha hfa with ho | ⟨k, rfl, hk, hkf⟩ <;>
      rcases h.classify hp hT hb hfb with ho' | ⟨k', rfl, hk', hkf'⟩
    · exact hT.agree ha hb ho ho'
    · exact absurd (hT.mem_owned ha ho) (hfresh.1 f (List.mem_of_getElem? hkf'))
    · exact absurd (hT.mem_owned hb ho') (hfresh.1 f (List.mem_of_getElem? hkf))
    · have hlt := (List.getElem?_eq_some_iff.1 hkf).1
      have : k = k' := (List.getElem?_inj hlt hfresh.2).1 (hkf.trans hkf'.symm)
      subst this
      exact ⟨rfl, hk.trans hk'.symm⟩

/-- Under another root whose tables for `v` are owned and none of them the table stored to, the walk is as before. -/
theorem PageMade.walk_root (h : PageMade s s' va leaf i t) {r : Frame} {v : Word}
    (hr : ∀ f ∈ existingPath s.mem v tableLevels r, f ∈ s.owned ∧ f ≠ t) : walk s'.mem r v = walk s.mem r v :=
  walk_congr_path fun f hf _ => h.keep (hr f hf).1 fun hc => (hr f hf).2 hc.1

end Made

/-! ## A page that could not be had (R112) -/

section Failed

variable {s s' : State} {va : Word} {i : Nat} {t root : Frame}

theorem PageFailed.lt (h : PageFailed s s' va i t) : i < 3 := by
  have := h.exhausted
  omega

/-- The slot that was linked on the way is zero or as before, every other slot of an owned table is as before. -/
theorem PageFailed.slots (h : PageFailed s s' va i t) {f : Frame} (hf : f ∈ s.owned) (k : BitVec 9) :
    s'.mem.read64 (slotAddr f k) = s.mem.read64 (slotAddr f k) ∨
      (f = t ∧ k = idxAt i va ∧ s'.mem.read64 (slotAddr f k) = 0#64) := by
  have hfr : ∀ j, j < 8 → ∀ g ∈ (s.grants (3 - i)).1, ¬ InFrame (slotAddr f k + j) g := fun j hj g hg hc => by
    have := inFrame_unique (inWord_inFrame (t := f) (b := slotAddr f k + j) (j := k) ⟨by omega, by omega⟩) hc
    exact (State.grants_fresh (3 - i) s).1 g hg (this ▸ hf)
  by_cases hc : (f = t ∧ k = idxAt i va) ∧ (s.grants (3 - i)).1 ≠ []
  · obtain ⟨⟨rfl, rfl⟩, hg⟩ := hc
    right
    refine ⟨rfl, rfl, ?_⟩
    have hb : ∀ j, j < 8 → s'.mem.read (slotAddr f (idxAt i va) + j) = 0#8 := fun j hj => by
      rw [h.bytes _ (hfr j hj), if_pos ⟨hg, by omega, by omega⟩]
    have e0 := hb 0 (by omega)
    rw [Nat.add_zero] at e0
    simp only [Memory.read64, hb 7 (by omega), hb 6 (by omega), hb 5 (by omega), hb 4 (by omega), hb 3 (by omega),
      hb 2 (by omega), hb 1 (by omega), e0]
    rfl
  · left
    refine Memory.read64_congr fun j hj => ?_
    rw [h.bytes _ (hfr j hj), if_neg]
    rintro ⟨hg, hw⟩
    apply hc
    refine ⟨?_, hg⟩
    by_cases hft : f = t
    · subst hft
      refine ⟨rfl, by_contra fun hne => ?_⟩
      have := slotAddr_idx_ne f (i := k) (j := idxAt i va) hne
      unfold InWord at hw
      omega
    · have := slotAddr_frame_ne hft k (idxAt i va)
      unfold InWord at hw
      omega

/-- Every path is as before. -/
theorem PageFailed.tableAt_eq (h : PageFailed s s' va i t) (hp : PathEnds s.mem va root i t) (hT : TableTree s root)
    {v : Word} {j : Nat} (hj : j ≤ 3) : tableAt s'.mem v root j = tableAt s.mem v root j := by
  induction j with
  | zero => rfl
  | succ j ih =>
    simp only [tableAt, ih (by omega)]
    cases e : tableAt s.mem v root j with
    | none => rfl
    | some f =>
      dsimp only
      rcases h.slots (hT.mem_owned (by omega) e) (idxAt j v) with hk | ⟨rfl, hk, h0⟩
      · rw [hk]
      · obtain ⟨rfl, -⟩ := hT.agree (by omega) hp.1 e hp.2.1
        rw [h0, hk, hp.2.2 h.lt]
        rfl

/-- Every walk is as before. -/
theorem PageFailed.walk_eq (h : PageFailed s s' va i t) (hp : PathEnds s.mem va root i t) (hT : TableTree s root)
    (v : Word) : walk s'.mem root v = walk s.mem root v := by
  rw [walk_eq_tableAt, walk_eq_tableAt, h.tableAt_eq hp hT (le_refl 3)]
  cases e : tableAt s.mem v root 3 with
  | none => rfl
  | some f =>
    dsimp only
    rcases h.slots (hT.mem_owned (le_refl 3) e) (idxAt 3 v) with hk | ⟨rfl, -⟩
    · rw [hk]
    · obtain ⟨hc, -⟩ := hT.agree (le_refl 3) hp.1 e hp.2.1
      have := h.lt
      omega

theorem PageFailed.tableTree (h : PageFailed s s' va i t) (hp : PathEnds s.mem va root i t) (hT : TableTree s root) :
    TableTree s' root := by
  have hown : s'.owned = s.owned := by rw [h.state]
  refine .of_tableAt (fun v j f hj hf => ?_) fun v v' a b f ha hb hfa hfb => ?_
  · rw [h.tableAt_eq hp hT hj] at hf
    rw [hown]
    exact hT.mem_owned hj hf
  · rw [h.tableAt_eq hp hT ha] at hfa
    rw [h.tableAt_eq hp hT hb] at hfb
    exact hT.agree ha hb hfa hfb

/-- Under another root whose tables for `v` are owned and none of them the table stored to, the walk is as before. -/
theorem PageFailed.walk_root (h : PageFailed s s' va i t) {r : Frame} {v : Word}
    (hr : ∀ f ∈ existingPath s.mem v tableLevels r, f ∈ s.owned ∧ f ≠ t) : walk s'.mem r v = walk s.mem r v :=
  walk_congr_path fun f hf k => (h.slots (hr f hf).1 k).elim id fun hc => absurd hc.1 (hr f hf).2

end Failed

/-! ## Malformed paths are neither made nor mended -/

theorem PageMade.malformed_back {s s' : State} {va leaf : Word} {i : Nat} {t root : Frame}
    (h : PageMade s s' va leaf i t) (hp : PathEnds s.mem va root i t) (hT : TableTree s root) {v : Word}
    (hm : MalformedPath s'.mem root v) : MalformedPath s.mem root v := by
  obtain ⟨j, f, he, -⟩ := pathEnds_exists s'.mem v root
  obtain ⟨h3, hv⟩ := he.malformed_iff.1 hm
  rcases h.ends hp hT he with ⟨ho, hc⟩ | ⟨-, hz⟩
  · exact ho.malformed_iff.2 ⟨h3, hc h3 ▸ hv⟩
  · rw [hz h3] at hv
    cases hv

theorem PageMade.malformed_forth {s s' : State} {va leaf : Word} {i : Nat} {t root : Frame}
    (h : PageMade s s' va leaf i t) (hp : PathEnds s.mem va root i t) (hT : TableTree s root)
    (hn : ¬ MalformedPath s.mem root va) {v : Word} (hm : MalformedPath s.mem root v) :
    MalformedPath s'.mem root v := by
  obtain ⟨j, f, he, -⟩ := pathEnds_exists s.mem v root
  obtain ⟨h3, hv⟩ := he.malformed_iff.1 hm
  have hk : s'.mem.read64 (slotAddr f (idxAt j v)) = s.mem.read64 (slotAddr f (idxAt j v)) := by
    refine h.keep (hT.mem_owned he.1 he.2.1) ?_
    rintro ⟨rfl, hidx⟩
    obtain ⟨rfl, -⟩ := hT.agree he.1 hp.1 he.2.1 hp.2.1
    exact hn (hp.malformed_iff.2 ⟨h3, hidx ▸ hv⟩)
  have he' : PathEnds s'.mem v root j f := ⟨he.1, h.mono hp hT he.1 he.2.1, fun h3 => by rw [hk]; exact he.2.2 h3⟩
  exact he'.malformed_iff.2 ⟨h3, by rw [hk]; exact hv⟩

/-! ## Page after page (R113) -/

/-- Once the allocator is exhausted more requests answer no more. -/
theorem State.grants_short {n m : Nat} {s : State} (h : (s.grants n).1.length < n) (hnm : n ≤ m) :
    s.grants m = s.grants n := by
  induction n generalizing m s with
  | zero => simp at h
  | succ n ih =>
    obtain ⟨m, rfl⟩ : ∃ k, m = k + 1 := ⟨m - 1, by omega⟩
    rcases hn : nextAnswer s.frameFree s.alloc with ⟨_ | f, rest⟩
    · rw [State.grants_none hn, State.grants_none hn]
    · rw [State.grants_some hn] at h
      rw [State.grants_some hn, State.grants_some hn, ih (by simpa using h) (by omega)]

theorem pageAt_zero (va : Word) : pageAt va 0 = va := by simp [pageAt]

theorem pageAt_succ (va : Word) (k : Nat) : pageAt (va + 4096#64) k = pageAt va (k + 1) := by
  apply BitVec.eq_of_toNat_eq
  simp only [pageAt, BitVec.toNat_add, BitVec.toNat_ofNat]
  omega

/-- Two pages of one range are two pages of the half. -/
theorem pageNumber_pageAt_ne {va : Word} {a b : Nat} (hab : a < b) (hb : b < 68719476736) :
    pageNumber (pageAt va a) ≠ pageNumber (pageAt va b) := by
  have := va.isLt
  simp only [pageNumber, pageAt, BitVec.toNat_add, BitVec.toNat_ofNat]
  omega

theorem PagesMapped.refl {s : State} {root : Frame} (hT : TableTree s root) (va pa flags : Word) (n : Nat) :
    PagesMapped s s root va pa flags n 0 0 where
  mapped k hk := absurd hk (by omega)
  others _ _ := rfl
  tree := hT
  granted := ⟨rfl, by simp [State.grants], by omega⟩
  memory _ _ _ := rfl

/-- What pages are mapped shows in memory and in the owned frames alone. -/
theorem PagesMapped.congr {s t u : State} {root : Frame} {va pa flags : Word} {n d j : Nat}
    (h : PagesMapped s t root va pa flags n d j) (hm : u.mem = t.mem) (ho : u.owned = t.owned) :
    PagesMapped s u root va pa flags n d j where
  mapped k hk := by rw [hm]; exact h.mapped k hk
  others v hv := by rw [hm]; exact h.others v hv
  tree := h.tree.congr hm ho
  granted := by rw [ho]; exact h.granted
  memory b hb hf := by rw [hm]; exact h.memory b hb hf

/-- The page that could not be had leaves every mapping as it was. -/
theorem PagesMapped.of_failed {s s' : State} {va : Word} {i : Nat} {t root : Frame} (h : PageFailed s s' va i t)
    (hp : PathEnds s.mem va root i t) (hT : TableTree s root) (pa flags : Word) (n : Nat) :
    PagesMapped s s' root va pa flags (n + 1) 0 0 where
  mapped k hk := absurd hk (by omega)
  others v _ := h.walk_eq hp hT v
  tree := h.tableTree hp hT
  granted := ⟨rfl, by rw [h.state]; simp [State.grants], by omega⟩
  memory b hb hf := by
    have h0 := hb 0 (by omega)
    rw [pageAt_zero, hp.storeSlot] at h0
    rw [h.bytes b fun f hm => hf f (State.grants_subset (by omega) f hm), if_neg fun hc => h0 hc.2]

/-- One page more, in front. -/
theorem PagesMapped.cons {s s1 u : State} {va pa flags : Word} {i n d j : Nat} {t root : Frame}
    (h : PageMade s s1 va (leafDesc pa flags) i t) (hp : PathEnds s.mem va root i t) (hT : TableTree s root)
    (hw : walk s1.mem root va = some { pa := pa, flags := flags }) (hd : d ≤ n) (hn : n < 68719476736)
    (hr : PagesMapped s1 u root (va + 4096#64) (pa + 4096#64) flags n d j) :
    PagesMapped s u root va pa flags (n + 1) (d + 1) (3 - i + j) := by
  have hg : ∀ m, s1.grants m = (s.took (s.grants (3 - i)).1 (s.grants (3 - i)).2).grants m := fun m =>
    State.grants_congr (by rw [h.state]) (by rw [h.state]) (by rw [h.state]) m
  have hown : s1.owned = s.owned ++ (s.grants (3 - i)).1 := by rw [h.state]; rfl
  have hadd := fun m => State.grants_add (3 - i) m s h.granted
  have hi := hp.1
  refine ⟨fun k hk => ?_, fun v hv => ?_, hr.tree, ?_, fun b hb hf => ?_⟩
  · rcases Nat.eq_zero_or_pos k with rfl | hk0
    · rw [pageAt_zero, pageAt_zero, hr.others va fun k hk => ?_]
      · exact hw
      · rw [pageAt_succ]
        have := pageNumber_pageAt_ne (va := va) (a := 0) (b := k + 1) (by omega) (by omega)
        rwa [pageAt_zero] at this
    · obtain ⟨k, rfl⟩ : ∃ m, k = m + 1 := ⟨k - 1, by omega⟩
      rw [← pageAt_succ, ← pageAt_succ]
      exact hr.mapped k (by omega)
  · rw [hr.others v fun k hk => by rw [pageAt_succ]; exact hv (k + 1) (by omega)]
    refine h.walk_ne hp hT ?_
    have := hv 0 (by omega)
    rwa [pageAt_zero] at this
  · obtain ⟨g1, g2, g3⟩ := hr.granted
    rw [hg] at g1 g2
    rw [(hadd j).1]
    exact ⟨by rw [List.length_append, h.granted, g1], by rw [g2, hown, List.append_assoc], by omega⟩
  · rw [hr.memory b (fun k hk => ?_) fun f hm => ?_]
    · have h0 := hb 0 (by omega)
      rw [pageAt_zero, hp.storeSlot] at h0
      exact h.bytes b h0 fun f hm => hf f (State.grants_subset (by omega) f hm)
    · rw [pageAt_succ]
      obtain ⟨a, f, he, -⟩ := pathEnds_exists s1.mem (pageAt va (k + 1)) root
      rw [he.storeSlot]
      rcases h.ends hp hT he with ⟨ho, -⟩ | ⟨hm, -⟩
      · rw [← ho.storeSlot]
        exact hb (k + 1) (by omega)
      · exact fun hc => hf f (State.grants_subset (by omega) f hm) (inWord_inFrame hc)
    · rw [hg] at hm
      refine hf f (State.grants_subset (n := 3 - i + 3 * n) (by omega) f ?_)
      rw [(hadd (3 * n)).1]
      exact List.mem_append_right _ hm

/-- How pass 2 ends after `d` of the `n` pages, `j` frames taken for good (R113). -/
def RangeEnds (s u : State) (root : Frame) (va : Word) (n d j done : Nat) (o : RangeOutcome) : Prop :=
  (d = n ∧ u.alloc = (s.grants j).2 ∧ ∃ r, o = .mapped u r) ∨
  (d < n ∧ (s.grants (j + 3)).1.length < j + 3 ∧ u.alloc = (s.grants (j + 3)).2 ∧ o = .exhausted u (done + d)) ∨
  (d < n ∧ MalformedPath s.mem root (pageAt va d) ∧ u.alloc = (s.grants j).2 ∧
    ∃ r, o = .malformed u (done + d) (decide (0 < done + d)) r)

/-- Everything pass 2 can do under a tree of tables: it maps pages in ascending order until all are mapped, the allocator
is exhausted, or a page's tables are malformed (R113). -/
theorem mapPages_spec {root : Frame} {flags : Word} (hf : flagsOk flags = true) {n : Nat} :
    ∀ {va pa : Word} {done : Nat} {r : Bool} {s : State}, s.mem.wf = true → TableTree s root → pageAligned va = true →
      pageAligned pa = true → pa.toNat + 4096 * n ≤ 281474976710656 → n ≤ 68719476736 →
      ∃ d j u, PagesMapped s u root va pa flags n d j ∧ u.mem.wf = true ∧ TablesOnly s u ∧ d ≤ n ∧
        (∀ k, k < d → ¬ MalformedPath s.mem root (pageAt va k)) ∧
        RangeEnds s u root va n d j done (mapPages root flags n va pa done r s) := by
  induction n with
  | zero =>
    intro va pa done r s hs hT _ _ _ _
    exact ⟨0, 0, s, .refl hT _ _ _ _, hs, rfl, le_refl _, fun k hk => absurd hk (by omega),
      .inl ⟨rfl, by simp [State.grants], r, rfl⟩⟩
  | succ n ih =>
    intro va pa done r s hs hT hva hpa hph hn
    obtain ⟨i, t, hp, -⟩ := pathEnds_exists s.mem va root
    have ht := hT.mem_owned hp.1 hp.2.1
    have hphys : isPhys pa = true := (isPhys_iff pa).2 (by omega)
    have hi := hp.1
    by_cases hm : MalformedPath s.mem root va
    · refine ⟨0, 0, s, .refl hT _ _ _ _, hs, rfl, Nat.zero_le _, fun k hk => absurd hk (by omega),
        .inr (.inr ⟨by omega, by rw [pageAt_zero]; exact hm, by simp [State.grants], r, ?_⟩)⟩
      rw [mapPages, mapOne_malformed pa flags hm]
      rfl
    · obtain ⟨m3, m4⟩ := mapOne_spec pa flags hs hp ht hm
      rcases Nat.lt_or_ge (s.grants (3 - i)).1.length (3 - i) with hlt | hge
      · obtain ⟨u, e, hu⟩ := m4 hlt
        have hsh := State.grants_short hlt (m := 3) (by omega)
        refine ⟨0, 0, u, .of_failed hu hp hT _ _ _, hu.wf, ?_, Nat.zero_le _, fun k hk => absurd hk (by omega),
          .inr (.inl ⟨by omega, by rw [Nat.zero_add, hsh]; omega, by rw [Nat.zero_add, hsh, hu.state], ?_⟩)⟩
        · have := mapOne_tablesOnly root va pa flags s
          rw [e] at this
          exact this
        · rw [mapPages, e]
          rfl
      · obtain ⟨s1, e, hs1⟩ := m3 (le_antisymm (State.grants_length_le _ _) hge)
        have hw : walk s1.mem root va = some { pa := pa, flags := flags } :=
          walk_after_mapOne hs (hT.ownedPath va) hva hpa hphys hf e
        have hT1 := hs1.tableTree hp hT
        have hto := mapOne_tablesOnly root va pa flags s
        rw [e] at hto
        have hn1 : (pa + 4096#64).toNat = pa.toNat + 4096 := by
          rw [BitVec.toNat_add]
          have : (4096#64).toNat = 4096 := rfl
          omega
        have halign : ∀ x : Word, pageAligned x = true → pageAligned (x + 4096#64) = true := by
          intro x hx
          rw [pageAligned_iff] at hx ⊢
          have : (4096#64).toNat = 4096 := rfl
          rw [BitVec.toNat_add]
          omega
        obtain ⟨d, j, u, p1, p2, p3, p4, p5, p6⟩ := ih (va := va + 4096#64) (pa := pa + 4096#64) (done := done + 1)
          (r := r || (decide (i = 3) && (descUsable (s.mem.read64 (slotAddr t (idxAt 3 va))) &&
            s.mem.read64 (slotAddr t (idxAt 3 va)) != leafDesc pa flags))) hs1.wf hT1 (halign _ hva) (halign _ hpa)
          (by rw [hn1]; omega) (by omega)
        have hg : ∀ m, s1.grants m = (s.took (s.grants (3 - i)).1 (s.grants (3 - i)).2).grants m := fun m =>
          State.grants_congr (by rw [hs1.state]) (by rw [hs1.state]) (by rw [hs1.state]) m
        have hadd := fun m => State.grants_add (3 - i) m s hs1.granted
        refine ⟨d + 1, 3 - i + j, u, p1.cons hs1 hp hT hw p4 (by omega), p2, hto.trans p3, by omega, fun k hk => ?_, ?_⟩
        · rcases Nat.eq_zero_or_pos k with rfl | hk0
          · rw [pageAt_zero]; exact hm
          · obtain ⟨k, rfl⟩ : ∃ m, k = m + 1 := ⟨k - 1, by omega⟩
            rw [← pageAt_succ]
            exact fun hc => p5 k (by omega) (hs1.malformed_forth hp hT hm hc)
        · rw [mapPages, e]
          dsimp only
          have hdone : done + 1 + d = done + (d + 1) := by omega
          unfold RangeEnds at p6 ⊢
          rw [hdone, hg, hg] at p6
          rcases p6 with ⟨rfl, a1, a2⟩ | ⟨a0, a1, a2, a3⟩ | ⟨a0, a1, a2, a3⟩
          · exact .inl ⟨rfl, by rw [a1, (hadd j).2], a2⟩
          · refine .inr (.inl ⟨by omega, ?_, ?_, a3⟩)
            · rw [Nat.add_assoc, (hadd (j + 3)).1, List.length_append, hs1.granted]
              omega
            · rw [Nat.add_assoc, (hadd (j + 3)).2, a2]
          · refine .inr (.inr ⟨by omega, ?_, by rw [a2, (hadd j).2], a3⟩)
            rw [← pageAt_succ]
            exact hs1.malformed_back hp hT a1

end Sys2Proof.Machine
end

