-- ==== Sys2Proof/Laws/Sequence.lean ====
section
/-! SUPPORT. What each operation of sub-block FSM answers, as cases: refused, halted with at most a system register
written, or the one transition of its rule. -/

namespace Sys2Proof.Machine

/-- A verification or a gate failed: at most the system registers moved before the halt (R140, R181). -/
def SysHalt (s t : State) : Prop := ∃ r f, t = ({ s with sys := r } : State).halted .registerVerificationFailed f

/-- A gate that fails has written nothing. -/
theorem SysHalt.of_gate {info : FailInfo} {s t : State} (h : s.gateFailed info = .next t) : SysHalt s t :=
  ⟨s.sys, info, by simpa [State.gateFailed, State.raiseHalt, eq_comm] using h⟩

/-- A verified write, then the rest of the operation. -/
theorem writeVerify_next {reg : SysReg} {v : Word} {info : FailInfo} {s t : State} {k : State → Result}
    (h : (writeVerify reg v info s).andThen k = .next t) :
    SysHalt s t ∨ k { s with sys := s.sys.set reg v } = .next t := by
  rw [writeVerify_eq] at h
  split_ifs at h
  · exact .inr h
  · exact .inl ⟨_, info, by simpa [State.raiseHalt, State.sysWrite, eq_comm] using h⟩

theorem execFsmMair_cases {s t : State} (h : execFsmMair s = .next t) :
    t = s.completed .illegalCommand ∨ SysHalt s t ∨ (s.state = .init ∧
      t = ({ s with sys := { s.sys with mair := s.cfg.mairValue } }.enter .mairProgrammed).completed .ok) := by
  unfold execFsmMair at h
  split at h
  · exact .inl (State.finish_next h)
  · rename_i hs
    exact .inr ((writeVerify_next h).imp id fun h => ⟨by simpa using hs, State.finish_next h⟩)

theorem execFsmTcrDual_cases {s t : State} (h : execFsmTcrDual s = .next t) :
    t = s.completed .illegalCommand ∨ SysHalt s t ∨ (s.state = .mairProgrammed ∧
      t = ({ s with sys := { s.sys with tcr := s.cfg.tcrDualValue }, tcrProgrammed := true }.enter
        .tcrBootstrapDual).completed .ok) := by
  unfold execFsmTcrDual at h
  split at h
  · exact .inl (State.finish_next h)
  · rename_i hs
    exact .inr ((writeVerify_next h).imp id fun h => ⟨by simpa using hs, State.finish_next h⟩)

theorem execFsmBases_cases {s t : State} (h : execFsmBases s = .next t) :
    t = s.completed .illegalCommand ∨ SysHalt s t ∨ (s.state = .tcrBootstrapDual ∧ s.rootsValid = true ∧
      t = ({ s with sys := { s.sys with ttbr0 := rootWord s.identityRoot, ttbr1 := rootWord s.kernelRoot } }.enter
        .basesLoaded).completed .ok) := by
  unfold execFsmBases at h
  split at h
  · exact .inl (State.finish_next h)
  rename_i hs
  simp only [not_or, Decidable.not_not, Bool.not_eq_false] at hs
  rw [writeVerify_eq] at h
  split at h
  · simp only [Attempt.bind_proceed] at h
    rcases writeVerify_next h with ⟨r, f, h⟩ | h
    · exact .inr (.inl ⟨r, f, h⟩)
    · exact .inr (.inr ⟨hs.1, hs.2, State.finish_next h⟩)
  · refine .inr (.inl ⟨(s.sysWrite .ttbr0 (rootWord s.identityRoot)).sys, .ttbr0Readback, ?_⟩)
    simpa [State.raiseHalt, State.sysWrite, eq_comm] using h

theorem execFsmTlbClean_cases {s t : State} (h : execFsmTlbClean s = .next t) :
    t = s.completed .illegalCommand ∨ (s.state = .basesLoaded ∧
      t = ({ s with tlb := [], unseen := [] }.enter .tlbClean).completed .ok) := by
  unfold execFsmTlbClean at h
  split at h
  · exact .inl (State.finish_next h)
  · rename_i hs
    exact .inr ⟨by simpa using hs, State.finish_next h⟩

theorem execFsmEnable_cases {s t : State} (h : execFsmEnable s = .next t) :
    t = s.completed .illegalCommand ∨ SysHalt s t ∨ (s.state = .tlbClean ∧ s.irqMasked = true ∧ s.vecPhysDone = true ∧
      audit s.registry = [] ∧ pcInTrampoline s = true ∧ dualMapped s = true ∧
      t = ({ s with sys := { s.sys with sctlr := s.sys.sctlr ||| s.cfg.mMask } }.enter .translationOn).completed
          .ok) := by
  unfold execFsmEnable at h
  split at h
  · exact .inl (State.finish_next h)
  rename_i h0
  iterate 5
    split at h
    · exact .inr (.inl (.of_gate h))
  rename_i h1 h2 h3 h4 h5
  simp only [Bool.not_eq_true', Bool.not_eq_false, ne_eq, Decidable.not_not] at h0 h1 h2 h3 h4 h5
  exact .inr ((writeVerify_next h).imp id fun h => ⟨h0, h1, h2, h3, h4, h5, State.finish_next h⟩)

theorem execFsmMigrate_cases {s t : State} (h : execFsmMigrate s = .next t) :
    t = s.completed .illegalCommand ∨ SysHalt s t ∨ (s.state = .translationOn ∧ isHigh s.ops.a0 = true ∧
      executable (hwTranslate s s.ops.a0) = true ∧ t = ({ s with pc := s.ops.a0 }.enter .pcMigrated).completed .ok) := by
  unfold execFsmMigrate at h
  split at h
  · exact .inl (State.finish_next h)
  split at h
  · exact .inr (.inl (.of_gate h))
  rename_i h0 h1
  simp only [highExecutable, Bool.not_eq_true', Bool.not_eq_false, Bool.and_eq_true, ne_eq,
    Decidable.not_not] at h0 h1
  exact .inr (.inr ⟨h0, h1.1, h1.2, State.finish_next h⟩)

theorem execFsmTcrKernel_cases {s t : State} (h : execFsmTcrKernel s = .next t) :
    t = s.completed .illegalCommand ∨ SysHalt s t ∨ (s.state = .pcMigrated ∧ pcInKernelSpace s = true ∧
      s.vecVirtDone = true ∧
      t = ({ s with sys := { s.sys with tcr := s.cfg.tcrKonlyValue } }.enter .tcrKernelOnly).completed .ok) := by
  unfold execFsmTcrKernel at h
  split at h
  · exact .inl (State.finish_next h)
  iterate 2
    split at h
    · exact .inr (.inl (.of_gate h))
  rename_i h0 h1 h2
  simp only [Bool.not_eq_true', Bool.not_eq_false, ne_eq, Decidable.not_not] at h0 h1 h2
  exact .inr ((writeVerify_next h).imp id fun h => ⟨h0, h1, h2, State.finish_next h⟩)

theorem execFsmFinish_cases {s t : State} (h : execFsmFinish s = .next t) :
    t = s.completed .illegalCommand ∨ (s.state = .tcrKernelOnly ∧ t = (s.enter .steady).completed .ok) := by
  unfold execFsmFinish at h
  split at h
  · exact .inl (State.finish_next h)
  · rename_i hs
    exact .inr ⟨by simpa using hs, State.finish_next h⟩

theorem execVecRelocate_cases {s t : State} (h : execVecRelocate s = .next t) :
    t = s.completed .illegalCommand ∨ SysHalt s t ∨ (s.state = .pcMigrated ∧ s.vecVirtDone = false ∧
      t = ({ s with sys := { s.sys with vbar := vecAlias s.cfg }, vecVirtDone := true }.log
        (vbarMarker (vecAlias s.cfg))).completed .ok) := by
  unfold execVecRelocate at h
  split at h
  · exact .inl (State.finish_next h)
  rename_i hs
  simp only [not_or, Decidable.not_not, Bool.not_eq_true] at hs
  exact .inr ((writeVerify_next h).imp id fun h => ⟨hs.1, hs.2, State.finish_next h⟩)

theorem execSetPc_cases {s t : State} (h : execSetPc s = .next t) :
    (∃ st, t = s.completed st) ∨ (s.state.beforeEnable = true ∧ isLow s.ops.a0 = true ∧
      t = ({ s with pc := s.ops.a0 } : State).completed .ok) := by
  unfold execSetPc at h
  split at h
  · exact .inl ⟨_, State.finish_next h⟩
  split at h
  · exact .inl ⟨_, State.finish_next h⟩
  rename_i h0 h1
  simp only [Bool.not_eq_true', Bool.not_eq_false] at h0 h1
  exact .inr ⟨h0, h1, State.finish_next h⟩

/-! ## One step, and one operation, as cases -/

/-- The operations of `DataStep`. -/
def isDataOp : Instr → Bool
  | .pteEncLeaf | .pteEncTable | .pteDec | .pteSummary | .createTable | .mapPage | .mapRange | .walk | .baseOf
  | .getKernelRoot | .translate | .register | .audit | .walkAndReport | .registerRegion | .isTranslationEnabled
  | .tlbiLocalAll => true
  | .newPair | .fsmMair | .fsmTcrDual | .fsmBases | .fsmTlbClean | .fsmEnable | .fsmMigrate | .fsmTcrKernel |
      .fsmFinish
  | .vecInstall | .vecRelocate | .setPc => false

theorem exec_data {i : Instr} {s t : State} (hi : isDataOp i = true) (h : exec i s = .next t) : DataStep s t := by
  cases i with
  | pteEncLeaf => exact execPteEncLeaf_data h
  | pteEncTable => exact execPteEncTable_data h
  | pteDec => exact execPteDec_data h
  | pteSummary => exact execPteSummary_data h
  | createTable => exact execCreateTable_data h
  | mapPage => exact execMapPage_data h
  | mapRange => exact execMapRange_data h
  | walk => exact execWalk_data h
  | newPair => simp [isDataOp] at hi
  | baseOf => exact execBaseOf_data h
  | getKernelRoot => exact execGetKernelRoot_data h
  | translate => exact execTranslate_data h
  | register => exact execRegister_data h
  | audit => exact execAudit_data h
  | walkAndReport => exact execWalkAndReport_data h
  | registerRegion => exact execRegisterRegion_data h
  | fsmMair => simp [isDataOp] at hi
  | fsmTcrDual => simp [isDataOp] at hi
  | fsmBases => simp [isDataOp] at hi
  | fsmTlbClean => simp [isDataOp] at hi
  | fsmEnable => simp [isDataOp] at hi
  | fsmMigrate => simp [isDataOp] at hi
  | fsmTcrKernel => simp [isDataOp] at hi
  | fsmFinish => simp [isDataOp] at hi
  | vecInstall => simp [isDataOp] at hi
  | vecRelocate => simp [isDataOp] at hi
  | isTranslationEnabled => exact execIsTranslationEnabled_data h
  | setPc => simp [isDataOp] at hi
  | tlbiLocalAll => exact execTlbiLocalAll_data h

/-- What an operation answers, case by case; what it may change besides is in the case's equation. -/
inductive OpCase (i : Instr) (s t : State) : Prop where
  | data (hi : isDataOp i = true) (h : DataStep s t)
  | refused (st : Status) (h : t = s.completed st)
  | sysHalt (h : SysHalt s t)
  | newPair (hp : s.state.permitsNewPair = true) (u : State) (hu : TablesOnly s u)
      (hw : s.mem.wf = true → u.mem.wf = true)
      (h : t = u.halted .allocationExhausted .allocatorExhausted ∨
        ∃ p0 p1, t = (((u.setRoots p0 p1).setR0 (frameAddr p0)).setR1 (frameAddr p1)).completed .ok)
  | vecInstall (hb : s.state.beforeEnable = true) (hv : s.vecPhysDone = false) (u : State)
      (hu : u = { s with mem := u.mem, unseen := u.unseen }) (hw : s.mem.wf = true → u.mem.wf = true)
      (h : (∃ f, t = u.halted .registerVerificationFailed f) ∨
        (∃ f, t = (u.sysWrite .vbar s.cfg.vecPhys).halted .registerVerificationFailed f) ∨
        (u.unseen = [] ∧ t = ({ u with sys := { u.sys with vbar := s.cfg.vecPhys }, vecPhysDone := true }.log
          (vbarMarker s.cfg.vecPhys)).completed .ok))
  | mair (hi : i = .fsmMair) (h0 : s.state = .init)
      (h : t = ({ s with sys := { s.sys with mair := s.cfg.mairValue } }.enter .mairProgrammed).completed .ok)
  | tcrDual (hi : i = .fsmTcrDual) (h0 : s.state = .mairProgrammed)
      (h : t = ({ s with sys := { s.sys with tcr := s.cfg.tcrDualValue }, tcrProgrammed := true }.enter
        .tcrBootstrapDual).completed .ok)
  | bases (hi : i = .fsmBases) (h0 : s.state = .tcrBootstrapDual) (hr : s.rootsValid = true)
      (h : t = ({ s with sys := { s.sys with ttbr0 := rootWord s.identityRoot, ttbr1 := rootWord s.kernelRoot }
          }.enter
        .basesLoaded).completed .ok)
  | tlbClean (hi : i = .fsmTlbClean) (h0 : s.state = .basesLoaded)
      (h : t = ({ s with tlb := [], unseen := [] }.enter .tlbClean).completed .ok)
  | enable (hi : i = .fsmEnable) (h0 : s.state = .tlbClean) (hv : s.vecPhysDone = true)
      (hp : pcInTrampoline s = true) (hd : dualMapped s = true)
      (h : t = ({ s with sys := { s.sys with sctlr := s.sys.sctlr ||| s.cfg.mMask } }.enter
          .translationOn).completed .ok)
  | migrate (hi : i = .fsmMigrate) (h0 : s.state = .translationOn) (hh : isHigh s.ops.a0 = true)
      (hf : executable (hwTranslate s s.ops.a0) = true) (h : t = ({ s with pc := s.ops.a0 }.enter .pcMigrated).completed .ok)
  | tcrKernel (hi : i = .fsmTcrKernel) (h0 : s.state = .pcMigrated) (hp : pcInKernelSpace s = true)
      (hv : s.vecVirtDone = true)
      (h : t = ({ s with sys := { s.sys with tcr := s.cfg.tcrKonlyValue } }.enter .tcrKernelOnly).completed .ok)
  | finish (hi : i = .fsmFinish) (h0 : s.state = .tcrKernelOnly) (h : t = (s.enter .steady).completed .ok)
  | vecRelocate (h0 : s.state = .pcMigrated) (hv : s.vecVirtDone = false)
      (h : t = ({ s with sys := { s.sys with vbar := vecAlias s.cfg }, vecVirtDone := true }.log
        (vbarMarker (vecAlias s.cfg))).completed .ok)
  | setPc (h0 : s.state.beforeEnable = true) (hl : isLow s.ops.a0 = true)
      (h : t = ({ s with pc := s.ops.a0 } : State).completed .ok)

theorem exec_opCase {i : Instr} {s t : State} (h : exec i s = .next t) : OpCase i s t := by
  by_cases hd : isDataOp i = true
  · exact .data hd (exec_data hd h)
  · cases i with
    | newPair =>
      rcases execNewPair_cases h with h | ⟨h1, u, h2, h3, h4⟩
      · exact .refused _ h
      · exact .newPair h1 u h2 h3 h4
    | vecInstall =>
      rcases execVecInstall_cases h with ⟨_, h⟩ | ⟨h1, h2, u, h3, h4, h5⟩
      · exact .refused _ h
      · exact .vecInstall h1 h2 u h3 h4 h5
    | fsmMair => rcases execFsmMair_cases h with h | h | ⟨h0, h⟩; exacts [.refused _ h, .sysHalt h, .mair rfl h0 h]
    | fsmTcrDual =>
      rcases execFsmTcrDual_cases h with h | h | ⟨h0, h⟩
      exacts [.refused _ h, .sysHalt h, .tcrDual rfl h0 h]
    | fsmBases =>
      rcases execFsmBases_cases h with h | h | ⟨h0, h1, h⟩
      exacts [.refused _ h, .sysHalt h, .bases rfl h0 h1 h]
    | fsmTlbClean => rcases execFsmTlbClean_cases h with h | ⟨h0, h⟩; exacts [.refused _ h, .tlbClean rfl h0 h]
    | fsmEnable =>
      rcases execFsmEnable_cases h with h | h | ⟨h0, -, h2, -, h4, h5, h⟩
      exacts [.refused _ h, .sysHalt h, .enable rfl h0 h2 h4 h5 h]
    | fsmMigrate =>
      rcases execFsmMigrate_cases h with h | h | ⟨h0, h1, h2, h⟩
      exacts [.refused _ h, .sysHalt h, .migrate rfl h0 h1 h2 h]
    | fsmTcrKernel =>
      rcases execFsmTcrKernel_cases h with h | h | ⟨h0, h1, h2, h⟩
      exacts [.refused _ h, .sysHalt h, .tcrKernel rfl h0 h1 h2 h]
    | fsmFinish => rcases execFsmFinish_cases h with h | ⟨h0, h⟩; exacts [.refused _ h, .finish rfl h0 h]
    | vecRelocate =>
      rcases execVecRelocate_cases h with h | h | ⟨h0, h1, h⟩
      exacts [.refused _ h, .sysHalt h, .vecRelocate h0 h1 h]
    | setPc => rcases execSetPc_cases h with ⟨_, h⟩ | ⟨h0, h1, h⟩; exacts [.refused _ h, .setPc h0 h1 h]
    | _ => exact absurd rfl hd

/-- A step that answers a next state: an operation or a reserved opcode in the state without the command, one of the
environment's acts, or nothing; and the core could fetch. -/
theorem step_cases {s t : State} (h : step s = .next t) :
    fetchFaults s = false ∧
    ((∃ i rest, exec i (s.advance rest) = .next t) ∨
      (∃ rest, t = (s.advance rest).completed .illegalCommand) ∨
      (∃ rest o, t = { s.advance rest with ops := o }) ∨
      (∃ rest b, t = { s.advance rest with irqMasked := b }) ∨
      (∃ rest va picks, t = walkerFill va picks (s.advance rest)) ∨
      (∃ rest v, s.agenda = .reset v :: rest ∧ t = (s.advance rest).blockReset v)) := by
  unfold step fetch at h
  split at h
  · split at * <;> simp_all
  · rename_i s1 hf
    split at hf
    · cases hf
    rename_i hff
    refine ⟨by simpa using hff, ?_⟩
    obtain rfl : s1 = t := by simpa using h
    split at hf
    · obtain rfl : s.advance [] = s1 := by simpa using hf
      exact .inr (.inr (.inl ⟨[], s.ops, rfl⟩))
    · rename_i e rest hag
      unfold applyEvent at hf
      split at hf
      · unfold acceptCommand at hf; split at hf <;> simp at hf
      · exact .inr (.inr (.inl ⟨rest, _, by simpa [eq_comm] using hf⟩))
      · exact .inr (.inr (.inr (.inl ⟨rest, _, by simpa [eq_comm] using hf⟩)))
      · exact .inr (.inr (.inr (.inr (.inl ⟨rest, _, _, by simpa [eq_comm] using hf⟩))))
      · split at hf
        · cases hf
        · obtain rfl : s.advance rest = s1 := by simpa using hf
          exact .inr (.inr (.inl ⟨rest, s.ops, rfl⟩))
      · rename_i v
        exact .inr (.inr (.inr (.inr (.inr ⟨rest, v, hag, by simpa [eq_comm] using hf⟩))))
  · rename_i i s1 hf
    split at hf
    · cases hf
    rename_i hff
    refine ⟨by simpa using hff, .inl ⟨i, ?_⟩⟩
    split at hf
    · cases hf
    · rename_i e rest hag
      refine ⟨rest, ?_⟩
      unfold applyEvent at hf
      split at hf <;> try (first | cases hf | (split at hf <;> cases hf))
      unfold acceptCommand at hf
      split at hf <;> simp_all
  · rename_i s1 hf
    split at hf
    · cases hf
    rename_i hff
    refine ⟨by simpa using hff, .inr (.inl ?_)⟩
    split at hf
    · cases hf
    · rename_i e rest hag
      refine ⟨rest, ?_⟩
      unfold applyEvent at hf
      split at hf <;> try (first | cases hf | (split at hf <;> cases hf))
      unfold acceptCommand at hf
      split at hf
      · simp at hf
      · obtain rfl : _ = s1 := by simpa using hf
        exact State.finish_next h

end Sys2Proof.Machine
end

