-- ==== Sys2Proof/Tests/Slice0.lean ====
section
/-! SUPPORT. Tests: the decoding of every opcode written out in bits, the refusals of the well-formedness checks, one or two
small steps an operation with the values of spec/95_test_vectors.md, and for every obligation with hypotheses a concrete
state and operands that meet them, clause by clause. -/

namespace Sys2Proof.Machine

set_option Elab.async false

/-! ## Helpers -/

/-- The outcome is a next state with this property. -/
def answers (r : Result) (p : State → Bool) : Bool :=
  match r with
  | .next t => p t
  | .fault _ => false
  | .refused _ => false

/-- The outcome is this fault. -/
def faultsWith (r : Result) (f : Fault) : Bool :=
  match r with
  | .next _ => false
  | .fault g => g == f
  | .refused _ => false

/-- A state with these operand registers. -/
def withOps (a0 a1 a2 a3 a4 a5 : Word) (s : State) : State :=
  { s with ops := { a0 := a0, a1 := a1, a2 := a2, a3 := a3, a4 := a4, a5 := a5 } }

/-- The reset state in another TransitionState. -/
def inState (t : TransState) : State := { State.reset with state := t }

/-- A debug build. -/
def debugBuild (s : State) : State := { s with cfg := { s.cfg with debugHaltOnAlignment := true } }

/-- A core whose system registers obey these rows (R29). -/
def withRows (rows : List LegalizeRow) (s : State) : State := { s with cfg := { s.cfg with legalizeRows := rows } }

/-- Two roots, 0x4100_0000 and 0x4100_4000, that share the tables for 0x4008_0000 (indices 0, 1, 0, 128); the level-3 table
is 0x4100_3000. -/
def tabled : State :=
  { State.reset with
    mem := ((((Memory.write64 [] 0x41000000 0x41001003#64).write64 0x41004000 0x41001003#64).write64 0x41001008
      0x41002003#64).write64 0x41002000 0x41003003#64)
    rootsValid := true
    identityRoot := 0x41000000#48
    kernelRoot := 0x41004000#48
    owned := [0x41000#36, 0x41001#36, 0x41002#36, 0x41003#36, 0x41004#36]
    alloc := [.frames 0x41005#36 16] }

/-- `tabled` with the trampoline's page and the vector table's page mapped executable (flags 0x704). -/
def mapped : State :=
  { tabled with mem := (tabled.mem.write64 0x41003400 0x40080707#64).write64 0x41003410 0x40082707#64 }

/-- The registers FSM_MAIR, FSM_TCR_DUAL, FSM_BASES and VEC_INSTALL leave, `pc` in the trampoline: ready for FSM_ENABLE. -/
def ready : State :=
  { mapped with
    state := .tlbClean, tcrProgrammed := true, vecPhysDone := true, pc := 0x40080040#64
    sys := { mair := 0x0C44FF00#64, tcr := 0x5B5103510#64, ttbr0 := 0x41000000#64, ttbr1 := 0x41004000#64
             sctlr := 0x30D00800#64, vbar := 0x40082000#64 } }

/-- After FSM_ENABLE. -/
def running : State := { ready with state := .translationOn, sys := { ready.sys with sctlr := 0x30D00801#64 } }

/-- After FSM_MIGRATE to 0xFFFF_0000_4008_0080. -/
def migrated : State := { running with state := .pcMigrated, pc := 0xFFFF000040080080#64 }

/-- After VEC_RELOCATE and FSM_TCR_KERNEL. -/
def narrowed : State :=
  { migrated with
    state := .tcrKernelOnly, vecVirtDone := true
    sys := { migrated.sys with tcr := 0x5B5103590#64, vbar := 0xFFFF000040082000#64 } }

/-- A state of STEADY. -/
def steadyState : State := { narrowed with state := .steady }

/-- Two roots, owned, without any table below them: a tree (R37). -/
def rooted : State :=
  { State.reset with
    rootsValid := true, identityRoot := 0x41000000#48, kernelRoot := 0x41001000#48
    owned := [0x41000#36, 0x41001#36], alloc := [.frames 0x41002#36 8] }

/-- `tabled` with a valid entry that is no table where 0x4020_0000 needs one. -/
def bent : State := { tabled with mem := tabled.mem.write64 0x41002008 0x40200001#64 }

/-- A record of identity space over `[a, b)`. -/
def region (a b : Word) : MappingRegion :=
  { name := 1#64, vstart := a, vend := b, pstart := a, flags := 4#64, space := .identity }

/-! ## Decoding: every opcode of R90, bit by bit, and reserved opcodes -/

theorem test_decode_pte : decode [0b00000001#8] = .ok (.pteEncLeaf, []) ∧ decode [0b00000010#8] = .ok (.pteEncTable, []) ∧
    decode [0b00000011#8] = .ok (.pteDec, []) ∧ decode [0b00000100#8] = .ok (.pteSummary, []) := by decide

theorem test_decode_twe : decode [0b00010000#8] = .ok (.createTable, []) ∧ decode [0b00010001#8] = .ok (.mapPage, []) ∧
    decode [0b00010010#8] = .ok (.mapRange, []) ∧ decode [0b00010011#8] = .ok (.walk, []) ∧
    decode [0b00010100#8] = .ok (.newPair, []) ∧ decode [0b00010101#8] = .ok (.baseOf, []) ∧
    decode [0b00010110#8] = .ok (.getKernelRoot, []) ∧ decode [0b00010111#8] = .ok (.translate, []) := by decide

theorem test_decode_registry : decode [0b00100000#8] = .ok (.register, []) ∧ decode [0b00100001#8] = .ok (.audit, []) ∧
    decode [0b00100010#8] = .ok (.walkAndReport, []) ∧ decode [0b00100011#8] = .ok (.registerRegion, []) := by decide

theorem test_decode_fsm : decode [0b00110000#8] = .ok (.fsmMair, []) ∧ decode [0b00110001#8] = .ok (.fsmTcrDual, []) ∧
    decode [0b00110010#8] = .ok (.fsmBases, []) ∧ decode [0b00110011#8] = .ok (.fsmTlbClean, []) ∧
    decode [0b00110100#8] = .ok (.fsmEnable, []) ∧ decode [0b00110101#8] = .ok (.fsmMigrate, []) ∧
    decode [0b00110110#8] = .ok (.fsmTcrKernel, []) ∧ decode [0b00110111#8] = .ok (.fsmFinish, []) := by decide

theorem test_decode_vec_tlbs : decode [0b00111000#8] = .ok (.vecInstall, []) ∧ decode [0b00111001#8] = .ok (.vecRelocate, []) ∧
    decode [0b00111010#8] = .ok (.isTranslationEnabled, []) ∧ decode [0b00111011#8] = .ok (.setPc, []) ∧
    decode [0b01000000#8] = .ok (.tlbiLocalAll, []) := by decide

/-- The reserved opcodes of T6. -/
theorem test_decode_reserved : decode [0x41#8] = .error (.reservedOpcode 0x41#8) ∧
    decode [0x00#8] = .error (.reservedOpcode 0x00#8) ∧ decode [0x05#8] = .error (.reservedOpcode 0x05#8) ∧
    decode [0x18#8] = .error (.reservedOpcode 0x18#8) ∧ decode [0x3C#8] = .error (.reservedOpcode 0x3C#8) ∧
    decode [0xFF#8] = .error (.reservedOpcode 0xFF#8) ∧ decode [] = .error .noByte := by decide

theorem test_decodeTableWord : decodeTableWord 8 0x11 = some .mapPage ∧ decodeTableWord 8 0x41 = none := by decide

/-! ## Well-formedness: each check of the parameters refuses an ill-formed term -/

theorem test_params_example : Params.exampleValues.wellFormed = true := by decide

theorem test_params_offset : { Params.exampleValues with kernelOffset := 0xFFFE000000000000#64 }.offsetOk = false ∧
    { Params.exampleValues with kernelOffset := 0xFFFF000000000800#64 }.offsetOk = false := by decide

theorem test_params_tramp : { Params.exampleValues with trampStart := 0x40080800#64 }.trampOk = false ∧
    { Params.exampleValues with trampEnd := 0x40080000#64 }.trampOk = false ∧
    { Params.exampleValues with trampEnd := 0x1000000001000#64 }.trampOk = false := by decide

theorem test_params_vec : { Params.exampleValues with vecPhys := 0x40082800#64 }.vecOk = false ∧
    { Params.exampleValues with vecSize := 2044#64 }.vecOk = false ∧
    { Params.exampleValues with vecSize := 4104#64 }.vecOk = false := by decide

theorem test_params_alias : { Params.exampleValues with kernelOffset := 0xFFFFFFFFC0000000#64 }.aliasOk = false := by decide

theorem test_params_mair : { Params.exampleValues with mairValue := 0x0C4400FF#64 }.mairOk = false := by decide

theorem test_params_masks : { Params.exampleValues with mMask := 0x3#64 }.masksOk = false ∧
    { Params.exampleValues with epd1Mask := 0x80#64 }.masksOk = false := by decide

theorem test_params_tcrDual : { Params.exampleValues with tcrDualValue := 0x5B5103590#64 }.tcrDualOk = false ∧
    { Params.exampleValues with tcrDualValue := 0x5B5103511#64 }.tcrDualOk = false := by decide

theorem test_params_tcrKonly : { Params.exampleValues with tcrKonlyValue := 0x5B5103510#64 }.tcrKonlyOk = false := by decide

theorem test_params_capacity : { Params.exampleValues with registryCapacity := 0 }.capacityOk = false := by decide

/-- R83 and T1: the flags words the table refuses. -/
theorem test_flags : flagsOk 0x00600000000007CC#64 = true ∧ flagsOk 0x10#64 = false ∧ flagsOk 0x20#64 = false ∧
    flagsOk 0x800#64 = false ∧ flagsOk 0x3#64 = false ∧ flagsOk 0x0080000000000000#64 = false := by decide

theorem test_instr_wellFormed : Instr.wellFormed .mapPage = true := by decide

/-! ## The descriptor's small parts -/

/-- T2. -/
theorem test_idx : (idx 0 0x100000000000#64, idx 1 0x40080000#64, idx 2 0xFFFF000009000000#64, idx 3 0x3FF000#64) =
    (32#9, 1#9, 72#9, 511#9) := by decide

/-- T2: the canonical test is of bits [63:48] only. -/
theorem test_canonical : canonical 0x0000800000000000#64 = true ∧ canonical 0x0001000000000000#64 = false ∧
    canonical 0x8000000000000000#64 = false ∧ canonical 0xFFFF000000000000#64 = true := by decide

/-- R60, by the rule's own table: kernel-RO leaf, executable at PL1 only. -/
theorem test_allowed : allowed 0x0040000000000080#64 .privileged .exec = true ∧
    allowed 0x0040000000000080#64 .privileged .write = false ∧
    allowed 0x0040000000000080#64 .unprivileged .read = false ∧
    allowed 0x40#64 .unprivileged .write = true := by decide

/-! ## Sub-block PTE (T1) -/

theorem test_pteEncLeaf : answers (exec .pteEncLeaf (withOps 0xFFFFFFFFF000#64 0x00600000000007CC#64 0#64 0#64 0#64 0#64
    State.reset)) (fun t => t.status == 0x00#8 && t.res.r0 == 0x0060FFFFFFFFF7CF#64) = true := by decide

theorem test_pteEncLeaf_alignment_first : answers (exec .pteEncLeaf (withOps 0x0001000000000800#64 0x10#64 0#64 0#64 0#64
    0#64 State.reset)) (fun t => t.status == 0x02#8 && t.res.r0 == 0#64) = true := by decide

theorem test_pteEncTable : answers (exec .pteEncTable (withOps 0x41002000#64 0#64 0#64 0#64 0#64 0#64 State.reset))
    (fun t => t.status == 0x00#8 && t.res.r0 == 0x41002003#64) = true := by decide

theorem test_pteEncTable_high : answers (exec .pteEncTable (withOps 0x0001000000000000#64 0#64 0#64 0#64 0#64 0#64 State.reset))
    (fun t => t.status == 0x11#8 && t.res.r0 == 0#64) = true := by decide

theorem test_pteDec : answers (exec .pteDec (withOps 0xFFFFFFFFFFFFFFFF#64 3#64 0#64 0#64 0#64 0#64 State.reset))
    (fun t => t.res.r0 == 2#64 && t.res.r1 == 0x0000FFFFFFFFF000#64 && t.res.r2 == 0x00600000000007DC#64) = true := by decide

theorem test_pteDec_malformed : answers (exec .pteDec (withOps 0x40000005#64 1#64 0#64 0#64 0#64 0#64 State.reset))
    (fun t => t.res.r0 == 3#64 && t.res.r1 == 0x40000000#64 && t.res.r2 == 4#64) = true := by decide

theorem test_pteSummary : answers (exec .pteSummary (withOps 0x400001C7#64 3#64 0#64 0#64 0#64 0#64 State.reset))
    (fun t => t.console == [.line .pte, .hex 0x400001C7#64, .line .leaf, .line .oa, .hex 0x40000000#64, .line .normal,
      .line .userRo, .line .shReserved, .line .noAf, .line .px, .line .ux]) = true := by decide

theorem test_pteSummary_table : answers (exec .pteSummary (withOps 0x41002003#64 1#64 0#64 0#64 0#64 0#64 State.reset))
    (fun t => t.console == [.line .pte, .hex 0x41002003#64, .line .table, .line .oa, .hex 0x41002000#64]) = true := by decide

/-! ## Sub-block TWE (T3, T4, T6) -/

theorem test_createTable : answers (exec .createTable State.reset)
    (fun t => t.res.r0 == 0x41000000#64 && t.owned == [0x41000#36] && t.status == 0x00#8) = true := by decide +kernel

theorem test_createTable_exhausted : answers (exec .createTable { State.reset with alloc := [.exhausted] })
    (fun t => t.status == 0x01#8 && t.state == .halted && t.failCause == 1#8 && t.failInfo == 20#8) = true := by
  decide +kernel

/-- T3 step 1: three tables made, four writes. -/
theorem test_mapPage : answers (exec .mapPage (withOps 0x41000000#64 0x100000000000#64 0x40000000#64 4#64 0#64 0#64
    { State.reset with owned := [0x41000#36], alloc := [.frames 0x41001#36 8] }))
    (fun t => t.status == 0x00#8 && t.mem.read64 0x41000100 == 0x41001003#64 && t.mem.read64 0x41001000 == 0x41002003#64 &&
      t.mem.read64 0x41002000 == 0x41003003#64 && t.mem.read64 0x41003000 == 0x40000007#64 && t.owned.length == 4) = true := by
  decide +kernel

/-- T3: exhaustion with rollback. -/
theorem test_mapPage_rollback : answers (exec .mapPage (withOps 0x41000000#64 0x100000000000#64 0x40000000#64 4#64 0#64 0#64
    { State.reset with owned := [0x41000#36], alloc := [.frames 0x41001#36 2] }))
    (fun t => t.status == 0x01#8 && t.state == .halted && t.failInfo == 20#8 && t.owned == [0x41000#36] && t.mem == []) =
    true := by decide +kernel

/-- T4 step 3 in small: the second page needs a new level-3 table. -/
theorem test_mapRange : answers (exec .mapRange (withOps 0x41000000#64 0x401FF000#64 0x40201000#64 0x801FF000#64 4#64 0#64
    tabled))
    (fun t => t.status == 0x00#8 && t.res.r0 == 2#64 && t.mem.read64 0x41003FF8 == 0x801FF007#64 &&
      t.mem.read64 0x41002008 == 0x41005003#64 && t.mem.read64 0x41005000 == 0x80200007#64) = true := by decide +kernel

/-- T4: partial completion on exhaustion. -/
theorem test_mapRange_exhausted : answers (exec .mapRange (withOps 0x41000000#64 0x401FF000#64 0x40201000#64 0x801FF000#64
    4#64 0#64 { tabled with alloc := [] }))
    (fun t => t.status == 0x01#8 && t.res.r0 == 1#64 && t.state == .halted && t.mem.read64 0x41002008 == 0#64) = true := by
  decide +kernel

theorem test_walk : answers (exec .walk (withOps 0x41000000#64 0x40080ABC#64 0#64 0#64 0#64 0#64 mapped))
    (fun t => t.res.r0 == 1#64 && t.res.r1 == 0x40080ABC#64 && t.res.r2 == 0x704#64) = true := by decide +kernel

theorem test_walk_unmapped : answers (exec .walk (withOps 0x41000000#64 0x40081000#64 0#64 0#64 0#64 0#64
    { mapped with res := { r0 := 1#64, r1 := 2#64, r2 := 3#64, r3 := 4#64 } }))
    (fun t => t.res == { r0 := 0#64, r1 := 0#64, r2 := 0#64, r3 := 4#64 }) = true := by decide +kernel

theorem test_newPair : answers (exec .newPair State.reset)
    (fun t => t.res.r0 == 0x41000000#64 && t.res.r1 == 0x41001000#64 && t.rootsValid && t.owned.length == 2) = true := by
  decide +kernel

/-- T6: the second request fails, the first frame is given back. -/
theorem test_newPair_exhausted : answers (exec .newPair { State.reset with alloc := [.frames 0x41000#36 1] })
    (fun t => t.status == 0x01#8 && t.state == .halted && t.owned == [] && !t.rootsValid) = true := by decide +kernel

theorem test_baseOf : answers (exec .baseOf (withOps 1#64 0#64 0#64 0#64 0#64 0#64 tabled))
    (fun t => t.status == 0x00#8 && t.res.r0 == 0x41004000#64) = true := by decide +kernel

theorem test_baseOf_bad_space : answers (exec .baseOf (withOps 2#64 0#64 0#64 0#64 0#64 0#64 tabled))
    (fun t => t.status == 0x11#8) = true := by decide +kernel

theorem test_getKernelRoot : answers (exec .getKernelRoot tabled) (fun t => t.res.r0 == 0x41004000#64) = true := by
  decide +kernel

theorem test_translate : answers (exec .translate (withOps 0xFFFF000040080040#64 0#64 0#64 0#64 0#64 0#64 mapped))
    (fun t => t.res.r0 == 1#64 && t.res.r1 == 0x40080040#64 && t.res.r2 == 0#64) = true := by decide +kernel

theorem test_translate_before_newPair : answers (exec .translate State.reset) (fun t => t.status == 0x10#8) = true := by decide

/-! ## The Mapping Registry (T5) -/

/-- Scenario C, the second call. -/
theorem test_register_conflict : answers (exec .register (withOps 2#64 0x1800#64 0x2500#64 0x1800#64 4#64 0#64
    { State.reset with registry := [region 0x1000#64 0x2000#64] }))
    (fun t => t.status == 0x03#8 && t.res.r0 == 0#64 && t.registry.length == 1) = true := by decide

/-- T5 step 3: touching is no overlap. -/
theorem test_register_touching : answers (exec .register (withOps 3#64 0x2000#64 0x3000#64 0x2000#64 4#64 0#64
    { State.reset with registry := [region 0x1000#64 0x2000#64] }))
    (fun t => t.status == 0x00#8 && t.res.r0 == 1#64 && t.registry.length == 2) = true := by decide

/-- T5: the registry set from outside. -/
theorem test_audit : answers (exec .audit { State.reset with registry := [region 0x1000#64 0x3000#64,
    region 0x2000#64 0x4000#64, region 0x2800#64 0x2900#64, { region 0x2000#64 0x4000#64 with space := .kernel },
    region 0x3000#64 0x3000#64] })
    (fun t => t.res.r0 == 3#64 && t.res.r1 == 0#64 && t.res.r2 == 1#64 && t.console == [.line .audit, .hex 3#64, .hex 0#64,
      .hex 1#64, .hex 0#64, .hex 2#64, .hex 1#64, .hex 2#64]) = true := by decide

theorem test_walkAndReport : answers (exec .walkAndReport (withOps 1#64 0x40080040#64 0#64 0#64 0#64 0#64 mapped))
    (fun t => t.res.r1 == 0x40080040#64 && t.console == [.line .walk, .hex 1#64, .hex 0x40080040#64, .line .pa,
      .hex 0x40080040#64, .line .normal, .line .kernelRw, .line .shInner, .line .af, .line .px, .line .ux]) = true := by
  decide +kernel

theorem test_walkAndReport_unmapped : answers (exec .walkAndReport (withOps 1#64 0xFFFF000050000000#64 0#64 0#64 0#64 0#64
    mapped)) (fun t => t.res.r0 == 0#64 &&
      t.console == [.line .walk, .hex 1#64, .hex 0xFFFF000050000000#64, .line .unmapped]) = true := by decide +kernel

theorem test_registerRegion : answers (exec .registerRegion (withOps 7#64 0x40081000#64 0x40083000#64 0x0A000000#64 0x40C#64
    0#64 tabled)) (fun t => t.status == 0x00#8 && t.res.r0 == 0#64 && t.res.r1 == 2#64 && t.registry.length == 1 &&
      t.mem.read64 0x41003408 == 0x0A00040F#64 && t.mem.read64 0x41003410 == 0x0A00140F#64) = true := by decide +kernel

theorem test_registerRegion_empty : answers (exec .registerRegion (withOps 1#64 0x40000000#64 0x40000000#64 0x40000000#64 4#64
    0#64 tabled)) (fun t => t.status == 0x00#8 && t.res.r0 == 0#64 && t.res.r1 == 0#64 && t.registry.length == 1 &&
      t.mem == tabled.mem) = true := by decide +kernel

/-! ## Sub-block FSM (T7, T8, T9) -/

theorem test_fsmMair : answers (exec .fsmMair State.reset) (fun t => t.sys.mair == 0x0C44FF00#64 && t.state == .mairProgrammed &&
    t.console == [.line .state, .hex 1#64, .line .ok]) = true := by decide

theorem test_fsmMair_readback : answers (exec .fsmMair (withRows [.mask .mair 0xFFFF#64 0#64] State.reset))
    (fun t => t.status == 0x04#8 && t.state == .halted && t.failInfo == 1#8 && t.sys.mair == 0xFF00#64) = true := by decide

theorem test_fsmTcrDual : answers (exec .fsmTcrDual (inState .mairProgrammed))
    (fun t => t.sys.tcr == 0x5B5103510#64 && t.tcrProgrammed && t.liveIdentity && t.liveKernel) = true := by decide

theorem test_fsmTcrDual_readback : answers (exec .fsmTcrDual (withRows [.mask .tcr 0xFFFFFFF8FFFFFFFF#64 0#64]
    (inState .mairProgrammed))) (fun t => t.failInfo == 2#8 && t.sys.tcr == 0xB5103510#64) = true := by decide

theorem test_fsmBases : answers (exec .fsmBases { tabled with state := .tcrBootstrapDual })
    (fun t => t.sys.ttbr0 == 0x41000000#64 && t.sys.ttbr1 == 0x41004000#64 && t.state == .basesLoaded) = true := by
  decide +kernel

theorem test_fsmBases_readback : answers (exec .fsmBases (withRows [.mask .ttbr0 0xFFFFFFFFFFFFFFFF#64 1#64]
    { tabled with state := .tcrBootstrapDual }))
    (fun t => t.failInfo == 3#8 && t.sys.ttbr0 == 0x41000001#64 && t.sys.ttbr1 == 0#64) = true := by decide +kernel

theorem test_fsmTlbClean : answers (exec .fsmTlbClean { inState .basesLoaded with
    tlb := [{ vaPage := 0#64, paPage := 0#64, flags := 0#64 }] })
    (fun t => t.tlb == [] && t.state == .tlbClean && t.console == [.line .state, .hex 4#64, .line .ok]) = true := by decide

theorem test_fsmEnable : answers (exec .fsmEnable ready)
    (fun t => t.state == .translationOn && t.sys.sctlr == 0x30D00801#64 && t.xlatOn) = true := by decide +kernel

/-- Scenario E: the trampoline in the identity space only. -/
theorem test_fsmEnable_scenarioE : answers (exec .fsmEnable { ready with kernelRoot := 0x41006000#48 })
    (fun t => t.status == 0x04#8 && t.state == .halted && t.failCause == 4#8 && t.failInfo == 12#8 &&
      t.sys.sctlr == 0x30D00800#64) = true := by decide +kernel

theorem test_fsmMigrate : answers (exec .fsmMigrate (withOps 0xFFFF000040080080#64 0#64 0#64 0#64 0#64 0#64 running))
    (fun t => t.pc == 0xFFFF000040080080#64 && t.state == .pcMigrated) = true := by decide +kernel

theorem test_fsmMigrate_low : answers (exec .fsmMigrate (withOps 0x40080080#64 0#64 0#64 0#64 0#64 0#64 running))
    (fun t => t.failInfo == 7#8 && t.pc == 0x40080040#64) = true := by decide +kernel

theorem test_fsmTcrKernel : answers (exec .fsmTcrKernel { migrated with vecVirtDone := true })
    (fun t => t.sys.tcr == 0x5B5103590#64 && t.state == .tcrKernelOnly && !t.liveIdentity && t.liveKernel) = true := by
  decide +kernel

theorem test_fsmTcrKernel_not_relocated : answers (exec .fsmTcrKernel migrated)
    (fun t => t.failInfo == 17#8 && t.sys.tcr == 0x5B5103510#64) = true := by decide +kernel

theorem test_fsmFinish : answers (exec .fsmFinish narrowed)
    (fun t => t.state == .steady && t.status == 0x00#8 && !t.irqMaskReq) = true := by decide +kernel

/-- A vector table of two words, to keep the test small (T9). -/
def smallVectors (src : Word) : State :=
  withOps src 0#64 0#64 0#64 0#64 0#64
    { State.reset with
      cfg := { Params.exampleValues with vecSize := 16#64 }
      mem := (Memory.write64 [] 0x40090000 0xA000#64).write64 0x40090008 0xA001#64 }

theorem test_vecInstall : answers (exec .vecInstall (smallVectors 0x40090000#64))
    (fun t => t.status == 0x00#8 && t.mem.read64 0x40082000 == 0xA000#64 && t.mem.read64 0x40082008 == 0xA001#64 &&
      t.sys.vbar == 0x40082000#64 && t.vecPhysDone) = true := by decide +kernel

/-- A source that overlaps the target, and one that ends past 2^48. -/
theorem test_vecInstall_refused : answers (exec .vecInstall (withOps 0x40082400#64 0#64 0#64 0#64 0#64 0#64 State.reset))
      (fun t => t.status == 0x11#8 && !t.vecPhysDone) = true ∧
    answers (exec .vecInstall (smallVectors 0xFFFFFFFFFFF8#64)) (fun t => t.status == 0x11#8 && !t.vecPhysDone) = true := by
  decide +kernel

theorem test_vecRelocate : answers (exec .vecRelocate migrated)
    (fun t => t.sys.vbar == 0xFFFF000040082000#64 && t.vecVirtDone) = true := by decide +kernel

theorem test_isTranslationEnabled : answers (exec .isTranslationEnabled running) (fun t => t.res.r0 == 1#64) = true ∧
    answers (exec .isTranslationEnabled ready) (fun t => t.res.r0 == 0#64) = true := by decide +kernel

theorem test_setPc : answers (exec .setPc (withOps 0x40080040#64 0#64 0#64 0#64 0#64 0#64 State.reset))
    (fun t => t.pc == 0x40080040#64) = true ∧
    answers (exec .setPc (withOps 0xFFFF000040080040#64 0#64 0#64 0#64 0#64 0#64 State.reset))
      (fun t => t.status == 0x11#8 && t.pc == 0#64) = true := by decide

theorem test_tlbiLocalAll : answers (exec .tlbiLocalAll { inState .basesLoaded with
    tlb := [{ vaPage := 0#64, paPage := 0#64, flags := 0#64 }] }) (fun t => t.tlb == [] && t.state == .basesLoaded) = true ∧
    answers (exec .tlbiLocalAll State.reset) (fun t => t.status == 0x10#8) = true := by decide

/-! ## The step -/

theorem test_withFetchWord : answers (step (State.reset.withFetchWord 8 0x30)) (fun t => t.state == .mairProgrammed) = true := by
  decide +kernel

theorem test_walkerFill : answers (step { running with agenda := [.walkerFill 0x40080040#64 []] })
    (fun t => t.tlb == [{ vaPage := 0x40080000#64, paPage := 0x40080000#64, flags := 0x704#64 }]) = true := by decide +kernel

/-- R210 (a): after FSM_TCR_KERNEL a low address no longer translates, but an entry the TLB kept may stand in. -/
theorem test_staleEntry_standsIn :
    coreTranslate 0 { narrowed with tlb := [{ vaPage := 0x40080000#64, paPage := 0x40080000#64, flags := 0x704#64 }] }
      0x40080123#64 = none ∧
    coreTranslate 1 { narrowed with tlb := [{ vaPage := 0x40080000#64, paPage := 0x40080000#64, flags := 0x704#64 }] }
      0x40080123#64 = some { pa := 0x40080123#64, flags := some 0x704#64 } := by decide +kernel

/-- R60, R63: the core's own write to a kernel-RW page, at each level. -/
theorem test_access :
    answers (step { running with agenda := [.access 0x40080008#64 .privileged .write 0] })
      (fun t => t == { running with agenda := [] }) = true ∧
    faultsWith (step { running with agenda := [.access 0x40080008#64 .unprivileged .write 0] }) .translationFault = true := by
  decide +kernel

/-! ## Witnesses: concrete states and operands that meet the hypotheses of each obligation, clause by clause -/

/-- The boundary opcodes next to each family of R90. -/
theorem witness_ReservedOpcodeCompletesWithIllegalCommand :
    ∀ op ∈ [0x00#8, 0x05#8, 0x0F#8, 0x18#8, 0x24#8, 0x2F#8, 0x3C#8, 0x3F#8, 0x41#8, 0xFF#8],
      fetchFaults { State.reset with agenda := [.command op] } = false ∧
      op ∉ [0x01#8, 0x02#8, 0x03#8, 0x04#8, 0x10#8, 0x11#8, 0x12#8, 0x13#8, 0x14#8, 0x15#8, 0x16#8, 0x17#8, 0x20#8, 0x21#8,
        0x22#8, 0x23#8, 0x30#8, 0x31#8, 0x32#8, 0x33#8, 0x34#8, 0x35#8, 0x36#8, 0x37#8, 0x38#8, 0x39#8, 0x3A#8, 0x3B#8,
        0x40#8] := by decide +kernel

theorem witness_StepRunsTheDecodedCommand : fetchFaults { running with agenda := [.command 0x13#8] } = false ∧
    Instr.wellFormed .walk = true ∧ decode [0x13#8] = .ok (.walk, []) := by decide +kernel

/-- The run's first clauses: a `pc` no table maps, a `pc` whose leaf is PXN, a stale entry picked for `pc`, and translation off. -/
theorem witness_UntranslatableFetchEndsTheRun :
    (running.sys.sctlr &&& running.cfg.mMask ≠ 0#64 ∧ running.state ≠ .halted ∧
      coreTranslate 0 { running with pc := 0x40081000#64 } 0x40081000#64 = none) ∧
    (coreTranslate 0 { running with mem := running.mem.write64 0x41003408 0x0020000040081707#64 } 0x40081000#64 =
      some { pa := 0x40081000#64, flags := some 0x0020000000000704#64 } ∧ (0x0020000000000704#64).getLsbD 53 = true) ∧
    ((([[1]] : List (List Nat)).headD []).headD 0 = 1 ∧
      coreTranslate 1 { running with tlb := [{ vaPage := 0x40080000#64, paPage := 0#64, flags := 0x0020000000000000#64 }] }
        running.pc = some { pa := 0x40#64, flags := some 0x0020000000000000#64 }) ∧
    ready.sys.sctlr &&& ready.cfg.mMask = 0#64 := by decide +kernel

/-- Its trampoline clause, at the second of two pages; its access clauses; and its clauses about the TLB. -/
theorem witness_UntranslatableFetchEndsTheRun_more :
    (running.state = .translationOn ∧ running.cfg.trampStart.toNat + 4096 * 1 < (0x40082000#64).toNat ∧
      coreTranslate 0 running (running.cfg.trampStart + BitVec.ofNat 64 (4096 * 1)) = none) ∧
    (fetchFaults { running with agenda := [.access 0x40081000#64 .privileged .read 0] } = false ∧
      coreTranslate 0 running 0x40081000#64 = none) ∧
    (fetchFaults { running with agenda := [.access 0x40080000#64 .privileged .write 0] } = false ∧
      coreTranslate 0 running 0x40080000#64 = some { pa := 0x40080000#64, flags := some 0x704#64 } ∧
      (0x704#64).toNat / 64 % 4 = 0) ∧
    tlbHits running 0x40080000#64 = [] ∧
    (tlbHits { running with tlb := [{ vaPage := 0x40080000#64, paPage := 0#64, flags := 0#64 }] } 0x40080FFF#64)[0]? =
      some { vaPage := 0x40080000#64, paPage := 0#64, flags := 0#64 } := by decide +kernel

/-- Parameters that break R8: VEC_PHYS four bytes off a word. -/
theorem witness_EveryOperationAnswers :
    faultsWith (exec .vecInstall { smallVectors 0x40090000#64 with cfg := { Params.exampleValues with vecPhys := 0x40082004#64 } })
      .physicalAccess = true ∧ { Params.exampleValues with vecPhys := 0x40082004#64 }.vecOk = false := by decide +kernel

theorem witness_HaltedAnswersIllegalCommandUntilReset : (inState .halted).state = .halted ∧
    answers (step { inState .halted with agenda := [.command 0x41#8] }) (fun t => t.state == .halted) = true ∧
    answers (step { inState .halted with agenda := [.command 0x30#8] }) (fun t => t.state == .halted) = true := by
  decide +kernel

/-- The agenda each clause asks for is a field of any state whose core can fetch. -/
theorem witness_HostDrivesOperandsAndMask : ∀ e ∈ [Event.operand 0 1#64, .operand 5 1#64, .irqMasked false],
    fetchFaults { running with agenda := [e] } = false := by decide +kernel

/-- What a reset may leave, at the ends of the ranges. -/
def leftByReset : ResetValues :=
  { ops := State.reset.ops, res := State.reset.res, pcLow := 0xFFFFFFFFFFFF#48, identityRoot := 0#48
    kernelRoot := 0xFFFFFFFFFFFF#48, sys := { steadyState.sys with sctlr := 0xFFFFFFFFFFFFFFFF#64 }
    memory := [(0, 1#8), (281474976710656, 1#8), (0, 2#8)], tlb := [] }

theorem witness_ResetEventGivesTheResetValues :
    fetchFaults { steadyState with agenda := [.reset leftByReset] } = false ∧
    answers (step { steadyState with agenda := [.reset leftByReset] })
      (fun t => t.state == .init && !t.xlatOn && t.mem == [(0, 2#8)]) = true := by decide +kernel

theorem witness_WalkerFillsCurrentTranslationsOnly :
    fetchFaults { running with agenda := [.walkerFill 0x40080FFF#64 [1]] } = false ∧ running.unseen = [] ∧
    hwTranslate running (0x40080FFF#64 &&& 0xFFFFFFFFFFFFF000#64) = some { pa := 0x40080000#64, flags := some 0x704#64 } := by
  decide +kernel

/-! ### Sub-block PTE -/

theorem witness_LeafEncodingFollowsItsRule : (inState .halted).state = .halted ∧ State.reset.state ≠ .halted ∧
    ¬ Aligned 0x1#64 ∧ State.reset.cfg.debugHaltOnAlignment = false ∧
    (debugBuild State.reset).cfg.debugHaltOnAlignment = true ∧
    Aligned 0x0001000000000000#64 ∧ ¬ (Physical 0x0001000000000000#64 ∧ FlagsWord 4#64) ∧
    Aligned 0#64 ∧ ¬ (Physical 0#64 ∧ FlagsWord 0x10#64) ∧
    Aligned 0x0000FFFFFFFFF000#64 ∧ Physical 0x0000FFFFFFFFF000#64 ∧ FlagsWord 0x00600000000007CC#64 := by decide

theorem witness_TableEncodingFollowsItsRule : ¬ Aligned 0x41002008#64 ∧ Aligned 0x0001000000000000#64 ∧
    ¬ Physical 0x0001000000000000#64 ∧ Aligned 0x0000FFFFFFFFF000#64 ∧ Physical 0x0000FFFFFFFFF000#64 := by decide

theorem witness_DescriptorDecodingFollowsItsRule : 3 < (4#64).toNat ∧ (3#64).toNat ≤ 3 ∧ State.reset.state ≠ .halted := by
  decide

theorem witness_SummaryPrintsTheDescriptor : 3 < (withOps 0#64 4#64 0#64 0#64 0#64 0#64 State.reset).ops.a1.toNat ∧
    (withOps 0x40000007#64 3#64 0#64 0#64 0#64 0#64 State.reset).ops.a1.toNat ≤ 3 := by decide

theorem witness_DecodingReturnsWhatWasEncoded : State.reset.state ≠ .halted ∧ Aligned 0x0000FFFFFFFFF000#64 ∧
    Physical 0x0000FFFFFFFFF000#64 ∧ FlagsWord 0x00600000000007CC#64 ∧ (2#64).toNat < 3 := by decide

/-! ### Sub-block TWE -/

theorem witness_CreateTableAnswersAZeroedFrame : ¬ MutationState TransState.tlbClean ∧ MutationState steadyState.state ∧
    MutationState State.reset.state ∧
    nextAnswer { State.reset with alloc := [.exhausted] }.frameFree [.exhausted] = (none, []) ∧
    nextAnswer steadyState.frameFree steadyState.alloc = (some 0x41005#36, [.frames 0x41006#36 15]) := by decide +kernel

/-- An allocator whose stretch begins at the trampoline: that frame and the vector table's are passed over. -/
theorem witness_AllocatorAnswersAFreshZeroedFrame : State.reset.cfg.wellFormed = true ∧
    (allocFrame { State.reset with alloc := [.frames 0x40080#36 4] }).1 = some 0x40081#36 ∧
    (allocFrame { State.reset with alloc := [.frames 0x40082#36 4] }).1 = some 0x40083#36 ∧
    (allocFrame State.reset).1 = some 0x41000#36 := by decide +kernel

theorem witness_NewPairMakesTwoZeroedRoots : tabled.rootsValid = true ∧ State.reset.rootsValid = false ∧
    ¬ ((inState .basesLoaded).state = .init ∨ (inState .basesLoaded).state = .mairProgrammed ∨
      (inState .basesLoaded).state = .tcrBootstrapDual) ∧
    (inState .tcrBootstrapDual).state = .tcrBootstrapDual ∧
    nextAnswer State.reset.frameFree [.exhausted] = (none, []) ∧
    nextAnswer State.reset.frameFree [.frames 0x41000#36 2] = (some 0x41000#36, [.frames 0x41001#36 1]) ∧
    nextAnswer { State.reset with owned := [0x41000#36] }.frameFree [.frames 0x41001#36 1] =
      (some 0x41001#36, [.frames 0x41002#36 0]) ∧
    nextAnswer { State.reset with owned := [0x41000#36] }.frameFree [.frames 0x41001#36 0] = (none, []) := by decide +kernel

theorem tabled_leafTable : LeafTable tabled.mem 0x41000#36 0x40080000#64 0x41003#36 := by
  unfold LeafTable
  decide +kernel

theorem mapped_leafTable : LeafTable mapped.mem 0x41000#36 0x40080000#64 0x41003#36 := by
  unfold LeafTable
  decide +kernel

/-- In INIT and in STEADY, a slot that is empty and one that holds a leaf. -/
theorem witness_MapPageWritesTheLeaf : MemoryCanonical tabled ∧ MutationState tabled.state ∧ MemoryCanonical steadyState ∧
    MutationState steadyState.state ∧ Aligned 0x41000000#64 ∧ Physical 0x41000000#64 ∧ Aligned 0x40080000#64 ∧
    CanonicalAddr 0x40080000#64 ∧ Aligned 0x0000FFFFFFFFF000#64 ∧ Physical 0x0000FFFFFFFFF000#64 ∧ FlagsWord 0x704#64 ∧
    LeafTable tabled.mem (frameOf 0x41000000#64) 0x40080000#64 0x41003#36 ∧
    LeafTable steadyState.mem (frameOf 0x41000000#64) 0x40080000#64 0x41003#36 := by
  refine ⟨by decide +kernel, by decide, by decide +kernel, by decide, by decide, by decide, by decide, by decide, by decide,
    by decide, by decide, tabled_leafTable, mapped_leafTable⟩

/-- The tables on the path of a page whose tables exist, and of one whose level-3 table is missing. -/
theorem tabled_existingPath :
    existingPath tabled.mem 0x40080000#64 tableLevels 0x41000#36 = [0x41000#36, 0x41001#36, 0x41002#36, 0x41003#36] ∧
    existingPath tabled.mem 0x40200000#64 tableLevels 0x41000#36 = [0x41000#36, 0x41001#36, 0x41002#36] := by decide +kernel

/-- A MAP_PAGE into `tabled` whose tables exist, and one whose level-3 table is made. -/
theorem witness_MapPageThenWalkReturnsTheMapping : MemoryCanonical tabled ∧
    OwnedPath tabled 0x41000#36 0x40080000#64 ∧ OwnedPath tabled 0x41000#36 0x40200000#64 ∧
    frameOf 0x41000000#64 = 0x41000#36 ∧
    answers (exec .mapPage (withOps 0x41000000#64 0x40080000#64 0x40000000#64 4#64 0#64 0#64 tabled))
      (fun t => t.status == 0x00#8) = true ∧
    answers (exec .mapPage (withOps 0x41000000#64 0x40200000#64 0x40000000#64 4#64 0#64 0#64 tabled))
      (fun t => t.status == 0x00#8) = true := by
  unfold OwnedPath
  rw [tabled_existingPath.1, tabled_existingPath.2]
  exact ⟨by decide +kernel, by simp [tabled], by simp [tabled], by decide, by decide +kernel, by decide +kernel⟩

theorem rooted_existingPath (va : Word) (r : Frame) : existingPath [] va tableLevels r = [r] := by
  have h : ∀ a, Memory.read64 [] a = 0#64 := fun a => by simp [Memory.read64, Memory.read]
  simp [tableLevels, existingPath, h, descUsable]

theorem rooted_walk (va : Word) (r : Frame) : walk [] r va = none := by
  have h : ∀ a, Memory.read64 [] a = 0#64 := fun a => by simp [Memory.read64, Memory.read]
  simp [walk, walkWith, tableLevels, walkTables, h, descUsable]

theorem rooted_ownedPath (va : Word) {r : Frame} (hr : r = 0x41000#36 ∨ r = 0x41001#36) : OwnedPath rooted r va := by
  have hm : rooted.mem = [] := rfl
  unfold OwnedPath
  rw [hm, rooted_existingPath]
  rcases hr with rfl | rfl <;> simp [rooted]

/-- Both roots of `rooted` head a tree, under any operands and with any allocator. -/
theorem rooted_tree {s : State} {r : Frame} (hm : s.mem = []) (ho : s.owned = [0x41000#36, 0x41001#36])
    (hr : r = 0x41000#36 ∨ r = 0x41001#36) : TableTree s r where
  owned va f h := by
    rw [hm, rooted_existingPath] at h
    rw [ho]
    rcases hr with rfl | rfl <;> simp_all
  tree va va' i j f hi hj := by
    rw [hm, rooted_existingPath] at hi hj
    have h0 : i = 0 := by
      cases i with
      | zero => rfl
      | succ i => simp at hi
    have h1 : j = 0 := by
      cases j with
      | zero => rfl
      | succ j => simp at hj
    subst h0 h1
    exact ⟨rfl, by omega⟩

/-- A tree, with a page of another number; another root whose tables for the page are owned; and, the tables of `virt`
existing, the page after it under the same root and the same page under a root without tables. -/
theorem witness_MapPageMovesNoOtherTranslation :
    (answers (exec .mapPage (withOps 0x41000000#64 0x40080000#64 0#64 4#64 0#64 0#64 mapped))
      (fun t => t.status == 0x00#8) = true ∧
    answers (exec .mapPage (withOps 0x41000000#64 0x40080000#64 0#64 4#64 0#64 0#64 rooted))
      (fun t => t.status == 0x00#8) = true) ∧
    TableTree (withOps 0x41000000#64 0x40080000#64 0#64 4#64 0#64 0#64 rooted) 0x41000#36 ∧
    pageNumber 0xFFFF000040081000#64 ≠ pageNumber 0x40080000#64 ∧
    (OwnedPath rooted 0x41000#36 0x40080000#64 ∧ ∀ f ∈ existingPath rooted.mem 0x40080000#64 tableLevels 0x41001#36,
      f ∈ rooted.owned ∧ f ∉ existingPath rooted.mem 0x40080000#64 tableLevels 0x41000#36) ∧
    LeafTable mapped.mem 0x41000#36 0x40080000#64 0x41003#36 ∧
    (0x41003#36 ∉ tablePath mapped.mem 0x40081000#64 tableLevels 0x41000#36 ∧ idx 3 0x40081000#64 ≠ idx 3 0x40080000#64) ∧
    (0x41003#36 ∉ tablePath mapped.mem 0x40080000#64 tableLevels 0x41006#36 ∧
      walkTables (fun _ a => mapped.mem.read64 a) 0x40080000#64 tableLevels 0x41006#36 ≠ some 0x41003#36) := by
  refine ⟨by decide +kernel, rooted_tree rfl rfl (.inl rfl), by decide, ⟨rooted_ownedPath _ (.inl rfl), ?_⟩, mapped_leafTable,
    by decide +kernel, by decide +kernel⟩
  have hm : rooted.mem = [] := rfl
  rw [hm]
  simp [rooted_existingPath, rooted]

/-- One table missing, and three. -/
theorem witness_MapPageMakesTheMissingTables :
    (OwnedPath tabled 0x41000#36 0x40200000#64 ∧ ¬ MalformedPath tabled.mem 0x41000#36 0x40200000#64 ∧
      missingTables tabled.mem 0x41000#36 0x40200000#64 = 1 ∧
      tabled.grants 1 = ([0x41005#36], [.frames 0x41006#36 15])) ∧
    OwnedPath rooted 0x41001#36 0xFFFF000040081000#64 ∧ ¬ MalformedPath rooted.mem 0x41001#36 0xFFFF000040081000#64 ∧
    missingTables rooted.mem 0x41001#36 0xFFFF000040081000#64 = 3 ∧
    rooted.grants 3 = ([0x41002#36, 0x41003#36, 0x41004#36], [.frames 0x41005#36 5]) := by
  refine ⟨⟨?_, ?_, by decide +kernel, by decide +kernel⟩, rooted_ownedPath _ (.inr rfl), ?_, by decide +kernel,
    by decide +kernel⟩
  · unfold OwnedPath
    rw [tabled_existingPath.2]
    simp [tabled]
  all_goals
    unfold MalformedPath
    decide +kernel

/-- A valid entry that is no table; an allocator exhausted at once, and one exhausted after one table of three. -/
theorem witness_FailedMapPageGivesItsFramesBack :
    (answers (exec .mapPage (withOps 0x41000000#64 0x40200000#64 0#64 4#64 0#64 0#64 bent))
        (fun t => t.status == 0x12#8 && t.state == .init) = true ∧
      MalformedPath bent.mem 0x41000#36 0x40200000#64) ∧
    (¬ MalformedPath tabled.mem 0x41000#36 0x40200000#64 ∧ missingTables tabled.mem 0x41000#36 0x40200000#64 = 1 ∧
      { tabled with alloc := [] }.grants 1 = ([], [])) ∧
    OwnedPath rooted 0x41000#36 0x40200000#64 ∧ ¬ MalformedPath rooted.mem 0x41000#36 0x40200000#64 ∧
    missingTables rooted.mem 0x41000#36 0x40200000#64 = 3 ∧
    { rooted with alloc := [.frames 0x41005#36 1] }.grants 3 = ([0x41005#36], []) := by
  refine ⟨⟨by decide +kernel, ?_⟩, ⟨?_, by decide +kernel, by decide +kernel⟩, rooted_ownedPath _ (.inl rfl), ?_,
    by decide +kernel, by decide +kernel⟩
  all_goals
    unfold MalformedPath
    decide +kernel

theorem witness_MutationsRefusedInTheTransitionWindow : ready.state = .tlbClean ∧ running.state = .translationOn ∧
    migrated.state = .pcMigrated ∧ narrowed.state = .tcrKernelOnly ∧ (inState .halted).state = .halted := by decide

/-- For each of the four operations an operand off by one byte or one word, alignment checked before the domains. -/
theorem witness_MisalignedAddressesAreReported : MutationState tabled.state ∧ tabled.state ≠ .halted ∧
    tabled.rootsValid = true ∧ ¬ (Aligned 0x41000010#64 ∧ Aligned 0#64 ∧ Aligned 0#64) ∧
    ¬ (Aligned 0#64 ∧ Aligned 0#64 ∧ Aligned 0xFFF#64 ∧ Aligned 0#64) ∧ ¬ Aligned 0x0001000000000800#64 ∧
    tabled.cfg.debugHaltOnAlignment = false ∧ (debugBuild tabled).cfg.debugHaltOnAlignment = true := by decide

/-- For MAP_PAGE the four domains one by one, for MAP_RANGE the boundary rows 7, 10, 11 and 12 of T4, for WALK one, for
REGISTER_REGION the space, the range, a physical address of 2^48 and a physical range of two pages that passes 2^48. -/
theorem witness_OperandsOutsideTheirDomainAreRefused : MutationState tabled.state ∧ tabled.rootsValid = true ∧
    Aligned 0x0001000000000000#64 ∧ ¬ Physical 0x0001000000000000#64 ∧ ¬ CanonicalAddr 0x0001000000000000#64 ∧
    ¬ FlagsWord 0x14#64 ∧ Aligned 0x501000#64 ∧ ¬ ((0x501000#64).toNat ≤ (0x500000#64).toNat) ∧
    ¬ CanonicalAddr (0x0001000000001000#64 - 4096#64) ∧
    ¬ (Low (0xFFFF000000001000#64 - 4096#64) ↔ Low 0x0000FFFFFFFFF000#64) ∧
    ¬ ((0x0000FFFFFFFFF000#64).toNat + ((0x602000#64).toNat - (0x600000#64).toNat) ≤ 281474976710656) ∧
    ¬ ((2#64).toNat ≤ 1) ∧ ¬ RegionRange 0xFFFFFFFFFFFFF000#64 0#64 ∧
    ¬ ((0x0000FFFFFFFFF000#64).toNat + ((0x602000#64).toNat - (0x600000#64).toNat) ≤ 281474976710656) := by decide

/-- An empty range at the foot of the high half; MAP_RANGE where the last of two pages conflicts (T4, step 16), and where the
first does; REGISTER_REGION with an empty range, and where the last of two pages conflicts. -/
theorem witness_EmptyAndConflictingRangesMapNothing : MutationState mapped.state ∧ FlagsWord 4#64 ∧
    (Aligned 0xFFFF000000000000#64 ∧ CanonicalAddr 0xFFFF000000000000#64 ∧ Aligned 0x0001000000000000#64) ∧
    (Aligned 0x4007F000#64 ∧ CanonicalAddr 0x4007F000#64 ∧ (0x4007F000#64).toNat + 4096 * 2 = (0x40081000#64).toNat ∧
      CanonicalAddr (0x40081000#64 - 4096#64) ∧ (Low (0x40081000#64 - 4096#64) ↔ Low 0x4007F000#64) ∧
      walk mapped.mem 0x41000#36 (pageAt 0x4007F000#64 1) = some { pa := 0x40080000#64, flags := 0x704#64 } ∧
      (0x40080000#64 ≠ pageAt 0xA0000000#64 1 ∨ (0x704#64 : Word) ≠ 4#64)) ∧
    walk mapped.mem 0x41000#36 (pageAt 0x40080000#64 0) = some { pa := 0x40080000#64, flags := 0x704#64 } ∧
    mapped.rootsValid = true ∧ 0#64 = Space.identity.code ∧ mapped.rootOf .identity = 0x41000#36 ∧
    RegionRange 0xFFFF000000000000#64 0xFFFF000000000000#64 ∧ RegionRange 0x4007F000#64 0x40081000#64 ∧
    mapped.registry = [] ∧ mapped.registry.length < mapped.cfg.registryCapacity := by decide +kernel

/-- The last slot of the level-3 table; and two pages, the first mapped identically, the second not. -/
theorem witness_MapRangeWritesEveryPage : MemoryCanonical mapped ∧ MutationState mapped.state ∧ Aligned 0x41000000#64 ∧
    Physical 0x41000000#64 ∧ FlagsWord 0x704#64 ∧ Aligned 0x401FF000#64 ∧ CanonicalAddr 0x401FF000#64 ∧
    (0x401FF000#64).toNat + 4096 * 1 = (0x40200000#64).toNat ∧ (0x401FF000#64).toNat / 4096 % 512 + 1 ≤ 512 ∧
    (0x0000FFFFFFFFF000#64).toNat + 4096 * 1 ≤ 281474976710656 ∧
    LeafTable mapped.mem (frameOf 0x41000000#64) 0x401FF000#64 0x41003#36 ∧
    descUsable (mapped.mem.read64 (slotAddr 0x41003#36 (idx 3 0x401FF000#64))) = false ∧
    (0x40080000#64).toNat + 4096 * 2 = (0x40082000#64).toNat ∧
    LeafTable mapped.mem (frameOf 0x41000000#64) 0x40080000#64 0x41003#36 ∧
    (∀ k, k < 2 → descUsable (mapped.mem.read64 (slotAddr 0x41003#36 (idx 3 0x40080000#64) + 8 * k)) = false ∨
      mapped.mem.read64 (slotAddr 0x41003#36 (idx 3 0x40080000#64) + 8 * k) =
        (0x40080000#64 + BitVec.ofNat 64 (4096 * k)) ||| 0x704#64 ||| 3#64) := by
  unfold LeafTable
  decide +kernel

/-- Two pages at the end of a level-3 table and the start of the next, none of the tables made yet. -/
theorem witness_MapRangeMapsPageByPage : MemoryCanonical rooted ∧ MutationState rooted.state ∧
    (Aligned 0x41000000#64 ∧ Physical 0x41000000#64 ∧ frameOf 0x41000000#64 = 0x41000#36 ∧ FlagsWord 4#64) ∧
    (Aligned 0x401FF000#64 ∧ CanonicalAddr 0x401FF000#64 ∧ (0x401FF000#64).toNat + 4096 * 2 = (0x40201000#64).toNat ∧
      CanonicalAddr (0x40201000#64 - 4096#64) ∧ (Low (0x40201000#64 - 4096#64) ↔ Low 0x401FF000#64)) ∧
    (0x0000FFFFFFFFE000#64).toNat + 4096 * 2 ≤ 281474976710656 ∧
    (TableTree (withOps 0x41000000#64 0x401FF000#64 0x40201000#64 0x0000FFFFFFFFE000#64 4#64 0#64 rooted) 0x41000#36 ∧
      ∀ k, walk rooted.mem 0x41000#36 (pageAt 0x401FF000#64 k) = none) ∧
    (rooted.grants (3 * 2)).1.length = 3 * 2 ∧
    ∀ k, k < 2 → ¬ MalformedPath rooted.mem 0x41000#36 (pageAt 0x401FF000#64 k) := by
  refine ⟨by decide, by decide, by decide, by decide, by decide, ⟨rooted_tree rfl rfl (.inl rfl), fun _ => rooted_walk _ _⟩,
    by decide +kernel, ?_⟩
  unfold MalformedPath
  decide +kernel

theorem witness_WalkAnswersTheTranslation : (inState .halted).state = .halted ∧ mapped.state ≠ .halted ∧
    ¬ Aligned 0x41000010#64 ∧ (debugBuild mapped).cfg.debugHaltOnAlignment = true ∧
    ¬ (Physical 0x0001000000000000#64 ∧ CanonicalAddr 0#64) ∧ ¬ (Physical 0#64 ∧ CanonicalAddr 0x0001000000000000#64) ∧
    walk mapped.mem (frameOf 0x41000000#64) 0x40081000#64 = none ∧
    walk mapped.mem (frameOf 0x41000000#64) 0xFFFF000040080FFF#64 = some { pa := 0x40080FFF#64, flags := 0x704#64 } := by
  decide +kernel

theorem witness_WalkReadsFourDescriptors :
    0x41001003#64 = mapped.mem.read64 (4096 * (0x41000#36).toNat + 8 * ((0x40080ABC#64).toNat / 549755813888 % 512)) ∧
    0x41002003#64 = mapped.mem.read64 (4096 * ((0x41001003#64).toNat / 4096 % 68719476736) +
      8 * ((0x40080ABC#64).toNat / 1073741824 % 512)) ∧
    0x41003003#64 = mapped.mem.read64 (4096 * ((0x41002003#64).toNat / 4096 % 68719476736) +
      8 * ((0x40080ABC#64).toNat / 2097152 % 512)) ∧
    0x40080707#64 = mapped.mem.read64 (4096 * ((0x41003003#64).toNat / 4096 % 68719476736) +
      8 * ((0x40080ABC#64).toNat / 4096 % 512)) := by decide +kernel

theorem witness_RootQueriesAnswerTheRecordedRoots : (inState .halted).state = .halted ∧ State.reset.rootsValid = false ∧
    tabled.state ≠ .halted ∧ tabled.rootsValid = true ∧ 1 < (2#64).toNat := by decide

/-- Both halves at their first and last addresses, and addresses of neither. -/
theorem witness_TranslateUsesTheRootOfTheHalf : mapped.state ≠ .halted ∧ mapped.rootsValid = true ∧
    ¬ CanonicalAddr 0x0001000000000000#64 ∧ ¬ CanonicalAddr 0xFFFEFFFFFFFFFFFF#64 ∧ Low 0#64 ∧ Low 0x0000FFFFFFFFFFFF#64 ∧
    High 0xFFFF000000000000#64 ∧ High 0xFFFFFFFFFFFFFFFF#64 ∧
    walk mapped.mem (rootFrame mapped.identityRoot) 0x0000FFFFFFFFFFFF#64 = none ∧
    walk mapped.mem (rootFrame mapped.kernelRoot) 0xFFFF000040080000#64 =
      some { pa := 0x40080000#64, flags := 0x704#64 } := by decide +kernel

/-! ### The Mapping Registry -/

/-- The operands' clauses: inverted, a bad space, bad flags, and good ranges at their ends. -/
theorem witness_RegisterAppendsOrRejects : ¬ MutationState TransState.tlbClean ∧ MutationState State.reset.state ∧
    ¬ RegionRange 0x5000#64 0x4000#64 ∧ ¬ ((2#64).toNat ≤ 1) ∧ ¬ FlagsWord 0x10#64 ∧
    RegionRange 0x0000FFFFFFFFF000#64 0x0001000000000000#64 ∧ RegionRange 0xFFFF000000000000#64 0xFFFF000000000000#64 ∧
    FlagsWord 4#64 ∧ 0#64 = Space.identity.code ∧ 1#64 = Space.kernel.code := by decide

/-- The registry's clauses: a conflict with the second record, the first being of the other space; a range that only touches;
a full registry and one with room. -/
theorem witness_RegisterAppendsOrRejects_registry :
    [{ region 0x1000#64 0x2000#64 with space := .kernel }, region 0x1000#64 0x2000#64][1]? = some (region 0x1000#64 0x2000#64) ∧
    RegionRange 0x1FFF#64 0x2001#64 ∧ RangesOverlap 0x1FFF#64 0x2001#64 0x1000#64 0x2000#64 ∧
    RegionRange 0x2000#64 0x3000#64 ∧ ¬ RangesOverlap 0x2000#64 0x3000#64 0x1000#64 0x2000#64 ∧
    1 ≤ [region 0x1000#64 0x2000#64].length ∧ [region 0x1000#64 0x2000#64].length < State.reset.cfg.registryCapacity := by
  refine ⟨by decide, by decide, by decide, by decide, by decide, by decide, by decide⟩

theorem witness_AuditCountsAndPrintsTheConflicts : (inState .halted).state = .halted ∧ audit State.reset.registry = [] ∧
    audit [region 0x1000#64 0x3000#64, region 0x2000#64 0x4000#64] = (0, 1) :: [] := by decide

theorem witness_WalkAndReportPrintsTheTranslation : mapped.state ≠ .halted ∧ mapped.rootsValid = true ∧
    State.reset.rootsValid = false ∧ ¬ ((2#64).toNat ≤ 1) ∧ ¬ CanonicalAddr 0x0001000000000000#64 ∧ CanonicalAddr 0x40080040#64 ∧
    walk mapped.mem (rootFrame mapped.identityRoot) 0x40081000#64 = none ∧
    walk mapped.mem (rootFrame mapped.kernelRoot) 0x40080040#64 = some { pa := 0x40080040#64, flags := 0x704#64 } := by
  decide +kernel

/-- Two free pages of the kernel space of `tabled`, from INIT and from STEADY. -/
theorem witness_RegisterRegionMapsThenRecords : MemoryCanonical tabled ∧ MutationState tabled.state ∧
    tabled.rootsValid = true ∧ Aligned 0xFFFF000040081000#64 ∧ Aligned 0x0A000000#64 ∧ 1#64 = Space.kernel.code ∧
    RegionRange 0xFFFF000040081000#64 0xFFFF000040083000#64 ∧ FlagsWord 0x40C#64 ∧
    (0xFFFF000040081000#64).toNat + 4096 * 2 = (0xFFFF000040083000#64).toNat ∧
    (0x0A000000#64).toNat + 4096 * 2 ≤ 281474976710656 ∧ (0xFFFF000040081000#64).toNat / 4096 % 512 + 2 ≤ 512 ∧
    tabled.registry = [] ∧ tabled.registry.length < tabled.cfg.registryCapacity ∧
    LeafTable tabled.mem (tabled.rootOf .kernel) 0xFFFF000040081000#64 0x41003#36 ∧
    (∀ k, k < 2 → descUsable (tabled.mem.read64 (slotAddr 0x41003#36 (idx 3 0xFFFF000040081000#64) + 8 * k)) = false) := by
  unfold LeafTable
  decide +kernel

/-- The same range in the identity space, its tables not made yet. -/
theorem witness_RegisterRegionMapsPageByPage : MemoryCanonical rooted ∧ MutationState rooted.state ∧ rooted.rootsValid = true ∧
    (Aligned 0x401FF000#64 ∧ Aligned 0x0A000000#64 ∧ 0#64 = Space.identity.code ∧ FlagsWord 4#64 ∧
      RegionRange 0x401FF000#64 0x40201000#64 ∧ (0x401FF000#64).toNat + 4096 * 2 = (0x40201000#64).toNat ∧
      (0x0A000000#64).toNat + 4096 * 2 ≤ 281474976710656) ∧
    (rooted.registry = [] ∧ rooted.registry.length < rooted.cfg.registryCapacity ∧ rooted.rootOf .identity = 0x41000#36) ∧
    TableTree (withOps 1#64 0x401FF000#64 0x40201000#64 0x0A000000#64 4#64 0#64 rooted) 0x41000#36 ∧
    ∀ k, walk rooted.mem 0x41000#36 (pageAt 0x401FF000#64 k) = none :=
  ⟨by decide, by decide, by decide, by decide, by decide, rooted_tree rfl rfl (.inl rfl), fun _ => rooted_walk _ _⟩

/-- Before NEW_PAIR; a conflict with the second record, the first being of the other space; and a full registry (T5). -/
theorem witness_RegisterRegionRefusesBeforeItMaps : State.reset.rootsValid = false ∧ ¬ MutationState ready.state ∧
    MutationState tabled.state ∧ tabled.rootsValid = true ∧ RegionRange 0x1000#64 0x3000#64 ∧ FlagsWord 4#64 ∧
    ((0x1000#64).toNat < (0x3000#64).toNat → Physical 0x1000#64 ∧
      (0x1000#64).toNat + ((0x3000#64).toNat - (0x1000#64).toNat) ≤ 281474976710656) ∧ 0#64 = Space.identity.code ∧
    (answers (exec .registerRegion (withOps 9#64 0x1000#64 0x3000#64 0x1000#64 4#64 0#64 { tabled with
        registry := [{ region 0x1000#64 0x3000#64 with space := .kernel }, region 0x2000#64 0x4000#64] }))
      (fun t => t.status == 0x03#8 && t.res.r0 == 1#64 && t.registry.length == 2) = true ∧
      RangesOverlap 0x1000#64 0x3000#64 0x2000#64 0x4000#64) ∧
    answers (exec .registerRegion (withOps 9#64 0x1000#64 0x3000#64 0x1000#64 4#64 0#64 { tabled with
        registry := [region 0x3000#64 0x4000#64], cfg := { tabled.cfg with registryCapacity := 1 } }))
      (fun t => t.status == 0x13#8) = true ∧
    ¬ RangesOverlap 0x1000#64 0x3000#64 0x3000#64 0x4000#64 := by decide +kernel

theorem witness_RegistryOnlyGrows : answers (exec .register (withOps 1#64 0#64 0x1000#64 0#64 4#64 0#64 State.reset))
    (fun t => t.registry.length == 1) = true := by decide

/-! ### Sub-block FSM -/

/-- A register that keeps what is written, and one that does not (T8), for each register of the sequence. -/
theorem witness_legalize : legalize State.reset.cfg.legalizeRows .mair State.reset.cfg.mairValue = State.reset.cfg.mairValue ∧
    legalize [.mask .mair 0xFFFF#64 0#64] .mair 0x0C44FF00#64 ≠ 0x0C44FF00#64 ∧
    legalize [.mask .tcr 0xFFFFFFFFFFFFFF7F#64 0#64] .tcr 0x5B5103590#64 ≠ 0x5B5103590#64 ∧
    legalize [.mask .ttbr0 0xFFFFFFFFFFFFFFFF#64 1#64] .ttbr0 0x41000000#64 ≠ 0x41000000#64 ∧
    legalize [.mask .ttbr1 0#64 0#64] .ttbr0 0x41000000#64 = 0x41000000#64 ∧
    legalize [.mask .ttbr1 0#64 0#64] .ttbr1 0x41004000#64 ≠ 0x41004000#64 ∧
    legalize [.mask .sctlr 0xFFFFFFFFFFFFFFFE#64 0#64] .sctlr 0x30D00801#64 ≠ 0x30D00801#64 ∧
    legalize [.mask .vbar 0x7FFFFFFFFFFFFFFF#64 0#64] .vbar 0x40082000#64 = 0x40082000#64 ∧
    legalize [.mask .vbar 0x7FFFFFFFFFFFFFFF#64 0#64] .vbar 0xFFFF000040082000#64 ≠ 0xFFFF000040082000#64 ∧
    legalize [.value .vbar 0x40082000#64 0x40080000#64] .vbar 0x40082000#64 ≠ 0x40082000#64 := by decide

theorem witness_FsmMairAndTcrDualFollowTheirRules : ready.state ≠ .init ∧ State.reset.state = .init ∧
    State.reset.state ≠ .mairProgrammed ∧ (inState .mairProgrammed).state = .mairProgrammed ∧
    (inState .mairProgrammed).cfg.wellFormed = true := by decide

theorem witness_FsmBasesFollowsItsRule : (inState .tcrBootstrapDual).rootsValid = false ∧
    { tabled with state := .tcrBootstrapDual }.rootsValid = true ∧
    (0x41000000#64 : Word) = tabled.identityRoot.setWidth 64 ∧ (0x41004000#64 : Word) = tabled.kernelRoot.setWidth 64 := by
  decide +kernel

/-- The states of the gate's clauses: each fails one check only; `pc` just below, and just past the trampoline (T7). -/
theorem witness_FsmEnableGatesThenTurnsTranslationOn : State.reset.state ≠ .tlbClean ∧ ready.state = .tlbClean ∧
    { ready with irqMasked := false }.irqMasked = false ∧ ready.irqMasked = true ∧
    { ready with vecPhysDone := false }.vecPhysDone = false ∧ ready.vecPhysDone = true ∧
    audit [region 0x1000#64 0x3000#64, region 0x2000#64 0x4000#64] ≠ [] ∧ audit ready.registry = [] ∧
    ¬ (ready.cfg.trampStart.toNat ≤ (0x40081000#64).toNat ∧ (0x40081000#64).toNat < ready.cfg.trampEnd.toNat) ∧
    ¬ (ready.cfg.trampStart.toNat ≤ (0x4007FFFC#64).toNat ∧ (0x4007FFFC#64).toNat < ready.cfg.trampEnd.toNat) ∧
    ready.cfg.trampStart.toNat ≤ ready.pc.toNat ∧ ready.pc.toNat < ready.cfg.trampEnd.toNat ∧
    dualMapped { ready with kernelRoot := 0x41006000#48 } = false := by decide +kernel

/-- Past the gate. -/
theorem witness_FsmEnableGatesThenTurnsTranslationOn_past : ready.state = .tlbClean ∧ ready.irqMasked = true ∧ ready.vecPhysDone = true ∧
    audit ready.registry = [] ∧ ready.cfg.trampStart.toNat ≤ ready.pc.toNat ∧ ready.pc.toNat < ready.cfg.trampEnd.toNat ∧
    dualMapped ready = true ∧ dualMapped (withRows [.mask .sctlr 0xFFFFFFFFFFFFFFFE#64 0#64] ready) = true := by decide +kernel

theorem witness_DualMappedChecksEveryTrampolinePage : ready.cfg.wellFormed = true ∧ dualMapped ready = true ∧
    dualMapped { ready with cfg := { ready.cfg with trampEnd := 0x40082000#64 } } = false := by decide +kernel

/-- A low target, one that is mapped nowhere, one that is execute-never, and a good one (T7). -/
theorem witness_FsmMigrateBranchesToAnExecutableHighAddress : ready.state ≠ .translationOn ∧ running.state = .translationOn ∧
    ¬ High 0x40080080#64 ∧ hwTranslate running 0xFFFF000050000000#64 = none ∧
    hwTranslate { running with mem := running.mem.write64 0x41003408 0x0020000040081707#64 } 0xFFFF000040081000#64 =
      some { pa := 0x40081000#64, flags := some 0x0020000000000704#64 } ∧ (0x0020000000000704#64).getLsbD 53 = true ∧
    High 0xFFFF000040080080#64 ∧
    hwTranslate running 0xFFFF000040080080#64 = some { pa := 0x40080080#64, flags := some 0x704#64 } ∧
    (0x704#64).getLsbD 53 = false := by decide +kernel

theorem witness_FsmTcrKernelNarrowsAfterMigration : running.state ≠ .pcMigrated ∧ migrated.state = .pcMigrated ∧
    ¬ High 0x40080080#64 ∧ walk migrated.mem (rootFrame migrated.kernelRoot) 0xFFFF000050000000#64 = none ∧
    walk (migrated.mem.write64 0x41003400 0x0020000040080707#64) (rootFrame migrated.kernelRoot) migrated.pc =
      some { pa := 0x40080080#64, flags := 0x0020000000000704#64 } ∧ (0x0020000000000704#64).getLsbD 53 = true ∧
    High migrated.pc ∧
    walk migrated.mem (rootFrame migrated.kernelRoot) migrated.pc = some { pa := 0x40080080#64, flags := 0x704#64 } ∧
    (0x704#64).getLsbD 53 = false ∧ migrated.vecVirtDone = false ∧ { migrated with vecVirtDone := true }.vecVirtDone = true ∧
    migrated.cfg.wellFormed = true ∧ migrated.xlatOn = true ∧ Low 0x40080123#64 ∧
    (tlbHits { migrated with tlb := [{ vaPage := 0x40080000#64, paPage := 0x40080000#64, flags := 0x704#64 }] }
      0x40080123#64)[0]? = some { vaPage := 0x40080000#64, paPage := 0x40080000#64, flags := 0x704#64 } := by decide +kernel

/-- The copy's clauses: a source equal to the target, one that ends where it begins, one that begins where it ends, one that
overlaps it in part, one that ends at 2^48 and one that ends a word past it. -/
theorem witness_VecInstallCopiesTheTable : MemoryCanonical State.reset ∧ State.reset.cfg.wellFormed = true ∧
    ¬ BeforeEnable running.state ∧ BeforeEnable ready.state ∧ ready.vecPhysDone = true ∧ State.reset.vecPhysDone = false ∧
    ¬ ((0x40090004#64).toNat % 8 = 0 ∧ Physical 0x40090004#64) ∧
    ¬ ((0x0001000000000000#64).toNat % 8 = 0 ∧ Physical 0x0001000000000000#64) ∧
    (0x40082400#64 ≠ State.reset.cfg.vecPhys ∧
      (0x40082400#64).toNat < State.reset.cfg.vecPhys.toNat + State.reset.cfg.vecSize.toNat ∧
      State.reset.cfg.vecPhys.toNat < (0x40082400#64).toNat + State.reset.cfg.vecSize.toNat) ∧
    0x40082000#64 = State.reset.cfg.vecPhys ∧
    State.reset.cfg.vecPhys.toNat + State.reset.cfg.vecSize.toNat ≤ (0x40082800#64).toNat ∧
    (0x40081800#64).toNat + State.reset.cfg.vecSize.toNat ≤ State.reset.cfg.vecPhys.toNat ∧
    (0xFFFFFFFFF800#64).toNat + State.reset.cfg.vecSize.toNat ≤ 281474976710656 ∧ Physical 0xFFFFFFFFF800#64 ∧
    ¬ ((0xFFFFFFFFF808#64).toNat + State.reset.cfg.vecSize.toNat ≤ 281474976710656) := by decide +kernel

theorem witness_VecRelocatePointsAtTheAlias : running.state ≠ .pcMigrated ∧ { migrated with vecVirtDone := true }.vecVirtDone = true ∧
    migrated.state = .pcMigrated ∧ migrated.vecVirtDone = false ∧
    0xFFFF000040082000#64 = migrated.cfg.vecPhys + migrated.cfg.kernelOffset := by decide +kernel

theorem witness_EnableQueryAndSetPcFollowTheirRules : (inState .halted).state = .halted ∧ running.state ≠ .halted ∧
    ¬ BeforeEnable running.state ∧ BeforeEnable ready.state ∧ ¬ Low 0x0001000000000000#64 ∧ Low 0x0000FFFFFFFFFFFF#64 := by decide

/-- FSM_TLB_CLEAN's two clauses, TLBI_LOCAL_ALL's two, and the state after FSM_TCR_KERNEL for the last. -/
theorem witness_TlbCleanAndTlbiRunTheSequence : ready.state ≠ .basesLoaded ∧ (inState .basesLoaded).state = .basesLoaded ∧
    (State.reset.state = .halted ∨ State.reset.state = .init) ∧
    ¬ ((inState .basesLoaded).state = .halted ∨ (inState .basesLoaded).state = .init ∨
      (inState .basesLoaded).state = .mairProgrammed ∨ (inState .basesLoaded).state = .tcrBootstrapDual) ∧
    narrowed.state = .tcrKernelOnly ∧ narrowed.xlatOn = true ∧ narrowed.sys.tcr &&& narrowed.cfg.epd0Mask ≠ 0#64 ∧
    Low 0x40080123#64 := by decide +kernel

theorem witness_StateMovesOneStepForwardOrHalts :
    answers (exec .fsmFinish narrowed) (fun t => t.state == .steady) = true ∧
    answers (exec .fsmTcrKernel migrated) (fun t => t.state == .halted) = true := by decide +kernel

/-! ### Invariants -/

theorem witness_EveryStepKeepsMemoryRegistryAndRoots :
    (MemoryCanonical { steadyState with agenda := [.command 0x10#8] } ∧
      RegistryDisjoint { steadyState with agenda := [.command 0x10#8] } ∧
      RootsAligned { steadyState with agenda := [.command 0x10#8] }) ∧
    answers (step { steadyState with agenda := [.command 0x10#8] }) (fun t => t.status == 0x00#8) = true := by
  refine ⟨⟨by decide +kernel, ⟨by decide +kernel, by decide +kernel⟩, fun _ => by decide +kernel⟩, by decide +kernel⟩

theorem witness_EveryStepKeepsTheWalkerUpToDate : WalkerUpToDate { steadyState with agenda := [.command 0x10#8] } ∧
    answers (step { steadyState with agenda := [.command 0x10#8] }) (fun t => t.status == 0x00#8) = true :=
  ⟨fun _ => rfl, by decide +kernel⟩

/-- The state after FSM_ENABLE meets the transition invariant. -/
theorem running_safe : TransitionSafe running where
  params := by decide
  bringUp := by
    constructor
    all_goals first
      | (intro _; decide +kernel)
      | (intro h; exact absurd h.2.1 (by decide))
      | (intro h; exact absurd h.2.2 (by decide))
      | (intro h; exact absurd h (by decide))
  dual := fun _ => by decide +kernel
  kernelPc := fun h => absurd h.2.1 (by decide)
  tlbEmpty := fun _ => rfl
  tlb := fun _ => ⟨rfl, by simp [TlbCurrent, running, ready, mapped, tabled, State.reset]⟩

/-- The state after FSM_TCR_KERNEL meets it too. -/
theorem narrowed_safe : TransitionSafe narrowed where
  params := by decide
  bringUp := by
    constructor
    all_goals first
      | (intro _; decide +kernel)
      | (intro h; exact absurd h.2.2 (by decide))
      | (intro h; exact absurd h (by decide))
  dual := fun h => absurd h (by decide)
  kernelPc := fun _ => by decide +kernel
  tlbEmpty := fun _ => rfl
  tlb := fun _ => ⟨rfl, by simp [TlbCurrent, narrowed, migrated, running, ready, mapped, tabled, State.reset]⟩

theorem witness_FsmFinishEntersSteady : running.state ≠ .tcrKernelOnly ∧ narrowed.state = .tcrKernelOnly ∧
    TransitionSafe narrowed := ⟨by decide, by decide, narrowed_safe⟩

theorem witness_EveryStepKeepsTheTransitionSafe : TransitionSafe narrowed ∧
    answers (step narrowed) (fun t => t.state == .tcrKernelOnly) = true := ⟨narrowed_safe, by decide +kernel⟩

/-- The transition invariant holds in STEADY too, with a TLB entry that is stale in the half walked no more. -/
theorem steady_safe : TransitionSafe { steadyState with
    tlb := [{ vaPage := 0x40080000#64, paPage := 0x40080000#64, flags := 0x704#64 }] } where
  params := by decide
  bringUp := by
    constructor
    all_goals first
      | (intro _; decide +kernel)
      | (intro h; exact absurd h.2.2 (by decide))
      | (intro h; exact absurd h (by decide))
  dual := fun h => absurd h (by decide)
  kernelPc := fun h => absurd h.2.2 (by decide)
  tlbEmpty := fun h => absurd h (by decide)
  tlb := fun h => absurd h.2.2 (by decide)

/-- In the window, and in STEADY with `pc` mapped and the TLB current. -/
theorem witness_FetchIsSafeThroughTheTransition : TransitionSafe running ∧
    (running.state = .steady → pcInKernelSpace running = true ∧ TlbCurrent running) ∧
    pcInKernelSpace steadyState = true ∧ TlbCurrent { steadyState with
      tlb := [{ vaPage := 0x40080000#64, paPage := 0x40080000#64, flags := 0x704#64 }] } := by
  refine ⟨running_safe, fun h => absurd h (by decide), by decide +kernel, ?_⟩
  unfold TlbCurrent
  decide +kernel

end Sys2Proof.Machine
end

/-! Every operation answers (R12, R175): each arm of `exec` ends in a `return` or a halt, and what an answer leaves
of the machine is read off its case in `OpCase`. -/

namespace Sys2Proof.Machine

/-! ## What every answer leaves alone -/

/-- `t` has the parameters, the operand registers, the agenda, the TLB choices and `irq_masked` of `s`: what belongs to
the host and the environment, not to an operation. -/
structure HostKept (s t : State) : Prop where
  cfg : t.cfg = s.cfg
  ops : t.ops = s.ops
  agenda : t.agenda = s.agenda
  lookups : t.lookups = s.lookups
  irqMasked : t.irqMasked = s.irqMasked

theorem Quiet.hostKept {s t : State} (h : Quiet s t) : HostKept s t := by
  constructor <;> rw [h]

theorem HostKept.halted {s u : State} (h : HostKept s u) (c : Status) (f : FailInfo) : HostKept s (u.halted c f) :=
  ⟨h.cfg, h.ops, h.agenda, h.lookups, h.irqMasked⟩

theorem DataStep.hostKept {s t : State} (h : DataStep s t) : HostKept s t := by
  rcases h.ends with hq | ⟨u, c, f, hq, rfl, -⟩
  · exact hq.hostKept
  · exact hq.hostKept.halted c f

/-- Whichever case of its rule an operation ends in, it has completed and the host's side is as it was (R89). -/
theorem OpCase.completed_hostKept {i : Instr} {s t : State} (h : OpCase i s t) :
    t.rspValid = true ∧ HostKept s t := by
  cases h with
  | data _ h => exact ⟨h.rsp, h.hostKept⟩
  | sysHalt h =>
    obtain ⟨r, f, rfl⟩ := h
    have hk : HostKept s { s with sys := r } := ⟨rfl, rfl, rfl, rfl, rfl⟩
    exact ⟨rfl, hk.halted _ _⟩
  | newPair _ u hu _ h =>
    have hk := hu.quiet.hostKept
    rcases h with rfl | ⟨p0, p1, rfl⟩
    · exact ⟨rfl, hk.halted _ _⟩
    · exact ⟨rfl, hk.cfg, hk.ops, hk.agenda, hk.lookups, hk.irqMasked⟩
  | vecInstall _ _ u hu _ h =>
    have hk : HostKept s u := by constructor <;> rw [hu]
    rcases h with ⟨f, rfl⟩ | ⟨f, rfl⟩ | ⟨-, rfl⟩
    · exact ⟨rfl, hk.halted _ _⟩
    · have hw : HostKept s (u.sysWrite .vbar s.cfg.vecPhys) := ⟨hk.cfg, hk.ops, hk.agenda, hk.lookups, hk.irqMasked⟩
      exact ⟨rfl, hw.halted _ _⟩
    · exact ⟨rfl, hk.cfg, hk.ops, hk.agenda, hk.lookups, hk.irqMasked⟩
  | refused _ h | mair _ _ h | tcrDual _ _ h | bases _ _ _ h | tlbClean _ _ h | enable _ _ _ _ _ h | migrate _ _ _ _ h
  | tcrKernel _ _ _ _ h | finish _ _ h | vecRelocate _ _ h | setPc _ _ h =>
    subst h
    exact ⟨rfl, rfl, rfl, rfl, rfl, rfl⟩

/-! ## Ends that answer a next state -/

/-- The operation ends in a next state: it is neither stuck, nor faulted, nor refused (R12). -/
def Completes (r : Result) : Prop := ∃ t, r = .next t

theorem Completes.finish (st : Status) (s : State) : Completes (s.finish st) := ⟨_, rfl⟩

theorem Completes.raiseHalt (c : Status) (f : FailInfo) (s : State) : Completes (s.raiseHalt c f) := ⟨_, rfl⟩

theorem Completes.haltExhausted (s : State) : Completes s.haltExhausted := .raiseHalt _ _ s

theorem Completes.gateFailed (f : FailInfo) (s : State) : Completes (s.gateFailed f) := .raiseHalt _ f s

theorem Completes.ite {c : Prop} [Decidable c] {r q : Result} (hr : Completes r) (hq : Completes q) :
    Completes (if c then r else q) := by
  split_ifs
  · exact hr
  · exact hq

theorem Completes.alignmentError (s : State) : Completes s.alignmentError := .ite (.raiseHalt _ _ s) (.finish _ s)

/-- A step of an operation goes on, or has ended the operation in a next state. -/
def Attempt.Sound : Attempt → Prop
  | .proceed _ => True
  | .ended r => Completes r

theorem Attempt.Sound.andThen {a : Attempt} (ha : a.Sound) {k : State → Result} (hk : ∀ s, Completes (k s)) :
    Completes (a.andThen k) := by
  cases a with
  | proceed s => exact hk s
  | ended r => exact ha

theorem Attempt.Sound.bind {a : Attempt} (ha : a.Sound) {k : State → Attempt} (hk : ∀ s, (k s).Sound) :
    (a.bind k).Sound := by
  cases a with
  | proceed s => exact hk s
  | ended r => exact ha

theorem writeVerify_sound (reg : SysReg) (v : Word) (info : FailInfo) (s : State) :
    (writeVerify reg v info s).Sound := by
  rw [writeVerify_eq]
  split_ifs
  · trivial
  · exact .raiseHalt _ _ _

/-- The block issues local invalidations and non-shareable barriers only, so the sequence never sticks (R174, R175). -/
theorem tlbSequence_sound (s : State) : (tlbSequence s).Sound := trivial

theorem maintenance_sound (wrote replaced : Bool) (s : State) : (maintenance wrote replaced s).Sound := by
  rw [maintenance_eq]
  trivial

/-- Every mutating operation but NEW_PAIR returns after the maintenance of R121. -/
theorem Completes.maintenance (wrote replaced : Bool) (st : Status) (s : State) :
    Completes ((maintenance wrote replaced s).andThen fun s2 => s2.finish st) :=
  (maintenance_sound wrote replaced s).andThen (.finish st)

/-! ## The copy of VEC_INSTALL (R50, R151) -/

/-- The `n` 64-bit values from `a` up are aligned and lie in the physical address space (R50). -/
def WordsInside (n a : Nat) : Prop := a % 8 = 0 ∧ a + 8 * n ≤ physSize

theorem WordsInside.head {n a : Nat} (h : WordsInside (n + 1) a) : a % 8 = 0 ∧ a < physSize :=
  ⟨h.1, by have := h.2; omega⟩

theorem WordsInside.tail {n a : Nat} (h : WordsInside (n + 1) a) : WordsInside n (a + 8) := by
  obtain ⟨ha, hn⟩ := h
  exact ⟨by omega, by omega⟩

theorem State.memRead_error {s : State} {a : Nat} {e : Fault} (h : s.memRead a = .error e) :
    e = .physicalAccess ∧ ¬ (a % 8 = 0 ∧ a < physSize) := by
  unfold State.memRead at h
  split_ifs at h with ha
  exact ⟨by simpa [eq_comm] using h, ha⟩

theorem State.memWriteChecked_error {s : State} {a : Nat} {v : Word} {e : Fault}
    (h : s.memWriteChecked a v = .error e) : e = .physicalAccess ∧ ¬ (a % 8 = 0 ∧ a < physSize) := by
  unfold State.memWriteChecked at h
  split_ifs at h with ha
  exact ⟨by simpa [eq_comm] using h, ha⟩

/-- A copy can fault in one way only, and not between ranges inside the physical address space. -/
theorem copyWords_error {n src dst : Nat} {s : State} {e : Fault} (h : copyWords n src dst s = .error e) :
    e = .physicalAccess ∧ ¬ (WordsInside n src ∧ WordsInside n dst) := by
  induction n generalizing src dst s with
  | zero => simp [copyWords] at h
  | succ n ih =>
    unfold copyWords at h
    split at h
    · rename_i e' hr
      obtain rfl : e' = e := by simpa using h
      obtain ⟨he, ha⟩ := State.memRead_error hr
      exact ⟨he, fun hi => ha hi.1.head⟩
    · split at h
      · rename_i e' hw
        obtain rfl : e' = e := by simpa using h
        obtain ⟨he, ha⟩ := State.memWriteChecked_error hw
        exact ⟨he, fun hi => ha hi.2.head⟩
      · obtain ⟨he, hn⟩ := ih h
        exact ⟨he, fun hi => hn ⟨hi.1.tail, hi.2.tail⟩⟩

/-- The verification of a copy faults under the same conditions only. -/
theorem wordsAgree_error {n src dst : Nat} {s : State} {e : Fault} (h : wordsAgree n src dst s = .error e) :
    e = .physicalAccess ∧ ¬ (WordsInside n src ∧ WordsInside n dst) := by
  induction n generalizing src dst with
  | zero => simp [wordsAgree] at h
  | succ n ih =>
    have of_dst {e' : Fault} (hr : s.memRead dst = .error e') (he : e' = e) :
        e = .physicalAccess ∧ ¬ (WordsInside (n + 1) src ∧ WordsInside (n + 1) dst) := by
      subst he
      obtain ⟨he, ha⟩ := State.memRead_error hr
      exact ⟨he, fun hi => ha hi.2.head⟩
    unfold wordsAgree at h
    split at h
    case h_1 =>
      split_ifs at h
      obtain ⟨he, hn⟩ := ih h
      exact ⟨he, fun hi => hn ⟨hi.1.tail, hi.2.tail⟩⟩
    case h_2 hd _ => exact of_dst hd (by simpa using h)
    case h_3 hs =>
      obtain ⟨he, ha⟩ := State.memRead_error hs
      obtain rfl := Except.error.inj h
      exact ⟨he, fun hi => ha hi.1.head⟩
    case h_4 hd _ => exact of_dst hd (by simpa using h)

/-- Under R8 the target of the copy is inside the physical address space. -/
theorem wordsInside_vecPhys {p : Params} (h : p.vecOk = true) : WordsInside (vecWords p) p.vecPhys.toNat := by
  simp only [Params.vecOk, Bool.and_eq_true, decide_eq_true_eq] at h
  obtain ⟨⟨⟨halign, hphys⟩, -⟩, hsize⟩ := h
  have halign : p.vecPhys.toNat % 4096 = 0 := (pageAligned_iff _).1 halign
  simp only [WordsInside, vecWords, physSize, pageSize] at *
  omega

/-- A source that passes the operand checks of R151 is inside it too (notes/assumptions/24). -/
theorem wordsInside_vecSource {p : Params} {src : Word} (h8 : src.extractLsb' 0 3 = 0#3)
    (hin : vecSourceInside p src = true) : WordsInside (vecWords p) src.toNat := by
  have h8 : src.toNat % 8 = 0 := by simpa [← BitVec.toNat_inj] using h8
  simp only [vecSourceInside, decide_eq_true_eq] at hin
  simp only [WordsInside, vecWords]
  omega

/-- From a source inside the address space only a target that breaks R8 lets the copy fault. -/
theorem copyVectors_cases {src : Word} {s : State} (hsrc : WordsInside (vecWords s.cfg) src.toNat) :
    (copyVectors src s).Sound ∨ (copyVectors src s = .ended (.fault .physicalAccess) ∧ s.cfg.vecOk = false) := by
  have broken (hn : ¬ (WordsInside (vecWords s.cfg) src.toNat ∧ WordsInside (vecWords s.cfg) s.cfg.vecPhys.toNat)) :
      s.cfg.vecOk = false := by
    rw [← Bool.not_eq_true]
    exact fun hok => hn ⟨hsrc, wordsInside_vecPhys hok⟩
  unfold copyVectors
  split
  · rename_i e hc
    obtain ⟨rfl, hn⟩ := copyWords_error hc
    exact .inr ⟨rfl, broken hn⟩
  · split
    · rename_i e ha
      obtain ⟨rfl, hn⟩ := wordsAgree_error ha
      exact .inr ⟨rfl, broken hn⟩
    · exact .inl (Completes.gateFailed _ _)
    · exact .inl trivial

theorem execVecInstall_completes_or_fault (s : State) : Completes (execVecInstall s) ∨
    (execVecInstall s = .fault .physicalAccess ∧ s.cfg.vecOk = false) := by
  unfold execVecInstall
  split_ifs with _ hop hin
  iterate 4 exact .inl (.finish _ s)
  simp only [not_or, Decidable.not_not] at hop
  have hsrc := wordsInside_vecSource hop.1 (by simpa using hin)
  rcases copyVectors_cases hsrc with hc | ⟨hc, hbad⟩
  · exact .inl ((hc.bind (writeVerify_sound _ _ _)).andThen fun _ => .finish _ _)
  · exact .inr ⟨by rw [hc]; rfl, hbad⟩

/-! ## Each operation ends, branch by branch -/

theorem execPteEncLeaf_completes (s : State) : Completes (execPteEncLeaf s) :=
  .ite (.finish _ s) <| .ite (.alignmentError s) <| .ite (.finish _ s) <| .ite (.finish _ s) <| .finish _ _

theorem execPteEncTable_completes (s : State) : Completes (execPteEncTable s) :=
  .ite (.finish _ s) <| .ite (.alignmentError s) <| .ite (.finish _ s) <| .finish _ _

theorem execPteDec_completes (s : State) : Completes (execPteDec s) :=
  .ite (.finish _ s) <| .ite (.finish _ s) <| .finish _ _

theorem execPteSummary_completes (s : State) : Completes (execPteSummary s) :=
  .ite (.finish _ s) <| .ite (.finish _ s) <| .finish _ _

theorem execCreateTable_completes (s : State) : Completes (execCreateTable s) := by
  refine .ite (.finish _ s) ?_
  split
  · exact .haltExhausted _
  · exact .maintenance _ _ _ _

theorem execMapPage_completes (s : State) : Completes (execMapPage s) := by
  refine .ite (.finish _ s) <| .ite (.alignmentError s) <| .ite (.finish _ s) ?_
  split
  · exact .maintenance _ _ _ _
  · exact .maintenance _ _ _ _
  · exact .haltExhausted _

theorem execMapRange_completes (s : State) : Completes (execMapRange s) := by
  refine .ite (.finish _ s) <| .ite (.alignmentError s) <| .ite (.finish _ s) <| .ite (.finish _ s) <|
    .ite (.finish _ _) <| .ite (.finish _ s) <| .ite (.finish _ s) ?_
  split
  · exact .maintenance _ _ _ _
  · exact .maintenance _ _ _ _
  · exact .haltExhausted _

theorem execWalk_completes (s : State) : Completes (execWalk s) :=
  .ite (.finish _ s) <| .ite (.alignmentError s) <| .ite (.finish _ s) <| .finish _ _

theorem execNewPair_completes (s : State) : Completes (execNewPair s) := by
  refine .ite (.finish _ s) ?_
  split
  · exact .haltExhausted _
  · split
    · exact .haltExhausted _
    · exact .finish _ _

theorem execBaseOf_completes (s : State) : Completes (execBaseOf s) := by
  refine .ite (.finish _ s) <| .ite (.finish _ s) ?_
  split
  · exact .finish _ s
  · exact .finish _ _

theorem execGetKernelRoot_completes (s : State) : Completes (execGetKernelRoot s) :=
  .ite (.finish _ s) <| .ite (.finish _ s) <| .finish _ _

theorem execTranslate_completes (s : State) : Completes (execTranslate s) := by
  refine .ite (.finish _ s) <| .ite (.finish _ s) <| .ite (.finish _ s) ?_
  split
  · exact .finish _ _
  · exact .finish _ _

theorem execRegister_completes (s : State) : Completes (execRegister s) := by
  refine .ite (.finish _ s) ?_
  split
  · exact .finish _ s
  · refine .ite (.finish _ s) ?_
    split
    · exact .finish _ _
    · exact .ite (.finish _ s) (.finish _ _)

theorem execAudit_completes (s : State) : Completes (execAudit s) := .ite (.finish _ s) (.finish _ _)

theorem execWalkAndReport_completes (s : State) : Completes (execWalkAndReport s) := by
  refine .ite (.finish _ s) <| .ite (.finish _ s) ?_
  split
  · exact .finish _ s
  · exact .ite (.finish _ s) (.finish _ _)

theorem mapRegion_completes (root : Frame) (r : MappingRegion) (s : State) : Completes (mapRegion root r s) := by
  refine .ite (.finish _ s) ?_
  split
  · exact .maintenance _ _ _ _
  · exact .maintenance _ _ _ _
  · exact .haltExhausted _

theorem execRegisterRegion_completes (s : State) : Completes (execRegisterRegion s) := by
  refine .ite (.finish _ s) <| .ite (.finish _ s) <| .ite (.alignmentError s) ?_
  split
  · exact .finish _ s
  · refine .ite (.finish _ s) <| .ite (.finish _ s) ?_
    split
    · exact .finish _ _
    · exact .ite (.finish _ s) (mapRegion_completes _ _ s)

theorem execFsmMair_completes (s : State) : Completes (execFsmMair s) :=
  .ite (.finish _ s) <| (writeVerify_sound _ _ _ s).andThen fun _ => .finish _ _

theorem execFsmTcrDual_completes (s : State) : Completes (execFsmTcrDual s) :=
  .ite (.finish _ s) <| (writeVerify_sound _ _ _ s).andThen fun _ => .finish _ _

theorem execFsmBases_completes (s : State) : Completes (execFsmBases s) :=
  .ite (.finish _ s) <|
    ((writeVerify_sound _ _ _ s).bind (writeVerify_sound _ _ _)).andThen fun _ => .finish _ _

theorem execFsmTlbClean_completes (s : State) : Completes (execFsmTlbClean s) :=
  .ite (.finish _ s) <| (tlbSequence_sound s).andThen fun _ => .finish _ _

theorem execFsmEnable_completes (s : State) : Completes (execFsmEnable s) :=
  .ite (.finish _ s) <| .ite (.gateFailed _ s) <| .ite (.gateFailed _ s) <| .ite (.gateFailed _ s) <|
    .ite (.gateFailed _ s) <| .ite (.gateFailed _ s) <|
      (writeVerify_sound _ _ _ s).andThen fun _ => .finish _ _

theorem execFsmMigrate_completes (s : State) : Completes (execFsmMigrate s) :=
  .ite (.finish _ s) <| .ite (.gateFailed _ s) <| .finish _ _

theorem execFsmTcrKernel_completes (s : State) : Completes (execFsmTcrKernel s) :=
  .ite (.finish _ s) <| .ite (.gateFailed _ s) <| .ite (.gateFailed _ s) <|
    (writeVerify_sound _ _ _ s).andThen fun _ => .finish _ _

theorem execFsmFinish_completes (s : State) : Completes (execFsmFinish s) := .ite (.finish _ s) (.finish _ _)

theorem execVecRelocate_completes (s : State) : Completes (execVecRelocate s) :=
  .ite (.finish _ s) <| (writeVerify_sound _ _ _ s).andThen fun _ => .finish _ _

theorem execIsTranslationEnabled_completes (s : State) : Completes (execIsTranslationEnabled s) :=
  .ite (.finish _ s) (.finish _ _)

theorem execSetPc_completes (s : State) : Completes (execSetPc s) :=
  .ite (.finish _ s) <| .ite (.finish _ s) <| .finish _ _

theorem execTlbiLocalAll_completes (s : State) : Completes (execTlbiLocalAll s) :=
  .ite (.finish _ s) <| (tlbSequence_sound s).andThen fun _ => .finish _ _

/-! ## Every operation answers -/

/-- One arm per operation; only VEC_INSTALL has an access that can break R50. -/
theorem exec_completes_or_fault (i : Instr) (s : State) : Completes (exec i s) ∨
    (i = .vecInstall ∧ exec i s = .fault .physicalAccess ∧ s.cfg.vecOk = false) := by
  cases i with
  | pteEncLeaf => exact .inl (execPteEncLeaf_completes s)
  | pteEncTable => exact .inl (execPteEncTable_completes s)
  | pteDec => exact .inl (execPteDec_completes s)
  | pteSummary => exact .inl (execPteSummary_completes s)
  | createTable => exact .inl (execCreateTable_completes s)
  | mapPage => exact .inl (execMapPage_completes s)
  | mapRange => exact .inl (execMapRange_completes s)
  | walk => exact .inl (execWalk_completes s)
  | newPair => exact .inl (execNewPair_completes s)
  | baseOf => exact .inl (execBaseOf_completes s)
  | getKernelRoot => exact .inl (execGetKernelRoot_completes s)
  | translate => exact .inl (execTranslate_completes s)
  | register => exact .inl (execRegister_completes s)
  | audit => exact .inl (execAudit_completes s)
  | walkAndReport => exact .inl (execWalkAndReport_completes s)
  | registerRegion => exact .inl (execRegisterRegion_completes s)
  | fsmMair => exact .inl (execFsmMair_completes s)
  | fsmTcrDual => exact .inl (execFsmTcrDual_completes s)
  | fsmBases => exact .inl (execFsmBases_completes s)
  | fsmTlbClean => exact .inl (execFsmTlbClean_completes s)
  | fsmEnable => exact .inl (execFsmEnable_completes s)
  | fsmMigrate => exact .inl (execFsmMigrate_completes s)
  | fsmTcrKernel => exact .inl (execFsmTcrKernel_completes s)
  | fsmFinish => exact .inl (execFsmFinish_completes s)
  | vecInstall => exact (execVecInstall_completes_or_fault s).imp_right fun h => ⟨rfl, h⟩
  | vecRelocate => exact .inl (execVecRelocate_completes s)
  | isTranslationEnabled => exact .inl (execIsTranslationEnabled_completes s)
  | setPc => exact .inl (execSetPc_completes s)
  | tlbiLocalAll => exact .inl (execTlbiLocalAll_completes s)

/-- Settles O6: every arm completes, and the case an answer falls in says what it keeps. -/
theorem everyOperationAnswers : Obligations.EveryOperationAnswers := by
  intro i s
  refine (exec_completes_or_fault i s).imp_left ?_
  rintro ⟨t, ht⟩
  obtain ⟨hrsp, hk⟩ := (exec_opCase ht).completed_hostKept
  exact ⟨t, ht, hrsp, hk.cfg, hk.ops, hk.agenda, hk.lookups, hk.irqMasked⟩

end Sys2Proof.Machine

/-! The state and the parties that change it between operations (R20, R26, R38, R44, R46): the host's acts, the walker's
fills, the Frame Allocator's answers, and the state a reset gives. -/

namespace Sys2Proof.Machine

/-! ## A step that takes an event other than a command -/

/-- Where the core can fetch, the step is the event's own, in the state without it (R11, R184). -/
theorem fetch_of_agenda {s : State} {e : Event} {rest : List Event} (hf : fetchFaults s = false)
    (ha : s.agenda = e :: rest) : fetch s = applyEvent e (s.advance rest) := by
  simp [fetch, hf, ha]

/-- An event that moves the machine makes the whole step. -/
theorem step_of_moved {s t : State} {e : Event} {rest : List Event} (hf : fetchFaults s = false)
    (ha : s.agenda = e :: rest) (hm : applyEvent e (s.advance rest) = .moved t) : step s = .next t := by
  simp [step, fetch_of_agenda hf ha, hm]

/-- The host's write of an operand register is the whole step (R20). -/
theorem step_operand {s : State} {i : Fin 6} {v : Word} {rest : List Event} (hf : fetchFaults s = false)
    (ha : s.agenda = .operand i v :: rest) :
    step s = .next { s with agenda := rest, lookups := s.lookups.tail, ops := s.ops.set i v } :=
  step_of_moved hf ha rfl

/-- Driving `irq_masked` is the whole step (R26). -/
theorem step_irqMasked {s : State} {b : Bool} {rest : List Event} (hf : fetchFaults s = false)
    (ha : s.agenda = .irqMasked b :: rest) :
    step s = .next { s with agenda := rest, lookups := s.lookups.tail, irqMasked := b } :=
  step_of_moved hf ha rfl

/-- A fill is the whole step (R38). -/
theorem step_walkerFill {s : State} {va : Word} {picks : List Nat} {rest : List Event} (hf : fetchFaults s = false)
    (ha : s.agenda = .walkerFill va picks :: rest) : step s = .next (walkerFill va picks (s.advance rest)) :=
  step_of_moved hf ha rfl

/-- Settles O8: `Operands.set` of a fixed index is the update of that register alone. -/
theorem hostDrivesOperandsAndMask : Obligations.HostDrivesOperandsAndMask := by
  intro s v b rest hf
  exact ⟨step_operand hf, step_operand hf, step_operand hf, step_operand hf, step_operand hf, step_operand hf,
    step_irqMasked hf⟩

/-! ## What a fill adds to the TLB (R38) -/

@[simp] theorem mem_tlbInsert {tlb : List TlbEntry} {e e' : TlbEntry} : e' ∈ tlbInsert tlb e ↔ e' ∈ tlb ∨ e' = e := by
  unfold tlbInsert
  split_ifs with h
  · constructor
    · exact .inl
    · rintro (h' | rfl)
      · exact h'
      · exact h
  · simp

/-- A fill takes no entry away, whatever the walker sees of the writes. -/
theorem mem_walkerFill_of_mem {va : Word} {picks : List Nat} {s : State} {e : TlbEntry} (he : e ∈ s.tlb) :
    e ∈ (walkerFill va picks s).tlb := by
  unfold walkerFill
  dsimp only
  split
  · exact mem_tlbInsert.2 (.inl he)
  · exact he
  · exact he

/-- With no write left to see, the walker reads memory as it stands (R67). -/
theorem State.walkerRead_of_visible {s : State} (hu : s.unseen = []) (a pick : Nat) :
    s.walkerRead a pick = s.mem.read64 a := by
  simp [State.walkerRead, hu]

/-- With every write visible a fill adds the entry of a page that translates. -/
theorem mem_walkerFill_of_translates {va pa f : Word} {picks : List Nat} {s : State} (hu : s.unseen = [])
    (hw : hwTranslate s (va &&& ~~~(0xFFF#64)) = some { pa := pa, flags := some f }) :
    { vaPage := va &&& ~~~(0xFFF#64), paPage := pa, flags := f } ∈ (walkerFill va picks s).tlb := by
  unfold hwTranslate at hw
  simp only [walkerFill, State.walkerRead_of_visible hu, hw]
  exact mem_tlbInsert.2 (.inr rfl)

/-- Only with translation on does an answer of `HwTranslate` carry flags (R62). -/
theorem xlatOn_of_hwTranslate_flags {s : State} {va pa f : Word}
    (hw : hwTranslate s va = some { pa := pa, flags := some f }) : s.xlatOn = true := by
  by_contra hx
  have hx : s.xlatOn = false := Bool.eq_false_iff.2 hx
  simp [hwTranslate, hwTranslateWith, hx] at hw

/-- Settles O11: the fill runs in the state without its event, where memory, registers and visible writes are those of
`s`, so that `HwTranslate` is too. -/
theorem walkerFillsCurrentTranslationsOnly : Obligations.WalkerFillsCurrentTranslationsOnly := by
  intro s va picks rest hf ha hu
  have same_answers (v : Word) : hwTranslate (s.advance rest) v = hwTranslate s v := rfl
  refine ⟨_, step_walkerFill hf ha, walkerFill_eq va picks (s.advance rest), ?kept, ?added, ?filled⟩
  case kept => exact fun e he => mem_walkerFill_of_mem he
  case added =>
    intro e he
    refine (walkerFill_mem (s := s.advance rest) hu he).imp_right ?_
    rintro ⟨-, hw⟩
    rw [same_answers] at hw
    exact ⟨xlatOn_of_hwTranslate_flags hw, hw⟩
  case filled => exact fun pa f hw => mem_walkerFill_of_translates (s := s.advance rest) hu hw

/-! ## The Frame Allocator's contract (R44) -/

/-- Two non-empty half-open ranges that do not meet lie one before the other. -/
theorem apart_of_rangesMeet {a b c d : Nat} (hab : a < b) (hcd : c < d) (h : rangesMeet a b c d = false) :
    b ≤ c ∨ d ≤ a := by
  simp [rangesMeet, hab, hcd] at h
  omega

/-- Under R8 a frame the allocator may answer lies clear of the vector table's page and of the trampoline. -/
theorem apart_of_frameReserved {p : Params} {f : Frame} (htramp : p.trampOk = true) (h : frameReserved p f = false) :
    (4096 * f.toNat + 4096 ≤ p.vecPhys.toNat ∨ p.vecPhys.toNat + 4096 ≤ 4096 * f.toNat) ∧
    (4096 * f.toNat + 4096 ≤ p.trampStart.toNat ∨ p.trampEnd.toNat ≤ 4096 * f.toNat) := by
  obtain ⟨hvec, htr⟩ := Bool.or_eq_false_iff.1 h
  have hlt : p.trampStart.toNat < p.trampEnd.toNat := by
    simp only [Params.trampOk, Bool.and_eq_true, decide_eq_true_eq] at htramp
    exact htramp.1.2
  have hpage (n : Nat) : n < n + pageSize := by simp
  exact ⟨apart_of_rangesMeet (hpage _) (hpage _) hvec, apart_of_rangesMeet (hpage _) hlt htr⟩

theorem Params.trampOk_of_wellFormed {p : Params} (h : p.wellFormed = true) : p.trampOk = true := by
  simp only [Params.wellFormed, Bool.and_eq_true] at h
  tauto

/-- Clearing a frame's page zeroes its bytes and no other. -/
theorem Memory.read_clear_frame (m : Memory) (f : Frame) (a : Nat) :
    (m.clear (pageSize * f.toNat) pageSize).read a = if InFrame a f then 0#8 else m.read a :=
  Memory.read_clear m _ _ a

/-- Settles O18: the contract is checked before a frame is answered, and the answer clears the frame's page. -/
theorem allocatorAnswersAFreshZeroedFrame : Obligations.AllocatorAnswersAFreshZeroedFrame := by
  intro s t f hwf hal
  rcases allocFrame_cases s with ⟨g, rest, -, hfresh, hres, heq⟩ | ⟨rest, -, heq⟩
  case inr => simp [heq] at hal
  obtain ⟨rfl, rfl⟩ : g = f ∧ _ = t := by simpa [heq] using hal
  obtain ⟨hvec, htramp⟩ := apart_of_frameReserved (Params.trampOk_of_wellFormed hwf) hres
  refine ⟨hfresh, hvec, htramp, rfl, fun k hk => ?zeroed, fun a ha => ?frame⟩
  case zeroed => exact (Memory.read_clear_frame _ _ _).trans (if_pos ⟨by omega, by omega⟩)
  case frame => exact (Memory.read_clear_frame _ _ _).trans (if_neg (by omega))

/-! ## The state after reset (R46) -/

/-- Settles O10: field by field. -/
theorem resetStateHoldsTheTabulatedValues : Obligations.ResetStateHoldsTheTabulatedValues :=
  ⟨rfl, rfl, rfl, rfl, rfl, by decide, rfl, rfl, rfl, rfl, rfl, rfl, rfl, rfl, rfl⟩

/-- At reset the block stands at the first of the nine states. -/
theorem State.reset_between_iff (lo hi : Nat) : State.reset.between lo hi ↔ lo = 0 := by
  simp [State.between, State.reset, TransState.rank, TransState.code]

/-- A clause about a later stretch of the bring-up asks nothing at reset. -/
theorem State.reset_not_between {lo hi : Nat} {P : Prop} (hlo : lo ≠ 0) (h : State.reset.between lo hi) : P :=
  absurd ((State.reset_between_iff lo hi).1 h) hlo

/-- Of the bring-up invariant only what holds before the enable, and that no failure is recorded, is asked at reset. -/
theorem bringUp_reset : BringUp State.reset where
  mair := State.reset_not_between (by decide)
  tcrDual := State.reset_not_between (by decide)
  tcrKonly := State.reset_not_between (by decide)
  tcrFlag := State.reset_not_between (by decide)
  bases := State.reset_not_between (by decide)
  xlatOff _ := by decide
  xlatOn := State.reset_not_between (by decide)
  vecInstalled := State.reset_not_between (by decide)
  vecRelocated := State.reset_not_between (by decide)
  vecNotYet _ := rfl
  vbarPhys _ h := nomatch h
  vbarVirt _ h := nomatch h
  pcLow _ := by decide
  pcTramp := State.reset_not_between (by decide)
  pcHigh := State.reset_not_between (by decide)
  noFailure _ := ⟨rfl, rfl⟩
  failure h := nomatch h

/-- The example parameters meet R8, and every other clause is about a later state. -/
theorem transitionSafe_reset : TransitionSafe State.reset where
  params := by decide
  bringUp := bringUp_reset
  dual h := nomatch h
  kernelPc := State.reset_not_between (by decide)
  tlbEmpty _ := rfl
  tlb := State.reset_not_between (by decide)

/-- Settles O59: memory and registry are empty at reset, no root is recorded, and the state is INIT. -/
theorem invariantsHoldAtReset : Obligations.InvariantsHoldAtReset :=
  ⟨rfl, ⟨rfl, Nat.zero_le _⟩, State.reset_not_between (by decide), (nomatch ·), transitionSafe_reset⟩

end Sys2Proof.Machine

/-! What the walker sees of memory: a walk reads one descriptor a level and finds a mapping exactly when all four are
usable (R58, R59, R87), and from TLB_CLEAN on no step leaves a descriptor write invisible to it (R67, R121). -/

namespace Sys2Proof.Machine

/-! ## The four descriptors of a walk (R58, R59, R87) -/

/-- The slot of a level, as arithmetic on the address (R59, R87). -/
theorem slotAddr_idx (t : Frame) (l : Fin 4) (va : Word) :
    slotAddr t (idx l va) = 4096 * t.toNat + 8 * (va.toNat / 2 ^ (39 - 9 * l.val) % 512) := by
  rw [slotAddr, idx_toNat]

/-- The slot of a level in the table a descriptor names by its bits [47:12]. -/
theorem slotAddr_frameOf_idx (d : Word) (l : Fin 4) (va : Word) :
    slotAddr (frameOf d) (idx l va) =
      4096 * (d.toNat / 4096 % 68719476736) + 8 * (va.toNat / 2 ^ (39 - 9 * l.val) % 512) := by
  rw [slotAddr_idx, frameOf_toNat]

/-- Bits [1:0] of a descriptor, as arithmetic (R81, R82). -/
theorem descUsable_iff_mod (d : Word) : descUsable d = true ↔ d.toNat % 4 = 3 := by
  simp [descUsable, ← BitVec.toNat_inj]

/-- The frame's address and the page offset share no bit, so that joining them adds them (R87). -/
theorem frameAddr_or_pageOffset (d va : Word) : frameAddr (frameOf d) ||| (pageOffset va).setWidth 64 =
    BitVec.ofNat 64 (4096 * (d.toNat / 4096 % 68719476736) + va.toNat % 4096) := by
  have hoff : ((pageOffset va).setWidth 64).toNat = va.toNat % 4096 := by
    simp [pageOffset]
    omega
  have hjoin (a : Nat) : 4096 * a + va.toNat % 4096 = 4096 * a ||| va.toNat % 4096 :=
    Nat.two_pow_add_eq_or_of_lt (i := 12) (Nat.mod_lt _ (by decide)) a
  apply BitVec.eq_of_toNat_eq
  rw [BitVec.toNat_or, frameAddr_toNat, frameOf_toNat, hoff, BitVec.toNat_ofNat, ← hjoin]
  omega

/-- What a leaf descriptor answers, as arithmetic on the descriptor and the address (R58, R87). -/
theorem leafTranslation_eq (d va : Word) : leafTranslation d va =
    if d.toNat % 4 = 3 then
      some {
        pa := BitVec.ofNat 64 (4096 * (d.toNat / 4096 % 68719476736) + va.toNat % 4096)
        flags := d &&& 0x00600000000007DC#64 }
    else none := by
  simp only [leafTranslation, descUsable_iff_mod, frameAddr_or_pageOffset, flagsMask]

/-- A walk whose descriptors are `d0` to `d3` ends at the leaf `d3` when the three above it are usable (R58). -/
theorem walk_eq_of_descriptors {m : Memory} {root : Frame} {va d0 d1 d2 d3 : Word}
    (h0 : d0 = m.read64 (slotAddr root (idx 0 va))) (h1 : d1 = m.read64 (slotAddr (frameOf d0) (idx 1 va)))
    (h2 : d2 = m.read64 (slotAddr (frameOf d1) (idx 2 va))) (h3 : d3 = m.read64 (slotAddr (frameOf d2) (idx 3 va))) :
    walk m root va =
      if d0.toNat % 4 = 3 ∧ d1.toNat % 4 = 3 ∧ d2.toNat % 4 = 3 then leafTranslation d3 va else none := by
  simp only [walk, walkWith, tableLevels, walkTables, ← h0, ← h1, ← h2, ← descUsable_iff_mod]
  by_cases u0 : descUsable d0 = true
  case neg => simp [u0]
  by_cases u1 : descUsable d1 = true
  case neg => simp [u1]
  by_cases u2 : descUsable d2 = true
  case neg => simp [u2]
  simp [u0, u1, u2, h3]

/-- Settles O31: the slots are the statement's addresses, and the walk's four checks are its condition. -/
theorem walkReadsFourDescriptors : Obligations.WalkReadsFourDescriptors := by
  intro m root va d0 d1 d2 d3 h0 h1 h2 h3
  have hwalk := walk_eq_of_descriptors (h0.trans (congrArg m.read64 (slotAddr_idx root 0 va).symm))
    (h1.trans (congrArg m.read64 (slotAddr_frameOf_idx d0 1 va).symm))
    (h2.trans (congrArg m.read64 (slotAddr_frameOf_idx d1 2 va).symm))
    (h3.trans (congrArg m.read64 (slotAddr_frameOf_idx d2 3 va).symm))
  rw [hwalk, leafTranslation_eq, ← ite_and]
  simp only [and_assoc]

/-! ## The walker is up to date from TLB_CLEAN on (R67, R121) -/

/-- From TLB_CLEAN on mutations are refused, except in STEADY (R121). -/
theorem State.between_window_or_steady {s : State} (h : s.between 4 8) :
    s.state.permitsMutation = false ∨ s.state = .steady := by
  obtain ⟨hh, h4, -⟩ := h
  cases hs : s.state <;> simp_all [TransState.permitsMutation, TransState.rank, TransState.code]

/-- NEW_PAIR runs before TLB_CLEAN only (R121). -/
theorem State.not_between_of_permitsNewPair {s : State} (h : s.state.permitsNewPair = true) : ¬ s.between 4 8 := by
  rintro ⟨-, h4, -⟩
  cases hs : s.state <;> simp_all [TransState.permitsNewPair, TransState.rank, TransState.code]

/-- With every write visible the walker is up to date wherever the block stands. -/
theorem WalkerUpToDate.of_visible {t : State} (h : t.unseen = []) : WalkerUpToDate t := fun _ => h

/-- A halted block is out of the stretch. -/
theorem WalkerUpToDate.halted (u : State) (c : Status) (f : FailInfo) : WalkerUpToDate (u.halted c f) :=
  fun hb => absurd rfl hb.1

/-- Before TLB_CLEAN nothing is asked. -/
theorem WalkerUpToDate.of_not_between {t : State} (h : ¬ t.between 4 8) : WalkerUpToDate t := fun hb => absurd hb h

/-- An operation that enters a state before TLB_CLEAN. -/
theorem WalkerUpToDate.of_entered {u : State} {p : TransState} {st : Status} (hp : p.rank < 4) :
    WalkerUpToDate ((u.enter p).completed st) :=
  .of_not_between fun ⟨_, h4, _⟩ => Nat.not_le_of_lt hp h4

/-- A change that leaves the sequence's place and the writes not yet visible alone keeps it. -/
theorem WalkerUpToDate.congr {s t : State} (h : WalkerUpToDate s) (hs : t.state = s.state) (hu : t.unseen = s.unseen) :
    WalkerUpToDate t := fun hb => hu.trans (h ((State.between_congr hs).1 hb))

/-- A transition from inside the stretch that leaves the writes not yet visible alone keeps it. -/
theorem WalkerUpToDate.of_transition {s t : State} {p : TransState} (h : WalkerUpToDate s) (hs : s.state = p)
    (hp : p ≠ .halted ∧ 4 ≤ p.rank ∧ p.rank ≤ 8) (hu : t.unseen = s.unseen) : WalkerUpToDate t :=
  .of_visible (hu.trans (h (by rw [State.between, hs]; exact hp)))

/-- An operation on tables, registry and results leaves no write the walker may miss: in the window it writes none, in
STEADY it ends with the barrier of R121. -/
theorem DataStep.walkerUpToDate {s t : State} (hd : DataStep s t) (h : WalkerUpToDate s) : WalkerUpToDate t := by
  rcases hd.ends with hq | ⟨u, c, f, -, rfl, -⟩
  · have hst : t.state = s.state := by rw [hq]
    intro ht
    have hs : s.between 4 8 := (State.between_congr hst).1 ht
    exact hd.visible (State.between_window_or_steady hs) (h hs) ht.1
  · exact .halted u c f

/-- Every case of every operation keeps the walker up to date: writes are made before TLB_CLEAN, or are followed by a
barrier, or the block has halted. -/
theorem OpCase.walkerUpToDate {i : Instr} {s t : State} (hc : OpCase i s t) (h : WalkerUpToDate s) :
    WalkerUpToDate t := by
  cases hc with
  | data _ hd => exact hd.walkerUpToDate h
  | sysHalt hh =>
    obtain ⟨r, f, rfl⟩ := hh
    exact .halted _ _ _
  | newPair hp u hu _ he =>
    rcases he with rfl | ⟨p0, p1, rfl⟩
    · exact .halted _ _ _
    · have hst : u.state = s.state := by rw [hu]
      exact .of_not_between fun hb => State.not_between_of_permitsNewPair hp ((State.between_congr hst).1 hb)
  | vecInstall _ _ u _ _ he =>
    rcases he with ⟨f, rfl⟩ | ⟨f, rfl⟩ | ⟨hu, rfl⟩
    · exact .halted _ _ _
    · exact .halted _ _ _
    · exact .of_visible hu
  | mair _ _ he | tcrDual _ _ he | bases _ _ _ he =>
    subst he
    exact .of_entered (by decide)
  | tlbClean _ _ he =>
    subst he
    exact .of_visible rfl
  | enable _ h0 _ _ _ he | migrate _ h0 _ _ he | tcrKernel _ h0 _ _ he | finish _ h0 he =>
    subst he
    exact h.of_transition h0 (by decide) rfl
  | refused _ he | vecRelocate _ _ he | setPc _ _ he =>
    subst he
    exact h.congr rfl rfl

/-- Settles O57: an operation keeps it case by case, a reset leaves no write behind, and the environment's other acts
touch neither memory nor the sequence's place. -/
theorem everyStepKeepsTheWalkerUpToDate : Obligations.EveryStepKeepsTheWalkerUpToDate := by
  intro s t h hstep
  have hadv (rest : List Event) : WalkerUpToDate (s.advance rest) := h.congr rfl rfl
  obtain ⟨-, ⟨i, rest, hx⟩ | ⟨rest, rfl⟩ | ⟨rest, o, rfl⟩ | ⟨rest, b, rfl⟩ | ⟨rest, va, picks, rfl⟩ | ⟨rest, v, -, rfl⟩⟩ :=
    step_cases hstep
  · exact (exec_opCase hx).walkerUpToDate (hadv rest)
  · exact h.congr rfl rfl
  · exact h.congr rfl rfl
  · exact h.congr rfl rfl
  · rw [walkerFill_eq]
    exact h.congr rfl rfl
  · exact .of_visible rfl

end Sys2Proof.Machine

/-! The opcode map and the port (R88 to R90, R96, R98): an opcode byte and its operation fix one another, and a step whose
next event is a command runs the operation the byte decodes to, or answers IllegalCommand where it decodes to none. -/

namespace Sys2Proof.Laws.OneByteEncoding

/-- The law of one-byte encoding holds of all 29 operations. -/
theorem every (i : Instr) : Statement i := by
  cases i
  exacts [pteEncLeaf, pteEncTable, pteDec, pteSummary, createTable, mapPage, mapRange, walk, newPair, baseOf,
    getKernelRoot, translate, register, audit, walkAndReport, registerRegion, fsmMair, fsmTcrDual, fsmBases,
    fsmTlbClean, fsmEnable, fsmMigrate, fsmTcrKernel, fsmFinish, vecInstall, vecRelocate, isTranslationEnabled, setPc,
    tlbiLocalAll]

end Sys2Proof.Laws.OneByteEncoding

namespace Sys2Proof

/-! ## The opcode map (R88, R90, R98) -/

theorem encode_eq_singleton_iff {op : Byte} {i : Instr} : encode i = [op] ↔ opcodeOf i = op := by simp [encode]

/-- The decoder reads back what the encoder wrote, and leaves what follows. -/
theorem decode_encode (i : Instr) (rest : List Byte) : decode (encode i ++ rest) = .ok (i, rest) := by
  obtain ⟨-, -, hdecode⟩ := Laws.OneByteEncoding.every i
  exact hdecode rest

/-- Every row of the table has the opcode the encoder gives its operation. -/
theorem opcodeOf_of_mem_opcodeTable : ∀ row ∈ opcodeTable, opcodeOf row.2 = row.1 := by decide

/-- An opcode the decoder accepts is the encoding of what it decodes to. -/
theorem opcodeOf_of_decodeOpcode {op : Byte} {i : Instr} (h : decodeOpcode op = some i) : opcodeOf i = op := by
  obtain ⟨row, hfind, rfl⟩ := Option.map_eq_some_iff.1 h
  have hop : row.1 = op := by simpa using List.find?_some hfind
  rw [opcodeOf_of_mem_opcodeTable row (List.mem_of_find?_eq_some hfind), hop]

/-- The decoder refuses an opcode exactly when no row of the table has it (R96). -/
theorem decodeOpcode_eq_none_iff {op : Byte} : decodeOpcode op = none ↔ op ∉ opcodeTable.map Prod.fst := by
  simp only [decodeOpcode, Option.map_eq_none_iff, List.find?_eq_none, beq_iff_eq, List.mem_map, not_exists, not_and]

theorem decode_singleton_eq_ok_iff {op : Byte} {i : Instr} : decode [op] = .ok (i, []) ↔ decodeOpcode op = some i := by
  cases h : decodeOpcode op <;> simp [decode, h]

theorem decode_of_reserved {op : Byte} (h : op ∉ opcodeTable.map Prod.fst) : decode [op] = .error (.reservedOpcode op) := by
  simp [decode, decodeOpcode_eq_none_iff.2 h]

/-- Settles O1: what the encoder writes is read back, and a byte that is read is its operation's row of the table. -/
theorem opcodeByteDecodesExactlyItsOperation : Obligations.OpcodeByteDecodesExactlyItsOperation := by
  intro op i
  constructor <;> intro h
  · exact encode_eq_singleton_iff.2 (opcodeOf_of_decodeOpcode (decode_singleton_eq_ok_iff.1 h))
  · rw [← h]
    exact decode_encode i []

/-- Settles O2: the rows written out are those of the table, and neither 0x41 nor 0x00 has a row. -/
theorem tabulatedOpcodesDecodeAsListed : Obligations.TabulatedOpcodesDecodeAsListed := by
  refine ⟨fun row hrow => ?listed, decode_of_reserved (by decide), decode_of_reserved (by decide)⟩
  have hop : opcodeOf row.2 = row.1 := opcodeOf_of_mem_opcodeTable row hrow
  exact (opcodeByteDecodesExactlyItsOperation row.1 row.2).2 (encode_eq_singleton_iff.2 hop)

end Sys2Proof

namespace Sys2Proof.Machine

/-! ## A step that takes a command (R89, R96) -/

theorem step_of_decoded {s : State} {op : Byte} {rest : List Event} {i : Instr} (hf : fetchFaults s = false)
    (ha : s.agenda = .command op :: rest) (hd : decode [op] = .ok (i, [])) : step s = exec i (s.advance rest) := by
  simp [step, fetch_of_agenda hf ha, applyEvent, acceptCommand, hd]

theorem step_of_undecoded {s : State} {op : Byte} {rest : List Event} {err : DecodeError} (hf : fetchFaults s = false)
    (ha : s.agenda = .command op :: rest) (hd : decode [op] = .error err) :
    step s = (s.advance rest).finish .illegalCommand := by
  simp [step, fetch_of_agenda hf ha, applyEvent, acceptCommand, hd, execReserved]

/-- Settles O3: the opcodes listed are the table's, so that the byte decodes to nothing. -/
theorem reservedOpcodeCompletesWithIllegalCommand : Obligations.ReservedOpcodeCompletesWithIllegalCommand := by
  intro s op rest hf ha hop
  have hreserved : decode [op] = .error (.reservedOpcode op) := decode_of_reserved hop
  exact step_of_undecoded hf ha hreserved

/-- Settles O4: with no field to check, an opcode that decodes runs at once. -/
theorem stepRunsTheDecodedCommand : Obligations.StepRunsTheDecodedCommand :=
  fun _ _ _ _ hf ha _ hd => step_of_decoded hf ha hd

end Sys2Proof.Machine

/-! Sub-block PTE (R101 to R105): the two encoders and the two decoders, each as the chain of its rule's checks, and the
descriptor a decoder reads, bit pattern by bit pattern. -/

namespace Sys2Proof.Machine

/-! ## The two ends of an alignment error (R181) -/

theorem State.alignmentError_of_release {s : State} (hd : s.cfg.debugHaltOnAlignment = false) :
    s.alignmentError = .next { s with status := 0x02#8, rspValid := true } := by
  rw [State.alignmentError_eq, if_neg (by simp [hd])]
  rfl

theorem State.alignmentError_of_debug {s : State} (hd : s.cfg.debugHaltOnAlignment = true) :
    s.alignmentError = .next (s.halted .alignmentError .alignment) := by
  rw [State.alignmentError_eq, if_pos hd]
  rfl

/-! ## The encoders (R101, R102) -/

/-- The chain of checks that both encoders make of `A0`, with `inDomain` the check of their operands' domains and `desc`
the descriptor they answer. -/
def encodeChecked (inDomain : Prop) [Decidable inDomain] (desc : Word) (s : State) : Result :=
  if s.state = .halted then s.finish .illegalCommand
  else if ¬ Aligned s.ops.a0 then s.alignmentError
  else if ¬ inDomain then s.finish .badOperand
  else (s.setR0 desc).finish .ok

section

variable {inDomain : Prop} [Decidable inDomain] {desc : Word} {s : State}

theorem encodeChecked_of_halted (hh : s.state = .halted) :
    encodeChecked inDomain desc s = .next { s with status := 0x10#8, rspValid := true } :=
  if_pos hh

theorem encodeChecked_of_unaligned (hs : s.state ≠ .halted) (ha : ¬ Aligned s.ops.a0) :
    encodeChecked inDomain desc s = s.alignmentError := by
  rw [encodeChecked, if_neg hs, if_pos ha]

theorem encodeChecked_of_not_inDomain (hs : s.state ≠ .halted) (ha : Aligned s.ops.a0) (hd : ¬ inDomain) :
    encodeChecked inDomain desc s = .next { s with status := 0x11#8, rspValid := true } := by
  rw [encodeChecked, if_neg hs, if_neg (not_not.2 ha), if_pos hd]
  rfl

theorem encodeChecked_of_inDomain (hs : s.state ≠ .halted) (ha : Aligned s.ops.a0) (hd : inDomain) :
    encodeChecked inDomain desc s =
      .next { s with res := { s.res with r0 := desc }, status := 0x00#8, rspValid := true } := by
  rw [encodeChecked, if_neg hs, if_neg (not_not.2 ha), if_neg (not_not.2 hd)]
  rfl

end

/-- The two domain checks of PTE_ENC_LEAF end alike, so they are one check. -/
theorem exec_pteEncLeaf_eq (s : State) : exec .pteEncLeaf s =
    encodeChecked (Physical s.ops.a0 ∧ FlagsWord s.ops.a1) (leafDesc s.ops.a0 s.ops.a1) s := by
  change execPteEncLeaf s = _
  simp only [execPteEncLeaf, encodeChecked, flagsWord_iff, ← pageAligned_iff, ← isPhys_iff, Bool.not_eq_true',
    Bool.not_eq_true, Classical.not_and_iff_not_or_not, ite_or]

theorem exec_pteEncTable_eq (s : State) :
    exec .pteEncTable s = encodeChecked (Physical s.ops.a0) (tableDesc s.ops.a0) s := by
  change execPteEncTable s = _
  simp only [execPteEncTable, encodeChecked, ← pageAligned_iff, ← isPhys_iff, Bool.not_eq_true', Bool.not_eq_true]

/-- Settles O12: each branch is one path through the chain of checks. -/
theorem leafEncodingFollowsItsRule : Obligations.LeafEncodingFollowsItsRule := by
  refine ⟨decode_encode .pteEncLeaf [], fun s => ?branches⟩
  rw [exec_pteEncLeaf_eq]
  refine ⟨encodeChecked_of_halted, fun hs => ⟨fun ha hd => ?release, fun ha hd => ?debug, fun ha hbad => ?domain,
    fun ha hp hf => ?ok⟩⟩
  case release => rw [encodeChecked_of_unaligned hs ha, State.alignmentError_of_release hd]
  case debug => rw [encodeChecked_of_unaligned hs ha, State.alignmentError_of_debug hd]
  case domain => exact encodeChecked_of_not_inDomain hs ha hbad
  case ok => exact encodeChecked_of_inDomain hs ha ⟨hp, hf⟩

/-- Settles O13: each branch is one path through the chain of checks. -/
theorem tableEncodingFollowsItsRule : Obligations.TableEncodingFollowsItsRule := by
  refine ⟨decode_encode .pteEncTable [], fun s => ?branches⟩
  rw [exec_pteEncTable_eq]
  refine ⟨encodeChecked_of_halted, fun hs => ⟨fun ha hd => ?release, fun ha hd => ?debug, fun ha hbad => ?domain,
    fun ha hp => ?ok⟩⟩
  case release => rw [encodeChecked_of_unaligned hs ha, State.alignmentError_of_release hd]
  case debug => rw [encodeChecked_of_unaligned hs ha, State.alignmentError_of_debug hd]
  case domain => exact encodeChecked_of_not_inDomain hs ha hbad
  case ok => exact encodeChecked_of_inDomain hs ha hp

/-! ## What a descriptor decodes to, by bits [1:0] and level (R103) -/

theorem decodeDesc_invalid {d : Word} (h0 : d.getLsbD 0 = false) (level : Word) :
    decodeDesc d level = { kind := .invalid, addr := 0#64, flags := 0#64 } := by
  simp only [decodeDesc, descValid, h0, Bool.not_false, if_true]

theorem decodeDesc_malformed {d : Word} (h0 : d.getLsbD 0 = true) (h1 : d.getLsbD 1 = false) (level : Word) :
    decodeDesc d level = { kind := .malformed, addr := frameAddr (frameOf d), flags := d &&& flagsMask } := by
  simp only [decodeDesc, descValid, descTypeBit, h0, h1, Bool.not_true, Bool.not_false, if_true, if_false, reduceCtorEq]

theorem decodeDesc_table {d level : Word} (h0 : d.getLsbD 0 = true) (h1 : d.getLsbD 1 = true) (hl : level.toNat < 3) :
    decodeDesc d level = { kind := .table, addr := frameAddr (frameOf d), flags := 0#64 } := by
  simp only [decodeDesc, descValid, descTypeBit, h0, h1, Bool.not_true, hl, if_true, if_false, reduceCtorEq]

theorem decodeDesc_leaf {d level : Word} (h0 : d.getLsbD 0 = true) (h1 : d.getLsbD 1 = true) (hl : ¬ level.toNat < 3) :
    decodeDesc d level = { kind := .leaf, addr := frameAddr (frameOf d), flags := d &&& flagsMask } := by
  simp only [decodeDesc, descValid, descTypeBit, h0, h1, Bool.not_true, hl, if_false, reduceCtorEq]

/-- A leaf descriptor decodes at level 3 to the address and flags it was made of. -/
theorem decodeDesc_leafDesc {phys flags : Word} (ha : Aligned phys) (hp : Physical phys) (hf : FlagsWord flags) :
    decodeDesc (leafDesc phys flags) 3#64 = { kind := .leaf, addr := phys, flags := flags } := by
  obtain ⟨h0, h1⟩ := (descUsable_iff _).1 (descUsable_leafDesc phys flags)
  have hflags : flagsOk flags = true := (flagsWord_iff flags).1 hf
  rw [decodeDesc_leaf h0 h1 (by decide), frameOf_leafDesc hflags, frameAddr_frameOf ha hp,
    leafDesc_and_flagsMask ((pageAligned_iff phys).2 ha) ((isPhys_iff phys).2 hp) hflags]

/-- A table descriptor decodes above level 3 to the child it was made of. -/
theorem decodeDesc_tableDesc {child level : Word} (ha : Aligned child) (hp : Physical child) (hl : level.toNat < 3) :
    decodeDesc (tableDesc child) level = { kind := .table, addr := child, flags := 0#64 } := by
  obtain ⟨h0, h1⟩ := (descUsable_iff _).1 (descUsable_tableDesc child)
  have hframe : frameOf (tableDesc child) = frameOf child := by
    rw [← frameAddr_frameOf ha hp, frameOf_tableDesc, frameOf_frameAddr]
  rw [decodeDesc_table h0 h1 hl, hframe, frameAddr_frameOf ha hp]

/-! ## PTE_DEC (R103) -/

theorem exec_pteDec_eq (s : State) : exec .pteDec s =
    if s.state = .halted then s.finish .illegalCommand
    else if ¬ s.ops.a1.toNat ≤ 3 then s.finish .badOperand
    else .next { s with
      res := { s.res with
        r0 := (decodeDesc s.ops.a0 s.ops.a1).kind.code
        r1 := (decodeDesc s.ops.a0 s.ops.a1).addr
        r2 := (decodeDesc s.ops.a0 s.ops.a1).flags }
      status := 0x00#8, rspValid := true } := by
  change execPteDec s = _
  simp only [execPteDec, ← levelOk_iff, Bool.not_eq_true', Bool.not_eq_true]
  rfl

/-- PTE_DEC at a level in its domain answers what the descriptor decodes to. -/
theorem exec_pteDec_of_decodeDesc {s : State} {d : Decoded} (hs : s.state ≠ .halted) (hl : s.ops.a1.toNat ≤ 3)
    (hd : decodeDesc s.ops.a0 s.ops.a1 = d) : exec .pteDec s = .next { s with
      res := { s.res with r0 := d.kind.code, r1 := d.addr, r2 := d.flags }, status := 0x00#8, rspValid := true } := by
  rw [exec_pteDec_eq, if_neg hs, if_neg (not_not.2 hl), hd]

/-- Settles O14: by the four bit patterns of the descriptor. -/
theorem descriptorDecodingFollowsItsRule : Obligations.DescriptorDecodingFollowsItsRule := by
  refine ⟨decode_encode .pteDec [], fun s => ⟨fun hh => ?halted, fun hs => ⟨fun hl => ?domain, fun hl => ?ok⟩⟩⟩
  case halted => rw [exec_pteDec_eq, if_pos hh]; rfl
  case domain => rw [exec_pteDec_eq, if_neg hs, if_pos (Nat.not_le.2 hl)]; rfl
  case ok =>
    cases h0 : s.ops.a0.getLsbD 0
    case false =>
      rw [exec_pteDec_of_decodeDesc hs hl (decodeDesc_invalid h0 _)]
      rfl
    case true =>
      rw [← frameAddr_frameOf_eq_and]
      cases h1 : s.ops.a0.getLsbD 1
      case false =>
        rw [exec_pteDec_of_decodeDesc hs hl (decodeDesc_malformed h0 h1 _)]
        rfl
      case true =>
        by_cases hlt : s.ops.a1.toNat < 3
        · rw [exec_pteDec_of_decodeDesc hs hl (decodeDesc_table h0 h1 hlt)]
          simp [hlt, DescKind.code]
        · rw [exec_pteDec_of_decodeDesc hs hl (decodeDesc_leaf h0 h1 hlt)]
          simp [hlt, DescKind.code, flagsMask]

/-- Settles O16: what the encoders answer is a descriptor whose decoding is known. -/
theorem decodingReturnsWhatWasEncoded : Obligations.DecodingReturnsWhatWasEncoded := by
  intro s phys flags level hs ha hp
  constructor
  case left =>
    intro hf
    have henc := (exec_pteEncLeaf_eq { s with ops := { s.ops with a0 := phys, a1 := flags } }).trans
      (encodeChecked_of_inDomain hs ha ⟨hp, hf⟩)
    exact ⟨_, _, henc, exec_pteDec_of_decodeDesc hs (Nat.le_refl 3) (decodeDesc_leafDesc ha hp hf), rfl, rfl, rfl, rfl⟩
  case right =>
    intro hl
    have henc := (exec_pteEncTable_eq { s with ops := { s.ops with a0 := phys } }).trans
      (encodeChecked_of_inDomain hs ha hp)
    exact ⟨_, _, henc, exec_pteDec_of_decodeDesc hs hl.le (decodeDesc_tableDesc ha hp hl), rfl, rfl, rfl⟩

/-! ## PTE_SUMMARY (R104) -/

/-- `FLAGS_MASK` keeps a field whose bits it has all set. -/
theorem extractLsb'_and_flagsMask {i n : Nat} (hm : flagsMask.extractLsb' i n = BitVec.allOnes n) (d : Word) :
    (d &&& flagsMask).extractLsb' i n = d.extractLsb' i n := by
  rw [BitVec.extractLsb'_and, hm, BitVec.and_allOnes]

theorem getLsbD_and_flagsMask {i : Nat} (hm : flagsMask.getLsbD i = true) (d : Word) :
    (d &&& flagsMask).getLsbD i = d.getLsbD i := by
  rw [BitVec.getLsbD_and, hm, Bool.and_true]

/-- The lines from `AttrName` on read bits of `FLAGS_MASK` only, so they are the same of a descriptor and of its flags word. -/
theorem flagsItems_and_flagsMask (d : Word) : flagsItems (d &&& flagsMask) = flagsItems d := by
  simp only [flagsItems, attrName, apName, shName,
    extractLsb'_and_flagsMask (i := 2) (n := 3) (by decide), extractLsb'_and_flagsMask (i := 6) (n := 2) (by decide),
    extractLsb'_and_flagsMask (i := 8) (n := 2) (by decide), getLsbD_and_flagsMask (i := 10) (by decide),
    getLsbD_and_flagsMask (i := 53) (by decide), getLsbD_and_flagsMask (i := 54) (by decide)]

/-- A field of a word, as arithmetic. -/
theorem extractLsb'_toNat_eq_div_mod (d : Word) (i n : Nat) : (d.extractLsb' i n).toNat = d.toNat / 2 ^ i % 2 ^ n := by
  rw [BitVec.extractLsb'_toNat, Nat.shiftRight_eq_div_pow]

theorem attrName_eq (d : Word) : attrName d =
    if d.toNat / 4 % 8 = 0 then .deviceSo else if d.toNat / 4 % 8 = 1 then .normal
    else if d.toNat / 4 % 8 = 2 then .normalNc else if d.toNat / 4 % 8 = 3 then .deviceG else .attrReserved := by
  rw [attrName, extractLsb'_toNat_eq_div_mod]
  split <;> simp_all

theorem apName_eq (d : Word) : apName d =
    if d.toNat / 64 % 4 = 0 then .kernelRw else if d.toNat / 64 % 4 = 1 then .userRw
    else if d.toNat / 64 % 4 = 2 then .kernelRo else .userRo := by
  rw [apName, extractLsb'_toNat_eq_div_mod]
  split <;> simp_all

theorem shName_eq (d : Word) : shName d =
    if d.toNat / 256 % 4 = 0 then .shNone else if d.toNat / 256 % 4 = 1 then .shReserved
    else if d.toNat / 256 % 4 = 2 then .shOuter else .shInner := by
  rw [shName, extractLsb'_toNat_eq_div_mod]
  split <;> simp_all

theorem exec_pteSummary_eq (s : State) : exec .pteSummary s =
    if s.state = .halted then s.finish .illegalCommand
    else if ¬ s.ops.a1.toNat ≤ 3 then s.finish .badOperand
    else .next { s with
      console := s.console ++ summaryItems s.ops.a0 (decodeDesc s.ops.a0 s.ops.a1)
      status := 0x00#8, rspValid := true } := by
  change execPteSummary s = _
  simp only [execPteSummary, ← levelOk_iff, Bool.not_eq_true', Bool.not_eq_true]
  rfl

/-- What the summary prints, by the four bit patterns of the descriptor. -/
theorem summaryItems_decodeDesc (d level : Word) : summaryItems d (decodeDesc d level) = [.line .pte, .hex d] ++
    (if d.getLsbD 0 = false then [.line .invalid]
    else if d.getLsbD 1 = false then [.line .malformed, .line .oa, .hex (frameAddr (frameOf d))] ++ flagsItems d
    else if level.toNat < 3 then [.line .table, .line .oa, .hex (frameAddr (frameOf d))]
    else [.line .leaf, .line .oa, .hex (frameAddr (frameOf d))] ++ flagsItems d) := by
  cases h0 : d.getLsbD 0
  case false =>
    rw [decodeDesc_invalid h0]
    rfl
  case true =>
    cases h1 : d.getLsbD 1
    case false =>
      rw [decodeDesc_malformed h0 h1, ← flagsItems_and_flagsMask d]
      rfl
    case true =>
      by_cases hl : level.toNat < 3
      · rw [decodeDesc_table h0 h1 hl, if_pos hl]
        rfl
      · rw [decodeDesc_leaf h0 h1 hl, if_neg hl, ← flagsItems_and_flagsMask d]
        rfl

/-- Settles O15: the six lines of the statement are the model's, with each field written as arithmetic. -/
theorem summaryPrintsTheDescriptor : Obligations.SummaryPrintsTheDescriptor := by
  refine ⟨decode_encode .pteSummary [], fun s => ⟨fun hh => ?halted, fun hs => ⟨fun hl => ?domain, fun hl => ?ok⟩⟩⟩
  case halted => rw [exec_pteSummary_eq, if_pos hh]; rfl
  case domain => rw [exec_pteSummary_eq, if_neg hs, if_pos (Nat.not_le.2 hl)]; rfl
  case ok =>
    intro names flagLines hlines hnames
    have hflags : flagLines = flagsItems s.ops.a0 := by
      rw [hlines, flagsItems, attrName_eq, apName_eq, shName_eq]
    rw [exec_pteSummary_eq, if_neg hs, if_neg (not_not.2 hl), summaryItems_decodeDesc, hnames, hflags,
      ← frameAddr_frameOf_eq_and, List.append_assoc]

end Sys2Proof.Machine

/-! The order of the checks (R119): state, alignment, operand domains, said once for the four operations that take page
addresses; then the refusals of sub-block TWE and of REGISTER_REGION. -/

namespace Sys2Proof.Machine

/-! ## The states that permit an operation (R121) -/

/-- The failing side of a check the model computes as a Boolean. -/
theorem bnot_iff {b : Bool} {P : Prop} (h : b = true ↔ P) : (!b) = true ↔ ¬ P := by
  rw [Bool.not_eq_true', ← Bool.not_eq_true, h]

theorem permitsMutation_iff (t : TransState) : t.permitsMutation = true ↔ MutationState t := by
  cases t <;> simp [TransState.permitsMutation, MutationState]

theorem refusesMutation_iff (t : TransState) : (!t.permitsMutation) = true ↔ ¬ MutationState t :=
  bnot_iff (permitsMutation_iff t)

theorem permitsNewPair_iff (t : TransState) :
    t.permitsNewPair = true ↔ t = .init ∨ t = .mairProgrammed ∨ t = .tcrBootstrapDual := by
  cases t <;> simp [TransState.permitsNewPair]

/-- The states of the transition window, and HALTED, permit no mutation. -/
theorem not_mutationState_of_window {t : TransState}
    (h : t = .tlbClean ∨ t = .translationOn ∨ t = .pcMigrated ∨ t = .tcrKernelOnly ∨ t = .halted) :
    ¬ MutationState t := by
  rw [← permitsMutation_iff]
  rcases h with rfl | rfl | rfl | rfl | rfl <;> decide

/-! ## The chain of checks (R119) -/

/-- State first, then alignment, then the operands' domains; `run` is what the operation does that passes them all. -/
def checkOperands (permitted aligned inDomain : Prop) [Decidable permitted] [Decidable aligned] [Decidable inDomain]
    (run : Result) (s : State) : Result :=
  if ¬ permitted then s.finish .illegalCommand
  else if ¬ aligned then s.alignmentError
  else if ¬ inDomain then s.finish .badOperand
  else run

section

variable {permitted aligned inDomain : Prop} [Decidable permitted] [Decidable aligned] [Decidable inDomain]
  {run : Result} {s : State}

theorem checkOperands_of_not_permitted (hp : ¬ permitted) : checkOperands permitted aligned inDomain run s =
    .next { s with status := 0x10#8, rspValid := true } := if_pos hp

theorem checkOperands_of_not_aligned (hp : permitted) (ha : ¬ aligned) :
    checkOperands permitted aligned inDomain run s = s.alignmentError := by
  rw [checkOperands, if_neg (not_not.2 hp), if_pos ha]

theorem checkOperands_of_not_inDomain (hp : permitted) (ha : aligned) (hd : ¬ inDomain) :
    checkOperands permitted aligned inDomain run s = .next { s with status := 0x11#8, rspValid := true } := by
  rw [checkOperands, if_neg (not_not.2 hp), if_neg (not_not.2 ha), if_pos hd]
  rfl

theorem checkOperands_of_inDomain (hp : permitted) (ha : aligned) (hd : inDomain) :
    checkOperands permitted aligned inDomain run s = run := by
  rw [checkOperands, if_neg (not_not.2 hp), if_neg (not_not.2 ha), if_neg (not_not.2 hd)]

/-- The two ends of an operand that is not page aligned (R181). -/
theorem checkOperands_misaligned (hp : permitted) (ha : ¬ aligned) :
    (s.cfg.debugHaltOnAlignment = false →
      checkOperands permitted aligned inDomain run s = .next { s with status := 0x02#8, rspValid := true }) ∧
    (s.cfg.debugHaltOnAlignment = true →
      checkOperands permitted aligned inDomain run s = .next (s.halted .alignmentError .alignment)) := by
  rw [checkOperands_of_not_aligned hp ha]
  exact ⟨State.alignmentError_of_release, State.alignmentError_of_debug⟩

end

/-- An operation under the chain of checks was stopped by one of them, which leaves memory and the owned frames alone
and does not return OK, or it ran. -/
theorem checkOperands_cases {permitted aligned inDomain : Prop} [Decidable permitted] [Decidable aligned]
    [Decidable inDomain] {run : Result} {s u : State}
    (h : checkOperands permitted aligned inDomain run s = .next u) :
    (u.mem = s.mem ∧ u.owned = s.owned ∧ u.status ≠ 0x00#8) ∨ (permitted ∧ aligned ∧ inDomain ∧ run = .next u) := by
  unfold checkOperands at h
  split_ifs at h with hp ha hd
  · exact .inr ⟨hp, ha, hd, h⟩
  · obtain rfl := State.finish_next h
    exact .inl ⟨rfl, rfl, nofun⟩
  · left
    rw [State.alignmentError_eq] at h
    split_ifs at h
    · obtain rfl : s.halted .alignmentError .alignment = u := Host.Outcome.next.inj h
      exact ⟨rfl, rfl, nofun⟩
    · obtain rfl := State.finish_next h
      exact ⟨rfl, rfl, nofun⟩
  · obtain rfl := State.finish_next h
    exact .inl ⟨rfl, rfl, nofun⟩

/-! ## Ranges of pages (R113) -/

theorem pageCount_mul {a b : Word} (ha : Aligned a) (hb : Aligned b) :
    pageCount a b * 4096 = b.toNat - a.toNat := by
  simp only [pageCount, pageSize]
  omega

theorem pageCount_eq_of_add {a b : Word} {n : Nat} (h : a.toNat + 4096 * n = b.toNat) : pageCount a b = n := by
  simp only [pageCount, pageSize]
  omega

theorem pageCount_eq_zero_iff {a b : Word} (ha : Aligned a) (hb : Aligned b) :
    pageCount a b = 0 ↔ b.toNat ≤ a.toNat := by
  have := pageCount_mul ha hb
  omega

/-- What a range that is not empty must meet besides an address of its half: its last page lies in the same half, and
its physical range ends at 2^48 at most. -/
theorem rangeInside_iff {a b p : Word} (ha : Aligned a) (hb : Aligned b) : rangeInside a b p = true ↔
    CanonicalAddr (b - 4096#64) ∧ (Low (b - 4096#64) ↔ Low a) ∧ Physical p ∧
      p.toNat + (b.toNat - a.toNat) ≤ 281474976710656 := by
  simp only [rangeInside, Bool.and_eq_true, decide_eq_true_eq, canonical_iff, halfOf_eq_iff, isLow_iff, isPhys_iff,
    pageSize, physSize, pageCount_mul ha hb, and_assoc]

/-- The last address of a page is in the half of its first, so that REGISTER's check of the last address is MAP_RANGE's
of the last page (R113, R131). -/
theorem RegionRange.lastPage {a b : Word} (h : RegionRange a b) (ha : Aligned a) (hb : Aligned b)
    (hab : a.toNat < b.toNat) : CanonicalAddr (b - 4096#64) ∧ (Low (b - 4096#64) ↔ Low a) := by
  obtain ⟨-, hcan, hlast⟩ := h
  obtain ⟨hlc, hlh⟩ := hlast hab
  have hle1 : (1#64 : Word).toNat ≤ b.toNat := by simp only [BitVec.toNat_ofNat]; omega
  have hle4096 : (4096#64 : Word).toNat ≤ b.toNat := by simp only [BitVec.toNat_ofNat]; omega
  have h1 : (b - 1#64).toNat = b.toNat - 1 := BitVec.toNat_sub_of_le (x := b) (y := 1#64) hle1
  have h4096 : (b - 4096#64).toNat = b.toNat - 4096 :=
    BitVec.toNat_sub_of_le (x := b) (y := 4096#64) hle4096
  rw [CanonicalAddr, Low, High, h1] at hlc
  rw [Low, h1] at hlh
  rw [CanonicalAddr, Low, High, h4096]
  omega

/-! ## The four operations as one chain (R112, R113, R114, R134) -/

/-- How MAP_PAGE answers an end of `MapOne` (R112, R121). -/
def MapOutcome.answer : MapOutcome → Result
  | .mapped s1 replaced => (maintenance true replaced s1).andThen fun s2 => s2.finish .ok
  | .malformed s1 wrote => (maintenance wrote false s1).andThen fun s2 => s2.finish .malformedDescriptor
  | .exhausted s1 => s1.haltExhausted

/-- How MAP_RANGE answers an end of pass 2 over `n` pages (R113, R121). -/
def RangeOutcome.answer (n : Nat) : RangeOutcome → Result
  | .mapped s1 replaced => (maintenance true replaced (s1.countPages n)).andThen fun s2 => s2.finish .ok
  | .malformed s1 done wrote replaced =>
    (maintenance wrote replaced (s1.countPages done)).andThen fun s2 => s2.finish .malformedDescriptor
  | .exhausted s1 done => (s1.countPages done).haltExhausted

/-- The domains of MAP_PAGE's operands (R112). -/
abbrev MapPageDomain (o : Operands) : Prop := Physical o.a0 ∧ CanonicalAddr o.a1 ∧ Physical o.a2 ∧ FlagsWord o.a3

/-- The domains of MAP_RANGE's operands (R113). -/
abbrev MapRangeDomain (o : Operands) : Prop :=
  Physical o.a0 ∧ CanonicalAddr o.a1 ∧ FlagsWord o.a4 ∧ o.a1.toNat ≤ o.a2.toNat ∧
    (o.a1.toNat < o.a2.toNat → CanonicalAddr (o.a2 - 4096#64) ∧ (Low (o.a2 - 4096#64) ↔ Low o.a1) ∧ Physical o.a3 ∧
      o.a3.toNat + (o.a2.toNat - o.a1.toNat) ≤ 281474976710656)

/-- The domains of REGISTER_REGION's operands (R131, R134). -/
abbrev RegisterRegionDomain (o : Operands) : Prop :=
  o.a5.toNat ≤ 1 ∧ RegionRange o.a1 o.a2 ∧ FlagsWord o.a4 ∧
    (o.a1.toNat < o.a2.toNat → Physical o.a3 ∧ o.a3.toNat + (o.a2.toNat - o.a1.toNat) ≤ 281474976710656)

/-- MAP_RANGE past its checks: nothing to do, pass 1, pass 2 (R113). -/
def State.runMapRange (s : State) : Result :=
  if pageCount s.ops.a1 s.ops.a2 = 0 then (s.setR0 0#64).finish .ok
  else if rangeConflict s.mem (frameOf s.ops.a0) s.ops.a4 (pageCount s.ops.a1 s.ops.a2) s.ops.a1 s.ops.a3 then
    s.finish .overlapConflict
  else (mapPages (frameOf s.ops.a0) s.ops.a4 (pageCount s.ops.a1 s.ops.a2) s.ops.a1 s.ops.a3 0 false s).answer
    (pageCount s.ops.a1 s.ops.a2)

/-- REGISTER_REGION past its operand checks, for its space (R134). -/
def State.runRegisterRegion (s : State) (sp : Space) : Result :=
  match firstConflict s.registry (s.newRegion sp) with
  | some i => (s.setR0 (BitVec.ofNat 64 i)).finish .overlapConflict
  | none =>
    if s.cfg.registryCapacity ≤ s.registry.length then s.finish .registryFull
    else mapRegion (s.rootOf sp) (s.newRegion sp) s

/-- The chain of checks, each as the Boolean the model computes; the domains may be checked in any number of steps. -/
theorem checkOperands_of_checks {permitted aligned inDomain : Prop} [Decidable permitted] [Decidable aligned]
    [Decidable inDomain] {p a : Bool} {rest run : Result} {s : State} (hp : p = true ↔ permitted)
    (ha : a = true ↔ aligned) (hbad : aligned → ¬ inDomain → rest = s.finish .badOperand)
    (hrun : aligned → inDomain → rest = run) :
    (if !p then s.finish .illegalCommand else if !a then s.alignmentError else rest) =
      checkOperands permitted aligned inDomain run s := by
  simp only [checkOperands, ← hp, ← ha, Bool.not_eq_true', Bool.not_eq_true]
  split_ifs with _ hal hd
  · rfl
  · rfl
  · exact hrun (ha.1 (by simpa using hal)) hd
  · exact hbad (ha.1 (by simpa using hal)) hd

theorem exec_mapPage_eq (s : State) : exec .mapPage s = checkOperands (MutationState s.state)
    (Aligned s.ops.a0 ∧ Aligned s.ops.a1 ∧ Aligned s.ops.a2) (MapPageDomain s.ops)
    (mapOne (frameOf s.ops.a0) s.ops.a1 s.ops.a2 s.ops.a3 s).answer s := by
  have hdomain : (isPhys s.ops.a0 && canonical s.ops.a1 && isPhys s.ops.a2 && flagsOk s.ops.a3) = true ↔
      MapPageDomain s.ops := by
    simp only [Bool.and_eq_true, isPhys_iff, canonical_iff, ← flagsWord_iff, and_assoc]
  refine checkOperands_of_checks (permitsMutation_iff _) ?_ (fun _ hd => ?_) fun _ hd => ?_
  · simp only [Bool.and_eq_true, pageAligned_iff, and_assoc]
  · exact if_pos ((bnot_iff hdomain).2 hd)
  · rw [if_neg (mt (bnot_iff hdomain).1 (not_not.2 hd))]
    rfl

theorem exec_walk_eq (s : State) : exec .walk s = checkOperands (s.state ≠ .halted) (Aligned s.ops.a0)
    (Physical s.ops.a0 ∧ CanonicalAddr s.ops.a1)
    ((s.setTranslation (walk s.mem (frameOf s.ops.a0) s.ops.a1)).finish .ok) s := by
  change execWalk s = _
  simp only [execWalk, checkOperands, not_not, ne_eq, ← pageAligned_iff, Bool.not_eq_true', Bool.and_eq_true,
    isPhys_iff, canonical_iff, ← Bool.not_eq_true]

/-- For aligned operands the checks MAP_RANGE makes one after another are those of its domain. -/
theorem exec_mapRange_eq (s : State) : exec .mapRange s = checkOperands (MutationState s.state)
    (Aligned s.ops.a0 ∧ Aligned s.ops.a1 ∧ Aligned s.ops.a2 ∧ Aligned s.ops.a3) (MapRangeDomain s.ops)
    s.runMapRange s := by
  have hfirst : (isPhys s.ops.a0 && canonical s.ops.a1 && flagsOk s.ops.a4) = true ↔
      Physical s.ops.a0 ∧ CanonicalAddr s.ops.a1 ∧ FlagsWord s.ops.a4 := by
    simp only [Bool.and_eq_true, isPhys_iff, canonical_iff, ← flagsWord_iff, and_assoc]
  refine checkOperands_of_checks (permitsMutation_iff _) ?_ (fun ha hd => ?_) fun ha hd => ?_
  · simp only [Bool.and_eq_true, pageAligned_iff, and_assoc]
  · by_cases h1 : Physical s.ops.a0 ∧ CanonicalAddr s.ops.a1 ∧ FlagsWord s.ops.a4
    case neg => exact if_pos ((bnot_iff hfirst).2 h1)
    rw [if_neg (mt (bnot_iff hfirst).1 (not_not.2 h1))]
    rcases Nat.lt_or_ge s.ops.a2.toNat s.ops.a1.toNat with hlt | hle
    · exact if_pos hlt
    have hinside : ¬ rangeInside s.ops.a1 s.ops.a2 s.ops.a3 = true := fun hc =>
      hd ⟨h1.1, h1.2.1, h1.2.2, hle, fun _ => (rangeInside_iff ha.2.1 ha.2.2.1).1 hc⟩
    have hcount : ¬ pageCount s.ops.a1 s.ops.a2 = 0 := fun hc =>
      hd ⟨h1.1, h1.2.1, h1.2.2, hle, fun h =>
        absurd ((pageCount_eq_zero_iff ha.2.1 ha.2.2.1).1 hc) (Nat.not_le.2 h)⟩
    rw [if_neg (Nat.not_lt.2 hle), if_neg hcount, if_pos ((bnot_iff Iff.rfl).2 hinside)]
  · obtain ⟨h0, h1, h4, hle, hrange⟩ := hd
    rw [if_neg (mt (bnot_iff hfirst).1 (not_not.2 ⟨h0, h1, h4⟩)), if_neg (Nat.not_lt.2 hle), State.runMapRange]
    by_cases hcount : pageCount s.ops.a1 s.ops.a2 = 0
    · rw [if_pos hcount, if_pos hcount]
    have hinside := (rangeInside_iff ha.2.1 ha.2.2.1).2
      (hrange (Nat.not_le.1 (mt (pageCount_eq_zero_iff ha.2.1 ha.2.2.1).2 hcount)))
    rw [if_neg hcount, if_neg hcount, if_neg (mt (bnot_iff Iff.rfl).1 (not_not.2 hinside))]
    rfl

/-- For aligned addresses the two range checks of REGISTER_REGION are its domain (R131, R134). -/
theorem registerRegion_refuses_iff {a b p f : Word} (ha : Aligned a) (hb : Aligned b) :
    ((!(regionRangeOk a b && flagsOk f)) = true ∨ pageCount a b ≠ 0 ∧ rangeInside a b p = false) ↔
      ¬ (RegionRange a b ∧ FlagsWord f ∧
        (a.toNat < b.toNat → Physical p ∧ p.toNat + (b.toNat - a.toNat) ≤ 281474976710656)) := by
  have hcount : pageCount a b ≠ 0 ↔ a.toNat < b.toNat := by rw [Ne, pageCount_eq_zero_iff ha hb, Nat.not_le]
  rw [Bool.not_eq_true', ← Bool.not_eq_true, Bool.and_eq_true, ← regionRange_iff, ← flagsWord_iff, hcount,
    ← Bool.not_eq_true, rangeInside_iff ha hb]
  by_cases hr : RegionRange a b ∧ FlagsWord f
  case neg => exact iff_of_true (.inl hr) fun h => hr ⟨h.1, h.2.1⟩
  have hlast := hr.1.lastPage ha hb
  constructor
  · rintro (h | ⟨hab, hin⟩) ⟨-, -, hphys⟩
    · exact h hr
    · exact hin ⟨(hlast hab).1, (hlast hab).2, hphys hab⟩
  · intro h
    by_contra hc
    refine h ⟨hr.1, hr.2, fun hab => ?_⟩
    obtain ⟨-, -, hphys⟩ := not_not.1 fun hin => hc (.inr ⟨hab, hin⟩)
    exact hphys

theorem exec_registerRegion_eq (s : State) : exec .registerRegion s =
    checkOperands (MutationState s.state ∧ s.rootsValid = true)
      (Aligned s.ops.a1 ∧ Aligned s.ops.a2 ∧ Aligned s.ops.a3) (RegisterRegionDomain s.ops)
      ((spaceOf s.ops.a5).elim (s.finish .badOperand) s.runRegisterRegion) s := by
  rw [← checkOperands_of_checks (p := s.state.permitsMutation && s.rootsValid)
    (a := pageAligned s.ops.a1 && pageAligned s.ops.a2 && pageAligned s.ops.a3) (rest :=
      (spaceOf s.ops.a5).elim (s.finish .badOperand) fun sp =>
        if !(regionRangeOk s.ops.a1 s.ops.a2 && flagsOk s.ops.a4) then s.finish .badOperand
        else if pageCount s.ops.a1 s.ops.a2 ≠ 0 ∧ rangeInside s.ops.a1 s.ops.a2 s.ops.a3 = false then
          s.finish .badOperand
        else s.runRegisterRegion sp)]
  · change execRegisterRegion s = _
    unfold execRegisterRegion
    cases s.state.permitsMutation
    · rfl
    cases s.rootsValid
    · rfl
    cases spaceOf s.ops.a5 <;> rfl
  · simp only [Bool.and_eq_true, permitsMutation_iff]
  · simp only [Bool.and_eq_true, pageAligned_iff, and_assoc]
  all_goals
    intro ha hd
    cases hsp : spaceOf s.ops.a5
    case none => rfl
    have hspace : s.ops.a5.toNat ≤ 1 := Nat.not_lt.1 fun h => by simp [(spaceOf_eq_none_iff _).2 h] at hsp
    simp only [Option.elim_some, ← ite_or]
  · exact if_pos ((registerRegion_refuses_iff ha.1 ha.2.1).2 fun h => hd ⟨hspace, h⟩)
  · exact if_neg fun h => (registerRegion_refuses_iff ha.1 ha.2.1).1 h hd.2

/-! ## What is refused (R119, R121, R181) -/

/-- Settles O24: each of the five asks for a state that permits a mutation first. -/
theorem mutationsRefusedInTheTransitionWindow : Obligations.MutationsRefusedInTheTransitionWindow := by
  intro s i hwindow hi
  have hp : ¬ MutationState s.state := not_mutationState_of_window hwindow
  have hp' : (!s.state.permitsMutation) = true := (refusesMutation_iff _).2 hp
  rcases hi with rfl | rfl | rfl | rfl | rfl
  · exact if_pos hp'
  · rw [exec_mapPage_eq, checkOperands_of_not_permitted hp]
  · rw [exec_mapRange_eq, checkOperands_of_not_permitted hp]
  · exact if_pos hp'
  · rw [exec_registerRegion_eq, checkOperands_of_not_permitted fun h => hp h.1]

/-- Settles O25: alignment comes right after the state in the chain of checks. -/
theorem misalignedAddressesAreReported : Obligations.MisalignedAddressesAreReported := by
  rintro s i (⟨rfl, hp, ha⟩ | ⟨rfl, hp, ha⟩ | ⟨rfl, hp, ha⟩ | ⟨rfl, hm, hr, ha⟩)
  · rw [exec_mapPage_eq]
    exact checkOperands_misaligned hp ha
  · rw [exec_mapRange_eq]
    exact checkOperands_misaligned hp ha
  · rw [exec_walk_eq]
    exact checkOperands_misaligned hp ha
  · rw [exec_registerRegion_eq]
    exact checkOperands_misaligned ⟨hm, hr⟩ ha

/-- Settles O26: the domains come third, and are those of the statement. -/
theorem operandsOutsideTheirDomainAreRefused : Obligations.OperandsOutsideTheirDomainAreRefused := by
  rintro s i (⟨rfl, hp, ha0, ha1, ha2, hd⟩ | ⟨rfl, hp, ha0, ha1, ha2, ha3, hd⟩ | ⟨rfl, hp, ha, hd⟩ |
    ⟨rfl, hm, hr, ha1, ha2, ha3, hd⟩)
  · rw [exec_mapPage_eq, checkOperands_of_not_inDomain hp ⟨ha0, ha1, ha2⟩ hd]
  · rw [exec_mapRange_eq, checkOperands_of_not_inDomain hp ⟨ha0, ha1, ha2, ha3⟩ hd]
  · rw [exec_walk_eq, checkOperands_of_not_inDomain hp ha hd]
  · rw [exec_registerRegion_eq, checkOperands_of_not_inDomain ⟨hm, hr⟩ ⟨ha1, ha2, ha3⟩ hd]

/-! ## The lookups (R114, R116, R117, R118) -/

/-- Settles O30: the chain of checks, then the two results of the walk. -/
theorem walkAnswersTheTranslation : Obligations.WalkAnswersTheTranslation := by
  refine ⟨decode_encode .walk [], fun s => ?branches⟩
  rw [exec_walk_eq]
  refine ⟨fun hh => checkOperands_of_not_permitted (not_not.2 hh), fun hs =>
    ⟨fun ha => (checkOperands_misaligned hs ha).1, fun ha => (checkOperands_misaligned hs ha).2,
      checkOperands_of_not_inDomain hs, fun ha h0 h1 => ?_⟩⟩
  rw [checkOperands_of_inDomain hs ha ⟨h0, h1⟩]
  exact ⟨fun hw => by rw [hw]; rfl, fun w hw => by rw [hw]; rfl⟩

theorem rootWord_eq_setWidth (r : PhysAddr) : rootWord r = r.setWidth 64 := by
  apply BitVec.eq_of_toNat_eq
  rw [rootWord_toNat, BitVec.toNat_setWidth]
  omega

/-- The three queries of the recorded roots are refused in HALTED and before there are roots. -/
theorem rootQueries_refused {s : State} (h : s.state = .halted ∨ s.rootsValid = false) :
    exec .baseOf s = .next { s with status := 0x10#8, rspValid := true } ∧
    exec .getKernelRoot s = .next { s with status := 0x10#8, rspValid := true } ∧
    exec .translate s = .next { s with status := 0x10#8, rspValid := true } := by
  change execBaseOf s = _ ∧ execGetKernelRoot s = _ ∧ execTranslate s = _
  unfold execBaseOf execGetKernelRoot execTranslate
  rcases h with h | h
  · exact ⟨if_pos h, if_pos h, if_pos h⟩
  · have hr : (!s.rootsValid) = true := by rw [h]; rfl
    simp only [hr, if_true, ite_self]
    exact ⟨rfl, rfl, rfl⟩

theorem exec_baseOf_eq {s : State} (hs : s.state ≠ .halted) (hr : s.rootsValid = true) : exec .baseOf s =
    (spaceOf s.ops.a0).elim (s.finish .badOperand) fun sp => (s.setR0 (s.rootValue sp)).finish .ok := by
  change execBaseOf s = _
  rw [execBaseOf, if_neg hs, if_neg (by simp [hr])]
  cases spaceOf s.ops.a0 <;> rfl

theorem exec_getKernelRoot_eq {s : State} (hs : s.state ≠ .halted) (hr : s.rootsValid = true) :
    exec .getKernelRoot s = (s.setR0 (s.rootValue .kernel)).finish .ok := by
  change execGetKernelRoot s = _
  rw [execGetKernelRoot, if_neg hs, if_neg (by simp [hr])]

theorem exec_translate_eq {s : State} (hs : s.state ≠ .halted) (hr : s.rootsValid = true) : exec .translate s =
    if ¬ CanonicalAddr s.ops.a0 then s.finish .badOperand
    else (walk s.mem (s.rootOf (halfOf s.ops.a0)) s.ops.a0).elim (((s.setR0 0#64).setR1 0#64).finish .ok) fun t =>
      ((s.setR0 1#64).setR1 t.pa).finish .ok := by
  change execTranslate s = _
  rw [execTranslate, if_neg hs, if_neg (by simp [hr])]
  simp only [← canonical_iff, Bool.not_eq_true', Bool.not_eq_true]
  cases walk s.mem (s.rootOf (halfOf s.ops.a0)) s.ops.a0 <;> rfl

/-- Settles O32: by the three cases of the space operand. -/
theorem rootQueriesAnswerTheRecordedRoots : Obligations.RootQueriesAnswerTheRecordedRoots := by
  refine ⟨decode_encode .baseOf [], decode_encode .getKernelRoot [], fun s => ⟨fun h => ?refused, fun hs hr => ?ok⟩⟩
  case refused =>
    obtain ⟨hbase, hkernel, -⟩ := rootQueries_refused h
    exact ⟨hbase, hkernel⟩
  case ok =>
    rw [exec_baseOf_eq hs hr, exec_getKernelRoot_eq hs hr, ← rootWord_eq_setWidth, ← rootWord_eq_setWidth]
    refine ⟨fun h => ?_, fun h => ?_, fun h => ?_, rfl⟩
    · rw [(spaceOf_eq_none_iff _).2 h]
      rfl
    · rw [h]
      rfl
    · rw [h]
      rfl

/-- The root of an address's half (R118). -/
theorem State.rootOf_halfOf {s : State} {va : Word} {r : Frame}
    (h : Low va ∧ r = rootFrame s.identityRoot ∨ High va ∧ r = rootFrame s.kernelRoot) :
    CanonicalAddr va ∧ s.rootOf (halfOf va) = r := by
  rcases h with ⟨hl, rfl⟩ | ⟨hh, rfl⟩
  · exact ⟨.inl hl, by rw [halfOf, if_pos ((isLow_iff va).2 hl)]; rfl⟩
  · exact ⟨.inr hh, by rw [halfOf, not_isLow_of_isHigh ((isHigh_iff va).2 hh)]; rfl⟩

/-- Settles O33: the root is that of the half, and the walk's two results are the two answers. -/
theorem translateUsesTheRootOfTheHalf : Obligations.TranslateUsesTheRootOfTheHalf := by
  refine ⟨decode_encode .translate [], fun s => ⟨fun h => (rootQueries_refused h).2.2, fun hs hr => ?ok⟩⟩
  rw [exec_translate_eq hs hr]
  refine ⟨fun hc => if_pos hc, fun r hhalf => ?_⟩
  obtain ⟨hcan, hroot⟩ := State.rootOf_halfOf hhalf
  rw [if_neg (not_not.2 hcan), hroot]
  exact ⟨fun hw => by rw [hw]; rfl, fun w hw => by rw [hw]; rfl⟩

end Sys2Proof.Machine

/-! Frames for tables (R44, R111, R115): what CREATE_TABLE and NEW_PAIR make of the allocator's next answers. -/

namespace Sys2Proof.Machine

/-! ## The allocator's next answer and the maintenance of R121 -/

theorem allocFrame_of_some {s : State} {f : Frame} {rest : List AllocAnswers}
    (h : nextAnswer s.frameFree s.alloc = (some f, rest)) :
    allocFrame s = (some f, ({ s with alloc := rest } : State).grantFrame f) := by
  simp [allocFrame, h]

theorem allocFrame_of_none {s : State} {rest : List AllocAnswers}
    (h : nextAnswer s.frameFree s.alloc = (none, rest)) : allocFrame s = (none, { s with alloc := rest }) := by
  simp [allocFrame, h]

/-- The allocator has answered `f` and has `rest` still to answer, and `f` is a zeroed table (R44, R111, R115). -/
def State.newTable (f : Frame) (rest : List AllocAnswers) (s : State) : State :=
  (({ s with alloc := rest } : State).grantFrame f).zeroTable f

/-- The table reads zero, and every other byte as before. -/
theorem read_newTable (f : Frame) (rest : List AllocAnswers) (s : State) (a : Nat) :
    (s.newTable f rest).mem.read a = if InFrame a f then 0#8 else s.mem.read a := by
  rw [State.newTable, State.zeroTable_mem, Memory.read_clear_frame, grantFrame_byte]
  split_ifs <;> rfl

/-- The allocator's answers do not depend on memory: after a new table they are those of a state that owns it. -/
theorem frameFree_newTable (f : Frame) (rest : List AllocAnswers) (s : State) :
    (s.newTable f rest).frameFree = ({ s with owned := s.owned ++ [f] } : State).frameFree := rfl

/-- The end of a mutating operation that returns: in STEADY what was written is visible, and the TLB empty if a valid
leaf was replaced (R121). -/
theorem maintenance_finish (wrote replaced : Bool) (st : Status) (s : State) :
    ((maintenance wrote replaced s).andThen fun s2 => s2.finish st) = .next { s with
      status := st.code, rspValid := true
      unseen := if s.state = .steady ∧ wrote = true then [] else s.unseen
      tlb := if s.state = .steady ∧ wrote = true ∧ replaced = true then [] else s.tlb } := by
  rw [maintenance_eq, Attempt.andThen_proceed, State.finish_eq]
  by_cases hs : s.state = .steady <;> cases wrote <;> cases replaced <;> simp [hs]

/-! ## CREATE_TABLE and NEW_PAIR -/

theorem exec_createTable_of_none {s : State} {rest : List AllocAnswers} (hp : MutationState s.state)
    (h : nextAnswer s.frameFree s.alloc = (none, rest)) :
    exec .createTable s = ({ s with alloc := rest } : State).haltExhausted := by
  change execCreateTable s = _
  rw [execCreateTable, if_neg (by rw [refusesMutation_iff]; exact not_not.2 hp), allocFrame_of_none h]

theorem exec_createTable_of_some {s : State} {f : Frame} {rest : List AllocAnswers} (hp : MutationState s.state)
    (h : nextAnswer s.frameFree s.alloc = (some f, rest)) : exec .createTable s =
      (maintenance true false ((s.newTable f rest).setR0 (frameAddr f))).andThen fun s2 => s2.finish .ok := by
  change execCreateTable s = _
  rw [execCreateTable, if_neg (by rw [refusesMutation_iff]; exact not_not.2 hp), allocFrame_of_some h]
  rfl

/-- Settles O17: by the allocator's next answer. -/
theorem createTableAnswersAZeroedFrame : Obligations.CreateTableAnswersAZeroedFrame := by
  refine fun s => ⟨fun hp => if_pos ((refusesMutation_iff _).2 hp), fun hp =>
    ⟨fun rest h => exec_createTable_of_none hp h, fun f rest h => ?_⟩⟩
  rw [exec_createTable_of_some hp h, maintenance_finish]
  refine ⟨_, rfl, ?_, read_newTable f rest s⟩
  simp [Status.code, State.newTable]

section

variable {s : State} {p0 p1 : Frame} {rest rest' : List AllocAnswers}

theorem exec_newPair_of_refused (h : s.rootsValid = true ∨
    ¬ (s.state = .init ∨ s.state = .mairProgrammed ∨ s.state = .tcrBootstrapDual)) :
    exec .newPair s = .next { s with status := 0x10#8, rspValid := true } := by
  refine if_pos ?_
  rwa [Bool.or_eq_true, Bool.not_eq_true', ← Bool.not_eq_true s.state.permitsNewPair, permitsNewPair_iff]

variable (hr : s.rootsValid = false) (hp : s.state = .init ∨ s.state = .mairProgrammed ∨ s.state = .tcrBootstrapDual)

include hr hp

theorem not_newPairRefused : ¬ (s.rootsValid || !s.state.permitsNewPair) = true := by
  rw [hr, (permitsNewPair_iff _).2 hp]
  decide

theorem exec_newPair_of_none (h : nextAnswer s.frameFree s.alloc = (none, rest)) :
    exec .newPair s = ({ s with alloc := rest } : State).haltExhausted := by
  change execNewPair s = _
  rw [execNewPair, if_neg (not_newPairRefused hr hp), allocFrame_of_none h]

theorem exec_newPair_of_some_none (h : nextAnswer s.frameFree s.alloc = (some p0, rest))
    (h' : nextAnswer (s.newTable p0 rest).frameFree rest = (none, rest')) :
    exec .newPair s = (({ s.newTable p0 rest with alloc := rest' } : State).freeFrame p0).haltExhausted := by
  change execNewPair s = _
  have hsecond := allocFrame_of_none (s := s.newTable p0 rest) h'
  rw [State.newTable] at hsecond ⊢
  simp only [execNewPair, if_neg (not_newPairRefused hr hp), allocFrame_of_some h, hsecond]

theorem exec_newPair_of_some_some (h : nextAnswer s.frameFree s.alloc = (some p0, rest))
    (h' : nextAnswer (s.newTable p0 rest).frameFree rest = (some p1, rest')) :
    exec .newPair s = (((((s.newTable p0 rest).newTable p1 rest').setRoots p0 p1).setR0 (frameAddr p0)).setR1
      (frameAddr p1)).finish .ok := by
  change execNewPair s = _
  have hsecond := allocFrame_of_some (s := s.newTable p0 rest) h'
  rw [State.newTable] at hsecond
  simp only [execNewPair, if_neg (not_newPairRefused hr hp), allocFrame_of_some h, hsecond]
  rfl

end

/-- Settles O19: by the allocator's next two answers; the second root cannot be the first, which is owned by then. -/
theorem newPairMakesTwoZeroedRoots : Obligations.NewPairMakesTwoZeroedRoots := by
  refine fun s => ⟨exec_newPair_of_refused, fun hr hp => ⟨fun rest h => exec_newPair_of_none hr hp h,
    fun p0 rest h => ⟨fun rest' h' => ?second, fun p1 rest' h' => ?both⟩⟩⟩
  case second =>
    have hp0 : p0 ∉ s.owned := ((State.frameFree_iff s p0).1 (nextAnswer_free h)).1
    have hback : (s.owned ++ [p0]).erase p0 = s.owned := by
      rw [List.erase_append_right _ hp0, List.erase_cons_head, List.append_nil]
    refine ⟨_, ?_, read_newTable p0 rest s⟩
    rw [← frameFree_newTable p0 rest] at h'
    rw [exec_newPair_of_some_none hr hp h h']
    simp only [State.haltExhausted, State.raiseHalt, State.freeFrame, State.newTable, State.zeroTable_owned,
      State.grantFrame_owned, hback]
    rfl
  case both =>
    have hp1 : p1 ∉ s.owned ++ [p0] := ((State.frameFree_iff _ p1).1 (nextAnswer_free h')).1
    rw [← frameFree_newTable p0 rest] at h'
    refine ⟨fun e => hp1 (by simp [e]), _, exec_newPair_of_some_some hr hp h h', ?_, fun a => ?_⟩
    · rfl
    change ((s.newTable p0 rest).newTable p1 rest').mem.read a = _
    rw [read_newTable, read_newTable, ← ite_or]
    exact if_congr or_comm rfl rfl

end Sys2Proof.Machine

/-! MAP_PAGE (R112, R121, R122): what it leaves where the tables exist, where it makes them, and where it fails; and that
no other page's walk moves. -/

namespace Sys2Proof.Machine

/-! ## What MAP_PAGE makes of an end of MapOne -/

/-- The answer to a mapping: the tables as `MapOne` left them, and the maintenance of R121. -/
theorem MapOutcome.answer_mapped {s s1 : State} (h : TablesOnly s s1) (replaced : Bool) :
    (MapOutcome.mapped s1 replaced).answer = .next { s with
      status := 0x00#8, rspValid := true, mem := s1.mem, alloc := s1.alloc, owned := s1.owned
      unseen := if s.state = .steady then [] else s1.unseen
      tlb := if s.state = .steady ∧ replaced = true then [] else s.tlb } := by
  rw [TablesOnly] at h
  change ((maintenance true replaced s1).andThen fun s2 => s2.finish .ok) = _
  rw [maintenance_finish, h]
  simp [Status.code]

/-- On a malformed path nothing was written, so nothing but STATUS is owed. -/
theorem MapOutcome.answer_malformed (s : State) :
    (MapOutcome.malformed s false).answer = .next { s with status := 0x12#8, rspValid := true } := by
  change ((maintenance false false s).andThen fun s2 => s2.finish .malformedDescriptor) = _
  rw [maintenance_finish]
  simp [Status.code]

/-- The answer has the memory and the owned frames of the end of `MapOne`, and STATUS OK exactly for a mapping. -/
theorem MapOutcome.answer_next {o : MapOutcome} {u : State} (h : o.answer = .next u) :
    u.mem = o.state.mem ∧ u.owned = o.state.owned ∧ (u.status = 0x00#8 ↔ ∃ s1 r, o = .mapped s1 r) := by
  cases o with
  | mapped s1 r =>
    obtain rfl := Host.Outcome.next.inj ((maintenance_finish true r .ok s1).symm.trans h)
    exact ⟨rfl, rfl, iff_of_true rfl ⟨s1, r, rfl⟩⟩
  | malformed s1 w =>
    obtain rfl := Host.Outcome.next.inj ((maintenance_finish w false .malformedDescriptor s1).symm.trans h)
    exact ⟨rfl, rfl, iff_of_false (fun hs => by cases hs) (by rintro ⟨_, _, he⟩; cases he)⟩
  | exhausted s1 =>
    obtain rfl : s1.halted .allocationExhausted .allocatorExhausted = u := Host.Outcome.next.inj h
    exact ⟨rfl, rfl, iff_of_false (fun hs => by cases hs) (by rintro ⟨_, _, he⟩; cases he)⟩

/-- What MAP_PAGE leaves in memory and in the owned frames is what it found, or what `MapOne` left; it returns OK
exactly for a mapping, made with operands inside their domains. -/
theorem exec_mapPage_cases {s u : State} (h : exec .mapPage s = .next u) :
    (u.mem = s.mem ∧ u.owned = s.owned ∧ u.status ≠ 0x00#8) ∨
    (Aligned s.ops.a1 ∧ Aligned s.ops.a2 ∧ MapPageDomain s.ops ∧
      u.mem = (mapOne (frameOf s.ops.a0) s.ops.a1 s.ops.a2 s.ops.a3 s).state.mem ∧
      u.owned = (mapOne (frameOf s.ops.a0) s.ops.a1 s.ops.a2 s.ops.a3 s).state.owned ∧
      (u.status = 0x00#8 ↔ ∃ s1 r, mapOne (frameOf s.ops.a0) s.ops.a1 s.ops.a2 s.ops.a3 s = .mapped s1 r)) := by
  rw [exec_mapPage_eq] at h
  rcases checkOperands_cases h with h | ⟨-, ⟨-, ha1, ha2⟩, hd, h⟩
  · exact .inl h
  · exact .inr ⟨ha1, ha2, hd, MapOutcome.answer_next h⟩

/-- MAP_PAGE with operands inside their domains, in a state that permits it. -/
theorem exec_mapPage_of_inDomain {s : State} (hp : MutationState s.state) (ha0 : Aligned s.ops.a0)
    (ha1 : Aligned s.ops.a1) (ha2 : Aligned s.ops.a2) (hd : MapPageDomain s.ops) :
    exec .mapPage s = (mapOne (frameOf s.ops.a0) s.ops.a1 s.ops.a2 s.ops.a3 s).answer := by
  rw [exec_mapPage_eq, checkOperands_of_inDomain hp ⟨ha0, ha1, ha2⟩ hd]

/-! ## Where the tables exist (R112) -/

/-- Settles O20: `MapOne` stores the one leaf slot, and the maintenance of R121 follows. -/
theorem mapPageWritesTheLeaf : Obligations.MapPageWritesTheLeaf := by
  intro s t hwf hp ha0 ha1 ha2 h0 h1 h2 hf hleaf
  have hto := State.memWrite_tablesOnly (slotAddr t (idx 3 s.ops.a1)) (leafDesc s.ops.a2 s.ops.a3) s
  rw [exec_mapPage_of_inDomain hp ha0 ha1 ha2 ⟨h0, h1, h2, hf⟩, mapOne_of_walkTables _ _ hleaf.1,
    MapOutcome.answer_mapped hto]
  refine ⟨_, rfl, ?frame, State.read64_memWrite_same hwf (slotAddr_lt _ _) _,
    fun b hb => State.read_memWrite_ne s _ hb, walk_after_leaf hwf hleaf ((pageAligned_iff _).2 ha1)
      ((pageAligned_iff _).2 ha2) ((isPhys_iff _).2 h2) ((flagsWord_iff _).1 hf)⟩
  by_cases hs : s.state = .steady <;> simp [hs, leafDesc]

/-! ## After a MAP_PAGE that returns OK (R122 a) -/

/-- Settles O21: OK is returned for a mapping only, whose leaf the walk ends in. -/
theorem mapPageThenWalkReturnsTheMapping : Obligations.MapPageThenWalkReturnsTheMapping := by
  intro s t hwf howned hexec hok
  rcases exec_mapPage_cases hexec with ⟨-, -, hne⟩ | ⟨ha1, ha2, ⟨-, -, h2, hf⟩, hm, -, hmapped⟩
  · exact absurd hok hne
  obtain ⟨s1, r, e⟩ := hmapped.1 hok
  rw [hm, e]
  exact walk_after_mapOne hwf howned ((pageAligned_iff _).2 ha1) ((pageAligned_iff _).2 ha2) ((isPhys_iff _).2 h2)
    ((flagsWord_iff _).1 hf) e

/-! ## No other translation moves (R122 d) -/

section

variable {s : State} {root : Frame} {va : Word}

/-- Under a tree of tables `MapOne` keeps the tree and every other page's walk. -/
theorem mapOne_keepsTree (pa flags : Word) (hwf : s.mem.wf = true) (hT : TableTree s root) :
    TableTree (mapOne root va pa flags s).state root ∧
      ∀ v, pageNumber v ≠ pageNumber va → walk (mapOne root va pa flags s).state.mem root v = walk s.mem root v := by
  obtain ⟨i, t, hp, -⟩ := pathEnds_exists s.mem va root
  rcases mapOne_cases pa flags hwf hp (hT.mem_owned hp.1 hp.2.1) with ⟨s1, r, e, h⟩ | ⟨e, -⟩ | ⟨s1, e, h⟩ <;> rw [e]
  · exact ⟨h.tableTree hp hT, fun v hv => h.walk_ne hp hT hv⟩
  · exact ⟨hT, fun _ _ => rfl⟩
  · exact ⟨h.tableTree hp hT, fun v _ => h.walk_eq hp hT v⟩

/-- The walk of a path of owned tables none of which is one of those of `va` is as before. -/
theorem mapOne_keepsWalk_of_disjoint (pa flags : Word) (hwf : s.mem.wf = true) (ho : OwnedPath s root va) {r : Frame}
    {v : Word}
    (hr : ∀ f ∈ existingPath s.mem v tableLevels r, f ∈ s.owned ∧ f ∉ existingPath s.mem va tableLevels root) :
    walk (mapOne root va pa flags s).state.mem r v = walk s.mem r v := by
  obtain ⟨i, t, hp, -⟩ := pathEnds_exists s.mem va root
  have ht : t ∈ existingPath s.mem va tableLevels root := mem_existingPath hp.1 hp.2.1
  have hr : ∀ f ∈ existingPath s.mem v tableLevels r, f ∈ s.owned ∧ f ≠ t := fun f hf =>
    ⟨(hr f hf).1, fun e => (hr f hf).2 (e ▸ ht)⟩
  rcases mapOne_cases pa flags hwf hp (ho.2 t ht) with ⟨s1, _, e, h⟩ | ⟨e, -⟩ | ⟨s1, e, h⟩ <;> rw [e]
  · exact h.walk_root hr
  · rfl
  · exact h.walk_root hr

/-- A store to a slot of `t` moves no walk that passes `t` by as a table and does not end in that slot. -/
theorem walk_memWrite_slot {t r : Frame} {v : Word} (k : BitVec 9) (d : Word) (ht : t ∉ tablePath s.mem v tableLevels r)
    (hk : walkTables (fun _ a => s.mem.read64 a) v tableLevels r = some t → idx 3 v ≠ k) :
    walk (s.memWrite (slotAddr t k) d).mem r v = walk s.mem r v := by
  have htables := (walkTables_congr (m := s.mem) (m' := (s.memWrite (slotAddr t k) d).mem) (va := v)
    (levels := tableLevels) (root := r) fun f hf l =>
      State.read64_memWrite_ne s d (slotAddr_frame_ne (fun e : f = t => ht (e ▸ hf)) _ _)).1
  unfold walk walkWith
  rw [htables]
  cases e : walkTables (fun _ a => s.mem.read64 a) v tableLevels r with
  | none => rfl
  | some f =>
    dsimp only
    rw [State.read64_memWrite_ne]
    by_cases hf : f = t
    · subst hf
      exact slotAddr_idx_ne f (hk e)
    · exact slotAddr_frame_ne hf _ _

end

/-- Settles O22: the three premises on the tables are those of the three lemmas on `MapOne`. -/
theorem mapPageMovesNoOtherTranslation : Obligations.MapPageMovesNoOtherTranslation := by
  intro s u hexec
  rcases exec_mapPage_cases hexec with ⟨hm, ho, -⟩ | ⟨-, -, -, hm, ho, -⟩
  · rw [hm]
    exact ⟨fun _ hT => ⟨hT.congr hm ho, fun _ _ => rfl⟩, fun _ _ _ _ _ => rfl, fun _ _ _ _ _ _ => rfl⟩
  · rw [hm]
    refine ⟨fun hwf hT => ?tree, fun hwf howned r v hr => mapOne_keepsWalk_of_disjoint _ _ hwf howned hr,
      fun t r v hleaf ht hk => ?leaf⟩
    case tree =>
      obtain ⟨htree, hwalk⟩ := mapOne_keepsTree (va := s.ops.a1) s.ops.a2 s.ops.a3 hwf hT
      exact ⟨htree.congr hm ho, hwalk⟩
    case leaf =>
      rw [mapOne_of_walkTables _ _ hleaf.1]
      exact walk_memWrite_slot _ _ ht hk

/-! ## A MAP_PAGE that fails (R122 e) -/

theorem mapOne_owned_of_not_mapped {root : Frame} {va pa flags : Word} {s : State}
    (h : ¬ ∃ s1 r, mapOne root va pa flags s = .mapped s1 r) : (mapOne root va pa flags s).state.owned = s.owned := by
  have howned := mapOne_owned root va pa flags s
  cases e : mapOne root va pa flags s with
  | mapped s1 r => exact absurd ⟨s1, r, e⟩ h
  | malformed s1 w =>
    rw [e] at howned
    exact howned
  | exhausted s1 =>
    rw [e] at howned
    exact howned

/-- Settles O23: a failed `MapOne` gives its frames back; a malformed path is refused before anything is taken; and an
exhausted allocator leaves what `PageFailed` says. -/
theorem failedMapPageGivesItsFramesBack : Obligations.FailedMapPageGivesItsFramesBack := by
  constructor
  case left =>
    intro s t hexec hne
    rcases exec_mapPage_cases hexec with ⟨-, ho, -⟩ | ⟨-, -, -, -, ho, hok⟩
    · exact ho
    · exact ho.trans (mapOne_owned_of_not_mapped (mt hok.2 hne))
  case right =>
    rintro s root hp ha0 ha1 ha2 h0 h1 h2 hf rfl
    rw [exec_mapPage_of_inDomain hp ha0 ha1 ha2 ⟨h0, h1, h2, hf⟩]
    refine ⟨fun hm => ?malformed, fun hwf howned hm fs rest hg hlen => ?exhausted⟩
    case malformed => rw [mapOne_malformed _ _ hm, MapOutcome.answer_malformed]
    case exhausted =>
      obtain ⟨i, t, hpath, -⟩ := pathEnds_exists s.mem s.ops.a1 (frameOf s.ops.a0)
      rw [hpath.missing] at hg hlen
      obtain rfl : (s.grants (3 - i)).1 = fs := by rw [hg]
      obtain rfl : (s.grants (3 - i)).2 = rest := by rw [hg]
      obtain ⟨s1, e, hfail⟩ := (mapOne_spec s.ops.a2 s.ops.a3 hwf hpath
        (howned.2 t (mem_existingPath hpath.1 hpath.2.1)) hm).2 hlen
      rw [e, hpath.storeSlot]
      refine ⟨s1.mem, s1.unseen, _, rfl, by rw [← hfail.state], rfl, rfl, rfl, rfl, ?_, hfail.zeroed, hfail.bytes⟩
      rw [State.halted_owned, hfail.state]

/-! ## Where tables are missing (R112) -/

/-- The index a statement writes as arithmetic is the index at that depth. -/
theorem eq_idxAt_iff {i : BitVec 9} {va : Word} {depth : Nat} :
    i = idxAt depth va ↔ i.toNat = va.toNat / 2 ^ (39 - 9 * depth) % 512 := by
  rw [← idxAt_toNat, BitVec.toNat_inj]

/-- Settles O42: `PageMade` says what the chain of new tables holds. -/
theorem mapPageMakesTheMissingTables : Obligations.MapPageMakesTheMissingTables := by
  rintro s root n fs rest hwf hp ha0 ha1 ha2 h0 h1 h2 hf rfl howned hm rfl hpos hg hlen
  obtain ⟨i, t, hpath, -⟩ := pathEnds_exists s.mem s.ops.a1 (frameOf s.ops.a0)
  rw [hpath.missing] at hpos hg hlen ⊢
  obtain rfl : (s.grants (3 - i)).1 = fs := by rw [hg]
  obtain rfl : (s.grants (3 - i)).2 = rest := by rw [hg]
  obtain ⟨s1, e, hmade⟩ := (mapOne_spec s.ops.a2 s.ops.a3 hwf hpath
    (howned.2 t (mem_existingPath hpath.1 hpath.2.1)) hm).1 hlen
  have hto : TablesOnly s s1 := by
    have hto := mapOne_tablesOnly (frameOf s.ops.a0) s.ops.a1 s.ops.a2 s.ops.a3 s
    rwa [e] at hto
  have hdepth (k : Nat) : 4 - (3 - i) + k = i + 1 + k := by omega
  have hnone : decide (i = 3) = false := decide_eq_false (by omega)
  rw [exec_mapPage_of_inDomain hp ha0 ha1 ha2 ⟨h0, h1, h2, hf⟩, e, MapOutcome.answer_mapped hto, hpath.storeSlot]
  refine ⟨_, rfl, ?frame, fun f hfirst => ?first, fun k f g j hk hk' hj => ?next, fun f hlast => ?leaf,
    fun k f j hk hj => ?zero, hmade.bytes, ?walk⟩
  case frame =>
    have halloc : s1.alloc = (s.grants (3 - i)).2 := by rw [hmade.state]; rfl
    have howned1 : s1.owned = s.owned ++ (s.grants (3 - i)).1 := by rw [hmade.state]; rfl
    by_cases hs : s.state = .steady <;> simp [hnone, halloc, howned1, hs]
  case first => exact hmade.link 0 t f rfl (by rwa [List.getElem?_cons_succ, ← List.head?_eq_getElem?])
  case next =>
    rw [hdepth] at hj
    rw [eq_idxAt_iff.2 hj, Nat.add_assoc, Nat.add_comm 1 k]
    exact hmade.link (k + 1) f g hk hk'
  case leaf =>
    rw [List.getLast?_eq_getElem?, hlen] at hlast
    exact hmade.leaf f (by rwa [List.getElem?_cons, if_neg hpos.ne'])
  case zero =>
    rw [hdepth] at hj
    exact hmade.zero k f hk j (mt eq_idxAt_iff.1 hj)
  case walk =>
    exact walk_after_mapOne (s' := s1) hwf howned ((pageAligned_iff _).2 ha1) ((pageAligned_iff _).2 ha2)
      ((isPhys_iff _).2 h2) ((flagsWord_iff _).1 hf) e

end Sys2Proof.Machine

/-! Ranges of pages (R113, R121, R134): pass 1 and its refusals, the ends of pass 2, one level-3 table, any tables. -/

namespace Sys2Proof.Machine

/-! ## The pages of a range -/

theorem toNat_pageAt {va : Word} {k : Nat} (h : va.toNat + 4096 * k < 18446744073709551616) :
    (pageAt va k).toNat = va.toNat + 4096 * k := by
  simp only [pageAt, BitVec.toNat_add, BitVec.toNat_ofNat]
  omega

theorem aligned_pageAt {va : Word} (h : Aligned va) (k : Nat) : Aligned (pageAt va k) := by
  simp only [Aligned, pageAt, BitVec.toNat_add, BitVec.toNat_ofNat] at h ⊢
  omega

/-- Pass 1 finds a conflict exactly when some page is mapped to another frame or with other flags (R113). -/
theorem rangeConflict_iff {m : Memory} {root : Frame} {flags : Word} {n : Nat} {va pa : Word} :
    rangeConflict m root flags n va pa = true ↔
      ∃ k, k < n ∧ ∃ w, walk m root (pageAt va k) = some w ∧ (w.pa ≠ pageAt pa k ∨ w.flags ≠ flags) := by
  induction n generalizing va pa with
  | zero => simp [rangeConflict]
  | succ n ih =>
    rw [rangeConflict, Bool.or_eq_true, ih]
    simp only [pageAt_succ]
    rw [Nat.exists_lt_succ_left, pageAt_zero, pageAt_zero]
    refine or_congr_left ?_
    cases walk m root va with
    | none => simp
    | some w => simp

theorem rangeConflict_eq_false {m : Memory} {root : Frame} {flags : Word} {n : Nat} {va pa : Word}
    (h : ∀ k, k < n → ∀ w, walk m root (pageAt va k) = some w → w = { pa := pageAt pa k, flags := flags }) :
    rangeConflict m root flags n va pa = false := by
  rw [← Bool.not_eq_true, rangeConflict_iff]
  rintro ⟨k, hk, w, hw, hne⟩
  obtain rfl := h k hk w hw
  exact hne.elim (absurd rfl) (absurd rfl)

/-! ## MAP_RANGE past its checks -/

/-- The operands of MAP_RANGE are in their domains and name `n` pages, in a state that permits it (R113). -/
structure NamesPages (s : State) (n : Nat) : Prop where
  permitted : MutationState s.state
  root : Aligned s.ops.a0 ∧ Physical s.ops.a0
  virt : Aligned s.ops.a1 ∧ CanonicalAddr s.ops.a1
  phys : Aligned s.ops.a3 ∧ s.ops.a3.toNat + 4096 * n ≤ 281474976710656
  flags : FlagsWord s.ops.a4
  pages : s.ops.a1.toNat + 4096 * n = s.ops.a2.toNat
  last : CanonicalAddr (s.ops.a2 - 4096#64) ∧ (Low (s.ops.a2 - 4096#64) ↔ Low s.ops.a1)

theorem NamesPages.exec_eq {s : State} {n : Nat} (h : NamesPages s n) (hn : 0 < n) : exec .mapRange s =
    if rangeConflict s.mem (frameOf s.ops.a0) s.ops.a4 n s.ops.a1 s.ops.a3 then s.finish .overlapConflict
    else (mapPages (frameOf s.ops.a0) s.ops.a4 n s.ops.a1 s.ops.a3 0 false s).answer n := by
  obtain ⟨hp, ⟨ha0, h0⟩, ⟨ha1, h1⟩, ⟨ha3, h3⟩, hf, hpages, hcan, hhalf⟩ := h
  have ha2 : Aligned s.ops.a2 := by omega
  have hphys : Physical s.ops.a3 := by simp only [Physical]; omega
  rw [exec_mapRange_eq, checkOperands_of_inDomain hp ⟨ha0, ha1, ha2, ha3⟩
    ⟨h0, h1, hf, by omega, fun _ => ⟨hcan, hhalf, hphys, by omega⟩⟩, State.runMapRange, pageCount_eq_of_add hpages,
    if_neg hn.ne']

/-- The state MAP_RANGE leaves after `d` pages but for STATUS: the tables of `s1`, the results, and what the maintenance
of R121 leaves unseen and in the TLB. -/
def State.afterPages (s s1 : State) (d : Nat) (unseen : List UnseenWrite) (tlb : List TlbEntry) : State :=
  { s with
    mem := s1.mem, alloc := s1.alloc, owned := s1.owned, unseen := unseen, tlb := tlb
    res := { s.res with r0 := BitVec.ofNat 64 d } }

theorem RangeOutcome.answer_mapped {s s1 : State} (h : TablesOnly s s1) (n : Nat) (replaced : Bool) :
    (RangeOutcome.mapped s1 replaced).answer n = .next { s.afterPages s1 n (if s.state = .steady then [] else s1.unseen)
      (if s.state = .steady ∧ replaced = true then [] else s.tlb) with status := 0x00#8, rspValid := true } := by
  rw [TablesOnly] at h
  change ((maintenance true replaced (s1.countPages n)).andThen fun s2 => s2.finish .ok) = _
  rw [maintenance_finish, h]
  simp [Status.code, State.countPages, State.afterPages]

theorem RangeOutcome.answer_malformed {s s1 : State} (h : TablesOnly s s1) (n d : Nat) (wrote replaced : Bool) :
    (RangeOutcome.malformed s1 d wrote replaced).answer n = .next
      { s.afterPages s1 d (if s.state = .steady ∧ wrote = true then [] else s1.unseen)
        (if s.state = .steady ∧ wrote = true ∧ replaced = true then [] else s.tlb) with
        status := 0x12#8, rspValid := true } := by
  rw [TablesOnly] at h
  change ((maintenance wrote replaced (s1.countPages d)).andThen fun s2 => s2.finish .malformedDescriptor) = _
  rw [maintenance_finish, h]
  rfl

theorem RangeOutcome.answer_exhausted {s s1 : State} (h : TablesOnly s s1) (n d : Nat) :
    (RangeOutcome.exhausted s1 d).answer n =
      .next ((s.afterPages s1 d s1.unseen s.tlb).halted .allocationExhausted .allocatorExhausted) := by
  rw [TablesOnly] at h
  have hcount : s1.countPages d = s.afterPages s1 d s1.unseen s.tlb := by
    rw [h]
    rfl
  rw [← hcount]
  rfl

/-! ## REGISTER_REGION past its checks -/

/-- The operands of REGISTER_REGION for the space `sp` are in their domains, conflict with no record, and there is room
(R134). -/
structure RegistersRegion (s : State) (sp : Space) : Prop where
  permitted : MutationState s.state ∧ s.rootsValid = true
  aligned : Aligned s.ops.a1 ∧ Aligned s.ops.a2 ∧ Aligned s.ops.a3
  space : s.ops.a5 = sp.code
  domain : RegisterRegionDomain s.ops
  free : ∀ q ∈ s.registry, ¬ (q.space = sp ∧ RangesOverlap s.ops.a1 s.ops.a2 q.vstart q.vend)
  room : s.registry.length < s.cfg.registryCapacity

theorem RegistersRegion.exec_eq {s : State} {sp : Space} (h : RegistersRegion s sp) :
    exec .registerRegion s = mapRegion (s.rootOf sp) (s.newRegion sp) s := by
  have hfree : firstConflict s.registry (s.newRegion sp) = none := by
    rw [firstConflict, List.findIdx?_eq_none_iff]
    intro q hq
    rw [regionsConflict, ← Bool.not_eq_true, Bool.and_eq_true, decide_eq_true_eq, overlaps_iff]
    exact fun hc => h.free q hq ⟨hc.1.symm, hc.2⟩
  rw [exec_registerRegion_eq, checkOperands_of_inDomain h.permitted h.aligned h.domain, h.space, spaceOf_code,
    Option.elim_some, State.runRegisterRegion, hfree]
  exact if_neg (Nat.not_le.2 h.room)

theorem Space.code_toNat_le (sp : Space) : sp.code.toNat ≤ 1 := by cases sp <;> decide

/-- A range of no page has no conflict and maps nothing; its record is appended (R134). -/
theorem mapRegion_empty {root : Frame} {r : MappingRegion} {s : State} (h : r.vend = r.vstart) :
    mapRegion root r s = .next { s with
      registry := s.registry ++ [r]
      res := { s.res with r0 := BitVec.ofNat 64 s.registry.length, r1 := 0#64 }
      status := 0x00#8, rspValid := true } := by
  have hcount : pageCount r.vstart r.vend = 0 := by simp [pageCount, h]
  simp only [mapRegion, hcount, rangeConflict, mapPages, maintenance_finish]
  simp [State.appendRegion, State.setR1, State.setR0, Status.code]

/-! ## Nothing to map, and nothing mapped (R113, R134) -/

theorem exec_mapRange_empty {s : State} (hp : MutationState s.state) (ha0 : Aligned s.ops.a0) (ha1 : Aligned s.ops.a1)
    (ha3 : Aligned s.ops.a3) (h0 : Physical s.ops.a0) (h1 : CanonicalAddr s.ops.a1) (hf : FlagsWord s.ops.a4)
    (he : s.ops.a2 = s.ops.a1) : exec .mapRange s = (s.setR0 0#64).finish .ok := by
  have hcount : pageCount s.ops.a1 s.ops.a2 = 0 := by simp [pageCount, he]
  rw [exec_mapRange_eq, checkOperands_of_inDomain hp ⟨ha0, ha1, he ▸ ha1, ha3⟩
    ⟨h0, h1, hf, he ▸ Nat.le_refl _, fun hlt => absurd hlt (he ▸ Nat.lt_irrefl _)⟩, State.runMapRange, if_pos hcount]

/-- Settles O27: an empty range has no page to conflict, and a page that conflicts stops pass 1 before anything is
written. -/
theorem emptyAndConflictingRangesMapNothing : Obligations.EmptyAndConflictingRangesMapNothing := by
  intro s hp ha1 ha3 hf
  refine ⟨fun ha0 h0 h1 he => exec_mapRange_empty hp ha0 ha1 ha3 h0 h1 hf he,
    fun n k w ha0 h0 h1 hpages hcan hhalf hphys hk hw hne => ?range, fun sp hr hsp hrange hroom =>
    ⟨fun he => ?emptyRegion, fun n k w hpages hphys hfree hk hw hne => ?region⟩⟩
  case range =>
    rw [NamesPages.exec_eq ⟨hp, ⟨ha0, h0⟩, ⟨ha1, h1⟩, ⟨ha3, hphys⟩, hf, hpages, hcan, hhalf⟩ (by omega)]
    exact if_pos (rangeConflict_iff.2 ⟨k, hk, w, hw, hne⟩)
  case emptyRegion =>
    have hlt : ¬ s.ops.a1.toNat < s.ops.a2.toNat := by rw [he]; exact Nat.lt_irrefl _
    have hregion : RegistersRegion s sp := ⟨⟨hp, hr⟩, ⟨ha1, he ▸ ha1, ha3⟩, hsp,
      ⟨hsp ▸ sp.code_toNat_le, hrange, hf, fun h => absurd h hlt⟩, fun _ _ hc => hlt hc.2.1, hroom⟩
    rw [hregion.exec_eq, mapRegion_empty (r := s.newRegion sp) he]
    rfl
  case region =>
    have ha2 : Aligned s.ops.a2 := by omega
    have hregion : RegistersRegion s sp := ⟨⟨hp, hr⟩, ⟨ha1, ha2, ha3⟩, hsp,
      ⟨hsp ▸ sp.code_toNat_le, hrange, hf, fun _ => ⟨by simp only [Physical]; omega, by omega⟩⟩, hfree, hroom⟩
    rw [hregion.exec_eq]
    refine if_pos (rangeConflict_iff.2 ⟨k, ?_, w, hw, hne⟩)
    exact (pageCount_eq_of_add hpages).symm ▸ hk

/-! ## One level-3 table (R113) -/

/-- Pages of one level-3 table have its slots one after another. -/
theorem LeafTable.pageAt {m : Memory} {root t : Frame} {va : Word} {k : Nat} (h : LeafTable m root va t)
    (hk : (idx 3 va).toNat + k < 512) :
    LeafTable m root (pageAt va k) t ∧ slotAddr t (idx 3 (pageAt va k)) = slotAddr t (idx 3 va) + 8 * k := by
  induction k generalizing va with
  | zero =>
    rw [pageAt_zero]
    exact ⟨h, rfl⟩
  | succ k ih =>
    obtain ⟨hnext, -⟩ := idx_next (va := va) (by omega)
    obtain ⟨hleaf, hslot⟩ := ih (h.next (by omega)) (by rw [hnext]; omega)
    rw [← pageAt_succ]
    refine ⟨hleaf, hslot.trans ?_⟩
    simp only [slotAddr, hnext]
    omega

/-- A canonical range inside one level-3 table does not leave its half. -/
theorem lastPage_of_oneTable {a b : Word} {n : Nat} (ha : Aligned a) (hc : CanonicalAddr a) (hn : 0 < n)
    (hab : a.toNat + 4096 * n = b.toNat) (ht : a.toNat / 4096 % 512 + n ≤ 512) :
    CanonicalAddr (b - 4096#64) ∧ (Low (b - 4096#64) ↔ Low a) := by
  have hle : (4096#64 : Word).toNat ≤ b.toNat := by simp only [BitVec.toNat_ofNat]; omega
  have hlast : (b - 4096#64).toNat = b.toNat - 4096 := BitVec.toNat_sub_of_le hle
  simp only [CanonicalAddr, Low, High, hlast] at hc ⊢
  omega

/-- A page whose slot is unusable or holds its leaf already is unmapped or mapped as asked. -/
theorem LeafTable.walk_of_slot {m : Memory} {root t : Frame} {va pa flags : Word} {w : Translation}
    (h : LeafTable m root va t) (hva : Aligned va) (hpa : Aligned pa) (hp : Physical pa) (hf : FlagsWord flags)
    (hslot : descUsable (m.read64 (slotAddr t (idx 3 va))) = false ∨
      m.read64 (slotAddr t (idx 3 va)) = leafDesc pa flags) (hw : walk m root va = some w) :
    w = { pa := pa, flags := flags } := by
  rw [walk_of_walkTables h.1] at hw
  rcases hslot with hu | hleaf
  · simp [leafTranslation, hu] at hw
  · rw [hleaf, leafTranslation_leafDesc ((pageAligned_iff _).2 hpa) ((isPhys_iff _).2 hp) ((flagsWord_iff _).1 hf),
      pageOffset_aligned ((pageAligned_iff _).2 hva)] at hw
    simpa [eq_comm] using hw

/-- Settles O28: no page conflicts, and pass 2 stores the leaves one after another. -/
theorem mapRangeWritesEveryPage : Obligations.MapRangeWritesEveryPage := by
  intro s t n hwf hp ha0 ha1 ha3 h0 h1 hf hn hpages hphys htable hleaf hslots
  have hidx : (idx 3 s.ops.a1).toNat + n ≤ 512 := by
    rw [idx_toNat]
    exact htable
  have hnames : NamesPages s n := ⟨hp, ⟨ha0, h0⟩, ⟨ha1, h1⟩, ⟨ha3, hphys⟩, hf, hpages,
    lastPage_of_oneTable ha1 h1 hn hpages htable⟩
  have hfree : rangeConflict s.mem (frameOf s.ops.a0) s.ops.a4 n s.ops.a1 s.ops.a3 = false :=
    rangeConflict_eq_false fun k hk w hw => by
      obtain ⟨hleafk, hslotk⟩ := hleaf.pageAt (k := k) (by omega)
      have hphysk : Physical (pageAt s.ops.a3 k) := by
        rw [Physical, toNat_pageAt (by omega)]
        omega
      refine hleafk.walk_of_slot (aligned_pageAt ha1 k) (aligned_pageAt ha3 k) hphysk hf ?_ hw
      rw [hslotk]
      exact hslots k hk
  obtain ⟨s1, r, e, hs1, -, hleaves, hbytes, hkept⟩ := mapPages_leafTable (flags := s.ops.a4) (pa := s.ops.a3)
    (done := 0) (r := false) hwf hleaf hidx
  obtain rfl : r = false := hkept hslots
  have hto : TablesOnly s s1 := by
    rw [TablesOnly, hs1]
  have halloc : s1.alloc = s.alloc := by rw [hs1]
  have howned : s1.owned = s.owned := by rw [hs1]
  rw [hnames.exec_eq hn, if_neg (by rw [hfree]; decide), e, RangeOutcome.answer_mapped hto]
  refine ⟨_, rfl, ?frame, hleaves, hbytes⟩
  by_cases hs : s.state = .steady <;> simp [State.afterPages, halloc, howned, hs]

/-! ## Any number of tables (R113) -/

/-- Three frames a page, no malformed page: pass 2 has no reason to end early. -/
theorem RangeEnds.complete {s u : State} {root : Frame} {va : Word} {n d j done : Nat} {o : RangeOutcome}
    (h : RangeEnds s u root va n d j done o) (hj : j ≤ 3 * d) (hg : (s.grants (3 * n)).1.length = 3 * n)
    (hm : ∀ k, k < n → ¬ MalformedPath s.mem root (pageAt va k)) : d = n := by
  rcases h with ⟨h, -⟩ | ⟨hd, hshort, -⟩ | ⟨hd, hbad, -⟩
  · exact h
  · have := State.grants_length_mono (n := j + 3) hg (by omega)
    omega
  · exact absurd hbad (hm d hd)

/-- The TLB is emptied under a condition that asks for STEADY, or left alone (R121). -/
theorem emptied_or_kept {c steady : Prop} [Decidable c] (h : c → steady) (tlb : List TlbEntry) :
    (if c then [] else tlb) = tlb ∨ steady ∧ (if c then [] else tlb) = [] := by
  by_cases hc : c
  · exact .inr ⟨h hc, if_pos hc⟩
  · exact .inl (if_neg hc)

/-- Settles O29: the pages are those of `mapPages_spec`, and each of its three ends is answered with the pages
counted. -/
theorem mapRangeMapsPageByPage : Obligations.MapRangeMapsPageByPage := by
  rintro s root n hwf hp ha0 ha1 ha3 h0 h1 hf hn hpages hcan hhalf hphys rfl hT hwalk
  have hnames : NamesPages s n := ⟨hp, ⟨ha0, h0⟩, ⟨ha1, h1⟩, ⟨ha3, hphys⟩, hf, hpages, hcan, hhalf⟩
  obtain ⟨d, j, s1, hmapped, -, hto, hd, hgood, hends⟩ := mapPages_spec (n := n) (va := s.ops.a1) (pa := s.ops.a3)
    (done := 0) (r := false) ((flagsWord_iff _).1 hf) hwf hT ((pageAligned_iff _).2 ha1) ((pageAligned_iff _).2 ha3)
    hphys (by omega)
  have hdone := fun hg hm => hends.complete hmapped.granted.2.2 hg hm
  have hafter (unseen : List UnseenWrite) (tlb : List TlbEntry) :
      PagesMapped s (s.afterPages s1 d unseen tlb) (frameOf s.ops.a0) s.ops.a1 s.ops.a3 s.ops.a4 n d j :=
    hmapped.congr rfl rfl
  rw [hnames.exec_eq hn, if_neg (by rw [rangeConflict_eq_false hwalk]; decide)]
  rcases hends with ⟨rfl, halloc, r, e⟩ | ⟨hdn, hshort, halloc, e⟩ | ⟨hdn, hbad, halloc, r, e⟩
  · rw [e, RangeOutcome.answer_mapped hto]
    exact ⟨d, j, _, _, rfl, hafter _ _, hd, hgood, rfl, emptied_or_kept (fun hc => hc.1) s.tlb,
      .inl ⟨rfl, halloc, fun hs => if_pos hs, rfl⟩, hdone⟩
  · rw [e, RangeOutcome.answer_exhausted hto, Nat.zero_add]
    exact ⟨d, j, _, _, rfl, hafter _ _, hd, hgood, rfl, .inl rfl, .inr (.inr ⟨hdn, hshort, halloc, rfl⟩), hdone⟩
  · rw [e, RangeOutcome.answer_malformed hto, Nat.zero_add]
    exact ⟨d, j, _, _, rfl, hafter _ _, hd, hgood, rfl, emptied_or_kept (fun hc => hc.1) s.tlb,
      .inr (.inl ⟨hdn, hbad, halloc, fun hs h0 => if_pos ⟨hs, decide_eq_true h0⟩, rfl⟩), hdone⟩

end Sys2Proof.Machine

/-! The Mapping Registry (R131 to R133, R135): what the audit lists, how a new record is admitted, and REGISTER, AUDIT and
WALK_AND_REPORT branch by branch. -/

namespace Sys2Proof.Machine

/-! ## What the audit lists (R132, R135) -/

theorem regionsConflict_iff (a b : MappingRegion) :
    regionsConflict a b = true ↔ a.space = b.space ∧ RangesOverlap a.vstart a.vend b.vstart b.vend := by
  rw [regionsConflict, Bool.and_eq_true, decide_eq_true_eq, overlaps_iff]

/-- The pairs listed for one record name it first and a later record it conflicts with second. -/
theorem mem_conflictsOf_iff {r : MappingRegion} {i j a b : Nat} {rs : List MappingRegion} :
    (a, b) ∈ conflictsOf r i j rs ↔ a = i ∧ ∃ k, b = j + k ∧ ∃ q, rs[k]? = some q ∧ regionsConflict r q = true := by
  induction rs generalizing j with
  | nil => simp [conflictsOf]
  | cons x rs ih =>
    have hcons : (a, b) ∈ conflictsOf r i j (x :: rs) ↔
        (a = i ∧ b = j ∧ regionsConflict r x = true) ∨ (a, b) ∈ conflictsOf r i (j + 1) rs := by
      rw [conflictsOf]
      split_ifs with hx <;> simp [hx]
    rw [hcons, ih]
    constructor
    · rintro (⟨ha, hb, hx⟩ | ⟨ha, k, hb, q, hq, hc⟩)
      · exact ⟨ha, 0, hb, x, rfl, hx⟩
      · exact ⟨ha, k + 1, by omega, q, hq, hc⟩
    · rintro ⟨ha, _ | k, hb, q, hq, hc⟩
      · obtain rfl : x = q := by simpa using hq
        exact .inl ⟨ha, hb, hc⟩
      · exact .inr ⟨ha, k, by omega, q, hq, hc⟩

/-- The audit of the records from index `i` on. -/
theorem mem_auditFrom_iff {i a b : Nat} {rs : List MappingRegion} :
    (a, b) ∈ auditFrom i rs ↔ ∃ k l, a = i + k ∧ b = i + l ∧ k < l ∧
      ∃ p q, rs[k]? = some p ∧ rs[l]? = some q ∧ regionsConflict p q = true := by
  induction rs generalizing i with
  | nil => simp [auditFrom]
  | cons r rs ih =>
    rw [auditFrom, List.mem_append, mem_conflictsOf_iff, ih]
    constructor
    · rintro (⟨rfl, k, rfl, q, hq, hc⟩ | ⟨k, l, rfl, rfl, hkl, p, q, hp, hq, hc⟩)
      · exact ⟨0, k + 1, rfl, by omega, by omega, r, q, rfl, hq, hc⟩
      · exact ⟨k + 1, l + 1, by omega, by omega, by omega, p, q, hp, hq, hc⟩
    · rintro ⟨_ | k, _ | l, rfl, rfl, hkl, p, q, hp, hq, hc⟩
      · omega
      · obtain rfl : r = p := by simpa using hp
        exact .inl ⟨rfl, l, by omega, q, hq, hc⟩
      · omega
      · exact .inr ⟨k, l, by omega, by omega, by omega, p, q, hp, hq, hc⟩

/-- Pairs of indices in lexicographic order. -/
def PairBefore (p q : Nat × Nat) : Prop := p.1 < q.1 ∨ (p.1 = q.1 ∧ p.2 < q.2)

theorem conflictsOf_ascending (r : MappingRegion) (i j : Nat) (rs : List MappingRegion) :
    (conflictsOf r i j rs).Pairwise PairBefore := by
  induction rs generalizing j with
  | nil => exact .nil
  | cons x rs ih =>
    unfold conflictsOf
    split_ifs
    · refine List.pairwise_cons.2 ⟨fun p hp => ?_, ih (j + 1)⟩
      obtain ⟨hi, k, hk, -⟩ := mem_conflictsOf_iff.1 hp
      exact .inr ⟨hi.symm, by simp only [hk]; omega⟩
    · exact ih (j + 1)

theorem auditFrom_ascending (i : Nat) (rs : List MappingRegion) : (auditFrom i rs).Pairwise PairBefore := by
  induction rs generalizing i with
  | nil => exact .nil
  | cons r rs ih =>
    refine List.pairwise_append.2 ⟨conflictsOf_ascending r i (i + 1) rs, ih (i + 1), fun p hp q hq => .inl ?_⟩
    obtain ⟨hp, -⟩ := mem_conflictsOf_iff.1 hp
    obtain ⟨k, l, hq, -⟩ := mem_auditFrom_iff.1 hq
    omega

/-- Settles O35: membership and order of the audit from index 0 on. -/
theorem auditListsExactlyTheConflicts : Obligations.AuditListsExactlyTheConflicts := by
  refine fun rs => ⟨fun i j => ?_, auditFrom_ascending 0 rs⟩
  simp only [audit, mem_auditFrom_iff, Nat.zero_add, regionsConflict_iff]
  constructor
  · rintro ⟨k, l, rfl, rfl, h⟩
    exact h
  · exact fun h => ⟨i, j, rfl, rfl, h⟩

/-! ## AUDIT (R132) -/

theorem exec_audit_eq {s : State} (hs : s.state ≠ .halted) : exec .audit s =
    ((s.setAudit (audit s.registry)).log (auditItems (audit s.registry))).finish .ok := if_neg hs

/-- Settles O36: the two cases of `State.setAudit`, and the items of the audit written out. -/
theorem auditCountsAndPrintsTheConflicts : Obligations.AuditCountsAndPrintsTheConflicts := by
  refine fun s => ⟨fun hh => if_pos hh, fun hs => ?_⟩
  rw [exec_audit_eq hs]
  refine ⟨fun h => ?_, fun i j rest h => ?_⟩
  · rw [h]
    rfl
  · rw [h, List.append_assoc]
    rfl

/-! ## Checks of an operation that names a space (R95, R131, R133) -/

/-- A space out of its domain, and then any other operand out of its own, end in the same answer; no operand has to be
page aligned. -/
theorem checkOperands_of_space {permitted inDomain : Prop} [Decidable permitted] [Decidable inDomain] {p d : Bool}
    (hp : p = true ↔ permitted) (hd : d = true ↔ inDomain) (space : Word) (run : Space → Result) (s : State) :
    (if !p then s.finish .illegalCommand
      else (spaceOf space).elim (s.finish .badOperand) fun sp => if !d then s.finish .badOperand else run sp) =
    checkOperands permitted True (space.toNat ≤ 1 ∧ inDomain) ((spaceOf space).elim (s.finish .badOperand) run) s := by
  refine checkOperands_of_checks (a := true) hp (iff_of_true rfl trivial) (fun _ hbad => ?_) fun _ hgood => ?_
  · cases hsp : spaceOf space with
    | none => rfl
    | some sp =>
      have hle : space.toNat ≤ 1 := Nat.not_lt.1 fun h => by simp [(spaceOf_eq_none_iff _).2 h] at hsp
      exact if_pos ((bnot_iff hd).2 fun h => hbad ⟨hle, h⟩)
  · cases spaceOf space with
    | none => rfl
    | some sp => exact if_neg (mt (bnot_iff hd).1 (not_not.2 hgood.2))

/-! ## Admitting a record (R131, R134) -/

/-- What REGISTER and REGISTER_REGION ask of the registry for a new record of the space `sp`: no overlapping record, then
room; `run` is what follows. -/
def State.admission (s : State) (sp : Space) (run : Result) : Result :=
  match firstConflict s.registry (s.newRegion sp) with
  | some i => (s.setR0 (BitVec.ofNat 64 i)).finish .overlapConflict
  | none => if s.cfg.registryCapacity ≤ s.registry.length then s.finish .registryFull else run

/-- The range of the operands A1 and A2 overlaps a record of the space `sp`. -/
abbrev State.OverlapsRecord (s : State) (sp : Space) (q : MappingRegion) : Prop :=
  q.space = sp ∧ RangesOverlap s.ops.a1 s.ops.a2 q.vstart q.vend

theorem regionsConflict_newRegion {s : State} {sp : Space} {q : MappingRegion} :
    regionsConflict (s.newRegion sp) q = true ↔ s.OverlapsRecord sp q := by
  rw [regionsConflict_iff, eq_comm]
  rfl

section

variable {s : State} {sp : Space} {run : Result}

/-- The first record that overlaps is the one the index search finds. -/
theorem State.admission_of_overlap {i : Nat} {r : MappingRegion} (hi : s.registry[i]? = some r) (hr : s.OverlapsRecord sp r)
    (hfirst : ∀ j q, j < i → s.registry[j]? = some q → ¬ s.OverlapsRecord sp q) :
    s.admission sp run = .next { s with
      res := { s.res with r0 := BitVec.ofNat 64 i }, status := 0x03#8, rspValid := true } := by
  have hfound : firstConflict s.registry (s.newRegion sp) = some i := by
    obtain ⟨hlt, hget⟩ := List.getElem?_eq_some_iff.1 hi
    refine List.findIdx?_eq_some_iff_getElem.2 ⟨hlt, ?_, fun j hj => ?_⟩
    · rw [hget]
      exact regionsConflict_newRegion.2 hr
    · rw [regionsConflict_newRegion]
      exact hfirst j _ hj (List.getElem?_eq_getElem _)
  rw [State.admission, hfound]
  rfl

theorem firstConflict_newRegion_eq_none (hfree : ∀ q ∈ s.registry, ¬ s.OverlapsRecord sp q) :
    firstConflict s.registry (s.newRegion sp) = none :=
  List.findIdx?_eq_none_iff.2 fun q hq => by
    rw [← Bool.not_eq_true, regionsConflict_newRegion]
    exact hfree q hq

theorem State.admission_of_full (hfree : ∀ q ∈ s.registry, ¬ s.OverlapsRecord sp q)
    (hfull : s.cfg.registryCapacity ≤ s.registry.length) :
    s.admission sp run = .next { s with status := 0x13#8, rspValid := true } := by
  rw [State.admission, firstConflict_newRegion_eq_none hfree]
  exact if_pos hfull

theorem State.admission_of_room (hfree : ∀ q ∈ s.registry, ¬ s.OverlapsRecord sp q)
    (hroom : s.registry.length < s.cfg.registryCapacity) : s.admission sp run = run := by
  rw [State.admission, firstConflict_newRegion_eq_none hfree]
  exact if_neg (Nat.not_le.2 hroom)

end

/-! ## REGISTER (R131) -/

theorem exec_register_eq (s : State) : exec .register s = checkOperands (MutationState s.state) True
    (s.ops.a5.toNat ≤ 1 ∧ RegionRange s.ops.a1 s.ops.a2 ∧ FlagsWord s.ops.a4)
    ((spaceOf s.ops.a5).elim (s.finish .badOperand) fun sp =>
      s.admission sp ((s.appendRegion (s.newRegion sp)).finish .ok)) s := by
  have hdomain : (regionRangeOk s.ops.a1 s.ops.a2 && flagsOk s.ops.a4) = true ↔
      RegionRange s.ops.a1 s.ops.a2 ∧ FlagsWord s.ops.a4 := by
    rw [Bool.and_eq_true, regionRange_iff, flagsWord_iff]
  rw [← checkOperands_of_space (permitsMutation_iff s.state) hdomain]
  change execRegister s = _
  unfold execRegister
  cases spaceOf s.ops.a5 <;> rfl

/-- Settles O34: the chain of checks, then the three ends of admitting a record. -/
theorem registerAppendsOrRejects : Obligations.RegisterAppendsOrRejects := by
  refine ⟨decode_encode .register [], fun s => ?_⟩
  rw [exec_register_eq]
  refine ⟨checkOperands_of_not_permitted, fun hp => ⟨checkOperands_of_not_inDomain hp trivial, fun hrange hf sp hsp => ?_⟩⟩
  rw [checkOperands_of_inDomain hp trivial ⟨hsp ▸ sp.code_toNat_le, hrange, hf⟩, hsp, spaceOf_code, Option.elim_some]
  refine ⟨fun i r hi hr ho hfirst => State.admission_of_overlap hi ⟨hr, ho⟩ hfirst, fun hfree =>
    ⟨State.admission_of_full hfree, fun hroom => ?_⟩⟩
  rw [State.admission_of_room hfree hroom]
  rfl

/-! ## WALK_AND_REPORT (R133) -/

theorem exec_walkAndReport_eq (s : State) : exec .walkAndReport s =
    checkOperands (s.state ≠ .halted ∧ s.rootsValid = true) True (s.ops.a0.toNat ≤ 1 ∧ CanonicalAddr s.ops.a1)
      ((spaceOf s.ops.a0).elim (s.finish .badOperand) fun sp =>
        ((s.log (reportItems s.ops.a0 s.ops.a1 (walk s.mem (s.rootOf sp) s.ops.a1))).setTranslation
          (walk s.mem (s.rootOf sp) s.ops.a1)).finish .ok) s := by
  have hpermitted : (decide (s.state ≠ .halted) && s.rootsValid) = true ↔ s.state ≠ .halted ∧ s.rootsValid = true := by
    rw [Bool.and_eq_true, decide_eq_true_eq]
  rw [← checkOperands_of_space hpermitted (canonical_iff s.ops.a1)]
  change execWalkAndReport s = _
  unfold execWalkAndReport
  by_cases hs : s.state = .halted
  · simp [hs]
  · cases hr : s.rootsValid <;> cases spaceOf s.ops.a0 <;> simp [hs]

/-- The root of the space an operand names (R133). -/
theorem State.rootOf_space {s : State} {v : Word} {r : Frame}
    (h : v = 0#64 ∧ r = rootFrame s.identityRoot ∨ v = 1#64 ∧ r = rootFrame s.kernelRoot) :
    ∃ sp : Space, v = sp.code ∧ s.rootOf sp = r := by
  rcases h with ⟨rfl, rfl⟩ | ⟨rfl, rfl⟩
  · exact ⟨.identity, rfl, rfl⟩
  · exact ⟨.kernel, rfl, rfl⟩

/-- Settles O37: the chain of checks, then the walk's two results, the lines of the flags with each field written as
arithmetic. -/
theorem walkAndReportPrintsTheTranslation : Obligations.WalkAndReportPrintsTheTranslation := by
  refine ⟨decode_encode .walkAndReport [], fun s => ?_⟩
  rw [exec_walkAndReport_eq]
  refine ⟨fun h => checkOperands_of_not_permitted fun hp => ?refused, fun hs hr =>
    ⟨checkOperands_of_not_inDomain ⟨hs, hr⟩ trivial, fun hc r hroot => ?ok⟩⟩
  case refused => exact h.elim hp.1 fun h0 => by simp [h0] at hp
  case ok =>
    obtain ⟨sp, hsp, rfl⟩ := State.rootOf_space hroot
    rw [checkOperands_of_inDomain ⟨hs, hr⟩ trivial ⟨hsp ▸ sp.code_toNat_le, hc⟩, hsp, spaceOf_code, Option.elim_some]
    refine ⟨fun hw => ?_, fun w hw => ?_⟩
    · rw [hw]
      rfl
    · rw [hw, ← attrName_eq, ← apName_eq, ← shName_eq]
      rfl

end Sys2Proof.Machine

/-! REGISTER_REGION (R134): its refusals, one level-3 table, any number of tables. -/

namespace Sys2Proof.Machine

/-! ## Refused before anything is mapped -/

theorem State.runRegisterRegion_eq (s : State) (sp : Space) :
    s.runRegisterRegion sp = s.admission sp (mapRegion (s.rootOf sp) (s.newRegion sp) s) := by
  unfold State.runRegisterRegion State.admission
  cases firstConflict s.registry (s.newRegion sp) <;> rfl

/-- Settles O54: state and roots come first in the chain of checks, and the registry is asked before pass 1. -/
theorem registerRegionRefusesBeforeItMaps : Obligations.RegisterRegionRefusesBeforeItMaps := by
  intro s
  rw [exec_registerRegion_eq]
  refine ⟨fun h => checkOperands_of_not_permitted ?refused,
    fun hp hr ha1 ha2 ha3 hrange hf hphys sp hsp => ?registry⟩
  case refused => rcases h with h | h <;> simp [h]
  case registry =>
    rw [checkOperands_of_inDomain ⟨hp, hr⟩ ⟨ha1, ha2, ha3⟩ ⟨hsp ▸ sp.code_toNat_le, hrange, hf, hphys⟩, hsp,
      spaceOf_code, Option.elim_some, State.runRegisterRegion_eq]
    exact ⟨fun i r hi hr ho hfirst => State.admission_of_overlap hi ⟨hr, ho⟩ hfirst, State.admission_of_full⟩

/-! ## What is answered for each end of pass 2 -/

/-- `s` with the memory and the frames of `s1`: what building tables leaves before results, the record and STATUS are
written. -/
def State.withTables (s s1 : State) (unseen : List UnseenWrite) (tlb : List TlbEntry) : State :=
  { s with mem := s1.mem, alloc := s1.alloc, owned := s1.owned, unseen := unseen, tlb := tlb }

/-- Pass 2 that ends early writes R0 besides. -/
theorem State.afterPages_eq (s s1 : State) (d : Nat) (unseen : List UnseenWrite) (tlb : List TlbEntry) :
    s.afterPages s1 d unseen tlb =
      { s.withTables s1 unseen tlb with res := { s.res with r0 := BitVec.ofNat 64 d } } := rfl

section

variable {root : Frame} {r : MappingRegion} {s : State} {n : Nat} (hn : pageCount r.vstart r.vend = n)
  (hfree : rangeConflict s.mem root r.flags n r.vstart r.pstart = false)

include hn hfree

/-- An end of pass 2 before the last page is answered as that of MAP_RANGE (notes/assumptions/22). -/
theorem mapRegion_of_early {o : RangeOutcome} (e : mapPages root r.flags n r.vstart r.pstart 0 false s = o)
    (ho : ∀ s1 replaced, o ≠ .mapped s1 replaced) : mapRegion root r s = o.answer n := by
  subst hn
  simp only [mapRegion, hfree, e, Bool.false_eq_true, if_false]
  cases o with
  | mapped s1 replaced => exact absurd rfl (ho s1 replaced)
  | malformed s1 d wrote replaced => rfl
  | exhausted s1 d => rfl

/-- A range mapped whole is recorded. -/
theorem mapRegion_of_mapped {s1 : State} {replaced : Bool} (hpos : 0 < n) (hto : TablesOnly s s1)
    (e : mapPages root r.flags n r.vstart r.pstart 0 false s = .mapped s1 replaced) : mapRegion root r s = .next
      { s.withTables s1 (if s.state = .steady then [] else s1.unseen)
          (if s.state = .steady ∧ replaced = true then [] else s.tlb) with
        registry := s.registry ++ [r]
        res := { s.res with r0 := BitVec.ofNat 64 s.registry.length, r1 := BitVec.ofNat 64 n }
        status := 0x00#8, rspValid := true } := by
  subst hn
  rw [TablesOnly] at hto
  simp only [mapRegion, hfree, e, Bool.false_eq_true, if_false, maintenance_finish]
  rw [hto]
  simp [State.appendRegion, State.setR1, State.setR0, State.withTables, Status.code, hpos]

end

/-! ## One level-3 table -/

/-- The operands of REGISTER_REGION when they name `n` whole pages (R134). -/
theorem RegistersRegion.of_pages {s : State} {sp : Space} {n : Nat} (hp : MutationState s.state)
    (hr : s.rootsValid = true) (ha1 : Aligned s.ops.a1) (ha3 : Aligned s.ops.a3) (hsp : s.ops.a5 = sp.code)
    (hrange : RegionRange s.ops.a1 s.ops.a2) (hf : FlagsWord s.ops.a4)
    (hpages : s.ops.a1.toNat + 4096 * n = s.ops.a2.toNat) (hphys : s.ops.a3.toNat + 4096 * n ≤ 281474976710656)
    (hfree : ∀ q ∈ s.registry, ¬ s.OverlapsRecord sp q) (hroom : s.registry.length < s.cfg.registryCapacity) :
    RegistersRegion s sp where
  permitted := ⟨hp, hr⟩
  aligned := ⟨ha1, by omega, ha3⟩
  space := hsp
  domain := ⟨hsp ▸ sp.code_toNat_le, hrange, hf, fun _ => ⟨by simp only [Physical]; omega, by omega⟩⟩
  free := hfree
  room := hroom

/-- Where every slot of the range is unusable or holds its leaf already, pass 1 finds no conflict (R113). -/
theorem LeafTable.rangeConflict_eq_false {m : Memory} {root t : Frame} {va pa flags : Word} {n : Nat}
    (h : LeafTable m root va t) (hidx : (idx 3 va).toNat + n ≤ 512) (hva : Aligned va) (hpa : Aligned pa)
    (hphys : pa.toNat + 4096 * n ≤ 281474976710656) (hf : FlagsWord flags)
    (hslots : ∀ k, k < n → descUsable (m.read64 (slotAddr t (idx 3 va) + 8 * k)) = false ∨
      m.read64 (slotAddr t (idx 3 va) + 8 * k) = leafDesc (Sys2Proof.Machine.pageAt pa k) flags) :
    rangeConflict m root flags n va pa = false :=
  Sys2Proof.Machine.rangeConflict_eq_false fun k hk w hw => by
    obtain ⟨hleaf, hslot⟩ := h.pageAt (k := k) (by omega)
    have hphysk : Physical (Sys2Proof.Machine.pageAt pa k) := by
      rw [Physical, toNat_pageAt (by omega)]
      omega
    refine hleaf.walk_of_slot (aligned_pageAt hva k) (aligned_pageAt hpa k) hphysk hf ?_ hw
    rw [hslot]
    exact hslots k hk

/-- Settles O38: no page conflicts, pass 2 stores the leaves one after another, and the record follows. -/
theorem registerRegionMapsThenRecords : Obligations.RegisterRegionMapsThenRecords := by
  intro s t n sp hwf hp hr ha1 ha3 hsp hrange hf hn hpages hphys htable hfree hroom hleaf hslots
  have hidx : (idx 3 s.ops.a1).toNat + n ≤ 512 := by
    rw [idx_toNat]
    exact htable
  have hregion : RegistersRegion s sp := .of_pages hp hr ha1 ha3 hsp hrange hf hpages hphys hfree hroom
  obtain ⟨s1, replaced, e, hs1, -, hleaves, hbytes, hkept⟩ := mapPages_leafTable (flags := s.ops.a4)
    (pa := s.ops.a3) (done := 0) (r := false) hwf hleaf hidx
  obtain rfl : replaced = false := hkept hslots
  have hto : TablesOnly s s1 := by
    rw [TablesOnly, hs1]
  have halloc : s1.alloc = s.alloc := by rw [hs1]
  have howned : s1.owned = s.owned := by rw [hs1]
  rw [hregion.exec_eq, mapRegion_of_mapped (r := s.newRegion sp) (pageCount_eq_of_add hpages)
    (hleaf.rangeConflict_eq_false hidx ha1 ha3 hphys hf hslots) hn hto e]
  refine ⟨_, rfl, ?frame, hleaves, hbytes⟩
  by_cases hs : s.state = .steady <;> simp [State.withTables, State.newRegion, halloc, howned, hs]

/-! ## Any number of tables -/

/-- Settles O46: the pages are those of `mapPages_spec`; of its three ends the first is recorded, the other two are
answered with the pages counted. -/
theorem registerRegionMapsPageByPage : Obligations.RegisterRegionMapsPageByPage := by
  rintro s root n sp hwf hp hr ha1 ha3 hsp hrange hf hn hpages hphys hfree hroom rfl hT hwalk
  have hregion : RegistersRegion s sp := .of_pages hp hr ha1 ha3 hsp hrange hf hpages hphys hfree hroom
  have hcount := pageCount_eq_of_add hpages
  have hconflict := rangeConflict_eq_false hwalk
  obtain ⟨d, j, s1, hmapped, -, hto, hd, hgood, hends⟩ := mapPages_spec (n := n) (va := s.ops.a1) (pa := s.ops.a3)
    (done := 0) (r := false) ((flagsWord_iff _).1 hf) hwf hT ((pageAligned_iff _).2 ha1) ((pageAligned_iff _).2 ha3)
    hphys (by omega)
  have hdone := fun hg hm => hends.complete hmapped.granted.2.2 hg hm
  have hbuilt (unseen : List UnseenWrite) (tlb : List TlbEntry) :
      PagesMapped s (s.withTables s1 unseen tlb) (s.rootOf sp) s.ops.a1 s.ops.a3 s.ops.a4 n d j :=
    hmapped.congr rfl rfl
  rw [hregion.exec_eq]
  rcases hends with ⟨rfl, halloc, replaced, e⟩ | ⟨hdn, hshort, halloc, e⟩ | ⟨hdn, hbad, halloc, replaced, e⟩
  · rw [mapRegion_of_mapped (r := s.newRegion sp) hcount hconflict hn hto e]
    exact ⟨d, j, _, _, rfl, hbuilt _ _, hd, hgood, rfl, emptied_or_kept (fun hc => hc.1) s.tlb,
      .inl ⟨rfl, halloc, fun hs => if_pos hs, rfl⟩, hdone⟩
  · rw [mapRegion_of_early (r := s.newRegion sp) hcount hconflict e (by simp), RangeOutcome.answer_exhausted hto,
      Nat.zero_add, State.afterPages_eq]
    exact ⟨d, j, _, _, rfl, hbuilt _ _, hd, hgood, rfl, .inl rfl,
      .inr (.inr ⟨hdn, hshort, halloc, rfl⟩), hdone⟩
  · rw [mapRegion_of_early (r := s.newRegion sp) hcount hconflict e (by simp), RangeOutcome.answer_malformed hto,
      Nat.zero_add, State.afterPages_eq]
    exact ⟨d, j, _, _, rfl, hbuilt _ _, hd, hgood, rfl, emptied_or_kept (fun hc => hc.1) s.tlb,
      .inr (.inl ⟨hdn, hbad, halloc, fun hs h0 => if_pos ⟨hs, decide_eq_true h0⟩, rfl⟩), hdone⟩

end Sys2Proof.Machine

/-! Memory, registry and recorded roots (R27, R36, R39, R41, R136): what one operation can do to the three together, read
off its case in `OpCase`, and from it that every step keeps them well formed. -/

namespace Sys2Proof.Machine

/-! ## Three invariants, each under the one change an operation makes -/

/-- A record that conflicts with none of a registry without conflicts may join it where there is room (R39, R41). -/
theorem RegistryDisjoint.append {s t : State} {r : MappingRegion} (h : RegistryDisjoint s) (hc : t.cfg = s.cfg)
    (hr : t.registry = s.registry ++ [r]) (hfree : ∀ q ∈ s.registry, regionsConflict r q = false)
    (hroom : s.registry.length < s.cfg.registryCapacity) : RegistryDisjoint t := by
  obtain ⟨haudit, -⟩ := h
  rw [audit_nil_iff] at haudit
  refine ⟨?_, by rw [hr, hc, List.length_append]; exact hroom⟩
  rw [hr, audit_nil_iff, List.pairwise_append]
  refine ⟨haudit, List.pairwise_singleton _ _, fun q hq x hx => ?_⟩
  rw [List.mem_singleton.1 hx, regionsConflict_comm]
  exact hfree q hq

/-- Alignment is asked of the three fields of the recorded roots alone (R27). -/
theorem RootsAligned.congr {s t : State} (h : RootsAligned s) (hv : t.rootsValid = s.rootsValid)
    (hi : t.identityRoot = s.identityRoot) (hk : t.kernelRoot = s.kernelRoot) : RootsAligned t := by
  unfold RootsAligned
  rw [hv, hi, hk]
  exact h

/-- A frame followed by twelve zero bits is a 4 KiB aligned root (R27, R115). -/
theorem rootOfFrame_aligned (f : Frame) : (f ++ 0#12).extractLsb' 0 12 = 0#12 := by
  apply BitVec.eq_of_toNat_eq
  rw [BitVec.extractLsb'_toNat, BitVec.toNat_append]
  simp [Nat.shiftLeft_eq]

/-! ## What one operation does to the three -/

/-- The registry stays, or grows by one record that conflicts with none and fits (R136 c). -/
def RegistryGrows (s t : State) : Prop :=
  t.registry = s.registry ∨ ∃ r, t.registry = s.registry ++ [r] ∧
    (∀ q ∈ s.registry, regionsConflict r q = false) ∧ s.registry.length < s.cfg.registryCapacity

/-- From `s` to `t`, under the same parameters, memory keeps its canonical form, the registry stays or grows, and recorded
roots keep their alignment. -/
structure StoresKept (s t : State) : Prop where
  wf : MemoryCanonical s → MemoryCanonical t
  cfg : t.cfg = s.cfg
  registry : RegistryGrows s t
  roots : RootsAligned s → RootsAligned t

/-- `Quiet` takes in neither of the recorded roots nor whether they are valid. -/
theorem Quiet.rootsAligned {s u : State} (h : Quiet s u) (hs : RootsAligned s) : RootsAligned u := by
  apply hs.congr <;> rw [h]

theorem StoresKept.refl (s : State) : StoresKept s s := ⟨id, rfl, .inl rfl, id⟩

/-- What only writes registers, results, the state or the console leaves the three alone. -/
theorem StoresKept.congr {s u t : State} (h : StoresKept s u) (hm : t.mem = u.mem) (hc : t.cfg = u.cfg)
    (hr : t.registry = u.registry) (hv : t.rootsValid = u.rootsValid) (hi : t.identityRoot = u.identityRoot)
    (hk : t.kernelRoot = u.kernelRoot) : StoresKept s t where
  wf hs := by
    unfold MemoryCanonical
    rw [hm]
    exact h.wf hs
  cfg := hc.trans h.cfg
  registry := by
    unfold RegistryGrows
    rw [hr]
    exact h.registry
  roots hs := (h.roots hs).congr hv hi hk

/-- What changes memory but neither registry nor recorded roots. -/
theorem StoresKept.of_quiet {s u : State} (h : Quiet s u) (hr : u.registry = s.registry)
    (hw : MemoryCanonical s → MemoryCanonical u) : StoresKept s u where
  wf := hw
  cfg := h.hostKept.cfg
  registry := .inl hr
  roots hs := h.rootsAligned hs

/-- The failure path leaves the three alone (R188). -/
theorem StoresKept.halted {s u : State} (h : StoresKept s u) (c : Status) (f : FailInfo) : StoresKept s (u.halted c f) :=
  h.congr rfl rfl rfl rfl rfl rfl

/-- NEW_PAIR records aligned roots (R115). -/
theorem StoresKept.setRoots {s u : State} (h : StoresKept s u) (p0 p1 : Frame) : StoresKept s (u.setRoots p0 p1) where
  wf := h.wf
  cfg := h.cfg
  registry := h.registry
  roots _ _ := ⟨rootOfFrame_aligned p0, rootOfFrame_aligned p1⟩

/-- What `DataStep` says of the three. -/
theorem DataStep.storesKept {s t : State} (h : DataStep s t) : StoresKept s t where
  wf := h.wf
  cfg := h.hostKept.cfg
  registry := h.registry
  roots hs := by
    rcases h.ends with hq | ⟨u, c, f, hq, rfl, -⟩
    · exact hq.rootsAligned hs
    · exact (hq.rootsAligned hs).congr rfl rfl rfl

/-- Every case of every operation: table building goes through `DataStep` or `TablesOnly`, the copy of VEC_INSTALL
writes memory alone, and the transitions none of the three. -/
theorem OpCase.storesKept {i : Instr} {s t : State} (h : OpCase i s t) : StoresKept s t := by
  cases h with
  | data _ h => exact h.storesKept
  | sysHalt h =>
    obtain ⟨r, f, rfl⟩ := h
    exact (StoresKept.refl s).congr rfl rfl rfl rfl rfl rfl
  | newPair _ u hu hw h =>
    have hk : StoresKept s u := .of_quiet hu.quiet (by rw [hu]) hw
    rcases h with rfl | ⟨p0, p1, rfl⟩
    · exact hk.halted _ _
    · exact (hk.setRoots p0 p1).congr rfl rfl rfl rfl rfl rfl
  | vecInstall _ _ u hu hw h =>
    have hk : StoresKept s u := .of_quiet (by unfold Quiet; rw [hu]) (by rw [hu]) hw
    rcases h with ⟨f, rfl⟩ | ⟨f, rfl⟩ | ⟨-, rfl⟩
    · exact hk.halted _ _
    · have hvbar : StoresKept s (u.sysWrite .vbar s.cfg.vecPhys) := hk.congr rfl rfl rfl rfl rfl rfl
      exact hvbar.halted _ _
    · exact hk.congr rfl rfl rfl rfl rfl rfl
  | refused _ h | mair _ _ h | tcrDual _ _ h | bases _ _ _ h | tlbClean _ _ h | enable _ _ _ _ _ h | migrate _ _ _ _ h
  | tcrKernel _ _ _ _ h | finish _ _ h | vecRelocate _ _ h | setPc _ _ h =>
    subst h
    exact (StoresKept.refl s).congr rfl rfl rfl rfl rfl rfl

/-- Settles O39: whichever case the operation ends in, the registry stays or grows by one record. -/
theorem registryOnlyGrows : Obligations.RegistryOnlyGrows := fun _ _ _ h =>
  (exec_opCase h).storesKept.registry.imp_right fun ⟨r, hr, _⟩ => ⟨r, hr⟩

/-! ## Every step -/

theorem StoresKept.invariants {s t : State} (h : StoresKept s t)
    (hs : MemoryCanonical s ∧ RegistryDisjoint s ∧ RootsAligned s) :
    MemoryCanonical t ∧ RegistryDisjoint t ∧ RootsAligned t := by
  obtain ⟨hwf, hdisjoint, hroots⟩ := hs
  refine ⟨h.wf hwf, ?_, h.roots hroots⟩
  rcases h.registry with hr | ⟨r, hr, hfree, hroom⟩
  · unfold RegistryDisjoint
    rw [hr, h.cfg]
    exact hdisjoint
  · exact hdisjoint.append h.cfg hr hfree hroom

/-- A reset leaves memory in canonical form, an empty registry and no recorded root (R46, R200). -/
theorem blockReset_invariants (v : ResetValues) (s : State) :
    MemoryCanonical (s.blockReset v) ∧ RegistryDisjoint (s.blockReset v) ∧ RootsAligned (s.blockReset v) :=
  ⟨Memory.ofCells_wf v.memory, ⟨rfl, Nat.zero_le _⟩, fun h => absurd h Bool.false_ne_true⟩

/-- Settles O56: an operation keeps the three invariants case by case, a reset establishes them, and the environment's
other acts touch neither memory nor registry nor recorded roots. -/
theorem everyStepKeepsMemoryRegistryAndRoots : Obligations.EveryStepKeepsMemoryRegistryAndRoots := by
  intro s t hwf hdisjoint hroots hstep
  have hs : MemoryCanonical s ∧ RegistryDisjoint s ∧ RootsAligned s := ⟨hwf, hdisjoint, hroots⟩
  obtain ⟨-, ⟨i, rest, hx⟩ | ⟨rest, rfl⟩ | ⟨rest, o, rfl⟩ | ⟨rest, b, rfl⟩ | ⟨rest, va, picks, rfl⟩ | ⟨rest, v, -, rfl⟩⟩ :=
    step_cases hstep
  case inl => exact (exec_opCase hx).storesKept.invariants (s := s.advance rest) hs
  case inr.inr.inr.inr.inr => exact blockReset_invariants v _
  case inr.inr.inr.inr.inl =>
    rw [walkerFill_eq]
    exact hs
  all_goals exact hs

end Sys2Proof.Machine

/-! The transition invariant (R141 to R155, R209, R210): what the bring-up clauses ask in each of the nine states, how each
transition takes the clauses of its "from" state to those of its "to" state, and that every step keeps the invariant. -/

namespace Sys2Proof.Machine

/-! ## The bring-up clauses, state by state -/

/-- What the nine states share: no failure recorded, and VBAR where the installed or relocated table is (R24, R151,
R152). -/
def RunningHeld (s : State) : Prop :=
  (s.failCause = 0#8 ∧ s.failInfo = 0#8) ∧
    (s.vecPhysDone = true → s.vecVirtDone = false → s.sys.vbar = s.cfg.vecPhys) ∧
    (s.vecVirtDone = true → s.sys.vbar = vecAlias s.cfg)

/-- Before the enable: translation off, the vector table not relocated, `pc` low (R46, R145, R154). -/
def EnableAhead (s : State) : Prop := s.xlatOn = false ∧ s.vecVirtDone = false ∧ isLow s.pc = true

/-- MAIR holds its value (R141). -/
def MairHeld (s : State) : Prop := s.sys.mair = s.cfg.mairValue

/-- TCR is programmed and holds `v` (R142, R147). -/
def TcrHeld (v : Word) (s : State) : Prop := s.sys.tcr = v ∧ s.tcrProgrammed = true

/-- The roots are valid and in their base registers (R143). -/
def BasesHeld (s : State) : Prop :=
  s.rootsValid = true ∧ s.sys.ttbr0 = rootWord s.identityRoot ∧ s.sys.ttbr1 = rootWord s.kernelRoot

/-- Translation is on, with the vector table installed (R145). -/
def Enabled (s : State) : Prop := s.xlatOn = true ∧ s.vecPhysDone = true

/-- What the bring-up clauses ask of a machine in the given state. -/
def BringUpAt (s : State) : TransState → Prop
  | .init => RunningHeld s ∧ EnableAhead s
  | .mairProgrammed => RunningHeld s ∧ EnableAhead s ∧ MairHeld s
  | .tcrBootstrapDual => RunningHeld s ∧ EnableAhead s ∧ MairHeld s ∧ TcrHeld s.cfg.tcrDualValue s
  | .basesLoaded | .tlbClean =>
    RunningHeld s ∧ EnableAhead s ∧ MairHeld s ∧ TcrHeld s.cfg.tcrDualValue s ∧ BasesHeld s
  | .translationOn =>
    RunningHeld s ∧ Enabled s ∧ MairHeld s ∧ TcrHeld s.cfg.tcrDualValue s ∧ BasesHeld s ∧
      s.vecVirtDone = false ∧ pcInTrampoline s = true
  | .pcMigrated =>
    RunningHeld s ∧ Enabled s ∧ MairHeld s ∧ TcrHeld s.cfg.tcrDualValue s ∧ BasesHeld s ∧ isHigh s.pc = true
  | .tcrKernelOnly | .steady =>
    RunningHeld s ∧ Enabled s ∧ MairHeld s ∧ TcrHeld s.cfg.tcrKonlyValue s ∧ BasesHeld s ∧
      s.vecVirtDone = true ∧ isHigh s.pc = true
  | .halted => s.failCause = 0x01#8 ∨ s.failCause = 0x02#8 ∨ s.failCause = 0x04#8

/-- One of the nine states lies in a stretch by its rank (R150). -/
theorem State.between_at {s : State} {p : TransState} {lo hi : Nat} (h : s.state = p)
    (hr : p ≠ .halted ∧ lo ≤ p.rank ∧ p.rank ≤ hi := by decide) : s.between lo hi := by
  subst h
  exact hr

/-- A stretch that leaves the state out asks nothing. -/
theorem State.not_between_at {s : State} {p : TransState} {lo hi : Nat} {P : Prop} (h : s.state = p)
    (hr : ¬ (p ≠ .halted ∧ lo ≤ p.rank ∧ p.rank ≤ hi) := by decide) (hb : s.between lo hi) : P := by
  subst h
  exact absurd hb hr

theorem BringUp.running {s : State} (b : BringUp s) (h : s.between 0 8) : RunningHeld s :=
  ⟨b.noFailure h.1, b.vbarPhys h, b.vbarVirt h⟩

theorem BringUp.ahead {s : State} (b : BringUp s) (h : s.between 0 4) : EnableAhead s :=
  ⟨b.xlatOff h, b.vecNotYet (State.between_mono h (by decide) (by decide)), b.pcLow h⟩

theorem BringUp.enabled {s : State} (b : BringUp s) (h : s.between 5 8) : Enabled s := ⟨b.xlatOn h, b.vecInstalled h⟩

theorem BringUp.dual {s : State} (b : BringUp s) (h : s.between 2 6) : TcrHeld s.cfg.tcrDualValue s :=
  ⟨b.tcrDual h, b.tcrFlag (State.between_mono h (by decide) (by decide))⟩

theorem BringUp.konly {s : State} (b : BringUp s) (h : s.between 7 8) : TcrHeld s.cfg.tcrKonlyValue s :=
  ⟨b.tcrKonly h, b.tcrFlag (State.between_mono h (by decide) (by decide))⟩

/-- In a given state the clauses whose stretch takes it in hold. -/
theorem BringUp.holdsAt {s : State} {p : TransState} (b : BringUp s) (h : s.state = p) : BringUpAt s p := by
  cases p
  case init => refine ⟨b.running ?_, b.ahead ?_⟩ <;> exact State.between_at h
  case mairProgrammed => refine ⟨b.running ?_, b.ahead ?_, b.mair ?_⟩ <;> exact State.between_at h
  case tcrBootstrapDual => refine ⟨b.running ?_, b.ahead ?_, b.mair ?_, b.dual ?_⟩ <;> exact State.between_at h
  case basesLoaded | tlbClean =>
    refine ⟨b.running ?_, b.ahead ?_, b.mair ?_, b.dual ?_, b.bases ?_⟩ <;> exact State.between_at h
  case translationOn =>
    refine ⟨b.running ?_, b.enabled ?_, b.mair ?_, b.dual ?_, b.bases ?_, b.vecNotYet ?_, b.pcTramp ?_⟩ <;>
      exact State.between_at h
  case pcMigrated =>
    refine ⟨b.running ?_, b.enabled ?_, b.mair ?_, b.dual ?_, b.bases ?_, b.pcHigh ?_⟩ <;>
      exact State.between_at h
  case tcrKernelOnly | steady =>
    refine ⟨b.running ?_, b.enabled ?_, b.mair ?_, b.konly ?_, b.bases ?_, b.vecRelocated ?_, b.pcHigh ?_⟩ <;>
      exact State.between_at h
  case halted => exact b.failure h

/-- And they are all that is asked. -/
theorem BringUp.of_holdsAt {s : State} {p : TransState} (h : s.state = p) (hat : BringUpAt s p) : BringUp s := by
  cases p <;>
    simp only [BringUpAt, RunningHeld, EnableAhead, MairHeld, TcrHeld, BasesHeld, Enabled] at hat <;>
    constructor <;> simp [State.between, h, TransState.rank, TransState.code, hat] <;> tauto

/-! ## The transitions -/

/-- Up to TLB_CLEAN the invariant asks the bring-up clauses, and an empty TLB with every write visible at the end. -/
theorem TransitionSafe.of_beforeEnable {t : State} (hp : t.cfg.wellFormed = true) (b : BringUp t) (hb : t.between 0 4)
    (hclean : t.state = .tlbClean → t.tlb = [] ∧ t.unseen = []) : TransitionSafe t where
  params := hp
  bringUp := b
  dual h := State.not_between_at h (by decide) hb
  kernelPc h := absurd (h.2.1.trans hb.2.2) (by decide)
  tlbEmpty h := (hclean h).1
  tlb h := by
    have h4 : t.state = .tlbClean := by
      obtain ⟨-, -, hle⟩ := hb
      obtain ⟨-, hge, -⟩ := h
      cases hs : t.state <;> simp [hs, TransState.rank, TransState.code] at hle hge ⊢
    obtain ⟨htlb, hun⟩ := hclean h4
    exact ⟨hun, by simp [TlbCurrent, htlb]⟩

theorem State.between_of_beforeEnable {s : State} (h : s.state.beforeEnable = true) : s.between 0 4 := by
  cases hs : s.state <;> simp [hs, TransState.beforeEnable] at h <;> exact State.between_at hs

section
variable {s t : State}

/-- A transition that has returned stands in the state it entered (R140). -/
theorem State.entered_state (p : TransState) (st : Status) (s : State) : ((s.enter p).completed st).state = p := rfl

theorem TransitionSafe.enterMair (h : TransitionSafe s) (h0 : s.state = .init)
    (ht : t = ({ s with sys := { s.sys with mair := s.cfg.mairValue } }.enter .mairProgrammed).completed .ok) :
    TransitionSafe t := by
  subst ht
  obtain ⟨hrun, hahead⟩ := h.bringUp.holdsAt h0
  exact .of_beforeEnable h.params (.of_holdsAt rfl ⟨hrun, hahead, rfl⟩)
    (State.between_at (State.entered_state _ _ _)) nofun

theorem TransitionSafe.enterTcrDual (h : TransitionSafe s) (h0 : s.state = .mairProgrammed)
    (ht : t = ({ s with sys := { s.sys with tcr := s.cfg.tcrDualValue }, tcrProgrammed := true }.enter
        .tcrBootstrapDual).completed .ok) : TransitionSafe t := by
  subst ht
  obtain ⟨hrun, hahead, hmair⟩ := h.bringUp.holdsAt h0
  exact .of_beforeEnable h.params (.of_holdsAt rfl ⟨hrun, hahead, hmair, rfl, rfl⟩)
    (State.between_at (State.entered_state _ _ _)) nofun

theorem TransitionSafe.enterBases (h : TransitionSafe s) (h0 : s.state = .tcrBootstrapDual) (hr : s.rootsValid = true)
    (ht : t = ({ s with sys := { s.sys with
        ttbr0 := rootWord s.identityRoot, ttbr1 := rootWord s.kernelRoot } }.enter .basesLoaded).completed .ok) :
    TransitionSafe t := by
  subst ht
  obtain ⟨hrun, hahead, hmair, htcr⟩ := h.bringUp.holdsAt h0
  exact .of_beforeEnable h.params (.of_holdsAt rfl ⟨hrun, hahead, hmair, htcr, hr, rfl, rfl⟩)
    (State.between_at (State.entered_state _ _ _)) nofun

theorem TransitionSafe.enterTlbClean (h : TransitionSafe s) (h0 : s.state = .basesLoaded)
    (ht : t = ({ s with tlb := [], unseen := [] }.enter .tlbClean).completed .ok) : TransitionSafe t := by
  subst ht
  exact .of_beforeEnable h.params (.of_holdsAt rfl (h.bringUp.holdsAt h0))
    (State.between_at (State.entered_state _ _ _)) fun _ => ⟨rfl, rfl⟩

theorem TransitionSafe.enterTranslationOn (h : TransitionSafe s) (h0 : s.state = .tlbClean)
    (hv : s.vecPhysDone = true) (hp : pcInTrampoline s = true) (hd : dualMapped s = true)
    (ht : t = ({ s with sys := { s.sys with sctlr := s.sys.sctlr ||| s.cfg.mMask } }.enter
        .translationOn).completed .ok) : TransitionSafe t := by
  subst ht
  obtain ⟨hrun, ⟨-, hvirt, -⟩, hmair, htcr, hbases⟩ := h.bringUp.holdsAt h0
  exact {
    params := h.params
    bringUp := .of_holdsAt rfl ⟨hrun, ⟨or_mMask_ne h.params, hv⟩, hmair, htcr, hbases, hvirt, hp⟩
    dual := fun _ => hd
    kernelPc := State.not_between_at (State.entered_state _ _ _)
    tlbEmpty := nofun
    tlb := fun _ => h.tlb (State.between_at h0) }

/-- Where the dual TCR value and the kernel base are in place, what the MMU finds executable at a high address the kernel
tables map executable (R62, R146, R147). -/
theorem walk_executable_of_hwTranslate {v : Word} (hp : s.cfg.wellFormed = true) (hx : s.xlatOn = true)
    (htcr : s.sys.tcr = s.cfg.tcrDualValue) (hbase : s.sys.ttbr1 = rootWord s.kernelRoot) (hh : isHigh v = true)
    (hf : executable (hwTranslate s v) = true) :
    ∃ w, walk s.mem (rootFrame s.kernelRoot) v = some w ∧ w.flags.getLsbD 53 = false := by
  have hepd : epd1 s.cfg s.sys.tcr = false := by rw [htcr]; exact (wf_epd hp).2
  rw [hwTranslate_high hx hepd hh hbase] at hf
  cases hw : walk s.mem (rootFrame s.kernelRoot) v with
  | none => simp [hw, executable] at hf
  | some w => exact ⟨w, rfl, by simpa [hw, executable, Translation.toHw, execPriv] using hf⟩

/-- The check of R147, as the walk under the kernel root. -/
theorem pcInKernelSpace_iff : pcInKernelSpace s = true ↔ isHigh s.pc = true ∧
    ∃ w, walk s.mem (rootFrame s.kernelRoot) s.pc = some w ∧ w.flags.getLsbD 53 = false := by
  simp only [pcInKernelSpace, Bool.and_eq_true, State.rootOf]
  cases walk s.mem (rootFrame s.kernelRoot) s.pc <;> simp [execPriv]

theorem TransitionSafe.enterPcMigrated (h : TransitionSafe s) (h0 : s.state = .translationOn)
    (hh : isHigh s.ops.a0 = true) (hf : executable (hwTranslate s s.ops.a0) = true)
    (ht : t = ({ s with pc := s.ops.a0 }.enter .pcMigrated).completed .ok) : TransitionSafe t := by
  subst ht
  obtain ⟨hrun, hen, hmair, htcr, hbases, -, -⟩ := h.bringUp.holdsAt h0
  have hwalk := walk_executable_of_hwTranslate h.params hen.1 htcr.1 hbases.2.2 hh hf
  exact {
    params := h.params
    bringUp := .of_holdsAt rfl ⟨hrun, hen, hmair, htcr, hbases, hh⟩
    dual := nofun
    kernelPc := fun _ => pcInKernelSpace_iff.2 ⟨hh, hwalk⟩
    tlbEmpty := nofun
    tlb := fun _ => h.tlb (State.between_at h0) }

theorem TransitionSafe.enterTcrKernelOnly (h : TransitionSafe s) (h0 : s.state = .pcMigrated)
    (hp : pcInKernelSpace s = true) (hv : s.vecVirtDone = true)
    (ht : t = ({ s with sys := { s.sys with tcr := s.cfg.tcrKonlyValue } }.enter .tcrKernelOnly).completed .ok) :
    TransitionSafe t := by
  subst ht
  obtain ⟨hrun, hen, hmair, ⟨-, hflag⟩, hbases, hhigh⟩ := h.bringUp.holdsAt h0
  exact {
    params := h.params
    bringUp := .of_holdsAt rfl ⟨hrun, hen, hmair, ⟨rfl, hflag⟩, hbases, hv, hhigh⟩
    dual := nofun
    kernelPc := fun _ => hp
    tlbEmpty := nofun
    tlb := fun _ => h.tlb (State.between_at h0) }

theorem TransitionSafe.enterSteady (h : TransitionSafe s) (h0 : s.state = .tcrKernelOnly)
    (ht : t = (s.enter .steady).completed .ok) : TransitionSafe t := by
  subst ht
  exact {
    params := h.params
    bringUp := .of_holdsAt rfl (h.bringUp.holdsAt h0)
    dual := nofun
    kernelPc := State.not_between_at (State.entered_state _ _ _)
    tlbEmpty := nofun
    tlb := State.not_between_at (State.entered_state _ _ _) }

/-! ## The operations that stay where they are in the sequence -/

/-- NEW_PAIR runs before the bases are loaded, where no clause speaks of the roots (R115, R121). -/
theorem TransitionSafe.setRoots {u : State} (h : TransitionSafe u) (hp : u.state.permitsNewPair = true) (p0 p1 : Frame) :
    TransitionSafe (u.setRoots p0 p1) := by
  have early {lo hi : Nat} (hlo : 3 ≤ lo) {P : Prop} (hb : u.between lo hi) : P := by
    obtain ⟨-, hge, -⟩ := hb
    cases hs : u.state <;> simp [hs, TransState.permitsNewPair] at hp <;>
      simp [hs, TransState.rank, TransState.code] at hge <;> omega
  have b := h.bringUp
  exact {
    params := h.params
    bringUp := { b with bases := early (by decide) }
    dual := fun hs => early (Nat.le_refl 3) (State.between_at (hi := 8) hs)
    kernelPc := early (by decide)
    tlbEmpty := h.tlbEmpty
    tlb := h.tlb }

/-- Results, the console, memory where mutations are permitted, and an emptied TLB: no clause is touched (R121). -/
theorem TransitionSafe.of_quiet (h : TransitionSafe s) (hq : Quiet s t)
    (hm : s.state.permitsMutation = false → t.mem = s.mem) (htl : t.tlb = s.tlb ∨ t.tlb = [])
    (hu : s.state.permitsMutation = false → s.state ≠ .halted → s.unseen = [] → t.unseen = []) : TransitionSafe t := by
  apply h.congr (hm := hm) (htl := htl) (hu := hu) <;> rw [hq]

/-- A `return`, whatever results it writes first. -/
theorem TransitionSafe.completed (h : TransitionSafe s) (st : Status) : TransitionSafe (s.completed st) :=
  h.of_quiet rfl (fun _ => rfl) (.inl rfl) fun _ _ hu => hu

theorem DataStep.transitionSafe (hd : DataStep s t) (h : TransitionSafe s) : TransitionSafe t := by
  rcases hd.ends with hq | ⟨u, c, f, hq, rfl, hc⟩
  · have hst : t.state = s.state := by rw [hq]
    exact h.of_quiet hq hd.window hd.tlb fun hp hh hu => hd.visible (.inl hp) hu (by rw [hst]; exact hh)
  · exact .halted (by rw [hq.hostKept.cfg]; exact h.params) hc

theorem SysHalt.transitionSafe (hs : SysHalt s t) (h : TransitionSafe s) : TransitionSafe t := by
  obtain ⟨r, f, rfl⟩ := hs
  exact .halted h.params (.inr (.inr rfl))

/-- A copied and installed vector table: VBAR and `vec_phys_done` move together, before the enable (R151). -/
theorem TransitionSafe.vecInstall (h : TransitionSafe s) (hb : s.state.beforeEnable = true) {m : Memory}
    {n : List UnseenWrite} (hn : n = [])
    (ht : t = (({ s with mem := m, unseen := n, sys := { s.sys with vbar := s.cfg.vecPhys }, vecPhysDone := true } :
      State).log (vbarMarker s.cfg.vecPhys)).completed .ok) : TransitionSafe t := by
  have hbefore := State.between_of_beforeEnable hb
  obtain ⟨-, hvirt, -⟩ := h.bringUp.ahead hbefore
  have b := h.bringUp
  subst ht
  refine .of_beforeEnable h.params ?_ hbefore fun hs => ⟨h.tlbEmpty hs, hn⟩
  exact { b with
    vecInstalled := fun _ => rfl
    vbarPhys := fun _ _ _ => rfl
    vbarVirt := fun _ hv => absurd (hvirt.symm.trans hv) Bool.false_ne_true }

/-- SET_PC keeps `pc` low before the enable (R154). -/
theorem TransitionSafe.setPc (h : TransitionSafe s) (hb : s.state.beforeEnable = true) (hl : isLow s.ops.a0 = true)
    (ht : t = ({ s with pc := s.ops.a0 } : State).completed .ok) : TransitionSafe t := by
  have hbefore := State.between_of_beforeEnable hb
  have b := h.bringUp
  subst ht
  refine .of_beforeEnable h.params ?_ hbefore fun hs => ⟨h.tlbEmpty hs, (h.tlb (State.between_at hs)).1⟩
  exact { b with
    pcLow := fun _ => hl
    pcTramp := fun hc => absurd (hc.2.1.trans hbefore.2.2) (by decide)
    pcHigh := fun hc => absurd (hc.2.1.trans hbefore.2.2) (by decide) }

/-- The relocated table: VBAR and `vec_virt_done` move together, in PC_MIGRATED (R152). -/
theorem TransitionSafe.vecRelocate (h : TransitionSafe s) (h0 : s.state = .pcMigrated)
    (ht : t = (({ s with sys := { s.sys with vbar := vecAlias s.cfg }, vecVirtDone := true } : State).log
        (vbarMarker (vecAlias s.cfg))).completed .ok) : TransitionSafe t := by
  have b := h.bringUp
  subst ht
  exact { h with
    bringUp := { b with
      vecRelocated := fun _ => rfl
      vecNotYet := State.not_between_at h0
      vbarPhys := nofun
      vbarVirt := fun _ _ => rfl }
    dual := fun hs => h.dual hs }

/-- A reset is INIT with translation off, `pc` low and no failure recorded (R46, R200). -/
theorem TransitionSafe.blockReset (hp : s.cfg.wellFormed = true) (v : ResetValues) :
    TransitionSafe (s.blockReset v) := by
  have hoff : (s.blockReset v).xlatOn = false := by
    simp [State.xlatOn, State.blockReset, BitVec.and_assoc]
  have hlow : isLow (s.blockReset v).pc = true := (isLow_iff _).2 (by
    rw [State.blockReset, rootWord_toNat]
    exact v.pcLow.isLt)
  have hinit : (s.blockReset v).state = .init := rfl
  exact .of_beforeEnable hp (.of_holdsAt hinit ⟨⟨⟨rfl, rfl⟩, nofun, nofun⟩, hoff, rfl, hlow⟩)
    (State.between_at hinit) nofun

/-! ## Every operation, and every step -/

theorem OpCase.transitionSafe {i : Instr} (hc : OpCase i s t) (h : TransitionSafe s) : TransitionSafe t := by
  have halting {u : State} {f : FailInfo} {c : Status} (hu : u.cfg = s.cfg) (hc : c.Halting) :
      TransitionSafe (u.halted c f) := .halted (by rw [hu]; exact h.params) hc
  cases hc with
  | data _ hd => exact hd.transitionSafe h
  | refused st he => exact he ▸ h.completed st
  | sysHalt hs => exact hs.transitionSafe h
  | newPair hp u hu _ he =>
    rcases he with rfl | ⟨p0, p1, rfl⟩
    · exact halting hu.quiet.hostKept.cfg (.inl rfl)
    · have hst : u.state = s.state := by rw [hu]
      have hmut : s.state.permitsMutation = true := by
        cases hs : s.state <;> simp [hs, TransState.permitsNewPair] at hp <;> rfl
      have hsafe : TransitionSafe u := h.of_quiet hu.quiet (fun hn => by simp [hmut] at hn) (.inl (by rw [hu]))
        fun hn => by simp [hmut] at hn
      exact (hsafe.setRoots (hst ▸ hp) p0 p1).of_quiet rfl (fun _ => rfl) (.inl rfl) fun _ _ h => h
  | vecInstall hb _ u hu _ he =>
    obtain ⟨m, n, rfl⟩ : ∃ m n, u = { s with mem := m, unseen := n } := ⟨_, _, hu⟩
    rcases he with ⟨f, rfl⟩ | ⟨f, rfl⟩ | ⟨hn, he⟩
    · exact halting rfl (.inr (.inr rfl))
    · exact halting rfl (.inr (.inr rfl))
    · exact h.vecInstall hb hn he
  | mair _ h0 he => exact h.enterMair h0 he
  | tcrDual _ h0 he => exact h.enterTcrDual h0 he
  | bases _ h0 hr he => exact h.enterBases h0 hr he
  | tlbClean _ h0 he => exact h.enterTlbClean h0 he
  | enable _ h0 hv hp hd he => exact h.enterTranslationOn h0 hv hp hd he
  | migrate _ h0 hh hf he => exact h.enterPcMigrated h0 hh hf he
  | tcrKernel _ h0 hp hv he => exact h.enterTcrKernelOnly h0 hp hv he
  | finish _ h0 he => exact h.enterSteady h0 he
  | vecRelocate h0 _ he => exact h.vecRelocate h0 he
  | setPc h0 hl he => exact h.setPc h0 hl he

/-- What the host and the environment move between operations is in no clause (R11, R20, R26). -/
theorem TransitionSafe.of_environment (h : TransitionSafe s) (rest : List Event) (o : Operands) (b : Bool) :
    TransitionSafe { s.advance rest with ops := o, irqMasked := b } :=
  h.congr rfl rfl rfl rfl rfl rfl rfl rfl rfl rfl rfl rfl (fun _ => rfl) (.inl rfl) fun _ _ hu => hu

end

/-- Settles O58: an operation keeps the invariant case by case, a fill adds what the tables give, a reset establishes
it, and the environment's other acts touch no field it speaks of. -/
theorem everyStepKeepsTheTransitionSafe : Obligations.EveryStepKeepsTheTransitionSafe := by
  intro s t h hstep
  have hadv (rest : List Event) : TransitionSafe (s.advance rest) := h.of_environment rest s.ops s.irqMasked
  obtain ⟨-, ⟨i, rest, hx⟩ | ⟨rest, rfl⟩ | ⟨rest, o, rfl⟩ | ⟨rest, b, rfl⟩ | ⟨rest, va, picks, rfl⟩ | ⟨rest, v, -, rfl⟩⟩ :=
    step_cases hstep
  · exact (exec_opCase hx).transitionSafe (hadv rest)
  · exact (hadv rest).completed _
  · exact h.of_environment rest o s.irqMasked
  · exact h.of_environment rest s.ops b
  · exact (hadv rest).walkerFill va picks
  · exact .blockReset (s := s.advance rest) h.params v

end Sys2Proof.Machine

/-! Sub-block FSM (R140 to R154, R174): each transition as its rule's refusal, its gates, its verified write and its marker;
the vector base, the query and the host's `pc`; and the invalidation. -/

namespace Sys2Proof.Machine

/-! ## Verified writes (R140) -/

section
variable {reg : SysReg} {v : Word} {s : State}

/-- A register that holds what is written lets the operation go on. -/
theorem writeVerify_of_held (info : FailInfo) (h : legalize s.cfg.legalizeRows reg v = v) :
    writeVerify reg v info s = .proceed { s with sys := s.sys.set reg v } := by
  rw [writeVerify_eq, if_pos h]

/-- One that does not ends it in the halt, with what the register took. -/
theorem writeVerify_of_not_held (info : FailInfo) (h : legalize s.cfg.legalizeRows reg v ≠ v) :
    writeVerify reg v info s = .ended (.next (({ s with sys := s.sys.set reg (legalize s.cfg.legalizeRows reg v) } :
      State).halted .registerVerificationFailed info)) := by
  rw [writeVerify_eq, if_neg h]
  rfl

end

/-! ## FSM_MAIR, FSM_TCR_DUAL and FSM_BASES (R141 to R143) -/

theorem exec_fsmMair_of_init {s : State} (h : s.state = .init) : exec .fsmMair s =
    (writeVerify .mair s.cfg.mairValue .mairReadback s).andThen fun s1 => (s1.enter .mairProgrammed).finish .ok :=
  if_neg (not_not_intro h)

theorem exec_fsmTcrDual_of_mairProgrammed {s : State} (h : s.state = .mairProgrammed) : exec .fsmTcrDual s =
    (writeVerify .tcr s.cfg.tcrDualValue .tcrDualReadback s).andThen fun s1 =>
      ({ s1 with tcrProgrammed := true }.enter .tcrBootstrapDual).finish .ok :=
  if_neg (not_not_intro h)

/-- Settles O41: past the state check each is one verified write, and TCR_DUAL_VALUE leaves both halves on. -/
theorem fsmMairAndTcrDualFollowTheirRules : Obligations.FsmMairAndTcrDualFollowTheirRules := by
  intro s
  refine ⟨fun hs => if_pos hs, fun hs => ⟨fun hv => ?mair, fun hv => ?mairHalt⟩, fun hs => if_pos hs,
    fun hs => ⟨fun hv => ⟨_, ?tcr, rfl, fun hp => ?live⟩, fun hv => ?tcrHalt⟩⟩
  case mair =>
    rw [exec_fsmMair_of_init hs, writeVerify_of_held _ hv]
    rfl
  case mairHalt =>
    rw [exec_fsmMair_of_init hs, writeVerify_of_not_held _ hv]
    rfl
  case tcr =>
    rw [exec_fsmTcrDual_of_mairProgrammed hs, writeVerify_of_held _ hv]
    rfl
  case tcrHalt =>
    rw [exec_fsmTcrDual_of_mairProgrammed hs, writeVerify_of_not_held _ hv]
    rfl
  case live =>
    obtain ⟨h0, h1⟩ := wf_epd hp
    simp [State.liveIdentity, State.liveKernel, h0, h1]

theorem exec_fsmBases_of_valid {s : State} (h : s.state = .tcrBootstrapDual) (hr : s.rootsValid = true) :
    exec .fsmBases s = ((writeVerify .ttbr0 (rootWord s.identityRoot) .ttbr0Readback s).bind
      (writeVerify .ttbr1 (rootWord s.kernelRoot) .ttbr1Readback)).andThen fun s1 =>
        (s1.enter .basesLoaded).finish .ok :=
  if_neg (by simp [h, hr])

/-- Settles O43: two verified writes one after the other, so that the second is not made when the first fails. -/
theorem fsmBasesFollowsItsRule : Obligations.FsmBasesFollowsItsRule := by
  refine ⟨rfl, fun s => ⟨fun h => if_pos h, fun hs hr v0 v1 e0 e1 => ?_⟩⟩
  rw [← rootWord_eq_setWidth] at e0 e1
  rw [exec_fsmBases_of_valid hs hr, ← e0, ← e1]
  refine ⟨fun h0 h1 => ?both, fun h0 => ?first, fun h0 h1 => ?second⟩
  case both =>
    rw [writeVerify_of_held _ h0, Attempt.bind_proceed,
      writeVerify_of_held (s := { s with sys := s.sys.set .ttbr0 v0 }) _ h1]
    rfl
  case first =>
    rw [writeVerify_of_not_held _ h0]
    rfl
  case second =>
    rw [writeVerify_of_held _ h0, Attempt.bind_proceed,
      writeVerify_of_not_held (s := { s with sys := s.sys.set .ttbr0 v0 }) _ h1]
    rfl

/-! ## FSM_TLB_CLEAN and TLBI_LOCAL_ALL (R144, R174) -/

/-- With an empty TLB nothing stands in for the walk (R62). -/
theorem coreTranslate_of_tlb_empty {s : State} (h : s.tlb = []) (pick : Nat) (va : Word) :
    coreTranslate pick s va = hwTranslate s va := by
  cases pick <;> simp [coreTranslate, tlbHits, h]

/-- With translation on and the identity base disabled no low address translates by a walk (R25, R62). -/
theorem hwTranslate_low_disabled {s : State} (hx : s.xlatOn = true) (he : epd0 s.cfg s.sys.tcr = true) {va : Word}
    (hl : Low va) : hwTranslate s va = none := by
  simp [hwTranslate, hwTranslateWith, hx, (isLow_iff va).2 hl, he]

theorem permitsTlbi_eq_false_iff (t : TransState) :
    t.permitsTlbi = false ↔ t = .halted ∨ t = .init ∨ t = .mairProgrammed ∨ t = .tcrBootstrapDual := by
  cases t <;> simp [TransState.permitsTlbi]

/-- Settles O44: both run the one sequence, which leaves no entry that could stand in for a walk. -/
theorem tlbCleanAndTlbiRunTheSequence : Obligations.TlbCleanAndTlbiRunTheSequence := by
  intro s
  refine ⟨fun hs => if_pos hs, fun hs => if_neg (not_not_intro hs), fun hs => if_pos ?refused,
    fun hs => ⟨_, if_neg ?permitted, rfl, coreTranslate_of_tlb_empty rfl, fun hx he pick va hl => ?low⟩⟩
  case refused => simp [(permitsTlbi_eq_false_iff _).2 hs]
  case permitted => simpa [← permitsTlbi_eq_false_iff] using hs
  case low =>
    rw [coreTranslate_of_tlb_empty rfl]
    exact hwTranslate_low_disabled hx (by simpa [epd0] using he) hl

/-! ## FSM_ENABLE (R145) -/

/-- The gate of R145 as a chain, each failing check with its own `fail_info`. -/
theorem exec_fsmEnable_of_tlbClean {s : State} (h : s.state = .tlbClean) : exec .fsmEnable s =
    if s.irqMasked = false then s.gateFailed .interruptsNotMasked
    else if s.vecPhysDone = false then s.gateFailed .vectorNotInstalled
    else if audit s.registry ≠ [] then s.gateFailed .auditConflicts
    else if ¬ (s.cfg.trampStart.toNat ≤ s.pc.toNat ∧ s.pc.toNat < s.cfg.trampEnd.toNat) then
      s.gateFailed .pcNotInTrampoline
    else if dualMapped s = false then s.gateFailed .trampolineNotDualMapped
    else (writeVerify .sctlr (s.sys.sctlr ||| s.cfg.mMask) .sctlrReadback s).andThen fun s1 =>
      (s1.enter .translationOn).finish .ok := by
  have hpc : (!pcInTrampoline s) = true ↔ ¬ (s.cfg.trampStart.toNat ≤ s.pc.toNat ∧ s.pc.toNat < s.cfg.trampEnd.toNat) :=
    bnot_iff (by simp [pcInTrampoline])
  simp only [← hpc, ← Bool.not_eq_true']
  exact if_neg (not_not_intro h)

/-- Settles O45: each clause follows the chain to its first failing check, or past it to the verified write. -/
theorem fsmEnableGatesThenTurnsTranslationOn : Obligations.FsmEnableGatesThenTurnsTranslationOn := by
  intro s
  refine ⟨fun hs => if_pos hs, fun hs => ?_⟩
  rw [exec_fsmEnable_of_tlbClean hs]
  have masked {b : Bool} (h : b = true) : ¬ b = false := by simp [h]
  refine ⟨fun hi => if_pos hi, fun hi hv => ?vector, fun hi hv ha => ?audit, fun hi hv ha hp => ?pc,
    fun hi hv ha hl hu hd => ?dual, fun hi hv ha hl hu hd => ⟨fun hw => ?held, fun hw => ?lost⟩⟩
  case vector => rw [if_neg (masked hi), if_pos hv]; rfl
  case audit => rw [if_neg (masked hi), if_neg (masked hv), if_pos ha]; rfl
  case pc => rw [if_neg (masked hi), if_neg (masked hv), if_neg (not_not_intro ha), if_pos hp]; rfl
  case dual =>
    rw [if_neg (masked hi), if_neg (masked hv), if_neg (not_not_intro ha), if_neg (not_not_intro ⟨hl, hu⟩), if_pos hd]
    rfl
  all_goals
    rw [if_neg (masked hi), if_neg (masked hv), if_neg (not_not_intro ha), if_neg (not_not_intro ⟨hl, hu⟩),
      if_neg (masked hd)]
  case held => rw [writeVerify_of_held _ hw]; rfl
  case lost => rw [writeVerify_of_not_held _ hw]; rfl

/-! ## FSM_MIGRATE (R146) -/

/-- The check of R146 fails exactly in the rule's three ways: not high, not translated, execute-never. -/
theorem highExecutable_eq_false_iff (s : State) (va : Word) : highExecutable s va = false ↔
    ¬ High va ∨ hwTranslate s va = none ∨
      ∃ w f, hwTranslate s va = some w ∧ w.flags = some f ∧ f.getLsbD 53 = true := by
  rw [highExecutable, Bool.and_eq_false_iff, ← Bool.not_eq_true, isHigh_iff]
  refine or_congr Iff.rfl ?_
  rcases hwTranslate s va with _ | ⟨pa, _ | f⟩ <;> simp [executable, execPriv]

theorem exec_fsmMigrate_of_translationOn {s : State} (h : s.state = .translationOn) : exec .fsmMigrate s =
    if highExecutable s s.ops.a0 = false then s.gateFailed .pcNotMigrated
    else ({ s with pc := s.ops.a0 }.enter .pcMigrated).finish .ok := by
  simp only [← Bool.not_eq_true']
  exact if_neg (not_not_intro h)

/-- Settles O48: the branch is taken exactly where the check does not fail in one of its three ways. -/
theorem fsmMigrateBranchesToAnExecutableHighAddress : Obligations.FsmMigrateBranchesToAnExecutableHighAddress := by
  refine ⟨rfl, fun s => ⟨fun hs => if_pos hs, fun hs => ?_⟩⟩
  rw [exec_fsmMigrate_of_translationOn hs]
  refine ⟨fun hbad => if_pos ((highExecutable_eq_false_iff _ _).2 hbad), fun w hh hw hx => if_neg ?_⟩
  rw [highExecutable_eq_false_iff]
  rintro (hlow | hnone | ⟨w', f, hw', hf, hxn⟩)
  · exact hlow hh
  · simp [hnone] at hw
  · obtain rfl : w = w' := by simpa [hw] using hw'
    exact Bool.false_ne_true ((hx f hf).symm.trans hxn)

/-! ## FSM_TCR_KERNEL and FSM_FINISH (R147, R148) -/

/-- The check of R147 fails exactly in the rule's three ways. -/
theorem pcInKernelSpace_eq_false_iff (s : State) : pcInKernelSpace s = false ↔
    ¬ High s.pc ∨ walk s.mem (rootFrame s.kernelRoot) s.pc = none ∨
      ∃ w, walk s.mem (rootFrame s.kernelRoot) s.pc = some w ∧ w.flags.getLsbD 53 = true := by
  rw [pcInKernelSpace, Bool.and_eq_false_iff, ← Bool.not_eq_true, isHigh_iff, State.rootOf]
  refine or_congr Iff.rfl ?_
  cases walk s.mem (rootFrame s.kernelRoot) s.pc <;> simp [execPriv]

theorem exec_fsmTcrKernel_of_pcMigrated {s : State} (h : s.state = .pcMigrated) : exec .fsmTcrKernel s =
    if pcInKernelSpace s = false then s.gateFailed .prematureNarrowing
    else if s.vecVirtDone = false then s.gateFailed .vectorNotRelocated
    else (writeVerify .tcr s.cfg.tcrKonlyValue .tcrKernelReadback s).andThen fun s1 =>
      (s1.enter .tcrKernelOnly).finish .ok := by
  simp only [← Bool.not_eq_true']
  exact if_neg (not_not_intro h)

/-- With translation on, pick 0 of a lookup is the walk (R62). -/
theorem coreTranslate_zero (s : State) (va : Word) : coreTranslate 0 s va = hwTranslate s va := by
  simp [coreTranslate]

/-- With translation on, pick `k + 1` of a lookup is entry `k` the TLB holds for the page (R62, R210). -/
theorem coreTranslate_hit {s : State} (hx : s.xlatOn = true) {va : Word} {k : Nat} {e : TlbEntry}
    (he : (tlbHits s va)[k]? = some e) : coreTranslate (k + 1) s va = some (e.toHw va) := by
  simp [coreTranslate, hx, he]

/-- With TCR_KONLY_VALUE in TCR the identity space is not live and the kernel space is, no walk finds a low address, and an
entry of the TLB may still stand in for one (R25, R62, R210). -/
theorem narrowed_lookups {t : State} (hp : t.cfg.wellFormed = true) (htcr : t.sys.tcr = t.cfg.tcrKonlyValue) :
    t.liveIdentity = false ∧ t.liveKernel = t.tcrProgrammed ∧
      (t.xlatOn = true → ∀ va, Low va → hwTranslate t va = none ∧ coreTranslate 0 t va = none ∧
        ∀ k e, (tlbHits t va)[k]? = some e → coreTranslate (k + 1) t va = some (e.toHw va)) := by
  obtain ⟨h0, h1⟩ := wf_konly hp
  rw [← htcr] at h0 h1
  refine ⟨by simp [State.liveIdentity, h0], by simp [State.liveKernel, h1], fun hon va hlow => ?_⟩
  have hnone := hwTranslate_low_disabled hon h0 hlow
  exact ⟨hnone, (coreTranslate_zero _ _).trans hnone, fun k e he => coreTranslate_hit hon he⟩

/-- Settles O49: TCR_KONLY_VALUE disables the low half alone, and the TLB is left as it was. -/
theorem fsmTcrKernelNarrowsAfterMigration : Obligations.FsmTcrKernelNarrowsAfterMigration := by
  intro s
  refine ⟨fun hs => if_pos hs, fun hs => ?_⟩
  rw [exec_fsmTcrKernel_of_pcMigrated hs]
  refine ⟨fun hbad => if_pos ((pcInKernelSpace_eq_false_iff _).2 hbad), fun w hh hw hx => ?_⟩
  have hgo : pcInKernelSpace s = true := pcInKernelSpace_iff.2 ⟨(isHigh_iff _).2 hh, w, hw, hx⟩
  rw [if_neg (by simp [hgo])]
  refine ⟨fun hv => if_pos hv, fun hv hl => ⟨_, ?held, rfl, fun hp => ?narrowed⟩, fun hv hl => ?lost⟩
  case held =>
    rw [if_neg (by simp [hv]), writeVerify_of_held _ hl]
    rfl
  case lost =>
    rw [if_neg (by simp [hv]), writeVerify_of_not_held _ hl]
    rfl
  case narrowed => exact narrowed_lookups hp rfl

/-- Settles O50: the end of a good run is what the transition invariant says of TCR_KERNEL_ONLY, in STEADY. -/
theorem fsmFinishEntersSteady : Obligations.FsmFinishEntersSteady := by
  intro s
  refine ⟨fun hs => if_pos hs, fun hs => ⟨_, if_neg (not_not_intro hs), rfl, ?_, rfl, fun h => ?_⟩⟩
  · simp [State.irqMaskReq, hs]
  · obtain ⟨⟨-, -, hvbar⟩, ⟨hon, -⟩, hmair, ⟨htcr, -⟩, ⟨-, h0, h1⟩, hvirt, hhigh⟩ := h.bringUp.holdsAt hs
    exact ⟨rfl, rfl, hmair, htcr, h0, h1, hon, hvbar hvirt, hhigh⟩

/-! ## VEC_RELOCATE (R152) -/

/-- Settles O52: one verified write, once, in PC_MIGRATED. -/
theorem vecRelocatePointsAtTheAlias : Obligations.VecRelocatePointsAtTheAlias := by
  refine ⟨rfl, ?_⟩
  rintro s _ rfl
  refine ⟨fun h => if_pos h, fun hs hv => ?_⟩
  have hexec : exec .vecRelocate s = (writeVerify .vbar (vecAlias s.cfg) .vbarVirtReadback s).andThen fun s1 =>
      ({ s1 with vecVirtDone := true }.log (vbarMarker (vecAlias s.cfg))).finish .ok := if_neg (by simp [hs, hv])
  rw [hexec]
  refine ⟨fun hl => ?held, fun hl => ?lost⟩
  case held =>
    rw [writeVerify_of_held (v := vecAlias s.cfg) _ hl]
    rfl
  case lost =>
    rw [writeVerify_of_not_held (v := vecAlias s.cfg) _ hl]
    rfl

/-! ## IS_TRANSLATION_ENABLED and SET_PC (R153, R154) -/

theorem beforeEnable_iff (t : TransState) : t.beforeEnable = true ↔ BeforeEnable t := by
  cases t <;> simp [TransState.beforeEnable, BeforeEnable]

/-- Settles O53: the enable bit is one masked bit of SCTLR, and SET_PC asks the state before the address. -/
theorem enableQueryAndSetPcFollowTheirRules : Obligations.EnableQueryAndSetPcFollowTheirRules := by
  intro s
  refine ⟨fun hs => if_pos hs, fun hs => (if_neg hs).trans ?query,
    fun hb => if_pos ((bnot_iff (beforeEnable_iff _)).2 hb), fun hb => ?_⟩
  case query => simp [State.finish_eq, State.setR0, boolWord, State.xlatOn, Status.code]
  have hexec : exec .setPc s = if (!isLow s.ops.a0) = true then s.finish .badOperand
      else { s with pc := s.ops.a0 }.finish .ok := if_neg (by simp [(beforeEnable_iff _).2 hb])
  rw [hexec]
  have hlow := bnot_iff (isLow_iff s.ops.a0)
  exact ⟨fun hl => if_pos (hlow.2 hl), fun hl => if_neg (mt hlow.1 (not_not_intro hl))⟩

end Sys2Proof.Machine

/-! Vector Relocation, the gate on the trampoline, and the order of the nine states (R150, R151, R155). -/

namespace Sys2Proof.Machine

/-! ## VEC_INSTALL (R151) -/

/-- Under R8 the vector table is whole words inside the physical address space. -/
theorem Params.vecTable_of_wellFormed {p : Params} (h : p.wellFormed = true) :
    8 * vecWords p = p.vecSize.toNat ∧ WordsInside (vecWords p) p.vecPhys.toNat := by
  have hvec : p.vecOk = true := by
    simp only [Params.wellFormed, Bool.and_eq_true] at h
    tauto
  refine ⟨?_, wordsInside_vecPhys hvec⟩
  simp only [Params.vecOk, Bool.and_eq_true] at hvec
  have h8 : p.vecSize.toNat % 8 = 0 := by simpa [← BitVec.toNat_inj] using hvec.1.2
  simp only [vecWords]
  omega

/-- Two ranges of `n` words are one and the same or share no byte. -/
def WordsApart (n src dst : Nat) : Prop := src = dst ∨ src + 8 * n ≤ dst ∨ dst + 8 * n ≤ src

/-- A copy between such ranges inside the address space verifies: the target holds the source's bytes, every other byte
stays, and every write is visible (R70, R151). -/
theorem copyVectors_of_apart {s : State} {src : Word} (hm : MemoryCanonical s)
    (hsrc : WordsInside (vecWords s.cfg) src.toNat) (hdst : WordsInside (vecWords s.cfg) s.cfg.vecPhys.toNat)
    (hap : WordsApart (vecWords s.cfg) src.toNat s.cfg.vecPhys.toNat) :
    ∃ m : Memory, copyVectors src s = .proceed { s with mem := m, unseen := [] } ∧
      (∀ k, k < 8 * vecWords s.cfg → m.read (s.cfg.vecPhys.toNat + k) = s.mem.read (src.toNat + k)) ∧
      ∀ b, (b < s.cfg.vecPhys.toNat ∨ s.cfg.vecPhys.toNat + 8 * vecWords s.cfg ≤ b) → m.read b = s.mem.read b := by
  obtain ⟨t, hcopy, ht, -, hcopied, hkept⟩ := copyWords_ok hm hsrc.1 hdst.1 hsrc.2 hdst.2 hap
  have hsame (k : Nat) (hk : k < 8 * vecWords s.cfg) :
      t.mem.read (s.cfg.vecPhys.toNat + k) = t.mem.read (src.toNat + k) := by
    rcases hap with he | hlt | hlt
    · rw [he]
    · rw [hcopied k hk, hkept _ (.inl (by omega))]
    · rw [hcopied k hk, hkept _ (.inr (by omega))]
  refine ⟨t.mem, ?_, hcopied, hkept⟩
  simp only [copyVectors, hcopy, wordsAgree_ok hsrc.1 hdst.1 hsrc.2 hdst.2 hsame, barrier_nonShareable,
    Attempt.bind_proceed, ctxSync_eq]
  rw [ht]

/-- The operand of R151 names whole words inside the physical address space. -/
abbrev VecSourceOk (s : State) : Prop :=
  s.ops.a0.toNat % 8 = 0 ∧ Physical s.ops.a0 ∧ s.ops.a0.toNat + s.cfg.vecSize.toNat ≤ 281474976710656

/-- The source overlaps the target in part (R151). -/
abbrev VecPartialOverlap (s : State) : Prop :=
  s.ops.a0 ≠ s.cfg.vecPhys ∧ s.ops.a0.toNat < s.cfg.vecPhys.toNat + s.cfg.vecSize.toNat ∧
    s.cfg.vecPhys.toNat < s.ops.a0.toNat + s.cfg.vecSize.toNat

theorem vecOverlap_iff {s : State} (hp : s.cfg.wellFormed = true)
    (hin : s.ops.a0.toNat + s.cfg.vecSize.toNat ≤ 281474976710656) :
    vecOverlap s.cfg s.ops.a0 = true ↔ VecPartialOverlap s := by
  obtain ⟨h8, -, hdst⟩ := Params.vecTable_of_wellFormed hp
  rw [h8, physSize] at hdst
  have hsrcEnd : (s.ops.a0 + s.cfg.vecSize).toNat = s.ops.a0.toNat + s.cfg.vecSize.toNat := by
    rw [BitVec.toNat_add]
    omega
  have hdstEnd : (s.cfg.vecPhys + s.cfg.vecSize).toNat = s.cfg.vecPhys.toNat + s.cfg.vecSize.toNat := by
    rw [BitVec.toNat_add]
    omega
  simp only [vecOverlap, VecPartialOverlap, Bool.and_eq_true, bne_iff_ne, overlaps_iff, hsrcEnd, hdstEnd]
  refine and_congr_right fun _ => ?_
  omega

theorem exec_vecInstall_of_refused {s : State} (h : ¬ BeforeEnable s.state ∨ s.vecPhysDone = true) :
    exec .vecInstall s = s.finish .illegalCommand := by
  refine if_pos ?_
  rw [Bool.or_eq_true, bnot_iff (beforeEnable_iff _)]
  exact h

/-- Past the state check: the operand checks, and the copy with the verified write of VBAR after it. -/
theorem exec_vecInstall_eq {s : State} (hp : s.cfg.wellFormed = true) (hb : BeforeEnable s.state)
    (hv : s.vecPhysDone = false) : exec .vecInstall s =
      if ¬ VecSourceOk s ∨ VecPartialOverlap s then s.finish .badOperand
      else ((copyVectors s.ops.a0 s).bind (writeVerify .vbar s.cfg.vecPhys .vbarPhysReadback)).andThen fun s1 =>
        ({ s1 with vecPhysDone := true }.log (vbarMarker s.cfg.vecPhys)).finish .ok := by
  have halign : s.ops.a0.extractLsb' 0 3 = 0#3 ↔ s.ops.a0.toNat % 8 = 0 := by simp [← BitVec.toNat_inj]
  have hphys : isPhys s.ops.a0 = false ↔ ¬ Physical s.ops.a0 := by rw [← Bool.not_eq_true, isPhys_iff]
  have hinside : (!vecSourceInside s.cfg s.ops.a0) = true ↔
      ¬ s.ops.a0.toNat + s.cfg.vecSize.toNat ≤ 281474976710656 := bnot_iff (by simp [vecSourceInside])
  refine Eq.trans (if_neg (by simp [(beforeEnable_iff _).2 hb, hv])) ?_
  simp only [ne_eq, halign, hphys, hinside]
  by_cases hok : VecSourceOk s
  · have hov := vecOverlap_iff hp hok.2.2
    have hchecks : ¬ VecSourceOk s ∨ VecPartialOverlap s ↔ VecPartialOverlap s := or_iff_right (not_not_intro hok)
    simp only [hok, not_true, or_self, if_false, hov, hchecks]
  · refine Eq.trans ?_ (if_pos (.inl hok)).symm
    split_ifs <;> first | rfl | tauto

/-- Settles O51: under R8 the copy runs between whole words inside memory that are one and the same or apart. -/
theorem vecInstallCopiesTheTable : Obligations.VecInstallCopiesTheTable := by
  intro s hm hp
  refine ⟨exec_vecInstall_of_refused, fun hb hv => ?_⟩
  rw [exec_vecInstall_eq hp hb hv]
  refine ⟨fun hbad => if_pos (.inl hbad), fun h8 hin hphys => ⟨fun hne hlt hgt => if_pos (.inr ⟨hne, hlt, hgt⟩), ?_⟩⟩
  intro hapart
  obtain ⟨hwords, hdst⟩ := Params.vecTable_of_wellFormed hp
  have hsrc : WordsInside (vecWords s.cfg) s.ops.a0.toNat := ⟨h8, by rw [hwords]; exact hin⟩
  have hap : WordsApart (vecWords s.cfg) s.ops.a0.toNat s.cfg.vecPhys.toNat := by
    unfold WordsApart
    rw [hwords, ← BitVec.toNat_inj] at *
    omega
  obtain ⟨m, hcopy, hcopied, hkept⟩ := copyVectors_of_apart hm hsrc hdst hap
  rw [hwords] at hcopied hkept
  have hgo : ¬ (¬ VecSourceOk s ∨ VecPartialOverlap s) := by
    rintro (hbad | ⟨hne, hlt, hgt⟩)
    · exact hbad ⟨h8, hphys, hin⟩
    · rcases hapart with he | he | he
      · exact hne he
      · omega
      · omega
  rw [if_neg hgo, hcopy, Attempt.bind_proceed]
  refine ⟨m, hcopied, hkept, fun hl => ?held, fun hl => ?lost⟩
  case held =>
    rw [writeVerify_of_held (s := { s with mem := m, unseen := [] }) _ hl]
    rfl
  case lost =>
    rw [writeVerify_of_not_held (s := { s with mem := m, unseen := [] }) _ hl]
    rfl

/-! ## The order of the nine states (R150) -/

/-- No cause of a halt has the code of Ok (R92, R181). -/
theorem Status.Halting.code_ne {c : Status} (h : c.Halting) : c.code ≠ 0x00#8 := by
  rcases h with rfl | rfl | rfl <;> decide

/-- A halt stands in HALTED with its cause in `fail_cause` and in STATUS (R24, R188). -/
theorem State.halted_records (u : State) (f : FailInfo) {c : Status} (hc : c.Halting) :
    (u.halted c f).state = .halted ∧ (u.halted c f).failCause = (u.halted c f).status ∧
      (u.halted c f).status ≠ 0x00#8 :=
  ⟨rfl, rfl, hc.code_ne⟩

/-- Settles O55: read off the case the operation ends in; every halt records its cause in STATUS too, and none of the
causes is Ok. -/
theorem stateMovesOneStepForwardOrHalts : Obligations.StateMovesOneStepForwardOrHalts := by
  intro i s t h
  have failed (u : State) (f : FailInfo) := u.halted_records f (c := .registerVerificationFailed) (.inr (.inr rfl))
  cases exec_opCase h with
  | data _ hd =>
    rcases hd.ends with hq | ⟨u, c, f, -, rfl, hc⟩
    · exact .inl (by rw [hq])
    · exact .inr (.inl (u.halted_records f hc))
  | sysHalt hs =>
    obtain ⟨r, f, rfl⟩ := hs
    exact .inr (.inl (failed _ f))
  | newPair _ u hu _ he =>
    rcases he with rfl | ⟨p0, p1, rfl⟩
    · exact .inr (.inl (u.halted_records _ (.inl rfl)))
    · have hst : u.state = s.state := by rw [hu]
      exact .inl hst
  | vecInstall _ _ u hu _ he =>
    have hst : u.state = s.state := by rw [hu]
    rcases he with ⟨f, rfl⟩ | ⟨f, rfl⟩ | ⟨-, rfl⟩
    · exact .inr (.inl (failed _ f))
    · exact .inr (.inl (failed _ f))
    · exact .inl hst
  | refused _ he | vecRelocate _ _ he | setPc _ _ he => exact .inl (he ▸ rfl)
  | mair hi h0 he | tcrDual hi h0 he | bases hi h0 _ he | tlbClean hi h0 he | enable hi h0 _ _ _ he | migrate hi h0 _ _ he
  | tcrKernel hi h0 _ _ he | finish hi h0 he =>
    subst he
    exact .inr (.inr (by simp [hi, h0]))

/-! ## DualMapped (R155) -/

/-- The check of one page: both walks give its own frame with the same flags, execution allowed. -/
theorem pageDualMapped_iff (s : State) (p : Word) : pageDualMapped s p = true ↔
    ∃ f, walk s.mem (rootFrame s.identityRoot) p = some { pa := p, flags := f } ∧
      walk s.mem (rootFrame s.kernelRoot) (p + s.cfg.kernelOffset) = some { pa := p, flags := f } ∧
      f.getLsbD 53 = false := by
  simp only [pageDualMapped, State.rootOf]
  rcases walk s.mem (rootFrame s.identityRoot) p with _ | ⟨pi, fi⟩ <;>
    rcases walk s.mem (rootFrame s.kernelRoot) (p + s.cfg.kernelOffset) with _ | ⟨pk, fk⟩
  case some.some =>
    simp only [Bool.and_eq_true, beq_iff_eq, Bool.not_eq_true', Option.some.injEq, Translation.mk.injEq]
    constructor
    · rintro ⟨⟨⟨rfl, rfl⟩, rfl⟩, hx⟩
      exact ⟨_, ⟨rfl, rfl⟩, ⟨rfl, rfl⟩, hx⟩
    · rintro ⟨_, ⟨rfl, rfl⟩, ⟨rfl, rfl⟩, hx⟩
      exact ⟨⟨⟨rfl, rfl⟩, rfl⟩, hx⟩
  all_goals simp

/-- Settles O47: the pages the gate visits are exactly those from TRAMP_START below TRAMP_END. -/
theorem dualMappedChecksEveryTrampolinePage : Obligations.DualMappedChecksEveryTrampolinePage := by
  intro s _
  have hpages : (trampPages s.cfg).all (pageDualMapped s) = true ↔
      ∀ k, s.cfg.trampStart.toNat + 4096 * k < s.cfg.trampEnd.toNat →
        pageDualMapped s (s.cfg.trampStart + BitVec.ofNat 64 (4096 * k)) = true := by
    rw [List.all_eq_true]
    constructor
    · intro h k hk
      exact h _ (List.mem_of_getElem? ((trampPages_getElem? _ k _).2 ⟨hk, rfl⟩))
    · intro h p hp
      obtain ⟨k, hk⟩ := List.mem_iff_getElem?.1 hp
      obtain ⟨hlt, rfl⟩ := (trampPages_getElem? _ _ _).1 hk
      exact h k hlt
  rw [dualMapped, Bool.and_eq_true, hpages]
  simp only [pageDualMapped_iff]

end Sys2Proof.Machine

/-! The failure path and HALTED (R188, R189, R191), and the core's fetches and accesses as an outcome of the run (R63,
R184): what a halt leaves, what a halted machine answers, when a step ends in a translation fault, and why none does
through the transition. -/

namespace Sys2Proof.Machine

/-! ## The halt (R188, R189) -/

/-- Settles O40: the dump is taken after the cause is recorded and before the state moves, so it shows the state the
operation started from. -/
theorem haltRecordsTheCauseAndDumps : Obligations.HaltRecordsTheCauseAndDumps := by
  intro s c f
  refine ⟨?_, rfl, rfl⟩
  rw [State.raiseHalt_eq]
  simp only [State.dumpItems, auditItems, rootWord_eq_setWidth, List.append_assoc, List.cons_append, List.nil_append]
  rfl

/-! ## When nothing is fetched (R184) -/

theorem State.xlatOn_iff (s : State) : s.xlatOn = true ↔ s.sys.sctlr &&& s.cfg.mMask ≠ 0#64 := bne_iff_ne

theorem State.xlatOn_eq_false_iff (s : State) : s.xlatOn = false ↔ s.sys.sctlr &&& s.cfg.mMask = 0#64 :=
  bne_eq_false_iff_eq

/-- With translation off every address may be fetched from, and a halted core fetches nothing. -/
theorem fetchFaults_of_off_or_halted {s : State} (h : s.xlatOn = false ∨ s.state = .halted) : fetchFaults s = false := by
  rcases h with h | h <;> simp [fetchFaults, h]

theorem accessFaults_of_off_or_halted {s : State} (h : s.xlatOn = false ∨ s.state = .halted) (va : Word) (p : Privilege)
    (k : AccessKind) (pick : Nat) : accessFaults s va p k pick = false := by
  rcases h with h | h <;> simp [accessFaults, h]

/-! ## HALTED (R191) -/

/-- The state check of every operation refuses HALTED. -/
theorem exec_of_halted {s : State} (h : s.state = .halted) (i : Instr) : exec i s = s.finish .illegalCommand := by
  cases i with
  | pteEncLeaf | pteEncTable | pteDec | pteSummary | walk | baseOf | getKernelRoot | translate | audit | walkAndReport
  | isTranslationEnabled => exact if_pos h
  | createTable | mapPage | mapRange | register | registerRegion | tlbiLocalAll | setPc => exact if_pos (by rw [h]; rfl)
  | newPair => exact if_pos (by simp [h, TransState.permitsNewPair])
  | vecInstall => exact if_pos (by simp [h, TransState.beforeEnable])
  | fsmMair | fsmTcrDual | fsmBases | fsmTlbClean | fsmEnable | fsmMigrate | fsmTcrKernel | fsmFinish | vecRelocate =>
    exact if_pos (by simp [h])

/-- A halted machine answers every byte alike, whether it decodes or not (R96, R191). -/
theorem step_command_of_halted {s : State} (h : s.state = .halted) {op : Byte} {rest : List Event}
    (ha : s.agenda = .command op :: rest) : step s = (s.advance rest).finish .illegalCommand := by
  have hf : fetchFaults s = false := fetchFaults_of_off_or_halted (.inr h)
  cases hd : decodeOpcode op with
  | none => exact step_of_undecoded hf ha (decode_of_reserved (decodeOpcode_eq_none_iff.1 hd))
  | some i =>
    rw [step_of_decoded hf ha (decode_singleton_eq_ok_iff.2 hd)]
    exact exec_of_halted (s := s.advance rest) h i

/-- The state, the recorded cause and the console of `t` are those of `s`. -/
def FailureKept (s t : State) : Prop :=
  t.state = s.state ∧ t.failCause = s.failCause ∧ t.failInfo = s.failInfo ∧ t.console = s.console

theorem walkerFill_failureKept (va : Word) (picks : List Nat) (s : State) : FailureKept s (walkerFill va picks s) := by
  rw [walkerFill_eq]
  exact ⟨rfl, rfl, rfl, rfl⟩

/-- No step but a reset touches what a halt has recorded. -/
theorem step_of_halted_cases {s t : State} (h : s.state = .halted) (hstep : step s = .next t) :
    FailureKept s t ∨ ∃ v rest, s.agenda = .reset v :: rest := by
  obtain ⟨-, ⟨i, rest, hx⟩ | ⟨rest, rfl⟩ | ⟨rest, o, rfl⟩ | ⟨rest, b, rfl⟩ | ⟨rest, va, picks, rfl⟩ |
    ⟨rest, v, ha, -⟩⟩ := step_cases hstep
  · rw [exec_of_halted (s := s.advance rest) h i] at hx
    obtain rfl := State.finish_next hx
    exact .inl ⟨rfl, rfl, rfl, rfl⟩
  · exact .inl ⟨rfl, rfl, rfl, rfl⟩
  · exact .inl ⟨rfl, rfl, rfl, rfl⟩
  · exact .inl ⟨rfl, rfl, rfl, rfl⟩
  · exact .inl (walkerFill_failureKept va picks (s.advance rest))
  · exact .inr ⟨v, rest, ha⟩

/-- Settles O7: every state check refuses HALTED, and of the environment's events a reset alone writes what a halt has
recorded. -/
theorem haltedAnswersIllegalCommandUntilReset : Obligations.HaltedAnswersIllegalCommandUntilReset := by
  refine fun s h => ⟨rfl, fun op rest => step_command_of_halted h, fun t hstep => ?_⟩
  refine (step_of_halted_cases h hstep).imp_left ?_
  rintro ⟨hstate, hkept⟩
  exact ⟨hstate.trans h, hkept⟩

/-! ## Fetches and accesses that end the run (R63, R184) -/

theorem step_of_fetchFaults {s : State} (hf : fetchFaults s = true) : step s = .fault .translationFault := by
  simp [step, fetch, hf]

/-- An access of the core's own is the whole step, or the end of the run (R63). -/
theorem step_access {s : State} {va : Word} {p : Privilege} {k : AccessKind} {pick : Nat} {rest : List Event}
    (hf : fetchFaults s = false) (ha : s.agenda = .access va p k pick :: rest) :
    step s = if accessFaults s va p k pick then .fault .translationFault else .next (s.advance rest) := by
  have hsame : accessFaults (s.advance rest) va p k pick = accessFaults s va p k pick := rfl
  simp only [step, fetch_of_agenda hf ha, applyEvent, hsame]
  split_ifs <;> rfl

/-- The lookup finds a page whose flags have bit 53 clear: what a fetch needs (R60, R69). -/
abbrev FindsExecutable (s : State) (pick : Nat) (va : Word) : Prop :=
  ∃ pa f, coreTranslate pick s va = some { pa := pa, flags := some f } ∧ f.getLsbD 53 = false

/-- The lookup finds a page whose flags allow the access (R60, R63). -/
abbrev FindsAllowed (s : State) (pick : Nat) (va : Word) (p : Privilege) (k : AccessKind) : Prop :=
  ∃ pa f, coreTranslate pick s va = some { pa := pa, flags := some f } ∧ AccessAllowed f p k

/-- With translation on and the core not halted, exactly an access that no flags allow faults. -/
theorem accessFaults_eq_false_iff {s : State} (hx : s.xlatOn = true) (hh : s.state ≠ .halted) {va : Word}
    {p : Privilege} {k : AccessKind} {pick : Nat} : accessFaults s va p k pick = false ↔ FindsAllowed s pick va p k := by
  rw [FindsAllowed, ← flagsAllow_coreTranslate_iff hx]
  simp [accessFaults, hx, hh]

/-- The check of a step's fetches, in terms of what the lookups find (R184). -/
theorem fetchFaults_eq_false_iff_finds {s : State} (hx : s.xlatOn = true) (hh : s.state ≠ .halted) :
    fetchFaults s = false ↔ FindsExecutable s ((s.lookups.headD []).headD 0) s.pc ∧
      (s.state = .translationOn → ∀ k, s.cfg.trampStart.toNat + 4096 * k < s.cfg.trampEnd.toNat →
        FindsExecutable s ((s.lookups.headD []).tail.getD k 0) (s.cfg.trampStart + BitVec.ofNat 64 (4096 * k))) := by
  simp only [fetchFaults_eq_false_iff hx hh, executable_coreTranslate_iff hx]

/-- A lookup all of whose answers are execute-never finds no page to fetch from. -/
theorem not_findsExecutable {s : State} {pick : Nat} {va : Word}
    (h : ∀ pa f, coreTranslate pick s va = some { pa := pa, flags := some f } → f.getLsbD 53 = true) :
    ¬ FindsExecutable s pick va := by
  rintro ⟨pa, f, hw, hf⟩
  exact Bool.false_ne_true (hf.symm.trans (h pa f hw))

/-- A pick of the walk, a page without entries, or translation off: the answer is the walk's (R62). -/
theorem coreTranslate_eq_hwTranslate {s : State} {pick : Nat} {va : Word}
    (h : pick = 0 ∨ tlbHits s va = [] ∨ s.xlatOn = false) : coreTranslate pick s va = hwTranslate s va := by
  rcases h with rfl | h | h
  · exact coreTranslate_zero s va
  · cases pick <;> simp [coreTranslate, h]
  · simp [coreTranslate, h]

/-- Settles O5: the run goes on exactly where every fetch of the step finds an executable page, and past an access where
flags allow it. -/
theorem untranslatableFetchEndsTheRun : Obligations.UntranslatableFetchEndsTheRun := by
  intro s
  simp only [Ne, ← s.xlatOn_eq_false_iff, Bool.not_eq_false]
  refine ⟨fetchFaults_of_off_or_halted, ?fetch, ?access, fun pick va => coreTranslate_eq_hwTranslate,
    fun hx va k e => coreTranslate_hit hx⟩
  case fetch =>
    rintro hx hh _ _ rfl rfl
    have hiff := fetchFaults_eq_false_iff_finds hx hh
    have ends (h : ¬ fetchFaults s = false) : step s = .fault .translationFault :=
      step_of_fetchFaults (Bool.not_eq_false _ ▸ h)
    refine ⟨fun hpc => ends fun hf => ?_, fun ht k hk hpage => ends fun hf => ?_, hiff⟩
    · exact not_findsExecutable hpc (hiff.1 hf).1
    · exact not_findsExecutable hpage ((hiff.1 hf).2 ht k hk)
  case access =>
    intro va p k pick rest hf ha
    rw [step_access hf ha]
    refine ⟨fun hx hh hnone => if_pos ?_, fun hok => if_neg (Bool.not_eq_true _ ▸ ?_)⟩
    · by_contra hc
      obtain ⟨pa, f, hw, hallowed⟩ := (accessFaults_eq_false_iff hx hh).1 (Bool.not_eq_true _ ▸ hc)
      exact hnone pa f hw hallowed
    · by_cases hoff : s.xlatOn = false ∨ s.state = .halted
      · exact accessFaults_of_off_or_halted hoff va p k pick
      · obtain ⟨hx, hh⟩ := not_or.1 hoff
        exact (accessFaults_eq_false_iff (by simpa using hx) hh).2 ((or_assoc.2 hok).resolve_left hoff)

/-! ## Through the transition (R69, R184) -/

/-- A page-aligned trampoline inside the physical address space (R8). -/
theorem Params.trampoline_of_wellFormed {p : Params} (h : p.wellFormed = true) :
    Aligned p.trampStart ∧ p.trampEnd.toNat ≤ 281474976710656 := by
  have htramp : p.trampOk = true := by
    simp only [Params.wellFormed, Bool.and_eq_true] at h
    tauto
  simp only [Params.trampOk, Bool.and_eq_true, beq_iff_eq, decide_eq_true_eq] at htramp
  obtain ⟨⟨⟨hstart, -⟩, -⟩, hend⟩ := htramp
  exact ⟨(pageAligned_iff _).1 (by simpa [pageAligned] using hstart), hend⟩

/-- The address lies in the trampoline (R145). -/
abbrev InTrampoline (p : Params) (v : Word) : Prop := p.trampStart.toNat ≤ v.toNat ∧ v.toNat < p.trampEnd.toNat

/-- Page `k` of the trampoline starts in it. -/
theorem inTrampoline_pageAt {p : Params} (hp : p.wellFormed = true) {k : Nat}
    (hk : p.trampStart.toNat + 4096 * k < p.trampEnd.toNat) : InTrampoline p (pageAt p.trampStart k) := by
  obtain ⟨-, hend⟩ := Params.trampoline_of_wellFormed hp
  rw [InTrampoline, toNat_pageAt (by omega)]
  omega

/-- An address of the trampoline is on one of its pages. -/
theorem page_of_inTrampoline {p : Params} (hp : p.wellFormed = true) {v : Word} (hv : InTrampoline p v) :
    ∃ k, p.trampStart.toNat + 4096 * k < p.trampEnd.toNat ∧ v &&& ~~~(0xFFF#64) = pageAt p.trampStart k := by
  obtain ⟨hstart, hend⟩ := Params.trampoline_of_wellFormed hp
  obtain ⟨hle, hlt⟩ := hv
  refine ⟨(v.toNat - p.trampStart.toNat) / 4096, by omega, BitVec.eq_of_toNat_eq ?_⟩
  rw [page_toNat, toNat_pageAt (by omega)]
  omega

/-- An address of a page mapped executable is mapped executable, since the page offset takes no part in the walk (R58). -/
theorem walk_executable_of_page {m : Memory} {r : Frame} {v : Word} {w : Translation}
    (hw : walk m r (v &&& ~~~(0xFFF#64)) = some w) (hf : w.flags.getLsbD 53 = false) :
    ∃ w', walk m r v = some w' ∧ w'.flags.getLsbD 53 = false := by
  have hflags := walk_flags_of_page (m := m) (r := r) fun l => (idx_page v l).symm
  rw [hw] at hflags
  obtain ⟨w', hw', he⟩ := Option.map_eq_some_iff.1 hflags
  exact ⟨w', hw', he ▸ hf⟩

/-- Under the gate of R155 the identity tables map every address of the trampoline executable. -/
theorem walk_executable_of_inTrampoline {s : State} (hp : s.cfg.wellFormed = true) (hd : dualMapped s = true) {v : Word}
    (hv : InTrampoline s.cfg v) :
    ∃ w, walk s.mem (rootFrame s.identityRoot) v = some w ∧ w.flags.getLsbD 53 = false := by
  obtain ⟨k, hk, hpage⟩ := page_of_inTrampoline hp hv
  obtain ⟨-, hpages⟩ := (dualMappedChecksEveryTrampolinePage s hp).1 hd
  obtain ⟨f, hw, -, hf⟩ := hpages k hk
  exact walk_executable_of_page ((congrArg (walk s.mem _) hpage).trans hw) hf

/-- With both halves on, the dual-mapped trampoline can be fetched from, whatever the TLB stands in for (R69, R210). -/
theorem executable_of_inTrampoline {s : State} (hp : s.cfg.wellFormed = true) (hx : s.xlatOn = true)
    (htcr : s.sys.tcr = s.cfg.tcrDualValue) (hbases : BasesHeld s) (hd : dualMapped s = true) (hc : TlbCurrent s)
    {v : Word} (hv : InTrampoline s.cfg v) (pick : Nat) : executable (coreTranslate pick s v) = true := by
  obtain ⟨-, hbase, -⟩ := hbases
  obtain ⟨w, hw, hf⟩ := walk_executable_of_inTrampoline hp hd hv
  obtain ⟨-, hend⟩ := Params.trampoline_of_wellFormed hp
  have hlow : isLow v = true := (isLow_iff v).2 (hv.2.trans_le hend)
  have hepd : epd0 s.cfg s.sys.tcr = false := by rw [htcr]; exact (wf_epd hp).1
  exact hc.executable hx hw hf (hwTranslate_low hx hepd hlow hbase)
    (.inl ⟨hlow, by rw [hbase, baddr, frameOf_rootWord]⟩) pick

/-- With the high half on, a `pc` the kernel tables map executable can be fetched from, whatever the TLB stands in for
(R147, R210). -/
theorem executable_of_pcInKernelSpace {s : State} (hx : s.xlatOn = true) (hepd : epd1 s.cfg s.sys.tcr = false)
    (hbases : BasesHeld s) (hk : pcInKernelSpace s = true) (hc : TlbCurrent s) (pick : Nat) :
    executable (coreTranslate pick s s.pc) = true := by
  obtain ⟨-, -, hbase⟩ := hbases
  obtain ⟨hhigh, w, hw, hf⟩ := pcInKernelSpace_iff.1 hk
  exact hc.executable hx hw hf (hwTranslate_high hx hepd hhigh hbase)
    (.inr ⟨hhigh, by rw [hbase, baddr, frameOf_rootWord]⟩) pick

/-- In TRANSLATION_ON `pc` and every trampoline page lie in the dual-mapped trampoline (R155, R184). -/
theorem TransitionSafe.fetch_translationOn {s : State} (h : TransitionSafe s) (h0 : s.state = .translationOn) :
    fetchFaults s = false := by
  obtain ⟨-, ⟨hx, -⟩, -, ⟨htcr, -⟩, hbases, -, hpc⟩ := h.bringUp.holdsAt h0
  obtain ⟨-, hc⟩ := h.tlb (State.between_at h0)
  have hpc : InTrampoline s.cfg s.pc := by simpa [pcInTrampoline] using hpc
  have fetched {v : Word} (hv : InTrampoline s.cfg v) (pick : Nat) : executable (coreTranslate pick s v) = true :=
    executable_of_inTrampoline h.params hx htcr hbases (h.dual h0) hc hv pick
  exact (fetchFaults_eq_false_iff hx (by simp [h0])).2
    ⟨fetched hpc _, fun _ k hk => fetched (inTrampoline_pageAt h.params hk) _⟩

/-- From PC_MIGRATED on the core fetches from `pc` alone, in the half that stays on (R147, R184). -/
theorem TransitionSafe.fetch_high {s : State} (h : TransitionSafe s) (hb : s.between 6 8)
    (hk : pcInKernelSpace s = true) (hc : TlbCurrent s) : fetchFaults s = false := by
  have b := h.bringUp
  have hx : s.xlatOn = true := b.xlatOn (State.between_mono hb (by decide) (by decide))
  have hbases : BasesHeld s := b.bases (State.between_mono hb (by decide) (by decide))
  have hepd : epd1 s.cfg s.sys.tcr = false := by
    obtain ⟨hh, hge, hle⟩ := hb
    rcases Nat.lt_or_ge 6 s.state.rank with hlate | hearly
    · rw [b.tcrKonly ⟨hh, hlate, hle⟩]
      exact (wf_konly h.params).2
    · rw [b.tcrDual ⟨hh, by omega, hearly⟩]
      exact (wf_epd h.params).2
  have hlate : s.state ≠ .translationOn := fun h0 => State.not_between_at h0 (by decide) hb
  exact (fetchFaults_eq_false_iff hx hb.1).2
    ⟨executable_of_pcInKernelSpace hx hepd hbases hk hc _, fun h0 => absurd h0 hlate⟩

/-- Settles O60: nothing is fetched before the enable or in HALTED; after it the fetches are in the trampoline, then at a
high `pc`, and the tables map both executable. -/
theorem fetchIsSafeThroughTheTransition : Obligations.FetchIsSafeThroughTheTransition := by
  intro s h hsteady
  have off (hb : s.between 0 4) : fetchFaults s = false := fetchFaults_of_off_or_halted (.inl (h.bringUp.xlatOff hb))
  have migrated (hb : s.between 6 7) : fetchFaults s = false :=
    h.fetch_high (State.between_mono hb (by decide) (by decide)) (h.kernelPc hb)
      (h.tlb (State.between_mono hb (by decide) (by decide))).2
  cases h0 : s.state with
  | init | mairProgrammed | tcrBootstrapDual | basesLoaded | tlbClean => exact off (State.between_at h0)
  | translationOn => exact h.fetch_translationOn h0
  | pcMigrated | tcrKernelOnly => exact migrated (State.between_at h0)
  | steady =>
    obtain ⟨hk, hc⟩ := hsteady h0
    exact h.fetch_high (State.between_at h0) hk hc
  | halted => exact fetchFaults_of_off_or_halted (.inr h0)

end Sys2Proof.Machine

/-! A reset as an event of the agenda (R46, R200): the values it fixes, whatever it leaves in what the spec does not
specify. -/

namespace Sys2Proof.Machine

/-- A reset is the whole step (R200). -/
theorem step_reset {s : State} {v : ResetValues} {rest : List Event} (hf : fetchFaults s = false)
    (ha : s.agenda = .reset v :: rest) : step s = .next ((s.advance rest).blockReset v) :=
  step_of_moved hf ha rfl

/-- The enable bit is cleared in whatever value `SCTLR` is left with (R200, notes/assumptions/16). -/
theorem State.blockReset_xlatOn (v : ResetValues) (s : State) : (s.blockReset v).xlatOn = false := by
  have hcleared : v.sys.sctlr &&& ~~~s.cfg.mMask &&& s.cfg.mMask = 0#64 := by
    rw [BitVec.and_assoc, BitVec.and_comm (~~~s.cfg.mMask), BitVec.and_not_self]
    exact BitVec.and_zero
  exact (State.xlatOn_eq_false_iff _).2 hcleared

/-- `pc` is a physical address, so low, whichever one it is left with (R46). -/
theorem State.blockReset_pc_low (v : ResetValues) (s : State) : Low (s.blockReset v).pc :=
  calc (rootWord v.pcLow).toNat = v.pcLow.toNat := rootWord_toNat v.pcLow
    _ < 281474976710656 := v.pcLow.isLt

/-- Settles O9: the enable bit, `pc` and the memory depend on the values left by the reset; the rest are the fields of
`State.blockReset`. -/
theorem resetEventGivesTheResetValues : Obligations.ResetEventGivesTheResetValues := by
  intro s v rest hf ha
  have hoff := State.blockReset_xlatOn v (s.advance rest)
  have hlow := State.blockReset_pc_low v (s.advance rest)
  obtain ⟨hwf, -, -⟩ := blockReset_invariants v (s.advance rest)
  exact ⟨_, step_reset hf ha, rfl, rfl, rfl, rfl, rfl, rfl, rfl, rfl, rfl, rfl, rfl, rfl, rfl, hoff, hlow, rfl, rfl,
    rfl, rfl, hwf⟩

end Sys2Proof.Machine
